-- ==== Sys2Proof/Word.lean ====
section
/-! DEFINITION. Word.lean: the machine's words and bytes, and the widths that every chapter of the
manual shares (R3, R11, R70). -/

namespace Sys2Proof

/-- A 64-bit register value. -/
abbrev Word := BitVec 64

/-- A byte of memory. -/
abbrev Byte := BitVec 8

/-- A register field of an instruction: x0 to x31 (R137). -/
abbrev Reg := BitVec 5

/-- A vector register field: v0 to v15 (R143). -/
abbrev VReg := BitVec 4

/-- A mask field: m0 to m7 (R143). -/
abbrev MReg := BitVec 3

/-- One 64-byte row of a vector register (R257). -/
abbrev Row := BitVec 512

end Sys2Proof
end

