-- ==== Sys2Proof/Config.lean ====
section
/-! DEFINITION. Config.lean: the constants that PD-9160-M fixes, and the FREE VALUES: constants without a
body, which stand for what the manual leaves open. No proof can see a value of a free constant. -/

namespace Sys2Proof.Config

/-- R10: compute dies. -/
def dies : Nat := 4
/-- R11, R12: clusters of a die. -/
def clustersPerDie : Nat := 8
/-- R11, R12: barrel cores of a cluster. -/
def coresPerCluster : Nat := 256
/-- R20: contexts of a barrel core. -/
def ctxPerCore : Nat := 16
/-- R10, R14: clusters of the package. -/
def clusters : Nat := 32
/-- R14: barrel cores of the package. -/
def cores : Nat := 8192
/-- R14: barrel contexts of the package. -/
def contexts : Nat := 131072
/-- R10: hub cores. -/
def hubs : Nat := 64
/-- Agents that execute instructions: the barrel contexts by package index, then the hub cores. -/
def agents : Nat := 131136
/-- R80: entries of a store buffer. -/
def storeBuffer : Nat := 8
/-- R470: accesses that a context keeps outstanding. -/
def outstanding : Nat := 8
/-- R55: entries of a command window. -/
def window : Nat := 32
/-- R39: entries of a core's queue RAM. -/
def queueRam : Nat := 2048
/-- R52: records of a cluster's launch queue. -/
def launchQueue : Nat := 512
/-- R52: handles of a core's launch-handle queue. -/
def handleQueue : Nat := 64
/-- R425: messages that the reorder buffer of an endpoint holds. -/
def reorder : Nat := 1024
/-- R225: records of a cluster's replay buffer. -/
def replayBuffer : Nat := 256
/-- R382: entries of a core's trap queue. -/
def trapQueue : Nat := 64
/-- R309: settings of a setting buffer. -/
def settings : Nat := 16
/-- R12: kilns, and pugs, of a cluster. -/
def kilns : Nat := 16
/-- R12: pugs of a cluster. -/
def pugs : Nat := 16
/-- R328: rows of a pug's hot-row cache. -/
def hotRows : Nat := 64
/-- R173: cycles a reservation lasts. -/
def resvCycles : Nat := 4096
/-- R175: cycles within which a failed context's lr takes priority. -/
def qualCycles : Nat := 256
/-- R175: cycles a priority reservation lasts. -/
def prioCycles : Nat := 64
/-- R12: lines of a core's L1 instruction cache: 32 KiB of 128-byte lines. -/
def icacheLines : Nat := 256
/-- R414: entries of an L1 TLB. -/
def l1Tlb : Nat := 64
/-- R414: entries of a cluster's L2 TLB. -/
def l2Tlb : Nat := 4096
/-- R414: lines of a die's walk cache (the hub's holds 1,024). -/
def walkCache : Nat := 16384
/-- R414: lines of the hub's walk cache. -/
def hubWalkCache : Nat := 1024
/-- R312: bytes of pinned lines a cluster may hold. -/
def pinBytes : Nat := 67108864
/-- R448: the link-retraining bound RTRAIN of PD-9160-M. -/
def rtrain : Nat := 36000
/-- R69: bytes of device memory homed on one compute die. -/
def dieBytes : Nat := 137438953472

/-- FREE VALUE (log entry 1): the n-th value the manual leaves open. -/
opaque freeWord : Nat → BitVec 64
/-- FREE VALUE (log entry 2): cycles beyond the rotation floor that pass before the n-th turn no list of turns fixes. -/
opaque freeGap : Nat → Nat
/-- FREE VALUE (log entry 60): lines beyond the first that the hub's tier-two directory holds (R427). -/
opaque tier2Lines : Nat

end Sys2Proof.Config
end

