-- ==== Sys2Proof/Syntax.lean ====
section
/-! DEFINITION. Syntax.lean: the instructions and events of the PD-9160-M, one constructor for each row of the
opcode table. A word's fields are typed; register numbers, scopes, orders, formats and modes are names. Events
(R24 onward) carry what comes from outside the machine as arguments. -/

namespace Sys2Proof

/-- R87: the members of a scope, by code 0 to 4. -/
inductive Scope where
  | core | clus | die | pkg | sys
  deriving DecidableEq, Repr

/-- R88: the order of a scoped access. -/
inductive Order where
  | rlx | aq | rl | ar
  deriving DecidableEq, Repr

/-- R421, R422: what a host snoop of a half asks: that the device gives it up, that it keeps a shared copy at most, or its current value only
(log entry 82). -/
inductive Snoop where
  | inv | data | cur
  deriving DecidableEq, Repr

/-- R421, R423, R427, R428: what is asked from outside of device memory at an address. `cxl`: the host writes a half, whose number stands for the address,
through CXL.mem, and may hold it afterwards, exclusively or not; the others are unordered I/O of a peer: a read or a write of 1 to 128 bytes of a line,
and an operation packet, with its bytes after the address. -/
inductive MemOp where
  | cxl (hold : Option Bool) (data : Option (BitVec 512))
  | uioRead (n : Nat)
  | uioWrite (bytes : List Byte)
  | packet (rest : List Byte)
  deriving DecidableEq, Repr

/-- R119: the rounding modes; `sto` is stochastic, `dyn` is resolved through `frm` or `vrm`. -/
inductive RMode where
  | rne | rtz | rdn | rup | rmm | sto | dyn
  deriving DecidableEq, Repr

/-- R144: the element formats of vector instructions. -/
inductive VFmt where
  | f32 | bf16 | f16 | e4m3 | e5m2 | i8 | i16 | i32
  deriving DecidableEq, Repr

/-- R147: the element size of a vector memory instruction. -/
inductive Esz where
  | e8 | e16 | e32
  deriving DecidableEq, Repr

/-- R453: where an uncorrectable error lies. -/
inductive EccSite where
  /-- a clean copy of a line at its L2 home -/
  | cleanCopy (die : Nat)
  /-- a half of a line in a core's L1 data cache, and a line in its instruction cache -/
  | l1Copy (core half : Nat)
  | icacheCopy (core line : Nat)
  /-- a line in a die's remote-cache region -/
  | remoteCopy (die line : Nat)
  /-- a line in the walk cache of a die, or, for die 4, of the hub -/
  | walkCopy (die line : Nat)
  /-- entry i of the TLB of a core, a cluster or a hub core -/
  | coreTlb (core i : Nat)
  | clusterTlb (cluster i : Nat)
  | hubTlb (hub i : Nat)
  /-- the only modified copy of a line -/
  | modifiedLine (line : Nat)
  /-- an HBM line with no valid cached copy -/
  | hbmLine (line : Nat)
  /-- the scratchpad word that holds a byte address of the cluster memories -/
  | scratchpad (addr : Nat)
  /-- an entry of the queue at a position of the list of live queues, counted from its head -/
  | queueEntry (queue pos : Nat)
  /-- an entry of q6 or q7 of a core, counted from its head -/
  | handle (core pos : Nat)
  | trapEntry (core pos : Nat)
  /-- registers, rows, masks or CSRs of a context -/
  | context (agent : Nat)
  /-- the datapath of a kiln -/
  | kiln (cluster kiln : Nat)
  /-- the datapath of a pug -/
  | pug (cluster pug : Nat)
  deriving DecidableEq, Repr

/-- R5, R449: a register that a write reaches without a row of its own. -/
inductive RegTarget where
  /-- a CSR of an agent -/
  | csr (agent : Nat) (num : BitVec 12)
  /-- a doubleword of a partition's management window -/
  | mgmt (part off : Nat)
  /-- RTENTRY of a partition's runtime capability record -/
  | rtentry (part : Nat)
  /-- the base of a partition's HDM decoder -/
  | hdmBase (part : Nat)
  /-- R68, R427: a window of a partition's address decoder (kind 0 private tier two, 1 shared tier two, 2 peer) behind a port; the value's
  bit 0 switches it on or off -/
  | window (part base len kind port : Nat)
  /-- the base of a partition's management window -/
  | mgBase (part : Nat)
  /-- R429: the address space that the host driver assigns to a hub core -/
  | hubSpace (hub : Nat)
  /-- the remote-cache region of a die, in steps of 32 MiB -/
  | remoteRegion (die : Nat)
  /-- R392: how many page requests of a partition the host lets be outstanding -/
  | pageAlloc (part : Nat)
  deriving DecidableEq, Repr

/-- The instructions and events of the opcode table, in the table's order. -/
inductive Instr where
  -- R169: loads and stores
  | lb (rd rs1 : Reg) (imm : BitVec 12)
  | lh (rd rs1 : Reg) (imm : BitVec 12)
  | lw (rd rs1 : Reg) (imm : BitVec 12)
  | ld (rd rs1 : Reg) (imm : BitVec 12)
  | lbu (rd rs1 : Reg) (imm : BitVec 12)
  | lhu (rd rs1 : Reg) (imm : BitVec 12)
  | lwu (rd rs1 : Reg) (imm : BitVec 12)
  | sb (rs2 rs1 : Reg) (imm : BitVec 12)
  | sh (rs2 rs1 : Reg) (imm : BitVec 12)
  | sw (rs2 rs1 : Reg) (imm : BitVec 12)
  | sd (rs2 rs1 : Reg) (imm : BitVec 12)
  -- R167: branches and jumps; `off` is the byte offset without its zero bit
  | beq (rs1 rs2 : Reg) (off : BitVec 12)
  | bne (rs1 rs2 : Reg) (off : BitVec 12)
  | blt (rs1 rs2 : Reg) (off : BitVec 12)
  | bge (rs1 rs2 : Reg) (off : BitVec 12)
  | bltu (rs1 rs2 : Reg) (off : BitVec 12)
  | bgeu (rs1 rs2 : Reg) (off : BitVec 12)
  | jal (rd : Reg) (off : BitVec 20)
  | jalr (rd rs1 : Reg) (imm : BitVec 12)
  | lui (rd : Reg) (imm : BitVec 20)
  | auipc (rd : Reg) (imm : BitVec 20)
  -- R167: integer arithmetic
  | addi (rd rs1 : Reg) (imm : BitVec 12)
  | slti (rd rs1 : Reg) (imm : BitVec 12)
  | sltiu (rd rs1 : Reg) (imm : BitVec 12)
  | xori (rd rs1 : Reg) (imm : BitVec 12)
  | ori (rd rs1 : Reg) (imm : BitVec 12)
  | andi (rd rs1 : Reg) (imm : BitVec 12)
  | slli (rd rs1 : Reg) (sh : BitVec 6)
  | srli (rd rs1 : Reg) (sh : BitVec 6)
  | srai (rd rs1 : Reg) (sh : BitVec 6)
  | addiw (rd rs1 : Reg) (imm : BitVec 12)
  | slliw (rd rs1 : Reg) (sh : BitVec 5)
  | srliw (rd rs1 : Reg) (sh : BitVec 5)
  | sraiw (rd rs1 : Reg) (sh : BitVec 5)
  | add (rd rs1 rs2 : Reg)
  | sub (rd rs1 rs2 : Reg)
  | sll (rd rs1 rs2 : Reg)
  | slt (rd rs1 rs2 : Reg)
  | sltu (rd rs1 rs2 : Reg)
  | xor (rd rs1 rs2 : Reg)
  | srl (rd rs1 rs2 : Reg)
  | sra (rd rs1 rs2 : Reg)
  | or (rd rs1 rs2 : Reg)
  | and (rd rs1 rs2 : Reg)
  | mul (rd rs1 rs2 : Reg)
  | mulh (rd rs1 rs2 : Reg)
  | mulhsu (rd rs1 rs2 : Reg)
  | mulhu (rd rs1 rs2 : Reg)
  | div (rd rs1 rs2 : Reg)
  | divu (rd rs1 rs2 : Reg)
  | rem (rd rs1 rs2 : Reg)
  | remu (rd rs1 rs2 : Reg)
  | addw (rd rs1 rs2 : Reg)
  | subw (rd rs1 rs2 : Reg)
  | sllw (rd rs1 rs2 : Reg)
  | srlw (rd rs1 rs2 : Reg)
  | sraw (rd rs1 rs2 : Reg)
  | mulw (rd rs1 rs2 : Reg)
  | divw (rd rs1 rs2 : Reg)
  | divuw (rd rs1 rs2 : Reg)
  | remw (rd rs1 rs2 : Reg)
  | remuw (rd rs1 rs2 : Reg)
  -- R171: A extension; `d` selects the doubleword form
  | lr (rd rs1 : Reg) (aq rl d : Bool)
  | sc (rd rs2 rs1 : Reg) (aq rl d : Bool)
  | amoswap (rd rs2 rs1 : Reg) (aq rl d : Bool)
  | amoadd (rd rs2 rs1 : Reg) (aq rl d : Bool)
  | amoxor (rd rs2 rs1 : Reg) (aq rl d : Bool)
  | amoand (rd rs2 rs1 : Reg) (aq rl d : Bool)
  | amoor (rd rs2 rs1 : Reg) (aq rl d : Bool)
  | amomin (rd rs2 rs1 : Reg) (aq rl d : Bool)
  | amomax (rd rs2 rs1 : Reg) (aq rl d : Bool)
  | amominu (rd rs2 rs1 : Reg) (aq rl d : Bool)
  | amomaxu (rd rs2 rs1 : Reg) (aq rl d : Bool)
  -- R176: single precision in the x registers
  | fmaddS (rd rs1 rs2 rs3 : Reg) (rm : RMode)
  | fmsubS (rd rs1 rs2 rs3 : Reg) (rm : RMode)
  | fnmsubS (rd rs1 rs2 rs3 : Reg) (rm : RMode)
  | fnmaddS (rd rs1 rs2 rs3 : Reg) (rm : RMode)
  | faddS (rd rs1 rs2 : Reg) (rm : RMode)
  | fsubS (rd rs1 rs2 : Reg) (rm : RMode)
  | fmulS (rd rs1 rs2 : Reg) (rm : RMode)
  | fdivS (rd rs1 rs2 : Reg) (rm : RMode)
  | fsqrtS (rd rs1 : Reg) (rm : RMode)
  | fsgnjS (rd rs1 rs2 : Reg)
  | fsgnjnS (rd rs1 rs2 : Reg)
  | fsgnjxS (rd rs1 rs2 : Reg)
  | fminS (rd rs1 rs2 : Reg)
  | fmaxS (rd rs1 rs2 : Reg)
  | feqS (rd rs1 rs2 : Reg)
  | fltS (rd rs1 rs2 : Reg)
  | fleS (rd rs1 rs2 : Reg)
  | fcvtWS (rd rs1 : Reg) (rm : RMode)
  | fcvtWuS (rd rs1 : Reg) (rm : RMode)
  | fcvtLS (rd rs1 : Reg) (rm : RMode)
  | fcvtLuS (rd rs1 : Reg) (rm : RMode)
  | fcvtSW (rd rs1 : Reg) (rm : RMode)
  | fcvtSWu (rd rs1 : Reg) (rm : RMode)
  | fcvtSL (rd rs1 : Reg) (rm : RMode)
  | fcvtSLu (rd rs1 : Reg) (rm : RMode)
  | fclassS (rd rs1 : Reg)
  -- R178, R186: CSRs and system
  | csrrw (rd rs1 : Reg) (csr : BitVec 12)
  | csrrs (rd rs1 : Reg) (csr : BitVec 12)
  | csrrc (rd rs1 : Reg) (csr : BitVec 12)
  | csrrwi (rd : Reg) (uimm : BitVec 5) (csr : BitVec 12)
  | csrrsi (rd : Reg) (uimm : BitVec 5) (csr : BitVec 12)
  | csrrci (rd : Reg) (uimm : BitVec 5) (csr : BitVec 12)
  | fence (rd rs1 : Reg) (fm pred succ : BitVec 4)
  | fenceI (rd rs1 : Reg) (imm : BitVec 12)
  | ecall
  | ebreak
  | sret
  | wfi
  -- R192 to R201: queue instructions; `k` is the number of the end
  | qTok (k : BitVec 3) (lvl : BitVec 3)
  | qCnt (rd : Reg) (k : BitVec 3)
  | qPeek (rd : Reg) (k : BitVec 3)
  | qTag (rd : Reg) (k : BitVec 3)
  | qClose (k : BitVec 3)
  | qBind (rd rs1 rs2 : Reg)
  | qUnbind (rd rs1 : Reg)
  | qBt (k : BitVec 3) (lvl : BitVec 3) (off : BitVec 13)
  -- R202 to R213: contexts and events
  | ctxStart (rd rs1 : Reg)
  | ctxReap (rs1 rs2 : Reg)
  | ctxResume (rs1 : Reg)
  | ctxPark
  | ctxExit
  | ctxSelf (rd : Reg)
  | evSet (rs1 rs2 : Reg)
  | evClr (rs1 rs2 : Reg)
  | evWait (rs1 : Reg)
  | evWaitm (rs1 rs2 : Reg)
  | evRd (rd rs1 rs2 : Reg)
  -- R214 to R219: cones
  | cnInit (rs1 rs2 : Reg)
  | cnArrive (rs1 rs2 : Reg)
  | cnDrop (rs1 rs2 : Reg)
  | cnJoin (rd rs1 : Reg)
  | cnWait (rd rs1 rs2 : Reg)
  | cnTry (rd rs1 rs2 : Reg)
  | cnStat (rd rs1 : Reg)
  -- R221 to R231: launches and tensor records
  | lnPost (rs1 : Reg)
  | lnHash (rs1 rs2 : Reg)
  | lnRep (rd rs1 : Reg)
  | lnSnap (rs1 rs2 : Reg)
  | lnReplay (rs1 rs2 : Reg)
  | lnQuiet (rs1 : Reg)
  | tidSet (rs1 rs2 : Reg)
  | tidDrop (rs1 : Reg)
  | tidGet (rs1 rs2 : Reg)
  -- R322 to R336: pugs and patch
  | pgOpen (rd rs1 rs2 : Reg)
  | pgClose (rd rs1 : Reg)
  | pgStat (rd rs1 : Reg)
  | pxRun (rd rs1 rs2 rs3 : Reg) (slot : BitVec 2)
  | pxLoad (slot : BitVec 2) (rs1 : Reg)
  -- R238 to R253: scoped memory and cache; `sz` is the log of the size
  | mld (rd rs1 : Reg) (off : BitVec 5) (sz : BitVec 2) (ord : Order) (sc : Scope)
  | mst (rs2 rs1 : Reg) (off : BitVec 5) (sz : BitVec 2) (ord : Order) (sc : Scope)
  | mfence (sc : Scope)
  | clFlush (rs1 : Reg)
  | clClean (rs1 : Reg)
  | clZero (rs1 : Reg)
  | clPref (rs1 : Reg)
  | clInval (rs1 : Reg)
  | tcIssue (rs1 : Reg)
  | tcIssuev (vs : VReg)
  -- R243: device atomics
  | xamAdd (rd rs2 rs1 : Reg) (ord : Order) (d : Bool) (sc : Scope)
  | xamAnd (rd rs2 rs1 : Reg) (ord : Order) (d : Bool) (sc : Scope)
  | xamOr (rd rs2 rs1 : Reg) (ord : Order) (d : Bool) (sc : Scope)
  | xamXor (rd rs2 rs1 : Reg) (ord : Order) (d : Bool) (sc : Scope)
  | xamMin (rd rs2 rs1 : Reg) (ord : Order) (d : Bool) (sc : Scope)
  | xamMax (rd rs2 rs1 : Reg) (ord : Order) (d : Bool) (sc : Scope)
  | xamMinu (rd rs2 rs1 : Reg) (ord : Order) (d : Bool) (sc : Scope)
  | xamMaxu (rd rs2 rs1 : Reg) (ord : Order) (d : Bool) (sc : Scope)
  | xamSwap (rd rs2 rs1 : Reg) (ord : Order) (d : Bool) (sc : Scope)
  | xamCas (rd rs2 rs1 : Reg) (ord : Order) (d : Bool) (sc : Scope)
  | xamFadd (rd rs2 rs1 : Reg) (ord : Order) (sc : Scope)
  | xamBfadd2 (rd rs2 rs1 : Reg) (ord : Order) (sc : Scope)
  -- R271 to R275: vector arithmetic
  | vadd (vd vs1 vs2 : VReg) (m : MReg) (ty : VFmt) (pace : BitVec 2) (nf : Bool)
  | vsub (vd vs1 vs2 : VReg) (m : MReg) (ty : VFmt) (pace : BitVec 2) (nf : Bool)
  | vmul (vd vs1 vs2 : VReg) (m : MReg) (ty : VFmt) (pace : BitVec 2) (nf : Bool)
  | vfma (vd vs1 vs2 : VReg) (m : MReg) (ty : VFmt) (pace : BitVec 2) (nf : Bool)
  | vfms (vd vs1 vs2 : VReg) (m : MReg) (ty : VFmt) (pace : BitVec 2) (nf : Bool)
  | vfnma (vd vs1 vs2 : VReg) (m : MReg) (ty : VFmt) (pace : BitVec 2) (nf : Bool)
  | vmin (vd vs1 vs2 : VReg) (m : MReg) (ty : VFmt) (pace : BitVec 2) (nf : Bool)
  | vmax (vd vs1 vs2 : VReg) (m : MReg) (ty : VFmt) (pace : BitVec 2) (nf : Bool)
  | vand (vd vs1 vs2 : VReg) (m : MReg) (ty : VFmt) (pace : BitVec 2) (nf : Bool)
  | vor (vd vs1 vs2 : VReg) (m : MReg) (ty : VFmt) (pace : BitVec 2) (nf : Bool)
  | vxor (vd vs1 vs2 : VReg) (m : MReg) (ty : VFmt) (pace : BitVec 2) (nf : Bool)
  | vshl (vd vs1 vs2 : VReg) (m : MReg) (ty : VFmt) (pace : BitVec 2) (nf : Bool)
  | vshr (vd vs1 vs2 : VReg) (m : MReg) (ty : VFmt) (pace : BitVec 2) (nf : Bool)
  | vsra (vd vs1 vs2 : VReg) (m : MReg) (ty : VFmt) (pace : BitVec 2) (nf : Bool)
  | vdot2 (vd vs1 vs2 : VReg) (m : MReg) (ty : VFmt) (pace : BitVec 2) (nf : Bool)
  | vabs (vd vs1 : VReg) (m : MReg) (ty : VFmt) (pace : BitVec 2) (nf : Bool)
  | vneg (vd vs1 : VReg) (m : MReg) (ty : VFmt) (pace : BitVec 2) (nf : Bool)
  | vrcp (vd vs1 : VReg) (m : MReg) (ty : VFmt) (pace : BitVec 2) (nf : Bool)
  | vrsq (vd vs1 : VReg) (m : MReg) (ty : VFmt) (pace : BitVec 2) (nf : Bool)
  | vexp2 (vd vs1 : VReg) (m : MReg) (ty : VFmt) (pace : BitVec 2) (nf : Bool)
  | vlog2 (vd vs1 : VReg) (m : MReg) (ty : VFmt) (pace : BitVec 2) (nf : Bool)
  -- R266: vector memory
  | vld (vd : VReg) (rs1 : Reg) (m : MReg) (e : Esz)
  | vlds (vd : VReg) (rs1 rs2 : Reg) (m : MReg) (e : Esz)
  | vldx (vd : VReg) (rs1 : Reg) (vi : VReg) (m : MReg) (e : Esz)
  | vst (vs : VReg) (rs1 : Reg) (m : MReg) (e : Esz)
  | vsts (vs : VReg) (rs1 rs2 : Reg) (m : MReg) (e : Esz)
  | vstx (vs : VReg) (rs1 : Reg) (vi : VReg) (m : MReg) (e : Esz)
  -- R276 to R285: compare, select, move, convert, reduce, masks, requantise
  | vcmpEq (md : MReg) (vs1 vs2 : VReg) (m : MReg) (ty : VFmt) (pace : BitVec 2) (nf : Bool)
  | vcmpLt (md : MReg) (vs1 vs2 : VReg) (m : MReg) (ty : VFmt) (pace : BitVec 2) (nf : Bool)
  | vcmpNe (md : MReg) (vs1 vs2 : VReg) (m : MReg) (ty : VFmt) (pace : BitVec 2) (nf : Bool)
  | vcmpLe (md : MReg) (vs1 vs2 : VReg) (m : MReg) (ty : VFmt) (pace : BitVec 2) (nf : Bool)
  | vsel (vd vs1 vs2 : VReg) (m : MReg) (ty : VFmt) (pace : BitVec 2) (nf : Bool)
  | vcvt (vd vs1 : VReg) (m : MReg) (ty sty : VFmt) (sat : Bool) (pace : BitVec 2) (nf : Bool)
  | vbcast (vd : VReg) (rs1 : Reg) (ty : VFmt) (pace : BitVec 2)
  | vmvxToX (rd : Reg) (vs : VReg) (rs2 : Reg) (ty : VFmt) (pace : BitVec 2)
  | vmvxToV (vd : VReg) (rs1 rs2 : Reg) (ty : VFmt) (pace : BitVec 2)
  | vshape (rd rs1 : Reg) (ty : VFmt) (pace : BitVec 2)
  | vmvv (vd vs1 : VReg) (m : MReg) (ty : VFmt) (pace : BitVec 2) (nf : Bool)
  | vperm (vd vs1 vs2 : VReg) (m : MReg) (ty : VFmt) (pace : BitVec 2) (nf : Bool)
  | vredSum (vd vs1 : VReg) (m : MReg) (ty : VFmt) (pace : BitVec 2) (nf : Bool)
  | vredMax (vd vs1 : VReg) (m : MReg) (ty : VFmt) (pace : BitVec 2) (nf : Bool)
  | vredMin (vd vs1 : VReg) (m : MReg) (ty : VFmt) (pace : BitVec 2) (nf : Bool)
  | mand (md ma mb : MReg)
  | mor (md ma mb : MReg)
  | mxor (md ma mb : MReg)
  | mnot (md ma : MReg)
  | mpop (rd : Reg) (ma : MReg)
  | mfirst (rd : Reg) (ma : MReg)
  | mset (md : MReg) (rs1 : Reg)
  | vbqAddrq (vd vs1 vs2 : VReg) (ty : VFmt) (pace : BitVec 2) (nf : Bool)
  -- R386: supervisor device space
  | cxRd (rd rs1 : Reg)
  | cxWr (rs1 rs2 : Reg)
  | ownSet (rs1 rs2 : Reg)
  | ownGet (rd rs1 : Reg)
  | pmReq (rd rs1 rs2 : Reg)
  | pmLoad (rd rs1 : Reg)
  | escRes (rs1 : Reg)
  -- R149
  | hint (rd rs1 : Reg) (h : BitVec 12)
  -- R298 to R306: tile commands, at the setting buffer or the tile data path
  | mma (agent entry : Nat)
  | mmaSp (agent entry : Nat)
  | copy (cluster : Nat)
  | conv (cluster : Nat)
  | fill (cluster : Nat)
  | glaze (agent entry : Nat)
  -- events of the execution model
  | contextRejoin (agent : Nat)
  | coilPopRequest (agent : Nat) (k : BitVec 3)
  | coilPushArrival (id : Nat)
  | tokenCopyDelivery (queue : Nat)
  | balancerReplicaPost (cluster inst : Nat)
  | balancerRequest (id : Nat)
  | launchRecordAccept (id : Nat)
  | launchDispatch (cluster : Nat)
  | replayBufferPost (cluster : Nat)
  | windowSend (agent : Nat)
  | commandComplete (cluster id : Nat)
  | coneArrival (id : Nat)
  | coneJoin (id : Nat)
  | coneInit (id : Nat)
  | coneTimeout (cluster cone : Nat)
  | draw (part group : Nat)
  -- events of memory
  | storeBufferLeave (agent : Nat)
  | readFill (agent line : Nat)
  | homeWritePerformed (id : Nat)
  | homeAtomic (id : Nat)
  | remoteInvalidation (id die : Nat)
  | invalidationAck (id die : Nat)
  | reservationExpiry (agent : Nat)
  | priorityReservationEnd (block : Nat)
  | qualificationLapse (agent : Nat)
  | offlineReply (id : Nat)
  | operationPacketCompletion (id : Nat) (ok : Bool) (old : Word)
  -- events of tile commands, kilns and pugs
  | settingFire (cluster slot : Nat)
  | bufferReentryAccept (cluster : Nat)
  | settingDispatch (cluster kiln : Nat)
  | firingStart (cluster kiln : Nat)
  | firingEnd (cluster kiln : Nat)
  | commandPageResponse (id : Nat) (code : BitVec 8)
  | glazeLoadPerformed (cluster table : Nat)
  | pugLookup (cluster pug : Nat)
  | pugRowFetch (cluster pug row : Nat)
  | pugBagClose (cluster pug : Nat)
  | pugPageResponse (id : Nat) (code : BitVec 8)
  -- events of translation and the host
  | scoutStop (agent : Nat)
  | pageRequestGroup (id : Nat)
  | pageResponse (id : Nat) (code : BitVec 8)
  | hostSnoop (half : Nat) (kind : Snoop)
  | sweepAck (id cluster : Nat)
  | sweepComplete (id : Nat)
  | cxlCacheResponse (half : Nat) (data : BitVec 512)
  | bisnpResponse (half : Nat) (dirty : Option (BitVec 512))
  | hostCxlMemRequest (part addr : Nat) (op : MemOp)
  -- events of traps, interrupts and pre-emption
  | trapRecordPush (core : Nat)
  | interruptRecordPush (core : Nat)
  | hubInterruptTaken (hub : Nat)
  | stimecmpMatch (agent : Nat)
  | doorbell (agent : Nat) (word : Word)
  | preemptSave (id core : Nat)
  | preemptComplete (id : Nat)
  | rqjobWrite (hub : Nat) (v : Word)
  | rqenWrite (hub : Nat) (v : Word)
  | reduceTokenDelivery (hub : Nat)
  -- events of bring-up, reset, errors, debug and power
  | ptcfgWrite (v : Word)
  | coldReset
  | runtimeGo (part : Nat)
  | hlpost (part : Nat) (v : Word)
  | coreReset (core : Nat)
  | dieWarmReset (die : Nat)
  | dieOffline (die : Nat)
  | dieRetrained (die : Nat)
  | dieReady (die : Nat)
  | eccCorrected (die : Nat)
  | eccUncorrectable (site : EccSite)
  | halt (part : Nat)
  | resume (part : Nat)
  | step (part : Nat)
  | dbgdataWrite (part : Nat) (v : Word)
  | powerEstimate (die : Nat) (exceeds : Bool)
  | heatFluxLimit (die : Nat)
  | hostLinkDown (part : Nat)
  | uioCompletionTimeout (id : Nat)
  -- register writes
  | sspwinWrite (agent : Nat) (v : Word)
  | slscfgWrite (agent : Nat) (v : Word)
  | drawdlyWrite (agent : Nat) (v : Word)
  | scctlWrite (agent : Nat) (v : Word)
  | holdWrite (agent : Nat) (p : BitVec 3) (v : Word)
  | walkFormatWrite (agent : Nat) (r : BitVec 3) (v : Word)
  | stimecmpWrite (agent : Nat) (v : Word)
  | ssipWrite (agent : Nat) (v : Word)
  | vseedWrite (agent : Nat) (v : Word)
  | registerWrite (target : RegTarget) (v : Word)
  -- fetch
  | illegalInstruction (w : BitVec 32)
  | instructionFetchFault
  | uioCompletion (id : Nat) (ok : Bool) (data : BitVec 1024)
  | pageRequestReenable (part : Nat)
  deriving DecidableEq, Repr

end Sys2Proof
end

