-- ==== Sys2Proof/WellFormed.lean ====
section
/-! DEFINITION. WellFormed.lean: which terms of `Instr` stand for an instruction the manual has: the formats of R270 and R284,
the register classes of R139 and R149, levels (R138), and the units that the package has (R10 to R12). -/

namespace Sys2Proof

/-- R270: floating formats with their own arithmetic, and integers. -/
def VFmt.isArith : VFmt → Bool
  | .e4m3 | .e5m2 => false
  | _ => true

/-- R270: fp32, bf16, fp16. -/
def VFmt.isFused : VFmt → Bool
  | .f32 | .bf16 | .f16 => true
  | _ => false

/-- R270: int8, int16, int32. -/
def VFmt.isInt : VFmt → Bool
  | .i8 | .i16 | .i32 => true
  | _ => false

/-- R270, R284: the instruction accepts its format. -/
def formatOk : Instr → Bool
  | .vadd _ _ _ _ ty _ _ | .vsub _ _ _ _ ty _ _ | .vmul _ _ _ _ ty _ _ | .vmin _ _ _ _ ty _ _ | .vmax _ _ _ _ ty _ _ => ty.isArith
  | .vabs _ _ _ ty _ _ | .vneg _ _ _ ty _ _ => ty.isArith
  | .vcmpEq _ _ _ _ ty _ _ | .vcmpLt _ _ _ _ ty _ _ | .vcmpNe _ _ _ _ ty _ _ | .vcmpLe _ _ _ _ ty _ _ => ty.isArith
  | .vredSum _ _ _ ty _ _ | .vredMax _ _ _ ty _ _ | .vredMin _ _ _ ty _ _ => ty.isArith
  | .vfma _ _ _ _ ty _ _ | .vfms _ _ _ _ ty _ _ | .vfnma _ _ _ _ ty _ _ => ty.isFused
  | .vrcp _ _ _ ty _ _ | .vrsq _ _ _ ty _ _ | .vexp2 _ _ _ ty _ _ | .vlog2 _ _ _ ty _ _ => ty.isFused
  | .vshl _ _ _ _ ty _ _ | .vshr _ _ _ _ ty _ _ | .vsra _ _ _ _ ty _ _ => ty.isInt
  | .vdot2 _ _ _ _ ty _ _ => ty == .bf16 || ty == .f16 || ty == .i16
  | .vbqAddrq _ _ _ ty _ _ => ty == .e4m3 || ty == .e5m2 || ty == .i8
  | _ => true

/-- The term stands for an instruction, command or event of the opcode table. -/
def wellFormed : Instr → Bool
  | .qTok _ lvl => lvl != 0
  | .qBt _ lvl _ => lvl != 0
  | .pxRun rd _ _ _ _ => rd != 0
  | .hint rd _ _ => decide (rd.toNat < 24)
  | .mma a e | .mmaSp a e | .glaze a e => decide (a < Config.contexts) && decide (e < Config.window)
  | .copy c | .conv c | .fill c => decide (c < Config.clusters)
  | .contextRejoin a | .coilPopRequest a _ | .windowSend a | .storeBufferLeave a | .readFill a _ | .reservationExpiry a
  | .qualificationLapse a | .scoutStop a | .stimecmpMatch a | .doorbell a _ | .sspwinWrite a _ | .slscfgWrite a _
  | .drawdlyWrite a _ | .scctlWrite a _ | .holdWrite a _ _ | .stimecmpWrite a _ | .ssipWrite a _ | .vseedWrite a _ =>
    decide (a < Config.agents)
  | .walkFormatWrite a r _ => decide (a < Config.agents) && decide (r.toNat < 5)
  | .balancerReplicaPost c _ | .launchDispatch c | .replayBufferPost c | .commandComplete c _ | .bufferReentryAccept c =>
    decide (c < Config.clusters)
  | .coneTimeout c k => decide (c < Config.clusters) && decide (k < 4096)
  | .draw p g => decide (p < Config.dies) && decide (g < 64)
  | .settingFire c k | .settingDispatch c k | .firingStart c k | .firingEnd c k | .pugLookup c k | .pugRowFetch c k _
  | .pugBagClose c k => decide (c < Config.clusters) && decide (k < 16)
  | .glazeLoadPerformed c t => decide (c < Config.clusters) && decide (t < 4)
  | .remoteInvalidation _ d | .invalidationAck _ d | .dieWarmReset d | .dieOffline d | .dieRetrained d | .dieReady d
  | .eccCorrected d | .powerEstimate d _ | .heatFluxLimit d => decide (d < Config.dies)
  | .sweepAck _ c => decide (c ≤ Config.clusters)
  | .trapRecordPush c | .interruptRecordPush c | .preemptSave _ c | .coreReset c => decide (c < Config.cores)
  | .hubInterruptTaken h | .rqjobWrite h _ | .rqenWrite h _ | .reduceTokenDelivery h => decide (h < Config.hubs)
  | .runtimeGo p | .hlpost p _ | .halt p | .resume p | .step p | .dbgdataWrite p _ | .hostLinkDown p
  | .pageRequestReenable p => decide (p < Config.dies)
  | i => formatOk i

end Sys2Proof
end

