-- ==== Sys2Proof/Decode.lean ====
section
/-! DEFINITION. Decode.lean: from the bits of a 32-bit word to an instruction or a named rejection (R133 to R149, R167, R171,
R176, R178, R186), and back. Every layout is one of five sums of fields, so that decoding and encoding read the same fields. -/

namespace Sys2Proof

/-- Why a word is no instruction (R134). -/
inductive Reject where
  /-- R133: bits [1:0] are not 0b11 or bits [4:2] are 0b111, or the bits are not one word -/
  | length
  /-- R136: an illegal or reserved major opcode -/
  | opcode
  /-- an unlisted funct3, funct4, funct5, funct7 or operation code -/
  | function
  /-- a field marked zero is not zero -/
  | nonZero
  /-- a reserved rounding mode, scope, element size, format or level -/
  | reserved
  /-- a register field outside its class -/
  | register
  deriving DecidableEq, Repr

/-- Bits [lo + n − 1 : lo] of a word of the instruction stream. -/
def fld (w lo n : Nat) : Nat := w / 2 ^ lo % 2 ^ n

/-! The five sums of fields -/

/-- R137: opcode, rd, funct3, rs1, rs2, funct7. -/
def layR (op rd f3 rs1 rs2 f7 : Nat) : Nat :=
  op + 128 * rd + 4096 * f3 + 32768 * rs1 + 1048576 * rs2 + 33554432 * f7
/-- R143: opcode, vd, funct4, vs1, vs2, msk, ty, pace, nf. -/
def layV (op vd f4 vs1 vs2 msk ty pace nf : Nat) : Nat :=
  op + 128 * vd + 2048 * f4 + 32768 * vs1 + 524288 * vs2 + 8388608 * msk + 67108864 * ty + 536870912 * pace + 2147483648 * nf
/-- R147, VM and VX: opcode, V, funct4, [19:15], [26:20], [29:27], [31:30]. -/
def layM (op v f4 a b c d : Nat) : Nat :=
  op + 128 * v + 2048 * f4 + 32768 * a + 1048576 * b + 134217728 * c + 1073741824 * d
/-- R147, MK: opcode, MD, funct4, [17:15], [20:18], [23:21], [28:24], [31:29]. -/
def layK (op md f4 ma mb mop x z : Nat) : Nat :=
  op + 128 * md + 2048 * f4 + 32768 * ma + 262144 * mb + 2097152 * mop + 16777216 * x + 536870912 * z
/-- R147, SD: opcode, SOP, funct4, rs1, rs2, rd, [31:30]. -/
def layS (op sop f4 rs1 rs2 rd z : Nat) : Nat :=
  op + 128 * sop + 2048 * f4 + 32768 * rs1 + 1048576 * rs2 + 33554432 * rd + 1073741824 * z

/-! Codes -/

/-- A register field. -/
def reg (n : Nat) : Reg := BitVec.ofNat 5 n
/-- A vector register field. -/
def vreg (n : Nat) : VReg := BitVec.ofNat 4 n
/-- A mask field. -/
def mreg (n : Nat) : MReg := BitVec.ofNat 3 n

/-- R119: a rounding mode by code; 110 is reserved. -/
def RMode.ofCode : Nat → Option RMode
  | 0 => some .rne | 1 => some .rtz | 2 => some .rdn | 3 => some .rup | 4 => some .rmm | 5 => some .sto | 7 => some .dyn
  | _ => none
/-- R119. -/
def RMode.code : RMode → Nat
  | .rne => 0 | .rtz => 1 | .rdn => 2 | .rup => 3 | .rmm => 4 | .sto => 5 | .dyn => 7
/-- R87: a scope by code; 5 to 7 are reserved. -/
def Scope.ofCode : Nat → Option Scope
  | 0 => some .core | 1 => some .clus | 2 => some .die | 3 => some .pkg | 4 => some .sys
  | _ => none
/-- R87. -/
def Scope.code : Scope → Nat
  | .core => 0 | .clus => 1 | .die => 2 | .pkg => 3 | .sys => 4
/-- R88: an order by code. -/
def Order.ofCode : Nat → Order
  | 0 => .rlx | 1 => .aq | 2 => .rl | _ => .ar
/-- R88. -/
def Order.code : Order → Nat
  | .rlx => 0 | .aq => 1 | .rl => 2 | .ar => 3
/-- R144: an element format by code. -/
def VFmt.ofCode : Nat → VFmt
  | 0 => .f32 | 1 => .bf16 | 2 => .f16 | 3 => .e4m3 | 4 => .e5m2 | 5 => .i8 | 6 => .i16 | _ => .i32
/-- R144. -/
def VFmt.code : VFmt → Nat
  | .f32 => 0 | .bf16 => 1 | .f16 => 2 | .e4m3 => 3 | .e5m2 => 4 | .i8 => 5 | .i16 => 6 | .i32 => 7
/-- R147: an element size by code; 11 is illegal. -/
def Esz.ofCode : Nat → Option Esz
  | 0 => some .e8 | 1 => some .e16 | 2 => some .e32
  | _ => none
/-- R147. -/
def Esz.code : Esz → Nat
  | .e8 => 0 | .e16 => 1 | .e32 => 2
/-- A bit. -/
def bit (b : Bool) : Nat := if b then 1 else 0
/-- A bit, read. -/
def isOne (n : Nat) : Bool := n == 1

/-- Answers an instruction when a condition holds, else rejects by name. -/
def orReject (c : Bool) (r : Reject) (i : Instr) : Except Reject Instr := if c then .ok i else .error r
/-- Rejects when a code has no meaning. -/
def withCode {α : Type} (o : Option α) (k : α → Except Reject Instr) : Except Reject Instr :=
  match o with
  | some a => k a
  | none => .error .reserved
/-- R139: a field named qk holds x24 to x31. -/
def withEnd (r : Nat) (k : BitVec 3 → Except Reject Instr) : Except Reject Instr :=
  if 24 ≤ r then k (BitVec.ofNat 3 (r - 24)) else .error .register
/-- R138: LVL is 1 to 7. -/
def withLevel (l : Nat) (k : BitVec 3 → Except Reject Instr) : Except Reject Instr :=
  if l = 0 then .error .reserved else k (BitVec.ofNat 3 l)

/-! One decoder for each major opcode of R136. `rd`, `f3`, `rs1`, `rs2`, `f7` are the fields of R137. -/

/-- R167: LOAD. -/
def decLoad (rd f3 rs1 rs2 f7 : Nat) : Except Reject Instr :=
  match f3 with
  | 0 => .ok (.lb (reg rd) (reg rs1) (BitVec.ofNat 12 (rs2 + 32 * f7)))
  | 1 => .ok (.lh (reg rd) (reg rs1) (BitVec.ofNat 12 (rs2 + 32 * f7)))
  | 2 => .ok (.lw (reg rd) (reg rs1) (BitVec.ofNat 12 (rs2 + 32 * f7)))
  | 3 => .ok (.ld (reg rd) (reg rs1) (BitVec.ofNat 12 (rs2 + 32 * f7)))
  | 4 => .ok (.lbu (reg rd) (reg rs1) (BitVec.ofNat 12 (rs2 + 32 * f7)))
  | 5 => .ok (.lhu (reg rd) (reg rs1) (BitVec.ofNat 12 (rs2 + 32 * f7)))
  | 6 => .ok (.lwu (reg rd) (reg rs1) (BitVec.ofNat 12 (rs2 + 32 * f7)))
  | _ => .error .function

/-- R167: STORE. -/
def decStore (rd f3 rs1 rs2 f7 : Nat) : Except Reject Instr :=
  match f3 with
  | 0 => .ok (.sb (reg rs2) (reg rs1) (BitVec.ofNat 12 (rd + 32 * f7)))
  | 1 => .ok (.sh (reg rs2) (reg rs1) (BitVec.ofNat 12 (rd + 32 * f7)))
  | 2 => .ok (.sw (reg rs2) (reg rs1) (BitVec.ofNat 12 (rd + 32 * f7)))
  | 3 => .ok (.sd (reg rs2) (reg rs1) (BitVec.ofNat 12 (rd + 32 * f7)))
  | _ => .error .function

/-- R167: BRANCH. -/
def decBranch (rd f3 rs1 rs2 f7 : Nat) : Except Reject Instr :=
  match f3 with
  | 0 => .ok (.beq (reg rs1) (reg rs2) (BitVec.ofNat 12 (f7 / 64 * 2048 + rd % 2 * 1024 + f7 % 64 * 16 + rd / 2)))
  | 1 => .ok (.bne (reg rs1) (reg rs2) (BitVec.ofNat 12 (f7 / 64 * 2048 + rd % 2 * 1024 + f7 % 64 * 16 + rd / 2)))
  | 4 => .ok (.blt (reg rs1) (reg rs2) (BitVec.ofNat 12 (f7 / 64 * 2048 + rd % 2 * 1024 + f7 % 64 * 16 + rd / 2)))
  | 5 => .ok (.bge (reg rs1) (reg rs2) (BitVec.ofNat 12 (f7 / 64 * 2048 + rd % 2 * 1024 + f7 % 64 * 16 + rd / 2)))
  | 6 => .ok (.bltu (reg rs1) (reg rs2) (BitVec.ofNat 12 (f7 / 64 * 2048 + rd % 2 * 1024 + f7 % 64 * 16 + rd / 2)))
  | 7 => .ok (.bgeu (reg rs1) (reg rs2) (BitVec.ofNat 12 (f7 / 64 * 2048 + rd % 2 * 1024 + f7 % 64 * 16 + rd / 2)))
  | _ => .error .function

/-- R167: OP-IMM; the shift forms take imm[11:6] = 000000 or 010000. -/
def decOpImm (rd f3 rs1 rs2 f7 : Nat) : Except Reject Instr :=
  match f3 with
  | 0 => .ok (.addi (reg rd) (reg rs1) (BitVec.ofNat 12 (rs2 + 32 * f7)))
  | 2 => .ok (.slti (reg rd) (reg rs1) (BitVec.ofNat 12 (rs2 + 32 * f7)))
  | 3 => .ok (.sltiu (reg rd) (reg rs1) (BitVec.ofNat 12 (rs2 + 32 * f7)))
  | 4 => .ok (.xori (reg rd) (reg rs1) (BitVec.ofNat 12 (rs2 + 32 * f7)))
  | 6 => .ok (.ori (reg rd) (reg rs1) (BitVec.ofNat 12 (rs2 + 32 * f7)))
  | 7 => .ok (.andi (reg rd) (reg rs1) (BitVec.ofNat 12 (rs2 + 32 * f7)))
  | 1 => orReject (f7 / 2 == 0) .function (.slli (reg rd) (reg rs1) (BitVec.ofNat 6 (rs2 + 32 * (f7 % 2))))
  | 5 => if f7 / 2 = 0 then .ok (.srli (reg rd) (reg rs1) (BitVec.ofNat 6 (rs2 + 32 * (f7 % 2))))
    else orReject (f7 / 2 == 16) .function (.srai (reg rd) (reg rs1) (BitVec.ofNat 6 (rs2 + 32 * (f7 % 2))))
  | _ => .error .function

/-- R167: OP-IMM-32; a shift amount of 32 or more is illegal. -/
def decOpImm32 (rd f3 rs1 rs2 f7 : Nat) : Except Reject Instr :=
  match f3 with
  | 0 => .ok (.addiw (reg rd) (reg rs1) (BitVec.ofNat 12 (rs2 + 32 * f7)))
  | 1 => orReject (f7 == 0) .function (.slliw (reg rd) (reg rs1) (reg rs2))
  | 5 => if f7 = 0 then .ok (.srliw (reg rd) (reg rs1) (reg rs2))
    else orReject (f7 == 0x20) .function (.sraiw (reg rd) (reg rs1) (reg rs2))
  | _ => .error .function

/-- R167: OP. -/
def decOp (rd f3 rs1 rs2 f7 : Nat) : Except Reject Instr :=
  match f7, f3 with
  | 0, 0 => .ok (.add (reg rd) (reg rs1) (reg rs2))
  | 0, 1 => .ok (.sll (reg rd) (reg rs1) (reg rs2))
  | 0, 2 => .ok (.slt (reg rd) (reg rs1) (reg rs2))
  | 0, 3 => .ok (.sltu (reg rd) (reg rs1) (reg rs2))
  | 0, 4 => .ok (.xor (reg rd) (reg rs1) (reg rs2))
  | 0, 5 => .ok (.srl (reg rd) (reg rs1) (reg rs2))
  | 0, 6 => .ok (.or (reg rd) (reg rs1) (reg rs2))
  | 0, 7 => .ok (.and (reg rd) (reg rs1) (reg rs2))
  | 1, 0 => .ok (.mul (reg rd) (reg rs1) (reg rs2))
  | 1, 1 => .ok (.mulh (reg rd) (reg rs1) (reg rs2))
  | 1, 2 => .ok (.mulhsu (reg rd) (reg rs1) (reg rs2))
  | 1, 3 => .ok (.mulhu (reg rd) (reg rs1) (reg rs2))
  | 1, 4 => .ok (.div (reg rd) (reg rs1) (reg rs2))
  | 1, 5 => .ok (.divu (reg rd) (reg rs1) (reg rs2))
  | 1, 6 => .ok (.rem (reg rd) (reg rs1) (reg rs2))
  | 1, 7 => .ok (.remu (reg rd) (reg rs1) (reg rs2))
  | 32, 0 => .ok (.sub (reg rd) (reg rs1) (reg rs2))
  | 32, 5 => .ok (.sra (reg rd) (reg rs1) (reg rs2))
  | _, _ => .error .function

/-- R167: OP-32. -/
def decOp32 (rd f3 rs1 rs2 f7 : Nat) : Except Reject Instr :=
  match f7, f3 with
  | 0, 0 => .ok (.addw (reg rd) (reg rs1) (reg rs2))
  | 0, 1 => .ok (.sllw (reg rd) (reg rs1) (reg rs2))
  | 0, 5 => .ok (.srlw (reg rd) (reg rs1) (reg rs2))
  | 1, 0 => .ok (.mulw (reg rd) (reg rs1) (reg rs2))
  | 1, 4 => .ok (.divw (reg rd) (reg rs1) (reg rs2))
  | 1, 5 => .ok (.divuw (reg rd) (reg rs1) (reg rs2))
  | 1, 6 => .ok (.remw (reg rd) (reg rs1) (reg rs2))
  | 1, 7 => .ok (.remuw (reg rd) (reg rs1) (reg rs2))
  | 32, 0 => .ok (.subw (reg rd) (reg rs1) (reg rs2))
  | 32, 5 => .ok (.sraw (reg rd) (reg rs1) (reg rs2))
  | _, _ => .error .function

/-- R171: AMO; funct3 010 or 011, funct5 in [31:27], aq [26], rl [25]. -/
def decAmo (rd f3 rs1 rs2 f7 : Nat) : Except Reject Instr :=
  if f3 / 2 ≠ 1 then .error .function
  else
  match f7 / 4 with
  | 2 => orReject (rs2 == 0) .nonZero (.lr (reg rd) (reg rs1) (isOne (f7 / 2 % 2)) (isOne (f7 % 2)) (isOne (f3 % 2)))
  | 3 => .ok (.sc (reg rd) (reg rs2) (reg rs1) (isOne (f7 / 2 % 2)) (isOne (f7 % 2)) (isOne (f3 % 2)))
  | 1 => .ok (.amoswap (reg rd) (reg rs2) (reg rs1) (isOne (f7 / 2 % 2)) (isOne (f7 % 2)) (isOne (f3 % 2)))
  | 0 => .ok (.amoadd (reg rd) (reg rs2) (reg rs1) (isOne (f7 / 2 % 2)) (isOne (f7 % 2)) (isOne (f3 % 2)))
  | 4 => .ok (.amoxor (reg rd) (reg rs2) (reg rs1) (isOne (f7 / 2 % 2)) (isOne (f7 % 2)) (isOne (f3 % 2)))
  | 12 => .ok (.amoand (reg rd) (reg rs2) (reg rs1) (isOne (f7 / 2 % 2)) (isOne (f7 % 2)) (isOne (f3 % 2)))
  | 8 => .ok (.amoor (reg rd) (reg rs2) (reg rs1) (isOne (f7 / 2 % 2)) (isOne (f7 % 2)) (isOne (f3 % 2)))
  | 16 => .ok (.amomin (reg rd) (reg rs2) (reg rs1) (isOne (f7 / 2 % 2)) (isOne (f7 % 2)) (isOne (f3 % 2)))
  | 20 => .ok (.amomax (reg rd) (reg rs2) (reg rs1) (isOne (f7 / 2 % 2)) (isOne (f7 % 2)) (isOne (f3 % 2)))
  | 24 => .ok (.amominu (reg rd) (reg rs2) (reg rs1) (isOne (f7 / 2 % 2)) (isOne (f7 % 2)) (isOne (f3 % 2)))
  | 28 => .ok (.amomaxu (reg rd) (reg rs2) (reg rs1) (isOne (f7 / 2 % 2)) (isOne (f7 % 2)) (isOne (f3 % 2)))
  | _ => .error .function

/-- R176: the F4 format; fmt must be 00. -/
def decF4 (op rd f3 rs1 rs2 f7 : Nat) : Except Reject Instr :=
  if f7 % 4 ≠ 0 then .error .function
  else withCode (RMode.ofCode f3) fun rm =>
    if op = 0x43 then .ok (.fmaddS (reg rd) (reg rs1) (reg rs2) (reg (f7 / 4)) rm)
    else if op = 0x47 then .ok (.fmsubS (reg rd) (reg rs1) (reg rs2) (reg (f7 / 4)) rm)
    else if op = 0x4B then .ok (.fnmsubS (reg rd) (reg rs1) (reg rs2) (reg (f7 / 4)) rm)
    else .ok (.fnmaddS (reg rd) (reg rs1) (reg rs2) (reg (f7 / 4)) rm)

/-- R176: OP-FP. -/
def decOpFp (rd f3 rs1 rs2 f7 : Nat) : Except Reject Instr :=
  match f7 with
  | 0x00 => withCode (RMode.ofCode f3) fun rm => .ok (.faddS (reg rd) (reg rs1) (reg rs2) rm)
  | 0x04 => withCode (RMode.ofCode f3) fun rm => .ok (.fsubS (reg rd) (reg rs1) (reg rs2) rm)
  | 0x08 => withCode (RMode.ofCode f3) fun rm => .ok (.fmulS (reg rd) (reg rs1) (reg rs2) rm)
  | 0x0C => withCode (RMode.ofCode f3) fun rm => .ok (.fdivS (reg rd) (reg rs1) (reg rs2) rm)
  | 0x2C => withCode (RMode.ofCode f3) fun rm => orReject (rs2 == 0) .nonZero (.fsqrtS (reg rd) (reg rs1) rm)
  | 0x10 => match f3 with
    | 0 => .ok (.fsgnjS (reg rd) (reg rs1) (reg rs2))
    | 1 => .ok (.fsgnjnS (reg rd) (reg rs1) (reg rs2))
    | 2 => .ok (.fsgnjxS (reg rd) (reg rs1) (reg rs2))
    | _ => .error .function
  | 0x14 => match f3 with
    | 0 => .ok (.fminS (reg rd) (reg rs1) (reg rs2))
    | 1 => .ok (.fmaxS (reg rd) (reg rs1) (reg rs2))
    | _ => .error .function
  | 0x50 => match f3 with
    | 2 => .ok (.feqS (reg rd) (reg rs1) (reg rs2))
    | 1 => .ok (.fltS (reg rd) (reg rs1) (reg rs2))
    | 0 => .ok (.fleS (reg rd) (reg rs1) (reg rs2))
    | _ => .error .function
  | 0x60 => withCode (RMode.ofCode f3) fun rm => match rs2 with
    | 0 => .ok (.fcvtWS (reg rd) (reg rs1) rm)
    | 1 => .ok (.fcvtWuS (reg rd) (reg rs1) rm)
    | 2 => .ok (.fcvtLS (reg rd) (reg rs1) rm)
    | 3 => .ok (.fcvtLuS (reg rd) (reg rs1) rm)
    | _ => .error .function
  | 0x68 => withCode (RMode.ofCode f3) fun rm => match rs2 with
    | 0 => .ok (.fcvtSW (reg rd) (reg rs1) rm)
    | 1 => .ok (.fcvtSWu (reg rd) (reg rs1) rm)
    | 2 => .ok (.fcvtSL (reg rd) (reg rs1) rm)
    | 3 => .ok (.fcvtSLu (reg rd) (reg rs1) rm)
    | _ => .error .function
  | 0x70 => if f3 ≠ 1 then .error .function else orReject (rs2 == 0) .nonZero (.fclassS (reg rd) (reg rs1))
  | _ => .error .function

/-- R178, R186: SYSTEM. -/
def decSystem (rd f3 rs1 rs2 f7 : Nat) : Except Reject Instr :=
  match f3 with
  | 1 => .ok (.csrrw (reg rd) (reg rs1) (BitVec.ofNat 12 (rs2 + 32 * f7)))
  | 2 => .ok (.csrrs (reg rd) (reg rs1) (BitVec.ofNat 12 (rs2 + 32 * f7)))
  | 3 => .ok (.csrrc (reg rd) (reg rs1) (BitVec.ofNat 12 (rs2 + 32 * f7)))
  | 5 => .ok (.csrrwi (reg rd) (reg rs1) (BitVec.ofNat 12 (rs2 + 32 * f7)))
  | 6 => .ok (.csrrsi (reg rd) (reg rs1) (BitVec.ofNat 12 (rs2 + 32 * f7)))
  | 7 => .ok (.csrrci (reg rd) (reg rs1) (BitVec.ofNat 12 (rs2 + 32 * f7)))
  | 0 => if rd ≠ 0 ∨ rs1 ≠ 0 then .error .function
    else match f7, rs2 with
    | 0, 0 => .ok .ecall
    | 0, 1 => .ok .ebreak
    | 8, 2 => .ok .sret
    | 8, 5 => .ok .wfi
    | _, _ => .error .function
  | _ => .error .function

/-- R186: MISC-MEM; fm, pred, succ, rs1, rd and imm are ignored by the instructions. -/
def decMisc (rd f3 rs1 rs2 f7 : Nat) : Except Reject Instr :=
  match f3 with
  | 0 => .ok (.fence (reg rd) (reg rs1) (BitVec.ofNat 4 (f7 / 8)) (BitVec.ofNat 4 (f7 % 8 * 2 + rs2 / 16)) (BitVec.ofNat 4 (rs2 % 16)))
  | 1 => .ok (.fenceI (reg rd) (reg rs1) (BitVec.ofNat 12 (rs2 + 32 * f7)))
  | _ => .error .function

/-- R138, R139: the queue group. -/
def decQueue (rd rs1 rs2 f7 : Nat) : Except Reject Instr :=
  if 64 ≤ f7 then
    withEnd rs1 fun k => withLevel (rs2 % 8) fun l => .ok (.qBt k l (BitVec.ofNat 13 (f7 % 64 * 128 + rs2 / 8 * 32 + rd)))
  else match f7 with
  | 0 => if rs1 ≠ 0 ∨ rs2 / 8 ≠ 0 then .error .nonZero
    else withEnd rd fun k => withLevel (rs2 % 8) fun l => .ok (.qTok k l)
  | 1 => if rs2 ≠ 0 then .error .nonZero else withEnd rs1 fun k => .ok (.qCnt (reg rd) k)
  | 2 => if rs2 ≠ 0 then .error .nonZero else withEnd rs1 fun k => .ok (.qPeek (reg rd) k)
  | 3 => if rs2 ≠ 0 then .error .nonZero else withEnd rs1 fun k => .ok (.qTag (reg rd) k)
  | 4 => if rd ≠ 0 ∨ rs2 ≠ 0 then .error .nonZero else withEnd rs1 fun k => .ok (.qClose k)
  | 5 => .ok (.qBind (reg rd) (reg rs1) (reg rs2))
  | 6 => orReject (rs2 == 0) .nonZero (.qUnbind (reg rd) (reg rs1))
  | _ => .error .function

/-- R139: the context group. -/
def decCtx (rd rs1 rs2 f7 : Nat) : Except Reject Instr :=
  match f7 with
  | 0 => orReject (rs2 == 0) .nonZero (.ctxStart (reg rd) (reg rs1))
  | 1 => orReject (rd == 0) .nonZero (.ctxReap (reg rs1) (reg rs2))
  | 2 => orReject (rd == 0 && rs2 == 0) .nonZero (.ctxResume (reg rs1))
  | 3 => orReject (rd == 0 && rs1 == 0 && rs2 == 0) .nonZero .ctxPark
  | 4 => orReject (rd == 0 && rs1 == 0 && rs2 == 0) .nonZero .ctxExit
  | 5 => orReject (rs1 == 0 && rs2 == 0) .nonZero (.ctxSelf (reg rd))
  | _ => .error .function

/-- R139: the event group. -/
def decEvent (rd rs1 rs2 f7 : Nat) : Except Reject Instr :=
  match f7 with
  | 0 => orReject (rd == 0) .nonZero (.evSet (reg rs1) (reg rs2))
  | 1 => orReject (rd == 0) .nonZero (.evClr (reg rs1) (reg rs2))
  | 2 => orReject (rd == 0 && rs2 == 0) .nonZero (.evWait (reg rs1))
  | 3 => orReject (rd == 0) .nonZero (.evWaitm (reg rs1) (reg rs2))
  | 4 => .ok (.evRd (reg rd) (reg rs1) (reg rs2))
  | _ => .error .function

/-- R139: the cone group. -/
def decCone (rd rs1 rs2 f7 : Nat) : Except Reject Instr :=
  match f7 with
  | 0 => orReject (rd == 0) .nonZero (.cnInit (reg rs1) (reg rs2))
  | 1 => orReject (rd == 0) .nonZero (.cnArrive (reg rs1) (reg rs2))
  | 2 => orReject (rd == 0) .nonZero (.cnDrop (reg rs1) (reg rs2))
  | 3 => orReject (rs2 == 0) .nonZero (.cnJoin (reg rd) (reg rs1))
  | 4 => .ok (.cnWait (reg rd) (reg rs1) (reg rs2))
  | 5 => .ok (.cnTry (reg rd) (reg rs1) (reg rs2))
  | 6 => orReject (rs2 == 0) .nonZero (.cnStat (reg rd) (reg rs1))
  | _ => .error .function

/-- R139: the launch group. -/
def decLaunch (rd rs1 rs2 f7 : Nat) : Except Reject Instr :=
  match f7 with
  | 0 => orReject (rd == 0 && rs2 == 0) .nonZero (.lnPost (reg rs1))
  | 1 => orReject (rd == 0) .nonZero (.lnHash (reg rs1) (reg rs2))
  | 2 => orReject (rs2 == 0) .nonZero (.lnRep (reg rd) (reg rs1))
  | 3 => orReject (rd == 0) .nonZero (.lnSnap (reg rs1) (reg rs2))
  | 4 => orReject (rd == 0) .nonZero (.lnReplay (reg rs1) (reg rs2))
  | 5 => orReject (rd == 0 && rs2 == 0) .nonZero (.lnQuiet (reg rs1))
  | _ => .error .function

/-- R139: the tensor-record group. -/
def decTensor (rd rs1 rs2 f7 : Nat) : Except Reject Instr :=
  match f7 with
  | 0 => orReject (rd == 0) .nonZero (.tidSet (reg rs1) (reg rs2))
  | 1 => orReject (rd == 0 && rs2 == 0) .nonZero (.tidDrop (reg rs1))
  | 2 => orReject (rd == 0) .nonZero (.tidGet (reg rs1) (reg rs2))
  | _ => .error .function

/-- R139: the pug group. -/
def decPug (rd rs1 rs2 f7 : Nat) : Except Reject Instr :=
  match f7 with
  | 0 => .ok (.pgOpen (reg rd) (reg rs1) (reg rs2))
  | 1 => orReject (rs2 == 0) .nonZero (.pgClose (reg rd) (reg rs1))
  | 2 => orReject (rs2 == 0) .nonZero (.pgStat (reg rd) (reg rs1))
  | _ => .error .function

/-- R138, R139: custom-0. -/
def decStage (rd f3 rs1 rs2 f7 : Nat) : Except Reject Instr :=
  match f3 with
  | 0 => decQueue rd rs1 rs2 f7
  | 1 => decCtx rd rs1 rs2 f7
  | 2 => decEvent rd rs1 rs2 f7
  | 3 => decCone rd rs1 rs2 f7
  | 4 => decLaunch rd rs1 rs2 f7
  | 5 => decTensor rd rs1 rs2 f7
  | 6 => decPug rd rs1 rs2 f7
  | _ => if rd = 0 then orReject (rs2 == 0 && f7 / 4 == 0) .nonZero (.pxLoad (BitVec.ofNat 2 (f7 % 4)) (reg rs1))
    else .ok (.pxRun (reg rd) (reg rs1) (reg rs2) (reg (f7 / 4)) (BitVec.ofNat 2 (f7 % 4)))

/-- R140, R141: XAM; the scope is funct3 − 3. -/
def decXam (sc : Scope) (rd rs1 rs2 f7 : Nat) : Except Reject Instr :=
  match f7 / 8 with
  | 0 => .ok (.xamAdd (reg rd) (reg rs2) (reg rs1) (Order.ofCode (f7 / 2 % 4)) (isOne (f7 % 2)) sc)
  | 1 => .ok (.xamAnd (reg rd) (reg rs2) (reg rs1) (Order.ofCode (f7 / 2 % 4)) (isOne (f7 % 2)) sc)
  | 2 => .ok (.xamOr (reg rd) (reg rs2) (reg rs1) (Order.ofCode (f7 / 2 % 4)) (isOne (f7 % 2)) sc)
  | 3 => .ok (.xamXor (reg rd) (reg rs2) (reg rs1) (Order.ofCode (f7 / 2 % 4)) (isOne (f7 % 2)) sc)
  | 4 => .ok (.xamMin (reg rd) (reg rs2) (reg rs1) (Order.ofCode (f7 / 2 % 4)) (isOne (f7 % 2)) sc)
  | 5 => .ok (.xamMax (reg rd) (reg rs2) (reg rs1) (Order.ofCode (f7 / 2 % 4)) (isOne (f7 % 2)) sc)
  | 6 => .ok (.xamMinu (reg rd) (reg rs2) (reg rs1) (Order.ofCode (f7 / 2 % 4)) (isOne (f7 % 2)) sc)
  | 7 => .ok (.xamMaxu (reg rd) (reg rs2) (reg rs1) (Order.ofCode (f7 / 2 % 4)) (isOne (f7 % 2)) sc)
  | 8 => .ok (.xamSwap (reg rd) (reg rs2) (reg rs1) (Order.ofCode (f7 / 2 % 4)) (isOne (f7 % 2)) sc)
  | 9 => .ok (.xamCas (reg rd) (reg rs2) (reg rs1) (Order.ofCode (f7 / 2 % 4)) (isOne (f7 % 2)) sc)
  | 10 => orReject (f7 % 2 == 0) .reserved (.xamFadd (reg rd) (reg rs2) (reg rs1) (Order.ofCode (f7 / 2 % 4)) sc)
  | 11 => orReject (f7 % 2 == 0) .reserved (.xamBfadd2 (reg rd) (reg rs2) (reg rs1) (Order.ofCode (f7 / 2 % 4)) sc)
  | _ => .error .function

/-- R142: MSC. -/
def decMsc (rd rs1 rs2 f7 : Nat) : Except Reject Instr :=
  match f7 with
  | 0 => if rd ≠ 0 ∨ rs1 ≠ 0 ∨ rs2 / 8 ≠ 0 then .error .nonZero
    else withCode (Scope.ofCode (rs2 % 8)) fun sc => .ok (.mfence sc)
  | 1 => orReject (rd == 0 && rs2 == 0) .nonZero (.clFlush (reg rs1))
  | 2 => orReject (rd == 0 && rs2 == 0) .nonZero (.clClean (reg rs1))
  | 3 => orReject (rd == 0 && rs2 == 0) .nonZero (.clZero (reg rs1))
  | 4 => orReject (rd == 0 && rs2 == 0) .nonZero (.clPref (reg rs1))
  | 5 => orReject (rd == 0 && rs2 == 0) .nonZero (.clInval (reg rs1))
  | 8 => orReject (rd == 0 && rs2 == 0) .nonZero (.tcIssue (reg rs1))
  | 9 => orReject (rd == 0 && rs2 == 0 && rs1 / 16 == 0) .nonZero (.tcIssuev (vreg rs1))
  | _ => .error .function

/-- R140 to R142: custom-1. -/
def decScoped (rd f3 rs1 rs2 f7 : Nat) : Except Reject Instr :=
  match f3 with
  | 0 => withCode (Scope.ofCode (f7 / 16)) fun sc =>
    .ok (.mld (reg rd) (reg rs1) (reg rs2) (BitVec.ofNat 2 (f7 % 4)) (Order.ofCode (f7 / 4 % 4)) sc)
  | 1 => withCode (Scope.ofCode (f7 / 16)) fun sc =>
    .ok (.mst (reg rs2) (reg rs1) (reg rd) (BitVec.ofNat 2 (f7 % 4)) (Order.ofCode (f7 / 4 % 4)) sc)
  | 2 => decMsc rd rs1 rs2 f7
  | _ => withCode (Scope.ofCode (f3 - 3)) fun sc => decXam sc rd rs1 rs2 f7

/-- R270: the format is accepted by the instruction, else the encoding is illegal. -/
def accepted (i : Instr) : Except Reject Instr := orReject (formatOk i) .reserved i

/-- R143, R145: custom-2. -/
def decVector (vd f4 vs1 vs2 msk ty pace nf : Nat) : Except Reject Instr :=
  match f4 with
  | 0 => accepted (.vadd (vreg vd) (vreg vs1) (vreg vs2) (mreg msk) (VFmt.ofCode ty) (BitVec.ofNat 2 pace) (isOne nf))
  | 1 => accepted (.vsub (vreg vd) (vreg vs1) (vreg vs2) (mreg msk) (VFmt.ofCode ty) (BitVec.ofNat 2 pace) (isOne nf))
  | 2 => accepted (.vmul (vreg vd) (vreg vs1) (vreg vs2) (mreg msk) (VFmt.ofCode ty) (BitVec.ofNat 2 pace) (isOne nf))
  | 3 => accepted (.vfma (vreg vd) (vreg vs1) (vreg vs2) (mreg msk) (VFmt.ofCode ty) (BitVec.ofNat 2 pace) (isOne nf))
  | 4 => accepted (.vfms (vreg vd) (vreg vs1) (vreg vs2) (mreg msk) (VFmt.ofCode ty) (BitVec.ofNat 2 pace) (isOne nf))
  | 5 => accepted (.vfnma (vreg vd) (vreg vs1) (vreg vs2) (mreg msk) (VFmt.ofCode ty) (BitVec.ofNat 2 pace) (isOne nf))
  | 6 => accepted (.vmin (vreg vd) (vreg vs1) (vreg vs2) (mreg msk) (VFmt.ofCode ty) (BitVec.ofNat 2 pace) (isOne nf))
  | 7 => accepted (.vmax (vreg vd) (vreg vs1) (vreg vs2) (mreg msk) (VFmt.ofCode ty) (BitVec.ofNat 2 pace) (isOne nf))
  | 8 => accepted (.vand (vreg vd) (vreg vs1) (vreg vs2) (mreg msk) (VFmt.ofCode ty) (BitVec.ofNat 2 pace) (isOne nf))
  | 9 => accepted (.vor (vreg vd) (vreg vs1) (vreg vs2) (mreg msk) (VFmt.ofCode ty) (BitVec.ofNat 2 pace) (isOne nf))
  | 10 => accepted (.vxor (vreg vd) (vreg vs1) (vreg vs2) (mreg msk) (VFmt.ofCode ty) (BitVec.ofNat 2 pace) (isOne nf))
  | 11 => accepted (.vshl (vreg vd) (vreg vs1) (vreg vs2) (mreg msk) (VFmt.ofCode ty) (BitVec.ofNat 2 pace) (isOne nf))
  | 12 => accepted (.vshr (vreg vd) (vreg vs1) (vreg vs2) (mreg msk) (VFmt.ofCode ty) (BitVec.ofNat 2 pace) (isOne nf))
  | 13 => accepted (.vsra (vreg vd) (vreg vs1) (vreg vs2) (mreg msk) (VFmt.ofCode ty) (BitVec.ofNat 2 pace) (isOne nf))
  | 14 => accepted (.vdot2 (vreg vd) (vreg vs1) (vreg vs2) (mreg msk) (VFmt.ofCode ty) (BitVec.ofNat 2 pace) (isOne nf))
  | _ => match vs2 with
    | 0 => accepted (.vabs (vreg vd) (vreg vs1) (mreg msk) (VFmt.ofCode ty) (BitVec.ofNat 2 pace) (isOne nf))
    | 1 => accepted (.vneg (vreg vd) (vreg vs1) (mreg msk) (VFmt.ofCode ty) (BitVec.ofNat 2 pace) (isOne nf))
    | 2 => accepted (.vrcp (vreg vd) (vreg vs1) (mreg msk) (VFmt.ofCode ty) (BitVec.ofNat 2 pace) (isOne nf))
    | 3 => accepted (.vrsq (vreg vd) (vreg vs1) (mreg msk) (VFmt.ofCode ty) (BitVec.ofNat 2 pace) (isOne nf))
    | 4 => accepted (.vexp2 (vreg vd) (vreg vs1) (mreg msk) (VFmt.ofCode ty) (BitVec.ofNat 2 pace) (isOne nf))
    | 5 => accepted (.vlog2 (vreg vd) (vreg vs1) (mreg msk) (VFmt.ofCode ty) (BitVec.ofNat 2 pace) (isOne nf))
    | _ => .error .function

/-- R147, VM: loads and stores; X is the stride register, the index register, or zero. -/
def decVmem (v f4 a b c d : Nat) : Except Reject Instr :=
  withCode (Esz.ofCode d) fun e =>
    match b / 32, f4 with
    | 0, 0 => orReject (b % 32 == 0) .nonZero (.vld (vreg v) (reg a) (mreg c) e)
    | 0, _ => orReject (b % 32 == 0) .nonZero (.vst (vreg v) (reg a) (mreg c) e)
    | 1, 0 => .ok (.vlds (vreg v) (reg a) (reg (b % 32)) (mreg c) e)
    | 1, _ => .ok (.vsts (vreg v) (reg a) (reg (b % 32)) (mreg c) e)
    | 2, 0 => orReject (b % 32 / 16 == 0) .nonZero (.vldx (vreg v) (reg a) (vreg (b % 32)) (mreg c) e)
    | 2, _ => orReject (b % 32 / 16 == 0) .nonZero (.vstx (vreg v) (reg a) (vreg (b % 32)) (mreg c) e)
    | _, _ => .error .function

/-- R147, VX: moves between x and vector registers; [21:20] is XOP. -/
def decVx (v a b c d : Nat) : Except Reject Instr :=
  match b % 4 with
  | 0 => orReject (b / 4 == 0) .nonZero (.vbcast (vreg v) (reg a) (VFmt.ofCode c) (BitVec.ofNat 2 d))
  | 1 => .ok (.vmvxToX (reg a) (vreg v) (reg (b / 4)) (VFmt.ofCode c) (BitVec.ofNat 2 d))
  | 2 => .ok (.vmvxToV (vreg v) (reg a) (reg (b / 4)) (VFmt.ofCode c) (BitVec.ofNat 2 d))
  | _ => orReject (v == 0) .nonZero (.vshape (reg a) (reg (b / 4)) (VFmt.ofCode c) (BitVec.ofNat 2 d))

/-- R147, MK: mask instructions; `md` is the four bits [10:7], of which [10] is zero. -/
def decMask (md ma mb mop x z : Nat) : Except Reject Instr :=
  if z ≠ 0 ∨ md / 8 ≠ 0 then .error .nonZero
  else match mop with
  | 0 => orReject (x == 0) .nonZero (.mand (mreg md) (mreg ma) (mreg mb))
  | 1 => orReject (x == 0) .nonZero (.mor (mreg md) (mreg ma) (mreg mb))
  | 2 => orReject (x == 0) .nonZero (.mxor (mreg md) (mreg ma) (mreg mb))
  | 3 => orReject (x == 0 && mb == 0) .nonZero (.mnot (mreg md) (mreg ma))
  | 4 => orReject (md == 0 && mb == 0) .nonZero (.mpop (reg x) (mreg ma))
  | 5 => orReject (md == 0 && mb == 0) .nonZero (.mfirst (reg x) (mreg ma))
  | 6 => orReject (ma == 0 && mb == 0) .nonZero (.mset (mreg md) (reg x))
  | _ => .error .function

/-- R147, R386: SD. -/
def decSd (sop rs1 rs2 rd z : Nat) : Except Reject Instr :=
  if z ≠ 0 then .error .nonZero
  else match sop with
  | 0 => orReject (rs2 == 0) .nonZero (.cxRd (reg rd) (reg rs1))
  | 1 => orReject (rd == 0) .nonZero (.cxWr (reg rs1) (reg rs2))
  | 2 => orReject (rd == 0) .nonZero (.ownSet (reg rs1) (reg rs2))
  | 3 => orReject (rs2 == 0) .nonZero (.ownGet (reg rd) (reg rs1))
  | 4 => .ok (.pmReq (reg rd) (reg rs1) (reg rs2))
  | 5 => orReject (rs2 == 0) .nonZero (.pmLoad (reg rd) (reg rs1))
  | 6 => orReject (rd == 0 && rs2 == 0) .nonZero (.escRes (reg rs1))
  | _ => .error .function

/-- R146, R147, R149: custom-3. Bits [14:12] = 111 are the hint space; `rd` and `rs1` are then [11:7] and [19:15]. -/
def decCustom3 (w : Nat) : Except Reject Instr :=
  if fld w 12 3 = 7 then
    orReject (fld w 7 5 < 24) .register (.hint (reg (fld w 7 5)) (reg (fld w 15 5)) (BitVec.ofNat 12 (fld w 20 12)))
  else
    let vd := fld w 7 4; let f4 := fld w 11 4; let vs1 := fld w 15 4; let vs2 := fld w 19 4
    let m := mreg (fld w 23 3); let ty := VFmt.ofCode (fld w 26 3)
    let pace := BitVec.ofNat 2 (fld w 29 2); let nf := isOne (fld w 31 1)
    match f4 with
    | 0 | 1 => decVmem vd f4 (fld w 15 5) (fld w 20 7) (fld w 27 3) (fld w 30 2)
    | 2 => if vd / 8 = 0 then accepted (.vcmpEq (mreg vd) (vreg vs1) (vreg vs2) m ty pace nf)
      else accepted (.vcmpLt (mreg vd) (vreg vs1) (vreg vs2) m ty pace nf)
    | 3 => if vd / 8 = 0 then accepted (.vcmpNe (mreg vd) (vreg vs1) (vreg vs2) m ty pace nf)
      else accepted (.vcmpLe (mreg vd) (vreg vs1) (vreg vs2) m ty pace nf)
    | 4 => .ok (.vsel (vreg vd) (vreg vs1) (vreg vs2) m ty pace nf)
    | 5 => .ok (.vcvt (vreg vd) (vreg vs1) m ty (VFmt.ofCode (vs2 % 8)) (isOne (vs2 / 8)) pace nf)
    | 6 => decVx vd (fld w 15 5) (fld w 20 7) (fld w 27 3) (fld w 30 2)
    | 7 => orReject (vs2 == 0) .nonZero (.vmvv (vreg vd) (vreg vs1) m ty pace nf)
    | 8 => .ok (.vperm (vreg vd) (vreg vs1) (vreg vs2) m ty pace nf)
    | 9 => match vs2 with
      | 0 => accepted (.vredSum (vreg vd) (vreg vs1) m ty pace nf)
      | 1 => accepted (.vredMax (vreg vd) (vreg vs1) m ty pace nf)
      | 2 => accepted (.vredMin (vreg vd) (vreg vs1) m ty pace nf)
      | _ => .error .function
    | 10 => decMask vd (fld w 15 3) (fld w 18 3) (fld w 21 3) (fld w 24 5) (fld w 29 3)
    | 11 => decSd vd (fld w 15 5) (fld w 20 5) (fld w 25 5) (fld w 30 2)
    | 12 => if fld w 23 3 = 0 then accepted (.vbqAddrq (vreg vd) (vreg vs1) (vreg vs2) ty pace nf) else .error .nonZero
    | _ => .error .function

/-- R133, R136: a 32-bit word. -/
def decode32 (w : Nat) : Except Reject Instr :=
  let rd := fld w 7 5; let f3 := fld w 12 3; let rs1 := fld w 15 5; let rs2 := fld w 20 5; let f7 := fld w 25 7
  let op := fld w 0 7
  if op % 4 ≠ 3 ∨ op / 4 % 8 = 7 then .error .length
  else if op = 0x03 then decLoad rd f3 rs1 rs2 f7
  else if op = 0x0B then decStage rd f3 rs1 rs2 f7
  else if op = 0x0F then decMisc rd f3 rs1 rs2 f7
  else if op = 0x13 then decOpImm rd f3 rs1 rs2 f7
  else if op = 0x17 then .ok (.auipc (reg rd) (BitVec.ofNat 20 (f3 + 8 * rs1 + 256 * rs2 + 8192 * f7)))
  else if op = 0x1B then decOpImm32 rd f3 rs1 rs2 f7
  else if op = 0x23 then decStore rd f3 rs1 rs2 f7
  else if op = 0x2B then decScoped rd f3 rs1 rs2 f7
  else if op = 0x2F then decAmo rd f3 rs1 rs2 f7
  else if op = 0x33 then decOp rd f3 rs1 rs2 f7
  else if op = 0x37 then .ok (.lui (reg rd) (BitVec.ofNat 20 (f3 + 8 * rs1 + 256 * rs2 + 8192 * f7)))
  else if op = 0x3B then decOp32 rd f3 rs1 rs2 f7
  else if op = 0x43 ∨ op = 0x47 ∨ op = 0x4B ∨ op = 0x4F then decF4 op rd f3 rs1 rs2 f7
  else if op = 0x53 then decOpFp rd f3 rs1 rs2 f7
  else if op = 0x5B then
    decVector (fld w 7 4) (fld w 11 4) (fld w 15 4) (fld w 19 4) (fld w 23 3) (fld w 26 3) (fld w 29 2) (fld w 31 1)
  else if op = 0x63 then decBranch rd f3 rs1 rs2 f7
  else if op = 0x67 then
    if f3 = 0 then .ok (.jalr (reg rd) (reg rs1) (BitVec.ofNat 12 (rs2 + 32 * f7))) else .error .function
  else if op = 0x6F then
    .ok (.jal (reg rd) (BitVec.ofNat 20
      (f7 / 64 * 524288 + (rs1 * 8 + f3) * 2048 + rs2 % 2 * 1024 + f7 % 64 * 16 + rs2 / 2)))
  else if op = 0x73 then decSystem rd f3 rs1 rs2 f7
  else if op = 0x7B then decCustom3 w
  else .error .opcode

/-- R133: the instruction in the first four bytes of a little-endian stream, and the bytes after it. -/
def decodeBytes : List Byte → Except Reject (Instr × List Byte)
  | b0 :: b1 :: b2 :: b3 :: rest =>
    match decode32 (b0.toNat + 256 * b1.toNat + 65536 * b2.toNat + 16777216 * b3.toNat) with
    | .ok i => .ok (i, rest)
    | .error r => .error r
  | _ => .error .length

/-- The four bytes of a word, the least significant first (R133). -/
def wordBytes (w : Nat) : List Byte :=
  [BitVec.ofNat 8 w, BitVec.ofNat 8 (w / 256), BitVec.ofNat 8 (w / 65536), BitVec.ofNat 8 (w / 16777216)]

/-- The word of an instruction (R137 to R149), none for a tile command or an event. -/
def encode : Instr → Option Nat
  | .lb rd rs1 imm => some (layR 0x03 rd.toNat 0 rs1.toNat (imm.toNat % 32) (imm.toNat / 32))
  | .lh rd rs1 imm => some (layR 0x03 rd.toNat 1 rs1.toNat (imm.toNat % 32) (imm.toNat / 32))
  | .lw rd rs1 imm => some (layR 0x03 rd.toNat 2 rs1.toNat (imm.toNat % 32) (imm.toNat / 32))
  | .ld rd rs1 imm => some (layR 0x03 rd.toNat 3 rs1.toNat (imm.toNat % 32) (imm.toNat / 32))
  | .lbu rd rs1 imm => some (layR 0x03 rd.toNat 4 rs1.toNat (imm.toNat % 32) (imm.toNat / 32))
  | .lhu rd rs1 imm => some (layR 0x03 rd.toNat 5 rs1.toNat (imm.toNat % 32) (imm.toNat / 32))
  | .lwu rd rs1 imm => some (layR 0x03 rd.toNat 6 rs1.toNat (imm.toNat % 32) (imm.toNat / 32))
  | .sb rs2 rs1 imm => some (layR 0x23 (imm.toNat % 32) 0 rs1.toNat rs2.toNat (imm.toNat / 32))
  | .sh rs2 rs1 imm => some (layR 0x23 (imm.toNat % 32) 1 rs1.toNat rs2.toNat (imm.toNat / 32))
  | .sw rs2 rs1 imm => some (layR 0x23 (imm.toNat % 32) 2 rs1.toNat rs2.toNat (imm.toNat / 32))
  | .sd rs2 rs1 imm => some (layR 0x23 (imm.toNat % 32) 3 rs1.toNat rs2.toNat (imm.toNat / 32))
  | .beq rs1 rs2 off => some (layR 0x63 (off.toNat % 16 * 2 + off.toNat / 1024 % 2) 0 rs1.toNat rs2.toNat (off.toNat / 16 % 64 + off.toNat / 2048 * 64))
  | .bne rs1 rs2 off => some (layR 0x63 (off.toNat % 16 * 2 + off.toNat / 1024 % 2) 1 rs1.toNat rs2.toNat (off.toNat / 16 % 64 + off.toNat / 2048 * 64))
  | .blt rs1 rs2 off => some (layR 0x63 (off.toNat % 16 * 2 + off.toNat / 1024 % 2) 4 rs1.toNat rs2.toNat (off.toNat / 16 % 64 + off.toNat / 2048 * 64))
  | .bge rs1 rs2 off => some (layR 0x63 (off.toNat % 16 * 2 + off.toNat / 1024 % 2) 5 rs1.toNat rs2.toNat (off.toNat / 16 % 64 + off.toNat / 2048 * 64))
  | .bltu rs1 rs2 off => some (layR 0x63 (off.toNat % 16 * 2 + off.toNat / 1024 % 2) 6 rs1.toNat rs2.toNat (off.toNat / 16 % 64 + off.toNat / 2048 * 64))
  | .bgeu rs1 rs2 off => some (layR 0x63 (off.toNat % 16 * 2 + off.toNat / 1024 % 2) 7 rs1.toNat rs2.toNat (off.toNat / 16 % 64 + off.toNat / 2048 * 64))
  | .jal rd off => some (layR 0x6F rd.toNat (off.toNat / 2048 % 8) (off.toNat / 16384 % 32) (off.toNat % 16 * 2 + off.toNat / 1024 % 2) (off.toNat / 16 % 64 + off.toNat / 524288 * 64))
  | .jalr rd rs1 imm => some (layR 0x67 rd.toNat 0 rs1.toNat (imm.toNat % 32) (imm.toNat / 32))
  | .lui rd imm => some (layR 0x37 rd.toNat (imm.toNat % 8) (imm.toNat / 8 % 32) (imm.toNat / 256 % 32) (imm.toNat / 8192))
  | .auipc rd imm => some (layR 0x17 rd.toNat (imm.toNat % 8) (imm.toNat / 8 % 32) (imm.toNat / 256 % 32) (imm.toNat / 8192))
  | .addi rd rs1 imm => some (layR 0x13 rd.toNat 0 rs1.toNat (imm.toNat % 32) (imm.toNat / 32))
  | .slti rd rs1 imm => some (layR 0x13 rd.toNat 2 rs1.toNat (imm.toNat % 32) (imm.toNat / 32))
  | .sltiu rd rs1 imm => some (layR 0x13 rd.toNat 3 rs1.toNat (imm.toNat % 32) (imm.toNat / 32))
  | .xori rd rs1 imm => some (layR 0x13 rd.toNat 4 rs1.toNat (imm.toNat % 32) (imm.toNat / 32))
  | .ori rd rs1 imm => some (layR 0x13 rd.toNat 6 rs1.toNat (imm.toNat % 32) (imm.toNat / 32))
  | .andi rd rs1 imm => some (layR 0x13 rd.toNat 7 rs1.toNat (imm.toNat % 32) (imm.toNat / 32))
  | .slli rd rs1 sh => some (layR 0x13 rd.toNat 1 rs1.toNat (sh.toNat % 32) (sh.toNat / 32 + 0))
  | .srli rd rs1 sh => some (layR 0x13 rd.toNat 5 rs1.toNat (sh.toNat % 32) (sh.toNat / 32 + 0))
  | .srai rd rs1 sh => some (layR 0x13 rd.toNat 5 rs1.toNat (sh.toNat % 32) (sh.toNat / 32 + 32))
  | .addiw rd rs1 imm => some (layR 0x1B rd.toNat 0 rs1.toNat (imm.toNat % 32) (imm.toNat / 32))
  | .slliw rd rs1 sh => some (layR 0x1B rd.toNat 1 rs1.toNat sh.toNat 0)
  | .srliw rd rs1 sh => some (layR 0x1B rd.toNat 5 rs1.toNat sh.toNat 0)
  | .sraiw rd rs1 sh => some (layR 0x1B rd.toNat 5 rs1.toNat sh.toNat 32)
  | .add rd rs1 rs2 => some (layR 0x33 rd.toNat 0 rs1.toNat rs2.toNat 0)
  | .sll rd rs1 rs2 => some (layR 0x33 rd.toNat 1 rs1.toNat rs2.toNat 0)
  | .slt rd rs1 rs2 => some (layR 0x33 rd.toNat 2 rs1.toNat rs2.toNat 0)
  | .sltu rd rs1 rs2 => some (layR 0x33 rd.toNat 3 rs1.toNat rs2.toNat 0)
  | .xor rd rs1 rs2 => some (layR 0x33 rd.toNat 4 rs1.toNat rs2.toNat 0)
  | .srl rd rs1 rs2 => some (layR 0x33 rd.toNat 5 rs1.toNat rs2.toNat 0)
  | .or rd rs1 rs2 => some (layR 0x33 rd.toNat 6 rs1.toNat rs2.toNat 0)
  | .and rd rs1 rs2 => some (layR 0x33 rd.toNat 7 rs1.toNat rs2.toNat 0)
  | .mul rd rs1 rs2 => some (layR 0x33 rd.toNat 0 rs1.toNat rs2.toNat 1)
  | .mulh rd rs1 rs2 => some (layR 0x33 rd.toNat 1 rs1.toNat rs2.toNat 1)
  | .mulhsu rd rs1 rs2 => some (layR 0x33 rd.toNat 2 rs1.toNat rs2.toNat 1)
  | .mulhu rd rs1 rs2 => some (layR 0x33 rd.toNat 3 rs1.toNat rs2.toNat 1)
  | .div rd rs1 rs2 => some (layR 0x33 rd.toNat 4 rs1.toNat rs2.toNat 1)
  | .divu rd rs1 rs2 => some (layR 0x33 rd.toNat 5 rs1.toNat rs2.toNat 1)
  | .rem rd rs1 rs2 => some (layR 0x33 rd.toNat 6 rs1.toNat rs2.toNat 1)
  | .remu rd rs1 rs2 => some (layR 0x33 rd.toNat 7 rs1.toNat rs2.toNat 1)
  | .sub rd rs1 rs2 => some (layR 0x33 rd.toNat 0 rs1.toNat rs2.toNat 32)
  | .sra rd rs1 rs2 => some (layR 0x33 rd.toNat 5 rs1.toNat rs2.toNat 32)
  | .addw rd rs1 rs2 => some (layR 0x3B rd.toNat 0 rs1.toNat rs2.toNat 0)
  | .sllw rd rs1 rs2 => some (layR 0x3B rd.toNat 1 rs1.toNat rs2.toNat 0)
  | .srlw rd rs1 rs2 => some (layR 0x3B rd.toNat 5 rs1.toNat rs2.toNat 0)
  | .mulw rd rs1 rs2 => some (layR 0x3B rd.toNat 0 rs1.toNat rs2.toNat 1)
  | .divw rd rs1 rs2 => some (layR 0x3B rd.toNat 4 rs1.toNat rs2.toNat 1)
  | .divuw rd rs1 rs2 => some (layR 0x3B rd.toNat 5 rs1.toNat rs2.toNat 1)
  | .remw rd rs1 rs2 => some (layR 0x3B rd.toNat 6 rs1.toNat rs2.toNat 1)
  | .remuw rd rs1 rs2 => some (layR 0x3B rd.toNat 7 rs1.toNat rs2.toNat 1)
  | .subw rd rs1 rs2 => some (layR 0x3B rd.toNat 0 rs1.toNat rs2.toNat 32)
  | .sraw rd rs1 rs2 => some (layR 0x3B rd.toNat 5 rs1.toNat rs2.toNat 32)
  | .lr rd rs1 aq rl d => some (layR 0x2F rd.toNat (2 + bit d) rs1.toNat 0 (8 + 2 * bit aq + bit rl))
  | .sc rd rs2 rs1 aq rl d => some (layR 0x2F rd.toNat (2 + bit d) rs1.toNat rs2.toNat (12 + 2 * bit aq + bit rl))
  | .amoswap rd rs2 rs1 aq rl d => some (layR 0x2F rd.toNat (2 + bit d) rs1.toNat rs2.toNat (4 + 2 * bit aq + bit rl))
  | .amoadd rd rs2 rs1 aq rl d => some (layR 0x2F rd.toNat (2 + bit d) rs1.toNat rs2.toNat (0 + 2 * bit aq + bit rl))
  | .amoxor rd rs2 rs1 aq rl d => some (layR 0x2F rd.toNat (2 + bit d) rs1.toNat rs2.toNat (16 + 2 * bit aq + bit rl))
  | .amoand rd rs2 rs1 aq rl d => some (layR 0x2F rd.toNat (2 + bit d) rs1.toNat rs2.toNat (48 + 2 * bit aq + bit rl))
  | .amoor rd rs2 rs1 aq rl d => some (layR 0x2F rd.toNat (2 + bit d) rs1.toNat rs2.toNat (32 + 2 * bit aq + bit rl))
  | .amomin rd rs2 rs1 aq rl d => some (layR 0x2F rd.toNat (2 + bit d) rs1.toNat rs2.toNat (64 + 2 * bit aq + bit rl))
  | .amomax rd rs2 rs1 aq rl d => some (layR 0x2F rd.toNat (2 + bit d) rs1.toNat rs2.toNat (80 + 2 * bit aq + bit rl))
  | .amominu rd rs2 rs1 aq rl d => some (layR 0x2F rd.toNat (2 + bit d) rs1.toNat rs2.toNat (96 + 2 * bit aq + bit rl))
  | .amomaxu rd rs2 rs1 aq rl d => some (layR 0x2F rd.toNat (2 + bit d) rs1.toNat rs2.toNat (112 + 2 * bit aq + bit rl))
  | .fmaddS rd rs1 rs2 rs3 rm => some (layR 0x43 rd.toNat rm.code rs1.toNat rs2.toNat (4 * rs3.toNat))
  | .fmsubS rd rs1 rs2 rs3 rm => some (layR 0x47 rd.toNat rm.code rs1.toNat rs2.toNat (4 * rs3.toNat))
  | .fnmsubS rd rs1 rs2 rs3 rm => some (layR 0x4B rd.toNat rm.code rs1.toNat rs2.toNat (4 * rs3.toNat))
  | .fnmaddS rd rs1 rs2 rs3 rm => some (layR 0x4F rd.toNat rm.code rs1.toNat rs2.toNat (4 * rs3.toNat))
  | .faddS rd rs1 rs2 rm => some (layR 0x53 rd.toNat rm.code rs1.toNat rs2.toNat 0x00)
  | .fsubS rd rs1 rs2 rm => some (layR 0x53 rd.toNat rm.code rs1.toNat rs2.toNat 0x04)
  | .fmulS rd rs1 rs2 rm => some (layR 0x53 rd.toNat rm.code rs1.toNat rs2.toNat 0x08)
  | .fdivS rd rs1 rs2 rm => some (layR 0x53 rd.toNat rm.code rs1.toNat rs2.toNat 0x0C)
  | .fsqrtS rd rs1 rm => some (layR 0x53 rd.toNat rm.code rs1.toNat 0 0x2C)
  | .fsgnjS rd rs1 rs2 => some (layR 0x53 rd.toNat 0 rs1.toNat rs2.toNat 0x10)
  | .fsgnjnS rd rs1 rs2 => some (layR 0x53 rd.toNat 1 rs1.toNat rs2.toNat 0x10)
  | .fsgnjxS rd rs1 rs2 => some (layR 0x53 rd.toNat 2 rs1.toNat rs2.toNat 0x10)
  | .fminS rd rs1 rs2 => some (layR 0x53 rd.toNat 0 rs1.toNat rs2.toNat 0x14)
  | .fmaxS rd rs1 rs2 => some (layR 0x53 rd.toNat 1 rs1.toNat rs2.toNat 0x14)
  | .feqS rd rs1 rs2 => some (layR 0x53 rd.toNat 2 rs1.toNat rs2.toNat 0x50)
  | .fltS rd rs1 rs2 => some (layR 0x53 rd.toNat 1 rs1.toNat rs2.toNat 0x50)
  | .fleS rd rs1 rs2 => some (layR 0x53 rd.toNat 0 rs1.toNat rs2.toNat 0x50)
  | .fcvtWS rd rs1 rm => some (layR 0x53 rd.toNat rm.code rs1.toNat 0 0x60)
  | .fcvtWuS rd rs1 rm => some (layR 0x53 rd.toNat rm.code rs1.toNat 1 0x60)
  | .fcvtLS rd rs1 rm => some (layR 0x53 rd.toNat rm.code rs1.toNat 2 0x60)
  | .fcvtLuS rd rs1 rm => some (layR 0x53 rd.toNat rm.code rs1.toNat 3 0x60)
  | .fcvtSW rd rs1 rm => some (layR 0x53 rd.toNat rm.code rs1.toNat 0 0x68)
  | .fcvtSWu rd rs1 rm => some (layR 0x53 rd.toNat rm.code rs1.toNat 1 0x68)
  | .fcvtSL rd rs1 rm => some (layR 0x53 rd.toNat rm.code rs1.toNat 2 0x68)
  | .fcvtSLu rd rs1 rm => some (layR 0x53 rd.toNat rm.code rs1.toNat 3 0x68)
  | .fclassS rd rs1 => some (layR 0x53 rd.toNat 1 rs1.toNat 0 0x70)
  | .csrrw rd rs1 csr => some (layR 0x73 rd.toNat 1 rs1.toNat (csr.toNat % 32) (csr.toNat / 32))
  | .csrrs rd rs1 csr => some (layR 0x73 rd.toNat 2 rs1.toNat (csr.toNat % 32) (csr.toNat / 32))
  | .csrrc rd rs1 csr => some (layR 0x73 rd.toNat 3 rs1.toNat (csr.toNat % 32) (csr.toNat / 32))
  | .csrrwi rd uimm csr => some (layR 0x73 rd.toNat 5 uimm.toNat (csr.toNat % 32) (csr.toNat / 32))
  | .csrrsi rd uimm csr => some (layR 0x73 rd.toNat 6 uimm.toNat (csr.toNat % 32) (csr.toNat / 32))
  | .csrrci rd uimm csr => some (layR 0x73 rd.toNat 7 uimm.toNat (csr.toNat % 32) (csr.toNat / 32))
  | .ecall => some (layR 0x73 0 0 0 0 0)
  | .ebreak => some (layR 0x73 0 0 0 1 0)
  | .sret => some (layR 0x73 0 0 0 2 8)
  | .wfi => some (layR 0x73 0 0 0 5 8)
  | .fence rd rs1 fm pred succ => some (layR 0x0F rd.toNat 0 rs1.toNat (pred.toNat % 2 * 16 + succ.toNat) (fm.toNat * 8 + pred.toNat / 2))
  | .fenceI rd rs1 imm => some (layR 0x0F rd.toNat 1 rs1.toNat (imm.toNat % 32) (imm.toNat / 32))
  | .qBt k lvl off => some (layR 0x0B (off.toNat % 32) 0 (24 + k.toNat) (off.toNat / 32 % 4 * 8 + lvl.toNat) (64 + off.toNat / 128))
  | .qTok k lvl => some (layR 0x0B (24 + k.toNat) 0 0 lvl.toNat 0)
  | .qCnt rd k => some (layR 0x0B rd.toNat 0 (24 + k.toNat) 0 1)
  | .qPeek rd k => some (layR 0x0B rd.toNat 0 (24 + k.toNat) 0 2)
  | .qTag rd k => some (layR 0x0B rd.toNat 0 (24 + k.toNat) 0 3)
  | .qClose k => some (layR 0x0B 0 0 (24 + k.toNat) 0 4)
  | .qBind rd rs1 rs2 => some (layR 0x0B rd.toNat 0 rs1.toNat rs2.toNat 5)
  | .qUnbind rd rs1 => some (layR 0x0B rd.toNat 0 rs1.toNat 0 6)
  | .ctxStart rd rs1 => some (layR 0x0B rd.toNat 1 rs1.toNat 0 0)
  | .ctxReap rs1 rs2 => some (layR 0x0B 0 1 rs1.toNat rs2.toNat 1)
  | .ctxResume rs1 => some (layR 0x0B 0 1 rs1.toNat 0 2)
  | .ctxPark => some (layR 0x0B 0 1 0 0 3)
  | .ctxExit => some (layR 0x0B 0 1 0 0 4)
  | .ctxSelf rd => some (layR 0x0B rd.toNat 1 0 0 5)
  | .evSet rs1 rs2 => some (layR 0x0B 0 2 rs1.toNat rs2.toNat 0)
  | .evClr rs1 rs2 => some (layR 0x0B 0 2 rs1.toNat rs2.toNat 1)
  | .evWait rs1 => some (layR 0x0B 0 2 rs1.toNat 0 2)
  | .evWaitm rs1 rs2 => some (layR 0x0B 0 2 rs1.toNat rs2.toNat 3)
  | .evRd rd rs1 rs2 => some (layR 0x0B rd.toNat 2 rs1.toNat rs2.toNat 4)
  | .cnInit rs1 rs2 => some (layR 0x0B 0 3 rs1.toNat rs2.toNat 0)
  | .cnArrive rs1 rs2 => some (layR 0x0B 0 3 rs1.toNat rs2.toNat 1)
  | .cnDrop rs1 rs2 => some (layR 0x0B 0 3 rs1.toNat rs2.toNat 2)
  | .cnJoin rd rs1 => some (layR 0x0B rd.toNat 3 rs1.toNat 0 3)
  | .cnWait rd rs1 rs2 => some (layR 0x0B rd.toNat 3 rs1.toNat rs2.toNat 4)
  | .cnTry rd rs1 rs2 => some (layR 0x0B rd.toNat 3 rs1.toNat rs2.toNat 5)
  | .cnStat rd rs1 => some (layR 0x0B rd.toNat 3 rs1.toNat 0 6)
  | .lnPost rs1 => some (layR 0x0B 0 4 rs1.toNat 0 0)
  | .lnHash rs1 rs2 => some (layR 0x0B 0 4 rs1.toNat rs2.toNat 1)
  | .lnRep rd rs1 => some (layR 0x0B rd.toNat 4 rs1.toNat 0 2)
  | .lnSnap rs1 rs2 => some (layR 0x0B 0 4 rs1.toNat rs2.toNat 3)
  | .lnReplay rs1 rs2 => some (layR 0x0B 0 4 rs1.toNat rs2.toNat 4)
  | .lnQuiet rs1 => some (layR 0x0B 0 4 rs1.toNat 0 5)
  | .tidSet rs1 rs2 => some (layR 0x0B 0 5 rs1.toNat rs2.toNat 0)
  | .tidDrop rs1 => some (layR 0x0B 0 5 rs1.toNat 0 1)
  | .tidGet rs1 rs2 => some (layR 0x0B 0 5 rs1.toNat rs2.toNat 2)
  | .pgOpen rd rs1 rs2 => some (layR 0x0B rd.toNat 6 rs1.toNat rs2.toNat 0)
  | .pgClose rd rs1 => some (layR 0x0B rd.toNat 6 rs1.toNat 0 1)
  | .pgStat rd rs1 => some (layR 0x0B rd.toNat 6 rs1.toNat 0 2)
  | .pxRun rd rs1 rs2 rs3 slot => some (layR 0x0B rd.toNat 7 rs1.toNat rs2.toNat (4 * rs3.toNat + slot.toNat))
  | .pxLoad slot rs1 => some (layR 0x0B 0 7 rs1.toNat 0 slot.toNat)
  | .xamAdd rd rs2 rs1 ord d sc => some (layR 0x2B rd.toNat (3 + sc.code) rs1.toNat rs2.toNat (0 + 2 * ord.code + bit d))
  | .xamAnd rd rs2 rs1 ord d sc => some (layR 0x2B rd.toNat (3 + sc.code) rs1.toNat rs2.toNat (8 + 2 * ord.code + bit d))
  | .xamOr rd rs2 rs1 ord d sc => some (layR 0x2B rd.toNat (3 + sc.code) rs1.toNat rs2.toNat (16 + 2 * ord.code + bit d))
  | .xamXor rd rs2 rs1 ord d sc => some (layR 0x2B rd.toNat (3 + sc.code) rs1.toNat rs2.toNat (24 + 2 * ord.code + bit d))
  | .xamMin rd rs2 rs1 ord d sc => some (layR 0x2B rd.toNat (3 + sc.code) rs1.toNat rs2.toNat (32 + 2 * ord.code + bit d))
  | .xamMax rd rs2 rs1 ord d sc => some (layR 0x2B rd.toNat (3 + sc.code) rs1.toNat rs2.toNat (40 + 2 * ord.code + bit d))
  | .xamMinu rd rs2 rs1 ord d sc => some (layR 0x2B rd.toNat (3 + sc.code) rs1.toNat rs2.toNat (48 + 2 * ord.code + bit d))
  | .xamMaxu rd rs2 rs1 ord d sc => some (layR 0x2B rd.toNat (3 + sc.code) rs1.toNat rs2.toNat (56 + 2 * ord.code + bit d))
  | .xamSwap rd rs2 rs1 ord d sc => some (layR 0x2B rd.toNat (3 + sc.code) rs1.toNat rs2.toNat (64 + 2 * ord.code + bit d))
  | .xamCas rd rs2 rs1 ord d sc => some (layR 0x2B rd.toNat (3 + sc.code) rs1.toNat rs2.toNat (72 + 2 * ord.code + bit d))
  | .xamFadd rd rs2 rs1 ord sc => some (layR 0x2B rd.toNat (3 + sc.code) rs1.toNat rs2.toNat (80 + 2 * ord.code))
  | .xamBfadd2 rd rs2 rs1 ord sc => some (layR 0x2B rd.toNat (3 + sc.code) rs1.toNat rs2.toNat (88 + 2 * ord.code))
  | .mfence sc => some (layR 0x2B 0 2 0 sc.code 0)
  | .clFlush rs1 => some (layR 0x2B 0 2 rs1.toNat 0 1)
  | .clClean rs1 => some (layR 0x2B 0 2 rs1.toNat 0 2)
  | .clZero rs1 => some (layR 0x2B 0 2 rs1.toNat 0 3)
  | .clPref rs1 => some (layR 0x2B 0 2 rs1.toNat 0 4)
  | .clInval rs1 => some (layR 0x2B 0 2 rs1.toNat 0 5)
  | .tcIssue rs1 => some (layR 0x2B 0 2 rs1.toNat 0 8)
  | .tcIssuev vs => some (layR 0x2B 0 2 vs.toNat 0 9)
  | .mld rd rs1 off sz ord sc => some (layR 0x2B rd.toNat 0 rs1.toNat off.toNat (16 * sc.code + 4 * ord.code + sz.toNat))
  | .mst rs2 rs1 off sz ord sc => some (layR 0x2B off.toNat 1 rs1.toNat rs2.toNat (16 * sc.code + 4 * ord.code + sz.toNat))
  | .vadd vd vs1 vs2 m ty pace nf => some (layV 0x5B vd.toNat 0 vs1.toNat vs2.toNat m.toNat ty.code pace.toNat (bit nf))
  | .vsub vd vs1 vs2 m ty pace nf => some (layV 0x5B vd.toNat 1 vs1.toNat vs2.toNat m.toNat ty.code pace.toNat (bit nf))
  | .vmul vd vs1 vs2 m ty pace nf => some (layV 0x5B vd.toNat 2 vs1.toNat vs2.toNat m.toNat ty.code pace.toNat (bit nf))
  | .vfma vd vs1 vs2 m ty pace nf => some (layV 0x5B vd.toNat 3 vs1.toNat vs2.toNat m.toNat ty.code pace.toNat (bit nf))
  | .vfms vd vs1 vs2 m ty pace nf => some (layV 0x5B vd.toNat 4 vs1.toNat vs2.toNat m.toNat ty.code pace.toNat (bit nf))
  | .vfnma vd vs1 vs2 m ty pace nf => some (layV 0x5B vd.toNat 5 vs1.toNat vs2.toNat m.toNat ty.code pace.toNat (bit nf))
  | .vmin vd vs1 vs2 m ty pace nf => some (layV 0x5B vd.toNat 6 vs1.toNat vs2.toNat m.toNat ty.code pace.toNat (bit nf))
  | .vmax vd vs1 vs2 m ty pace nf => some (layV 0x5B vd.toNat 7 vs1.toNat vs2.toNat m.toNat ty.code pace.toNat (bit nf))
  | .vand vd vs1 vs2 m ty pace nf => some (layV 0x5B vd.toNat 8 vs1.toNat vs2.toNat m.toNat ty.code pace.toNat (bit nf))
  | .vor vd vs1 vs2 m ty pace nf => some (layV 0x5B vd.toNat 9 vs1.toNat vs2.toNat m.toNat ty.code pace.toNat (bit nf))
  | .vxor vd vs1 vs2 m ty pace nf => some (layV 0x5B vd.toNat 10 vs1.toNat vs2.toNat m.toNat ty.code pace.toNat (bit nf))
  | .vshl vd vs1 vs2 m ty pace nf => some (layV 0x5B vd.toNat 11 vs1.toNat vs2.toNat m.toNat ty.code pace.toNat (bit nf))
  | .vshr vd vs1 vs2 m ty pace nf => some (layV 0x5B vd.toNat 12 vs1.toNat vs2.toNat m.toNat ty.code pace.toNat (bit nf))
  | .vsra vd vs1 vs2 m ty pace nf => some (layV 0x5B vd.toNat 13 vs1.toNat vs2.toNat m.toNat ty.code pace.toNat (bit nf))
  | .vdot2 vd vs1 vs2 m ty pace nf => some (layV 0x5B vd.toNat 14 vs1.toNat vs2.toNat m.toNat ty.code pace.toNat (bit nf))
  | .vabs vd vs1 m ty pace nf => some (layV 0x5B vd.toNat 15 vs1.toNat 0 m.toNat ty.code pace.toNat (bit nf))
  | .vneg vd vs1 m ty pace nf => some (layV 0x5B vd.toNat 15 vs1.toNat 1 m.toNat ty.code pace.toNat (bit nf))
  | .vrcp vd vs1 m ty pace nf => some (layV 0x5B vd.toNat 15 vs1.toNat 2 m.toNat ty.code pace.toNat (bit nf))
  | .vrsq vd vs1 m ty pace nf => some (layV 0x5B vd.toNat 15 vs1.toNat 3 m.toNat ty.code pace.toNat (bit nf))
  | .vexp2 vd vs1 m ty pace nf => some (layV 0x5B vd.toNat 15 vs1.toNat 4 m.toNat ty.code pace.toNat (bit nf))
  | .vlog2 vd vs1 m ty pace nf => some (layV 0x5B vd.toNat 15 vs1.toNat 5 m.toNat ty.code pace.toNat (bit nf))
  | .vld v rs1 m e => some (layM 0x7B v.toNat 0 rs1.toNat 0 m.toNat e.code)
  | .vlds v rs1 rs2 m e => some (layM 0x7B v.toNat 0 rs1.toNat (32 + rs2.toNat) m.toNat e.code)
  | .vldx v rs1 vi m e => some (layM 0x7B v.toNat 0 rs1.toNat (64 + vi.toNat) m.toNat e.code)
  | .vst v rs1 m e => some (layM 0x7B v.toNat 1 rs1.toNat 0 m.toNat e.code)
  | .vsts v rs1 rs2 m e => some (layM 0x7B v.toNat 1 rs1.toNat (32 + rs2.toNat) m.toNat e.code)
  | .vstx v rs1 vi m e => some (layM 0x7B v.toNat 1 rs1.toNat (64 + vi.toNat) m.toNat e.code)
  | .vbcast vd rs1 ty pace => some (layM 0x7B vd.toNat 6 rs1.toNat 0 ty.code pace.toNat)
  | .vmvxToX rd vs rs2 ty pace => some (layM 0x7B vs.toNat 6 rd.toNat (1 + 4 * rs2.toNat) ty.code pace.toNat)
  | .vmvxToV vd rs1 rs2 ty pace => some (layM 0x7B vd.toNat 6 rs1.toNat (2 + 4 * rs2.toNat) ty.code pace.toNat)
  | .vshape rd rs1 ty pace => some (layM 0x7B 0 6 rd.toNat (3 + 4 * rs1.toNat) ty.code pace.toNat)
  | .mand md ma mb => some (layK 0x7B md.toNat 10 ma.toNat mb.toNat 0 0 0)
  | .mor md ma mb => some (layK 0x7B md.toNat 10 ma.toNat mb.toNat 1 0 0)
  | .mxor md ma mb => some (layK 0x7B md.toNat 10 ma.toNat mb.toNat 2 0 0)
  | .mnot md ma => some (layK 0x7B md.toNat 10 ma.toNat 0 3 0 0)
  | .mpop rd ma => some (layK 0x7B 0 10 ma.toNat 0 4 rd.toNat 0)
  | .mfirst rd ma => some (layK 0x7B 0 10 ma.toNat 0 5 rd.toNat 0)
  | .mset md rs1 => some (layK 0x7B md.toNat 10 0 0 6 rs1.toNat 0)
  | .cxRd rd rs1 => some (layS 0x7B 0 11 rs1.toNat 0 rd.toNat 0)
  | .cxWr rs1 rs2 => some (layS 0x7B 1 11 rs1.toNat rs2.toNat 0 0)
  | .ownSet rs1 rs2 => some (layS 0x7B 2 11 rs1.toNat rs2.toNat 0 0)
  | .ownGet rd rs1 => some (layS 0x7B 3 11 rs1.toNat 0 rd.toNat 0)
  | .pmReq rd rs1 rs2 => some (layS 0x7B 4 11 rs1.toNat rs2.toNat rd.toNat 0)
  | .pmLoad rd rs1 => some (layS 0x7B 5 11 rs1.toNat 0 rd.toNat 0)
  | .escRes rs1 => some (layS 0x7B 6 11 rs1.toNat 0 0 0)
  | .vcmpEq md vs1 vs2 m ty pace nf => some (layV 0x7B (0 + md.toNat) 2 vs1.toNat vs2.toNat m.toNat ty.code pace.toNat (bit nf))
  | .vcmpLt md vs1 vs2 m ty pace nf => some (layV 0x7B (8 + md.toNat) 2 vs1.toNat vs2.toNat m.toNat ty.code pace.toNat (bit nf))
  | .vcmpNe md vs1 vs2 m ty pace nf => some (layV 0x7B (0 + md.toNat) 3 vs1.toNat vs2.toNat m.toNat ty.code pace.toNat (bit nf))
  | .vcmpLe md vs1 vs2 m ty pace nf => some (layV 0x7B (8 + md.toNat) 3 vs1.toNat vs2.toNat m.toNat ty.code pace.toNat (bit nf))
  | .vsel vd vs1 vs2 m ty pace nf => some (layV 0x7B vd.toNat 4 vs1.toNat vs2.toNat m.toNat ty.code pace.toNat (bit nf))
  | .vperm vd vs1 vs2 m ty pace nf => some (layV 0x7B vd.toNat 8 vs1.toNat vs2.toNat m.toNat ty.code pace.toNat (bit nf))
  | .vcvt vd vs1 m ty sty sat pace nf => some (layV 0x7B vd.toNat 5 vs1.toNat (sty.code + 8 * bit sat) m.toNat ty.code pace.toNat (bit nf))
  | .vmvv vd vs1 m ty pace nf => some (layV 0x7B vd.toNat 7 vs1.toNat 0 m.toNat ty.code pace.toNat (bit nf))
  | .vredSum vd vs1 m ty pace nf => some (layV 0x7B vd.toNat 9 vs1.toNat 0 m.toNat ty.code pace.toNat (bit nf))
  | .vredMax vd vs1 m ty pace nf => some (layV 0x7B vd.toNat 9 vs1.toNat 1 m.toNat ty.code pace.toNat (bit nf))
  | .vredMin vd vs1 m ty pace nf => some (layV 0x7B vd.toNat 9 vs1.toNat 2 m.toNat ty.code pace.toNat (bit nf))
  | .vbqAddrq vd vs1 vs2 ty pace nf => some (layV 0x7B vd.toNat 12 vs1.toNat vs2.toNat 0 ty.code pace.toNat (bit nf))
  | .hint rd rs1 h => some (layR 0x7B rd.toNat 7 rs1.toNat (h.toNat % 32) (h.toNat / 32))
  | _ => none

/-- What the decoder reads from a row's bits, numbered as the opcode table numbers them: one 32-bit word, its bytes laid
out the least significant first. -/
def decodeTableWord (nbits w : Nat) : Option Instr :=
  if nbits > 32 then none
  else match decodeBytes (wordBytes (w % 2 ^ nbits)) with
    | .ok (i, _) => some i
    | .error _ => none

end Sys2Proof
end

