-- ==== Sys2Proof/Machine/State.lean ====
section
/-! DEFINITION. Machine/State.lean: everything the manual gives the machine, as plain data; the reasons a step
can stop; and the machine right after package cold reset (R446). Large arrays (131,072 contexts, 8,192 cores,
32 clusters, 4 dies, 4 partitions) are tables that need not list entries at their reset value. -/

namespace Sys2Proof.Machine

/-- Why a step can stop. `noSuchAgent`: raised by a turn or an event that names no context or hub core (safe: the
device has no such agent). `noSuchObject`: raised by an event that names a die, cluster, core or unit that the
package does not have (safe). -/
inductive Fault where
  | noSuchAgent
  | noSuchObject
  deriving DecidableEq, Repr

/-- An instruction without a meaning. `notModelled`: raised by an arm of `exec` that has no meaning yet, with its
mnemonic (safe: nothing follows from it). -/
inductive Refusal where
  | notModelled (mnemonic : String)
  deriving DecidableEq, Repr

/-- A table keyed by a number, in increasing key order; a key that is not listed holds the table's default. -/
abbrev Tbl (α : Type) := List (Nat × α)

/-- R68: the class of a memory location; `spad` is the scratchpad window (R74). -/
inductive Cls where
  | hbm (die : Nat)
  | priv
  | shared
  | peer
  | mgmt
  | host
  /-- R435: device memory of another partition -/
  | foreign
  | spad
  deriving DecidableEq, Repr

/-- A location: its class and the address under which State keeps it: for device memory the package's device address
(137,438,953,472 bytes a die), for the scratchpads cluster × 2^24 + byte, for host memory the physical address above 2^52 × 5, else the physical
address above 2^52 × (1 + partition). Host memory is one memory for all partitions, as R420 has it (log entry 84). -/
structure Loc where
  cls : Cls
  key : Nat
  deriving DecidableEq, Repr

/-- R35: a queue entry: payload and 4-bit tag (bit 3: token; bits 2:0: level). -/
structure Entry where
  payload : Word
  tag : BitVec 4
  deriving DecidableEq, Repr

/-- An entry of a queue: its position in the stream, its contents (for a coil the payload and tag as they were pushed; the ring in memory is
what a pop reads), and the consumer that it belongs to: the one that claimed its bag (R47). -/
structure Item where
  pos : Nat
  entry : Entry
  owner : Option Nat
  deriving DecidableEq, Repr

/-- R24: what a parked context waits for. -/
inductive Park where
  /-- an entry at the head of read end k -/
  | pop (k : Nat)
  /-- R194, R195: the same, to look at it -/
  | look (k : Nat)
  /-- a free slot of write end k, for a token or for a data entry (R41; R327: a pug credit when the end's reader is a pug) -/
  | push (k : Nat) (token : Bool)
  /-- the phase of a cone passes v -/
  | cone (name v : Nat)
  /-- event bits -/
  | event (bits : BitVec 256)
  /-- a free entry of the command window -/
  | window
  /-- space in a launch queue: the post `id` waits to be accepted -/
  | launch (id : Nat)
  /-- space in the replay buffer of the cluster for n records -/
  | replay (n : Nat)
  /-- the first draw of a group after a time -/
  | draw (group start : Nat)
  /-- `ctx.park` -/
  | self
  /-- the answer to page request group `id` -/
  | page (id : Nat)
  /-- a cone's reply to message `id` -/
  | coneReply (id : Nat)
  /-- a balancer's reply to message `id`, or the performed write of a snapshot -/
  | balReply (id : Nat)
  /-- the end of context n of the core -/
  | reap (ctx : Nat)
  /-- the close of pug p -/
  | pugClose (p : Nat)
  deriving DecidableEq, Repr

/-- R25: the state of a context. -/
inductive Status where
  | free
  | ready
  | parked (why : Park)
  | trapped
  deriving DecidableEq, Repr

/-- R9, R37: an entry that an issued instruction has popped from end `k` and that goes back when it traps: its place in the local queue `queue` (none:
it was sent to the consumer, or comes from a queue of the hardware); `fresh`: with it the consumer claimed its bag (R47). -/
structure Taken where
  k : Nat
  item : Item
  queue : Option Nat
  fresh : Bool
  deriving DecidableEq, Repr

/-- R8, R9, R37: what an issued instruction that awaits a reply has used: the values of its operands, the entries they were popped from, and the
write end's queue in which a slot is kept for its result. -/
structure Claim where
  vals : List Word
  taken : List Taken
  slot : Option Nat
  deriving DecidableEq, Repr

/-- R34, R36, R193: a queue end of a context. -/
structure QEnd where
  /-- the queue bound, by number in the list of live queues; none when unbound -/
  queue : Option Nat := none
  write : Bool := false
  closed : Bool := false
  /-- R322: the pug that the end is lent to -/
  lent : Option Nat := none
  /-- R40: entries that the owner has sent to this consumer and that it has not popped -/
  got : List Item := []
  /-- R40: a pop request of this consumer is on its way to the owner -/
  asked : Bool := false
  /-- R40: the place in the owner's order of the pop request that it has received and not served -/
  waits : Option Nat := none
  deriving DecidableEq, Repr

/-- R179: the user CSRs of a context that it holds itself. -/
structure UCsr where
  fflags : BitVec 5 := 0
  frm : BitVec 3 := 0
  spovf : Word := 0
  vseed : BitVec 32 := 1
  vrm : BitVec 3 := 0
  vflg0 : Word := 0
  vflg1 : Word := 0
  tkvec : Vector Word 8 := Vector.replicate 8 0
  tklvl : BitVec 3 := 0
  tkq : BitVec 3 := 0
  tkepc : Word := 0
  instret : Word := 0
  deriving DecidableEq, Repr

/-- R374 to R377: the supervisor CSRs of a context 0 or of a hub core. -/
structure SCsr where
  sstatus : Word := 0
  sie : Word := 0
  sip : Word := 0
  stvec : Word := 0
  sepc : Word := 0
  scause : Word := 0
  stval : Word := 0
  stimecmp : Word := 0xFFFFFFFFFFFFFFFF
  /-- R377: no time value has matched since the last write of `stimecmp` -/
  armed : Bool := true
  /-- R380: the doorbell word collected while SEIP is 1 -/
  door : Word := 0
  /-- R380: the line address of the pending LOSS, and the save area of the pending PMT -/
  lossAddr : Word := 0
  pmtAddr : Word := 0
  deriving DecidableEq, Repr

/-- R265: a vector producer that is still judged: the registers and masks it wrote (bits 0-15: v, 16-23: m), its
address, its row-0 latency and the issue distance since it. -/
structure Producer where
  wrote : BitVec 24
  addr : Word
  lat : Nat
  dist : Nat
  deriving DecidableEq, Repr

/-- R257: the vector state of a context. Row r of register i is row 16r + i of the allotment. -/
structure Vec where
  vrows : Nat := 0
  rows : Nat := 0
  len : Nat := 64
  vrf : Tbl Row := []
  masks : Vector Row 8 := Vector.replicate 8 0
  pace : List Producer := []
  deriving DecidableEq, Repr

/-- R55, R288: an entry of a command window: the four words, the generator's seed, and the number of the sent
command when it has been sent. -/
structure WinEntry where
  w0 : Word
  w1 : Word
  w2 : Word
  w3 : Word
  seed : BitVec 32
  sent : Option Nat
  deriving DecidableEq, Repr

/-- What an entry of a store buffer does when it is performed (R80, R249). -/
inductive SbKind where
  | store
  /-- `cl.zero` -/
  | zero
  | clean
  | flush
  | inval
  deriving DecidableEq, Repr

/-- R80, R249, R268: one entry of a store buffer: the bytes it writes, in the order in which they are written, each with its
place: (true, byte of the cluster memories' scratchpads) or (false, kept address). -/
structure SbEntry where
  kind : SbKind := .store
  /-- the address that names the line of a `cl.*` entry -/
  addr : Nat := 0
  bytes : List ((Bool × Nat) × Byte) := []
  order : Order := .rlx
  scope : Scope := .sys
  /-- R416: the source lines of the translations used -/
  tags : List Nat := []
  /-- the effective address of the store -/
  ea : Word := 0
  /-- its place in program order: accesses with a smaller number come before it -/
  seq : Nat := 0
  /-- R461: its elements are those of a vector store, each narrower than a doubleword -/
  narrow : Bool := false
  deriving DecidableEq, Repr

/-- R173, R175: a reservation: the block, the clock value of its `lr`, its validity; `prio`: the clock value until
which it is a priority reservation. -/
structure Resv where
  block : Nat
  since : Nat
  valid : Bool
  prio : Option Nat
  deriving DecidableEq, Repr

/-- R175: a qualification for a priority reservation on a block: the time of the failing `sc`, the order in which the
site received the qualifying `lr`, and the end of its window. -/
structure Qual where
  block : Nat
  since : Nat
  seq : Option Nat
  until_ : Nat
  deriving DecidableEq, Repr

/-- What answered a message that a context has sent. -/
inductive Reply where
  | value (v : Word)
  | trap (cause : Nat) (tval : Word)
  | offline
  deriving DecidableEq, Repr

/-- R90, R416: what a load reads as one: its row and element (0 for a scalar), its effective address, its stretches by page, and the source lines of
their translations. -/
structure ReadElem where
  row : Nat
  elem : Nat
  ea : Word
  pieces : List (Loc × Nat)
  tags : List Nat
  deriving DecidableEq, Repr

/-- R20, R470: a load, an atomic, an `lr` or an `sc` that has issued and whose value or reply has not come, or whose result is still to be pushed.
`id`: its place in program order, and the number of its message. `rd` takes the value of `size` bytes, `signed` or not; `vd` the elements of a
vector load. `marks`: the registers that wait for it (R20). `slot`: the queue in which a slot is kept for its result (R37); `taken`: what goes back
when an access of order aq or ar traps (R9, R237). -/
structure Outstanding where
  id : Nat
  pc : Word
  iw : Word
  order : Order
  atomic : Bool
  rd : Reg
  vd : Option VReg
  size : Nat
  signed : Bool
  elems : List ReadElem
  marks : BitVec 56
  slot : Option Nat
  taken : List Taken
  reply : Option Reply
  deriving DecidableEq, Repr

/-- R50: a launch record, word by word. -/
structure LRec where
  w0 : Word
  w1 : Word
  w2 : Word
  w3 : Word
  w4 : Word
  w5 : Word
  w6 : Word
  w7 : Word
  deriving DecidableEq, Repr

/-- R383: a trap or interrupt record. -/
structure TrapRec where
  ctx : Nat
  w0 : Word
  w1 : Word
  w2 : Word
  w3 : Word
  deriving DecidableEq, Repr

/-- R389: a kind of access that a translation serves. -/
inductive Access where
  | read
  | write
  | fetch
  deriving DecidableEq, Repr

/-- R389 to R391: a scout in progress: the pages found so far with their write marks, the registers that are not known
(bits 0-31: x, 32-47: v, 48-55: m), and the number of scouted instructions. -/
structure Scout where
  pages : List (Nat × Bool)
  unknown : BitVec 56
  count : Nat
  /-- the checkpoint: pc, x registers, vector state and user CSRs -/
  pc : Word
  x : Vector Word 32
  vec : Vec
  ucsr : UCsr
  /-- R391, R404: the PASID of the space, for the request group -/
  pasid : Nat := 0
  deriving DecidableEq, Repr

/-- A context of a barrel core, or a hub core. -/
structure Ctx where
  status : Status := .free
  /-- R372: supervisor mode -/
  sup : Bool := false
  /-- the address space (R404) -/
  space : Nat := 0
  pc : Word := 0
  x : Vector Word 32 := Vector.replicate 32 0
  ends : Vector QEnd 8 := Vector.replicate 8 {}
  ucsr : UCsr := {}
  scsr : SCsr := {}
  vec : Vec := {}
  /-- R54 -/
  ev : BitVec 256 := 0
  /-- R20: the first cycle after the rotation floor -/
  readyAt : Nat := 0
  /-- R213: the cycle in which engines last set bits, the bits that they set in it, and the event bits as the instructions of that cycle see them -/
  evCycle : Option Nat := none
  evEngine : BitVec 256 := 0
  evSeen : BitVec 256 := 0
  /-- R207 -/
  wake : Bool := false
  /-- R55: the revision that the window is bound to (0: unbound) and its entries, oldest first -/
  winRev : Nat := 0
  win : List WinEntry := []
  /-- R80: the store buffer, oldest first -/
  sb : List SbEntry := []
  resv : Option Resv := none
  qual : Option Qual := none
  /-- the message whose reply the context waits for, and the reply -/
  sent : Option Nat := none
  reply : Option Reply := none
  /-- R8, R37: the instruction that awaits a reply has issued -/
  claim : Option Claim := none
  /-- R470: the accesses that are outstanding, in program order -/
  out : List Outstanding := []
  /-- R27: the launch record the context started from -/
  record : Option LRec := none
  /-- R48: the stage instance, at the load balancer of cluster `.1`, by number `.2` -/
  stage : Option (Nat × Nat) := none
  /-- R27: when the context started (its order among the contexts of an instance) -/
  born : Nat := 0
  /-- R77, in 256-byte units -/
  cbase : Nat := 0
  ctop : Nat := 0
  scout : Option Scout := none
  /-- R392, R393: the access, address and instruction word of the fault whose page request is under way -/
  pageFault : Option (Access × Word × Word) := none
  /-- R397: the record of the trap a TRAPPED context took -/
  trapRec : Option TrapRec := none
  /-- R456: the state before a halt -/
  halted : Option Status := none
  /-- R457: ENTRY -/
  dbgEntry : Bool := false
  /-- R457: one instruction is to issue, then the context halts again -/
  stepping : Bool := false
  /-- R204, R397: context 0 or a pre-emption has asked for this context; it issues nothing more -/
  stopping : Option (BitVec 8) := none
  deriving DecidableEq, Repr

/-- R411: one leaf in a TLB. -/
structure TlbEntry where
  part : Nat
  space : Nat
  va : Nat
  size : Nat
  pa : Nat
  w : Bool
  u : Bool
  x : Bool
  d : Bool
  tags : List Nat
  deriving DecidableEq, Repr

/-- R458: an event counter with its select word. -/
structure Counter where
  sel : Word := 0
  val : Word := 0
  deriving DecidableEq, Repr

/-- R333, R335: a configured slot of a patch: its owner (SPACE and INST) and its image. -/
structure Slot where
  space : Nat
  inst : Nat
  cells : List Word
  deriving DecidableEq, Repr

/-- A barrel core: what its 16 contexts share. -/
structure Core where
  /-- R181: the clock value at the last core reset; none: that of the die -/
  since : Option Nat := none
  /-- R21: the context that issued last -/
  last : Nat := 0
  /-- R22, R459: the first cycle in which the issue slot is free, and how many of the cycles just before it were issue cycles -/
  slotAt : Nat := 0
  run : Nat := 0
  /-- R388: the owner tags of the 16 blocks, as `own.get` returns them; one that is not listed is NONE -/
  owner : Tbl Word := []
  /-- R382: the trap queue, and the records that wait for it, oldest first -/
  trapQ : List Entry := []
  waiting : List TrapRec := []
  /-- R384: pops until no entry of an interrupt record is left in the trap queue -/
  intr : Nat := 0
  /-- R52: the launch-handle queue -/
  handles : List Entry := []
  /-- R378 -/
  scctl : Word := 0
  /-- R458: core event counters -/
  ctr : Vector Counter 4 := Vector.replicate 4 {}
  /-- R332 -/
  slots : Vector (Option Slot) 4 := Vector.replicate 4 none
  /-- R457 -/
  armbrk : Bool := false
  /-- R80, R84: halves of lines in the L1 data cache with the end of their lease -/
  l1 : Tbl Nat := []
  /-- R12, R70, R94: halves of lines in the L1 instruction cache as they were fetched -/
  icache : Tbl (BitVec 512) := []
  /-- R414 -/
  tlb : List TlbEntry := []
  /-- R450: a core reset has been asked for, and contexts are still to be reaped -/
  resetting : Bool := false
  deriving DecidableEq, Repr

/-- R56: a cone. `owner`: the owning core of a core-scope cone; `first`: when the first arrival of the phase came. -/
structure Cone where
  expect : Nat := 0
  arrived : Nat := 0
  phase : Nat := 0
  err : BitVec 8 := 0
  scope : Nat := 0
  timeout : Nat := 0
  delta : Int := 0
  ferr : BitVec 8 := 0
  owner : Nat := 0
  first : Nat := 0
  deriving DecidableEq, Repr

/-- R52: who posted a record. -/
inductive Poster where
  | agent (a : Nat)
  | balancer (cluster : Nat)
  | replay (cluster : Nat)
  | port (part : Nat)
  deriving DecidableEq, Repr

/-- R52, R202: a record in a launch queue. `core`: where its handle was dispatched; `seq`: order of acceptance;
`stage`: the stage instance of a replica. -/
structure LSlot where
  slot : Nat
  gen : Nat
  record : LRec
  poster : Poster
  seq : Nat
  core : Option Nat
  stage : Option (Nat × Nat)
  deriving DecidableEq, Repr

/-- R48, R203: a stage instance at a load balancer. `live`: live replicas; `dwell`: the clock value from which the
occupancy of the watched coil has stayed at or above HWM. -/
structure StageInst where
  record : LRec
  part : Nat
  inq : Option Nat
  hwm : Nat
  dwell : Nat
  started : Nat
  live : Nat
  since : Option Nat
  deriving DecidableEq, Repr

/-- R225: a copy in a replay buffer. -/
structure Replay where
  record : LRec
  part : Nat
  deriving DecidableEq, Repr

/-- R228: a tensor-record entry. -/
structure Tensor where
  space : Nat
  w : Vector Word 8
  deriving DecidableEq, Repr

/-- R306: a glaze table: the space that owns it, its generation, its 256 rows (none: never loaded), and the space that loaded them. -/
structure Glaze where
  space : Nat := 0
  gen : Nat := 0
  rows : List (BitVec 32) := []
  loader : Nat := 0
  deriving DecidableEq, Repr

/-- The stage at which a sent command stands (R302, R307 to R317). -/
inductive CmdAt where
  /-- waits for a page response (R316) -/
  | page (id : Nat)
  /-- waits at the buffer to enter it again (R309) -/
  | reentry
  /-- is a member of the setting with a number -/
  | setting (number : Nat)
  /-- waits for the tile data path (R302) -/
  | data
  /-- has a result and is to complete (R317) -/
  | done
  deriving DecidableEq, Repr

/-- A command that a window has sent. -/
structure Cmd where
  id : Nat
  agent : Nat
  ctxBorn : Nat
  space : Nat
  inst : Nat
  sup : Bool
  group : Option Nat
  part : Nat
  w0 : Word
  w1 : Word
  w2 : Word
  w3 : Word
  seed : BitVec 32
  /-- R295, R101: the records as they stood at send: A, B, C, M -/
  ta : Option (Vector Word 8)
  tb : Option (Vector Word 8)
  tc : Option (Vector Word 8)
  tm : Option (Vector Word 8)
  /-- R57: the phase of the cone at send -/
  phase : Nat
  sentAt : Nat
  /-- R309: c.dl -/
  deadline : Nat
  /-- R405: the merge domain at send -/
  dom : Nat
  /-- R306: the generation of the glaze table the command names -/
  gen : Nat
  at_ : CmdAt
  code : BitVec 8
  flags : BitVec 5
  /-- the bytes to write, line by line; physical addresses, or scratchpad bytes when the flag is set -/
  out : List (Bool × Nat × Byte)
  /-- R416: source lines of the translations in use -/
  tags : List Nat
  deriving DecidableEq, Repr

/-- R309, R310: the state of a setting. -/
inductive SetAt where
  | opened
  | fired (tf : Nat)
  | staging (kiln : Nat)
  | firing (kiln : Nat) (until_ : Nat)
  deriving DecidableEq, Repr

/-- R307, R309: a setting. `key` is the merge key as a list of numbers; `opened` numbers settings in the order of their opening;
`table`: the glaze table and generation that its panel is decoded with (R306); `pins`: the lines it has pinned, `stream`: those of them that leave
L2 when they are consumed (R312). `slot` names a place of the buffer until the setting is dispatched. -/
structure Setting where
  slot : Nat
  key : List Nat
  table : Option (Nat × Nat)
  pins : List Nat
  stream : List Nat
  dom : Nat
  share : Bool
  m : Nat
  members : List Nat
  deadline : Nat
  cls : Nat
  opened : Nat
  at_ : SetAt
  deriving DecidableEq, Repr

/-- R322, R326: an open stream of a pug. -/
structure Pug where
  agent : Nat
  space : Nat
  inst : Nat
  group : Option Nat
  k : Nat
  j : Nat
  /-- the counted descriptor and its address -/
  desc : Nat
  d : Vector Word 8
  bag : Nat
  n : Nat
  acc : List (BitVec 32)
  /-- the values or tokens that are still to be pushed -/
  out : List Entry
  flags : BitVec 5
  code : BitVec 8
  errs : Nat
  /-- R328: the rows of the hot-row cache, most recent first, with their bytes -/
  hot : List (Nat × List Byte)
  /-- R328: rows that have been fetched for a lookup which has not used them yet: that lookup is no hit -/
  unused : List Nat
  /-- R329: the page request that the stream waits for, and the row it is for -/
  page : Option (Nat × Nat)
  /-- R329: a row whose page the host refused -/
  badRow : Option Nat
  /-- R322, R325: the opening or the close of the stream waits for its update of READERS -/
  held : Bool
  /-- R325: the status word that the close under way returns -/
  closing : Word
  deriving DecidableEq, Repr

/-- A cluster: what its cores and engines share. -/
structure Cluster where
  cones : Tbl Cone := []
  /-- R57 -/
  late : Nat := 0
  /-- R52: the records in the launch queue, and the generation of each slot -/
  launch : List LSlot := []
  gens : Tbl Nat := []
  seq : Nat := 0
  /-- R53 -/
  route : Tbl (BitVec 32) := []
  /-- R48 -/
  stages : Tbl StageInst := []
  replay : List Replay := []
  tensors : Tbl Tensor := []
  glaze : Tbl Glaze := []
  /-- R308: hold registers that differ from their reset value -/
  hold : Tbl Nat := []
  cmds : List Cmd := []
  settings : List Setting := []
  pugs : Tbl Pug := []
  /-- R458: counters 0-15 -/
  ctr : Tbl Counter := []
  tlb : List TlbEntry := []
  /-- R314 -/
  conflicts : Tbl (BitVec 32) := []
  deriving DecidableEq, Repr

/-- R452: STATE of `dstat`. -/
inductive DieState where
  | ready
  | quiescing
  | offline
  | admitting
  deriving DecidableEq, Repr

/-- A compute die. -/
structure Die where
  /-- R81 -/
  lease : Nat := 256
  /-- R182: the clock value at which the die's time counter was 0 -/
  since : Nat := 0
  state : DieState := .ready
  off : Bool := false
  offdrop : Nat := 0
  /-- R455 -/
  corr : Nat := 0
  uncorr : Nat := 0
  lost : Nat := 0
  /-- R458: counters 0-31 -/
  ctr : Tbl Counter := []
  /-- R83: the remote-cache region in steps of 32 MiB -/
  region : Nat := 0
  /-- R80: the latest lease end that the L1 copies of this die hold for a line -/
  leases : Tbl Nat := []
  /-- R83: the copies of lines of other homes: value of the line -/
  copies : Tbl (BitVec 1024) := []
  /-- R414: lines held by the walk cache -/
  walk : List Nat := []
  /-- R446, R451: the address at which context 0 of every core of the die was started; none: the cores are in reset -/
  started : Option Word := none
  /-- the clock value at which the die's cores left reset -/
  coreSince : Nat := 0
  /-- R459: throttled until -/
  throttle : Nat := 0
  deriving DecidableEq, Repr

/-- R37, R39, R40: a live queue or coil. -/
structure Queue where
  id : Nat
  part : Nat
  space : Nat
  pdesc : Word
  inst : Nat
  index : Nat
  coil : Bool
  depth : Nat
  bag : Bool
  ord : Bool
  /-- R40: the scope code of `Scope`, and the cluster or die it is tied to -/
  scope : Scope
  place : Nat
  /-- the core whose queue RAM holds a near queue, or the owner of a coil -/
  core : Nat
  /-- R40: the context by whose read end the core is a coil's owner; none while no read end has been bound or is left -/
  holder : Option Nat
  /-- the virtual address of the ring, and the cluster whose scratchpads its window addresses name -/
  ring : Word
  ringCluster : Nat
  /-- the position that the next push takes -/
  tail : Nat
  /-- entries that have not been popped, in stream order -/
  items : List Item
  /-- R41: the producer that holds the append position -/
  append : Option Nat
  /-- R47: a bag is in progress (data pushed since the last token); its claimant -/
  openBag : Option (Option Nat)
  /-- R47: consumers that hold a bag -/
  claims : List Nat
  /-- R47: copies of tokens still to deliver: the token, its position, its receivers, and whether the ring holds a slot for it -/
  copies : List (Entry × Nat × List Nat × Bool)
  deriving DecidableEq, Repr

/-- R80, R107: a write that has left its store buffer. `atHome`: it has reached its home; `home`: it is performed there; `inv`: the sharing dies
whose copies are not yet removed; `acks`: those that have not acknowledged, and, for a write of host memory that is not yet visible to the host
(R108), the number of dies. `ea`: the effective address; of a save's write to memory outside the device, the number of its pre-emption. -/
structure Write where
  id : Nat
  agent : Nat
  kind : SbKind
  addr : Nat
  bytes : List (Nat × Byte)
  order : Order
  scope : Scope
  tags : List Nat
  ea : Word
  atHome : Bool
  home : Bool
  inv : List Nat
  acks : List Nat
  /-- R416: the cluster whose translation hardware has used for it, where that is not its agent's -/
  src : Option Nat := none
  /-- R62: the draw group, and its partition, for which hardware has made it -/
  group : Option (Nat × Nat) := none
  deriving DecidableEq, Repr

/-- The operation of an atomic at its site (R141, R172). -/
inductive AOp where
  | add | and | or | xor | min | max | minu | maxu | swap | cas | fadd | bfadd2
  | lr
  | sc
  deriving DecidableEq, Repr

/-- R104, R105: an atomic on its way to its site. `packet`: an operation packet of R428. -/
structure Atomic where
  id : Nat
  agent : Nat
  op : AOp
  /-- R173: an AMO of the A extension, which leaves its own context's reservation valid -/
  amo : Bool := false
  pa : Nat
  size : Nat
  opnd : Word
  expv : Word
  order : Order
  scope : Scope
  packet : Bool
  /-- R424: it has reached its home -/
  atHome : Bool := false
  /-- R416: the source lines of the translation used -/
  tags : List Nat := []
  /-- R416: the cluster whose translation hardware has used for it, where that is not its agent's -/
  src : Option Nat := none
  /-- R62: the draw group, and its partition, for which hardware has sent it -/
  group : Option (Nat × Nat) := none
  deriving DecidableEq, Repr

/-- A read of memory that is not cached in the device (R83, R427). `agent`: who reads; for a context's instruction fetch its number + 2^20, for its
outstanding access `id` its number + 2^21 × (id + 1). -/
structure UioRead where
  id : Nat
  agent : Nat
  pa : Nat
  data : Option (BitVec 1024)
  failed : Bool
  deriving DecidableEq, Repr

/-- R214, R224: what a message to a cone, or to the load balancer of its cluster, asks. -/
inductive ConeOp where
  | arrive (phase : Nat) (code : BitVec 8) (drop : Bool)
  | join
  | init (expect scope timeout : Nat)
  | test (v : Nat)
  /-- R218: the release of a waiter, at once or at a later trip -/
  | wait (v : Nat)
  | stat
  /-- R224: the counters of a block are to be cleared and written to scratchpad bytes or a kept address; the source lines of its translation -/
  | snap (block : Nat) (spad : Bool) (key : Nat) (tags : List Nat)
  /-- R29: a completion arrival, for the current phase; no context waits for the reply -/
  | complete (code : BitVec 8)
  deriving DecidableEq, Repr

/-- R425: a message to a cone or a load balancer. -/
structure ConeMsg where
  id : Nat
  agent : Nat
  cone : Nat
  op : ConeOp
  /-- R62: the draw group on whose behalf a message travels that no context waits for -/
  group : Option Nat := none
  deriving DecidableEq, Repr

/-- R40, R425: a push on its way to a coil. -/
structure CoilMsg where
  id : Nat
  queue : Nat
  producer : Nat
  src : Nat
  entry : Entry
  /-- R62: the draw group on whose behalf it travels -/
  group : Option Nat
  deriving DecidableEq, Repr

/-- R51, R221: a record on its way to a launch queue, or a request to a balancer. -/
structure Post where
  id : Nat
  record : LRec
  poster : Poster
  target : Nat
  part : Nat
  stage : Option (Nat × Nat)
  /-- R223: the replica request of `ln.rep` that the balancer has not judged yet -/
  rep : Bool
  deriving DecidableEq, Repr

/-- R392, R397: for whom pages are requested: a context or hub core, a command, a pug, or the save of a pre-emption. -/
inductive PageFor where
  | agent (a : Nat)
  | cmd (cluster id : Nat)
  | pug (cluster p : Nat)
  | preempt (id : Nat)
  deriving DecidableEq, Repr

/-- R392: a page request group. -/
structure PageReq where
  id : Nat
  part : Nat
  pasid : Nat
  who : PageFor
  pages : List (Nat × Bool)
  /-- sent to the host -/
  sent : Bool
  deriving DecidableEq, Repr

/-- R421: a request of the bridge under CXL.cache. -/
inductive CxlReq where
  | rdShared
  | rdOwn
  | rdOwnNoData
  | dirtyEvict
  | cleanEvict
  deriving DecidableEq, Repr

/-- R421, R423: a request from outside to device memory: of the host, or of a peer to a partition. -/
inductive MemReq where
  | cxl (half : Nat) (hold : Option Bool) (data : Option (BitVec 512))
  | uioRead (part pa n : Nat)
  | uioWrite (part pa : Nat) (bytes : List Byte)
  | packet (part : Nat) (bytes : List Byte)
  deriving DecidableEq, Repr

/-- R421 to R423: a request from outside to device memory that waits, or the half that the host returns modified with its answer to a
back-invalidation. -/
inductive HostReq where
  | mem (m : MemReq)
  | back (half : Nat) (data : BitVec 512)
  deriving DecidableEq, Repr

/-- R415, R416: a sweep of a source line: clusters that have not yet acknowledged. -/
structure Sweep where
  id : Nat
  line : Nat
  pending : List Nat
  deriving DecidableEq, Repr

/-- R396, R397: an instance that is being pre-empted or is stopped. `pdesc` is 0 when no descriptor of it is known. -/
structure Preempt where
  id : Nat
  part : Nat
  space : Nat
  inst : Nat
  area : Word
  pdesc : Word
  /-- the cores that hold contexts of the instance and have not written their section; those that have, with the offset of the
  section in the save area; and the offset of the next section -/
  cores : List Nat
  saved : List (Nat × Nat)
  nextOff : Nat
  /-- 0 in progress, 1 stopped, 2 failed -/
  state : Nat
  code : BitVec 8
  /-- R62: the draw groups that the hub drives busy -/
  groups : List Nat
  /-- R397: the failed save's header, with STATE = 2, is still to be written -/
  flush : Bool
  deriving DecidableEq, Repr

/-- R63: a draw group that someone waits for: since when it has been idle. -/
structure Watch where
  group : Nat
  idle : Option Nat
  deriving DecidableEq, Repr

/-- R449: the host launch port. -/
structure Port where
  staged : Vector Word 8 := Vector.replicate 8 0
  status : Nat := 0
  code : BitVec 8 := 0
  /-- the post on its way -/
  post : Option Nat := none
  deriving DecidableEq, Repr

/-- R68, R427: a window of an address decoder. `kind`: 0 private tier two, 1 shared tier two, 2 peer; `port`: the port through which it is reached. -/
structure Window where
  base : Nat
  len : Nat
  kind : Nat
  port : Nat
  deriving DecidableEq, Repr

/-- R434: a partition, named by its first die. -/
structure Part where
  wfmt : Word := 0x1E00 ||| 0x100 ||| 0x80 ||| 0x10 ||| 5
  wperm : Word := 0x0000070600000000 ||| 0x03040200
  wpamask : Word := 0x003FFFFFFFFFFC00
  wleaf : Word := 0xE
  astab : Word := 0
  spwin : Word := 0
  drawdly : Nat := 4096
  rtentry : Word := 0
  go : Bool := false
  /-- R447: the address at which the hub cores were started -/
  started : Option Word := none
  /-- R430, R432: NBLK, BUSY, the next index, hub cores enabled at the start that have not popped their token -/
  nblk : Nat := 0
  busy : Bool := false
  nextBlk : Nat := 0
  /-- R9: indices that a trapped instruction has given back -/
  backBlk : List Nat := []
  tokens : List Nat := []
  port : Port := {}
  dbgsel : Word := 0
  dbgitem : Word := 0
  mgBase : Nat := 2 ^ 51
  hdmBase : Nat := 0
  /-- R393: page requests answered as Response Failure -/
  prFailed : Bool := false
  /-- R392: how many page requests of the partition the host lets be outstanding -/
  pageAlloc : Nat := 0
  /-- R436: the host link is down -/
  linkDown : Bool := false
  watches : List Watch := []
  /-- R68, R427: the windows of the address decoder -/
  windows : List Window := []
  deriving DecidableEq, Repr

/-- R431, R385: what a hub core has beside a context. -/
structure Hub where
  rqen : Bool := false
  /-- R385: escalations not yet delivered, oldest first, and those delivered and not yet resumed -/
  esc : List Nat := []
  taken : List Nat := []
  tlb : List TlbEntry := []
  /-- entries of the reduce queue that this core has received -/
  got : List Entry := []
  deriving DecidableEq, Repr

/-- A die warm reset in progress (R451): the last step done. `mark`: items numbered from here on arrived after step 1. -/
structure WarmReset where
  die : Nat
  stepDone : Nat
  mark : Nat
  deriving DecidableEq, Repr

/-- R427: a UIO write that takes a modified private tier-two line back to its memory. -/
structure WriteBack where
  id : Nat
  line : Nat
  data : BitVec 1024
  deriving DecidableEq, Repr

/-- What a turn does: an agent issues its next instruction, or an event happens. -/
inductive What where
  | issue (agent : Nat)
  | event (i : Instr)
  deriving DecidableEq, Repr

/-- One turn: the cycles that pass before it, and what it does. -/
structure Turn where
  dt : Nat
  what : What
  deriving DecidableEq, Repr

/-- The machine. -/
structure State where
  /-- the agent that issues: `exec` of an instruction acts for it -/
  cur : Nat
  /-- who moves next, oldest first; with none listed the core of `cur` goes on under R21 -/
  turns : List Turn
  /-- core cycles since cold reset -/
  clock : Nat
  /-- a counter for the free values and one for the numbers of pending items -/
  fresh : Nat
  nextId : Nat
  /-- R21, R23: the agent that was examined last has taken the issue slot -/
  slotUsed : Bool
  ctxs : Tbl Ctx
  cores : Tbl Core
  hubs : Tbl Hub
  clusters : Tbl Cluster
  dies : Tbl Die
  parts : Tbl Part
  /-- R433: `ptcfg` in effect, and as firmware has written it -/
  ptcfg : Word
  ptcfgReg : Word
  lossgen : Word
  /-- memory by home address (`locate`): the latest value at the home -/
  mem : List Host.Cell
  /-- the scratchpads: cluster × 2^24 + byte -/
  spad : List Host.Cell
  /-- lines the device holds modified: the memory's own older value (R250, R253, R454) -/
  stale : Tbl (BitVec 1024)
  queues : List Queue
  writes : List Write
  atomics : List Atomic
  uio : List UioRead
  coneMsgs : List ConeMsg
  coilMsgs : List CoilMsg
  posts : List Post
  pages : List PageReq
  sweeps : List Sweep
  preempts : List Preempt
  resets : List WarmReset
  /-- R422: halves of host memory held by the device (true: owned), requests under way, and snoops that wait for a sweep -/
  held : Tbl Bool
  cxl : Tbl CxlReq
  snoops : List (Nat × Snoop)
  /-- R423: halves of device memory the host holds, oldest first (true: exclusive), and back-invalidations under way -/
  filter : List (Nat × Bool)
  bisnp : List Nat
  /-- R421, R423: requests from outside to device memory that wait, oldest first; the completions sent to peers: success, and the data -/
  hostReqs : List HostReq
  peerReplies : List (Bool × List Byte)
  /-- R427: private tier-two lines present in the hub's directory, oldest first, and write-backs of such lines that are under way -/
  tier2 : List Nat
  backs : List WriteBack
  /-- R414: the lines of the hub walk cache, oldest first, each with the partition that read it -/
  hubWalk : List (Nat × Nat)
  /-- R453, R454: lost lines that are still to be reverted, with the memory copy that they take -/
  lostLines : List (Nat × BitVec 1024)
  /-- R454: the addresses of the error messages sent to the host through CXL.io, oldest first -/
  errorMsgs : List Word
  deriving DecidableEq, Repr

/-- The machine after package cold reset, R446 steps 1 to 3: memory zero, every counter 0, GO 0. Register values the
manual does not give are zero, `vseed` is 1 (log entry 3). -/
def State.reset : State where
  cur := 0
  turns := []
  clock := 0
  fresh := 0
  nextId := 1
  slotUsed := false
  ctxs := []
  cores := []
  hubs := []
  clusters := []
  dies := []
  parts := []
  ptcfg := 0
  ptcfgReg := 0
  lossgen := 0
  mem := []
  spad := []
  stale := []
  queues := []
  writes := []
  atomics := []
  uio := []
  coneMsgs := []
  coilMsgs := []
  posts := []
  pages := []
  sweeps := []
  preempts := []
  resets := []
  held := []
  cxl := []
  snoops := []
  filter := []
  bisnp := []
  hostReqs := []
  peerReplies := []
  tier2 := []
  backs := []
  hubWalk := []
  lostLines := []
  errorMsgs := []

end Sys2Proof.Machine
end

