-- ==== Sys2Proof/Machine/Bits.lean ====
section
/-! DEFINITION. Machine/Bits.lean: tables, bytes of memory, byte order (R3, R109), bit fields, and the package's geometry
(R10, R11, R434), with the accessors through which every meaning reads and writes State. -/

namespace Sys2Proof.Machine

/-! Tables -/

/-- The entry of key `k`, or `d` when the table lists none. -/
def tget {α : Type} (d : α) : Tbl α → Nat → α
  | [], _ => d
  | (a, x) :: t, k => if a = k then x else tget d t k

/-- The table with key `k` at `x`, kept in increasing key order. -/
def tset {α : Type} : Tbl α → Nat → α → Tbl α
  | [], k, x => [(k, x)]
  | (a, y) :: t, k, x =>
    if k < a then (k, x) :: (a, y) :: t
    else if a = k then (k, x) :: t
    else (a, y) :: tset t k x

/-- The table without key `k`. -/
def terase {α : Type} (t : Tbl α) (k : Nat) : Tbl α := t.filter fun e => e.1 != k

/-- The entry of key `k`, if the table lists one. -/
def tfind {α : Type} : Tbl α → Nat → Option α
  | [], _ => none
  | (a, x) :: t, k => if a = k then some x else tfind t k

/-! Memory: strictly rising addresses, no entry equal to the byte an unlisted address reads as -/

/-- What an unlisted byte reads as: zero for device memory (R446), and the model's choice elsewhere (log entry 4). -/
def unlistedByte : Byte := 0

/-- The byte at an address. -/
def readByte : List Host.Cell → Nat → Byte
  | [], _ => unlistedByte
  | (a, x) :: t, k => if a = k then x else readByte t k

/-- Memory with one byte written, in canonical form. -/
def writeByte : List Host.Cell → Nat → Byte → List Host.Cell
  | [], k, x => if x = unlistedByte then [] else [(k, x)]
  | (a, y) :: t, k, x =>
    if k < a then (if x = unlistedByte then (a, y) :: t else (k, x) :: (a, y) :: t)
    else if a = k then (if x = unlistedByte then t else (k, x) :: t)
    else (a, y) :: writeByte t k x

/-- Every listed address is above `lo`, rising, with a byte that differs from an unlisted one. -/
def wfFrom : Option Nat → List Host.Cell → Bool
  | _, [] => true
  | lo, (a, x) :: t => (match lo with | none => true | some l => decide (l < a)) && x != unlistedByte && wfFrom (some a) t

/-- The canonical form of a memory. -/
def Memory.wf (m : List Host.Cell) : Bool := wfFrom none m

/-- `n` bytes from address `a` on. -/
def readBytes (m : List Host.Cell) (a : Nat) : Nat → List Byte
  | 0 => []
  | n + 1 => readByte m a :: readBytes m (a + 1) n

/-- Memory with a list of single bytes written in order. -/
def writeCells (m : List Host.Cell) (cs : List (Nat × Byte)) : List Host.Cell :=
  cs.foldl (fun m c => writeByte m c.1 c.2) m

/-- R3: bytes as a number, the first least significant. -/
def leNat : List Byte → Nat
  | [] => 0
  | b :: t => b.toNat + 256 * leNat t

/-- R3: the `n` low bytes of a number, the least significant first. -/
def leBytes : Nat → Nat → List Byte
  | 0, _ => []
  | n + 1, v => BitVec.ofNat 8 v :: leBytes n (v / 256)

/-- Bytes with their addresses from `a` on. -/
def cellsAt (a : Nat) : List Byte → List (Nat × Byte)
  | [] => []
  | b :: t => (a, b) :: cellsAt (a + 1) t

/-- The line that holds an address (R70). -/
def lineOf (a : Nat) : Nat := a / 128

/-- A line's 1,024 bits. -/
def readLine (m : List Host.Cell) (line : Nat) : BitVec 1024 := BitVec.ofNat 1024 (leNat (readBytes m (line * 128) 128))

/-- Memory with a line written. -/
def writeLine (m : List Host.Cell) (line : Nat) (v : BitVec 1024) : List Host.Cell :=
  writeCells m (cellsAt (line * 128) (leBytes 128 v.toNat))

/-! Bit fields -/

/-- Bits [lo + n − 1 : lo] of a number. -/
def nbits (v lo n : Nat) : Nat := v / 2 ^ lo % 2 ^ n

/-- Bits [lo + n − 1 : lo] of a word, as a number. -/
def fieldOf (w : Word) (lo n : Nat) : Nat := nbits w.toNat lo n

/-- Bit `i` of a word. -/
def bitOf (w : Word) (i : Nat) : Bool := w.getLsbD i

/-- A word from a number. -/
def word (n : Nat) : Word := BitVec.ofNat 64 n

/-- A truth value as a word. -/
def wordOfBool (b : Bool) : Word := if b then 1 else 0

/-- A value of `n` bits, sign-extended to 64 bits. -/
def sextN (n v : Nat) : Word := (BitVec.ofNat n v).signExtend 64

/-- The signed value of the low 32 bits of a field at `lo`. -/
def sfield32 (w : Word) (lo : Nat) : Int := (BitVec.ofNat 32 (fieldOf w lo 32)).toInt

/-- A word with field [lo + n − 1 : lo] set. -/
def setField (w : Word) (lo n v : Nat) : Word :=
  (w &&& ~~~(word ((2 ^ n - 1) * 2 ^ lo))) ||| word (v % 2 ^ n * 2 ^ lo)

/-! Geometry -/

/-- The agent is a hub core. -/
def isHub (a : Nat) : Bool := decide (Config.contexts ≤ a)
/-- R11: the core of a context. -/
def coreOf (a : Nat) : Nat := a / 16
/-- R11: the number of a context on its core. -/
def ctxNo (a : Nat) : Nat := a % 16
/-- The package index of a context's cluster. A hub core lies in none: 32. -/
def clusterOf (a : Nat) : Nat := if isHub a then 32 else a / 4096
/-- The die of a context. A hub core lies on none: 4. -/
def dieOf (a : Nat) : Nat := if isHub a then 4 else a / 32768
/-- The agent of context `n` on core `c`. -/
def agentOf (c n : Nat) : Nat := c * 16 + n
/-- The die of a cluster. -/
def dieOfCluster (cl : Nat) : Nat := cl / 8
/-- Context 0 of a barrel core. -/
def isCtx0 (a : Nat) : Bool := !isHub a && a % 16 == 0

/-- R433: a partition boundary lies below die `d`. -/
def cutBelow (s : State) (d : Nat) : Bool := d != 0 && s.ptcfg.getLsbD (d - 1)

/-- R434: the first die of the partition of die `d`. -/
def partOfDie (s : State) : Nat → Nat
  | 0 => 0
  | d + 1 => if cutBelow s (d + 1) then d + 1 else partOfDie s d

/-- The partition of an agent (R434). -/
def partOf (s : State) (a : Nat) : Nat :=
  if isHub a then partOfDie s ((a - Config.contexts) / 16) else partOfDie s (dieOf a)

/-- The partition of a cluster. -/
def partOfCluster (s : State) (cl : Nat) : Nat := partOfDie s (dieOfCluster cl)

/-- R434: the dies of a partition. -/
def diesOf (s : State) (p : Nat) : List Nat := (List.range 4).filter fun d => partOfDie s d == p

/-- The clusters of a partition, by package index. -/
def clustersOf (s : State) (p : Nat) : List Nat := (List.range 32).filter fun c => partOfCluster s c == p

/-! Accessors -/

/-- A die. -/
def getDie (s : State) (d : Nat) : Die := tget {} s.dies d
/-- State with a die replaced. -/
def setDie (s : State) (d : Nat) (v : Die) : State := { s with dies := tset s.dies d v }
/-- State with a die changed. -/
def modDie (s : State) (d : Nat) (f : Die → Die) : State := setDie s d (f (getDie s d))

/-- A partition, by its first die. -/
def getPart (s : State) (p : Nat) : Part := tget {} s.parts p
/-- State with a partition replaced. -/
def setPart (s : State) (p : Nat) (v : Part) : State := { s with parts := tset s.parts p v }
/-- State with a partition changed. -/
def modPart (s : State) (p : Nat) (f : Part → Part) : State := setPart s p (f (getPart s p))

/-- A context that the table does not list: R447 for context 0 and for a hub core, FREE for the others. -/
def ctxDefault (s : State) (a : Nat) : Ctx :=
  if isHub a then
    { status := .ready, sup := true, pc := (getPart s (partOf s a)).started.getD 0, vec := { vrows := 128, rows := 8, len := 64 } }
  else if ctxNo a = 0 then
    { status := .ready, sup := true, pc := (getDie s (dieOf a)).started.getD 0, winRev := 1 }
  else {}

/-- A context or hub core. -/
def getCtx (s : State) (a : Nat) : Ctx := tget (ctxDefault s a) s.ctxs a
/-- State with a context replaced. -/
def setCtx (s : State) (a : Nat) (c : Ctx) : State := { s with ctxs := tset s.ctxs a c }
/-- State with a context changed. -/
def modCtx (s : State) (a : Nat) (f : Ctx → Ctx) : State := setCtx s a (f (getCtx s a))

/-- A barrel core. -/
def getCore (s : State) (c : Nat) : Core := tget {} s.cores c
/-- State with a core replaced. -/
def setCore (s : State) (c : Nat) (v : Core) : State := { s with cores := tset s.cores c v }
/-- State with a core changed. -/
def modCore (s : State) (c : Nat) (f : Core → Core) : State := setCore s c (f (getCore s c))

/-- A cluster. -/
def getCluster (s : State) (c : Nat) : Cluster := tget {} s.clusters c
/-- State with a cluster replaced. -/
def setCluster (s : State) (c : Nat) (v : Cluster) : State := { s with clusters := tset s.clusters c v }
/-- State with a cluster changed. -/
def modCluster (s : State) (c : Nat) (f : Cluster → Cluster) : State := setCluster s c (f (getCluster s c))

/-- A hub core's own part. -/
def getHub (s : State) (h : Nat) : Hub := tget {} s.hubs h
/-- State with a hub core's own part changed. -/
def modHub (s : State) (h : Nat) (f : Hub → Hub) : State := { s with hubs := tset s.hubs h (f (getHub s h)) }

/-- A live queue by number. -/
def findQueue (s : State) (q : Nat) : Option Queue := s.queues.find? fun e => e.id == q
/-- State with a live queue replaced. -/
def setQueue (s : State) (q : Queue) : State := { s with queues := s.queues.map fun e => if e.id == q.id then q else e }

/-- The die lies in the package and in the agent's partition, and is not offline. -/
def dieOnline (s : State) (d : Nat) : Bool := decide (d < 4) && !(getDie s d).off

/-- The instance of a context: its address space and INST of its record (R75). -/
def instOf (c : Ctx) : Nat × Nat := (c.space, match c.record with | some r => fieldOf r.w5 48 16 | none => 0)

/-- The context or hub core on whose behalf uncached memory is read, for its data or as an instruction fetch. -/
def uioOwner (u : UioRead) : Nat := u.agent % 2 ^ 20
/-- The number under which an agent's instruction fetch reads uncached memory. -/
def fetchAgent (a : Nat) : Nat := a + 2 ^ 20
/-- The number under which outstanding access `id` of an agent reads uncached memory. -/
def readerOf (a id : Nat) : Nat := a + 2 ^ 21 * (id + 1)

/-- R62: the draw group of an agent; context 0 and hub cores belong to none. -/
def groupOf (s : State) (a : Nat) : Option Nat :=
  if isHub a || ctxNo a == 0 then none
  else match (getCtx s a).record with
    | some r => some (fieldOf r.w4 13 6)
    | none => none

/-- The n-th free value, and the state in which it has been used (log entry 1). -/
def takeFree (s : State) : Word × State := (Config.freeWord s.fresh, { s with fresh := s.fresh + 1 })

/-- A number for a pending item, and the state in which it has been used. -/
def takeId (s : State) : Nat × State := (s.nextId, { s with nextId := s.nextId + 1 })

/-- Replace the first element for which `p` holds. -/
def replaceFirst {α : Type} (p : α → Bool) (x : α) : List α → List α
  | [] => []
  | a :: t => if p a then x :: t else a :: replaceFirst p x t

/-- The index of the first true element. -/
def firstIdx {α : Type} (p : α → Bool) : List α → Option Nat
  | [] => none
  | a :: t => if p a then some 0 else (firstIdx p t).map (· + 1)

/-- The least element under a key, the first on ties. -/
def leastBy {α : Type} (key : α → Nat) : List α → Option α
  | [] => none
  | a :: t => match leastBy key t with
    | none => some a
    | some b => if key b < key a then some b else some a

/-- The list without repeats, first places kept. -/
def dedup {α : Type} [BEq α] : List α → List α
  | [] => []
  | a :: t => a :: (dedup t).filter fun b => !(b == a)

end Sys2Proof.Machine
end

