-- ==== Sys2Proof/Machine/Num.lean ====
section
/-! DEFINITION. Machine/Num.lean: number formats, exact values and the one rounding function of the device (R110 to R126). An
exact value is a sign, a natural number and a power of two; a value that is not dyadic (a quotient, a root, 2^a, log2 a)
carries a mark that says it lies strictly above its number. -/

namespace Sys2Proof.Machine

/-- R110: a floating format by its widths; `ieee`: an all-ones exponent is reserved for infinity and NaN. -/
structure FFmt where
  expBits : Nat
  frac : Nat
  bias : Nat
  ieee : Bool
  /-- the encoding of the largest finite value, without sign -/
  maxEnc : Nat
  /-- the canonical NaN (R111), none for e2m1 -/
  nan : Option Nat
  deriving DecidableEq, Repr

/-- R110. -/
def fp32 : FFmt := ⟨8, 23, 127, true, 0x7F7FFFFF, some 0x7FC00000⟩
/-- R110. -/
def bf16 : FFmt := ⟨8, 7, 127, true, 0x7F7F, some 0x7FC0⟩
/-- R110. -/
def fp16 : FFmt := ⟨5, 10, 15, true, 0x7BFF, some 0x7E00⟩
/-- R110. -/
def e5m2 : FFmt := ⟨5, 2, 15, true, 0x7B, some 0x7E⟩
/-- R110. -/
def e4m3 : FFmt := ⟨4, 3, 7, false, 0x7E, some 0x7F⟩
/-- R110. -/
def e2m1 : FFmt := ⟨2, 1, 1, false, 0x7, none⟩

/-- The sign bit of a format. -/
def FFmt.signBit (f : FFmt) : Nat := 2 ^ (f.expBits + f.frac)

/-- An exact value. `fin neg m e above`: (−1)^neg × m × 2^e, and with `above` a value strictly between m and m + 1 units. -/
inductive Val where
  | nan (signaling : Bool)
  | inf (neg : Bool)
  | fin (neg : Bool) (m : Nat) (e : Int) (above : Bool)
  deriving DecidableEq, Repr

/-- R121: NV. -/
def fNV : BitVec 5 := 16
/-- R121: DZ. -/
def fDZ : BitVec 5 := 8
/-- R121: OF. -/
def fOF : BitVec 5 := 4
/-- R121: UF. -/
def fUF : BitVec 5 := 2
/-- R121: NX. -/
def fNX : BitVec 5 := 1
/-- A flag when a condition holds. -/
def flagIf (c : Bool) (f : BitVec 5) : BitVec 5 := if c then f else 0

/-- R110, R111: the value of an encoding. -/
def decodeF (f : FFmt) (n : Nat) : Val :=
  let s := decide (n / f.signBit % 2 = 1)
  let ex := n / 2 ^ f.frac % 2 ^ f.expBits
  let fr := n % 2 ^ f.frac
  if f.ieee && ex == 2 ^ f.expBits - 1 then
    if fr = 0 then .inf s else .nan (decide (fr < 2 ^ (f.frac - 1)))
  else if f.nan == some (n % f.signBit) then .nan false
  else if ex = 0 then .fin s fr (1 - (f.bias : Int) - f.frac) false
  else .fin s (2 ^ f.frac + fr) ((ex : Int) - f.bias - f.frac) false

/-- The bit length of a number. -/
def bitLen (n : Nat) : Nat := if n = 0 then 0 else Nat.log2 n + 1

/-- A value is a signaling NaN. -/
def Val.isSnan : Val → Bool
  | .nan s => s
  | _ => false
/-- A value is a NaN. -/
def Val.isNan : Val → Bool
  | .nan _ => true
  | _ => false
/-- A value is infinite. -/
def Val.isInf : Val → Bool
  | .inf _ => true
  | _ => false
/-- A value is zero. -/
def Val.isZero : Val → Bool
  | .fin _ m _ ab => m == 0 && !ab
  | _ => false
/-- The sign of a value. -/
def Val.neg : Val → Bool
  | .nan _ => false
  | .inf n => n
  | .fin n _ _ _ => n
/-- A value with its sign inverted. -/
def Val.negate : Val → Val
  | .nan s => .nan s
  | .inf n => .inf (!n)
  | .fin n m e a => .fin (!n) m e a
/-- A value without its sign. -/
def Val.abs : Val → Val
  | .nan s => .nan s
  | .inf _ => .inf false
  | .fin _ m e a => .fin false m e a
/-- An integer as a value. -/
def Val.ofInt (i : Int) : Val := .fin (decide (i < 0)) i.natAbs 0 false

/-- The magnitude of a finite value as a number of 2^e units, for e at most its own exponent. -/
def scaleTo (m : Nat) (e q : Int) : Nat := m * 2 ^ (e - q).toNat

/-- R126: an exact sum of two finite values; the sign of an exact zero is + except under rdn. -/
def addFin (rdn : Bool) (n1 : Bool) (m1 : Nat) (e1 : Int) (n2 : Bool) (m2 : Nat) (e2 : Int) : Val :=
  let e := min e1 e2
  let a : Int := scaleTo m1 e1 e
  let b : Int := scaleTo m2 e2 e
  let s := (if n1 then -a else a) + (if n2 then -b else b)
  if s = 0 then .fin (if m1 = 0 ∧ m2 = 0 ∧ n1 = n2 then n1 else rdn) 0 0 false
  else .fin (decide (s < 0)) s.natAbs e false

/-- R126: the exact sum, with the flags of the addition. -/
def addV (rdn : Bool) (a b : Val) : Val × BitVec 5 :=
  match a, b with
  | .nan s, b => (.nan false, flagIf (s || b.isSnan) fNV)
  | a, .nan s => (.nan false, flagIf (s || a.isSnan) fNV)
  | .inf n1, .inf n2 => if n1 = n2 then (.inf n1, 0) else (.nan false, fNV)
  | .inf n, _ => (.inf n, 0)
  | _, .inf n => (.inf n, 0)
  | .fin n1 m1 e1 _, .fin n2 m2 e2 _ => (addFin rdn n1 m1 e1 n2 m2 e2, 0)

/-- R126: the exact product, with the flags of the multiplication. -/
def mulV (a b : Val) : Val × BitVec 5 :=
  match a, b with
  | .nan s, b => (.nan false, flagIf (s || b.isSnan) fNV)
  | a, .nan s => (.nan false, flagIf (s || a.isSnan) fNV)
  | .inf n1, b => if b.isZero then (.nan false, fNV) else (.inf (n1 != b.neg), 0)
  | a, .inf n2 => if a.isZero then (.nan false, fNV) else (.inf (a.neg != n2), 0)
  | .fin n1 m1 e1 _, .fin n2 m2 e2 _ => (.fin (n1 != n2) (m1 * m2) (e1 + e2) false, 0)

/-- R126, R177: the quotient; a finite non-zero value by zero raises DZ. -/
def divV (a b : Val) : Val × BitVec 5 :=
  match a, b with
  | .nan s, b => (.nan false, flagIf (s || b.isSnan) fNV)
  | a, .nan s => (.nan false, flagIf (s || a.isSnan) fNV)
  | .inf _, .inf _ => (.nan false, fNV)
  | .inf n, b => (.inf (n != b.neg), 0)
  | a, .inf n => (.fin (a.neg != n) 0 0 false, 0)
  | .fin n1 m1 e1 _, .fin n2 m2 e2 _ =>
    if m2 = 0 then (if m1 = 0 then (.nan false, fNV) else (.inf (n1 != n2), fDZ))
    else if m1 = 0 then (.fin (n1 != n2) 0 0 false, 0)
    else
      let k := 160 + bitLen m2
      let q := m1 * 2 ^ k / m2
      (.fin (n1 != n2) q (e1 - e2 - k) (m1 * 2 ^ k % m2 != 0), 0)

/-- The integer square root, one bit at a time from bit `i` − 1 down. -/
def isqrtFrom (n : Nat) : Nat → Nat → Nat
  | 0, r => r
  | i + 1, r => if (r + 2 ^ i) * (r + 2 ^ i) ≤ n then isqrtFrom n i (r + 2 ^ i) else isqrtFrom n i r

/-- The integer square root. -/
def isqrt (n : Nat) : Nat := isqrtFrom n (bitLen n / 2 + 1) 0

/-- R177: the square root; below −0 it is invalid. -/
def sqrtV : Val → Val × BitVec 5
  | .nan s => (.nan false, flagIf s fNV)
  | .inf n => if n then (.nan false, fNV) else (.inf false, 0)
  | .fin n m e _ =>
    if m = 0 then (.fin n 0 0 false, 0)
    else if n then (.nan false, fNV)
    else
      let odd := e % 2 != 0
      let m2 := (if odd then 2 * m else m) * 2 ^ 320
      let e2 := (if odd then e - 1 else e) / 2 - 160
      let r := isqrt m2
      (.fin false r e2 (r * r != m2), 0)

/-- R275: 1 ÷ a. -/
def rcpV (a : Val) : Val × BitVec 5 := divV (.fin false 1 0 false) a

/-- R275: 1 ÷ √a. -/
def rsqV : Val → Val × BitVec 5
  | .nan s => (.nan false, flagIf s fNV)
  | .inf n => if n then (.nan false, fNV) else (.fin false 0 0 false, 0)
  | .fin n m e _ =>
    if m = 0 then (.inf n, fDZ)
    else if n then (.nan false, fNV)
    else
      let odd := e % 2 != 0
      let m2 := if odd then 2 * m else m
      let h := (if odd then e - 1 else e) / 2
      let k := 160 + bitLen m2
      let r := isqrt (2 ^ (2 * k) / m2)
      (.fin false r (-h - k) (r * r * m2 != 2 ^ (2 * k)), 0)

/-- Fixed-point bits that 2^a and log2 a are computed with (log entry 5). -/
def fixBits : Nat := 384

/-- 2 × the sum of z^(2k+1) ÷ (2k+1), in fixed point: 2 atanh z. `p` is z^(2k+1). -/
def atanhSum (zz : Nat) : Nat → Nat → Nat → Nat
  | 0, _, _ => 0
  | t + 1, k, p => 2 * p / (2 * k + 1) + atanhSum zz t (k + 1) (p * zz / 2 ^ fixBits)

/-- ln 2 in fixed point: 2 atanh (1/3). -/
def ln2Fix : Nat := atanhSum (2 ^ fixBits / 9) 130 0 (2 ^ fixBits / 3)

/-- The exponential series in fixed point from term `k` on. -/
def expSum (y : Nat) : Nat → Nat → Nat → Nat
  | 0, _, _ => 0
  | t + 1, k, p => p + expSum y t (k + 1) (p * y / 2 ^ fixBits / (k + 1))

/-- R275: 2^a. An integral a has an exact result; otherwise the value lies strictly above the number given. -/
def exp2V : Val → Val × BitVec 5
  | .nan s => (.nan false, flagIf s fNV)
  | .inf n => if n then (.fin false 0 0 false, 0) else (.inf false, 0)
  | .fin n m e _ =>
    if m = 0 then (.fin false 1 0 false, 0)
    else if e ≥ 12 then (if n then (.fin false 1 (-100000) false, 0) else (.fin false 1 100000 false, 0))
    else
      let d : Nat := (-e).toNat
      let num := scaleTo m e (min e 0)
      let ip := num / 2 ^ d
      let fp := num % 2 ^ d
      if ip > 100000 then (if n then (.fin false 1 (-100000) false, 0) else (.fin false 1 100000 false, 0))
      else if fp = 0 then (.fin false 1 (if n then -(ip : Int) else ip) false, 0)
      else
        let x : Nat := if n then 2 ^ d - fp else fp
        let i : Int := if n then -(ip : Int) - 1 else ip
        let y := x * ln2Fix / 2 ^ d
        (.fin false (expSum y 90 0 (2 ^ fixBits) / 2 ^ 32) (i - fixBits + 32) true, 0)

/-- R275: log2 a. A power of two has an exact result. -/
def log2V : Val → Val × BitVec 5
  | .nan s => (.nan false, flagIf s fNV)
  | .inf n => if n then (.nan false, fNV) else (.inf false, 0)
  | .fin n m e _ =>
    if m = 0 then (.inf true, fDZ)
    else if n then (.nan false, fNV)
    else
      let l := bitLen m - 1
      let ex : Int := e + l
      if m = 2 ^ l then (Val.ofInt ex, 0)
      else
        let z := (m - 2 ^ l) * 2 ^ fixBits / (m + 2 ^ l)
        let t := atanhSum (z * z / 2 ^ fixBits) 140 0 z * 2 ^ fixBits / ln2Fix
        let v : Int := ex * 2 ^ fixBits + t
        (.fin (decide (v < 0)) (v.natAbs / 2 ^ 32) (32 - (fixBits : Int)) true, 0)

/-! Rounding -/

/-- R123: one draw. -/
def draw (s : BitVec 32) : BitVec 32 :=
  let a := s ^^^ (s <<< 13)
  let b := a ^^^ (a >>> 17)
  b ^^^ (b <<< 5)

/-- R119, R121, R122: whether the magnitude lo + rem ÷ 2^d (plus a little when `above`) is rounded up. `d` is at least 1. -/
def roundsUp (mode : RMode) (neg : Bool) (lo rem d : Nat) (above : Bool) (u : BitVec 32) : Bool :=
  let half := 2 ^ (d - 1)
  match mode with
  | .rtz => false
  | .rdn => neg
  | .rup => !neg
  | .rmm => decide (half ≤ rem)
  | .sto => decide (u.toNat < max 1 (rem * 2 ^ 32 / 2 ^ d))
  | .rne | .dyn => decide (half < rem) || (decide (rem = half) && (above || decide (lo % 2 = 1)))

/-- A magnitude m × 2^e rounded to a whole number of 2^q: the number, whether it is inexact, and the generator after. -/
def rndMag (mode : RMode) (neg : Bool) (m : Nat) (e q : Int) (above : Bool) (g : BitVec 32) : Nat × Bool × BitVec 32 :=
  let d0 := (q - e).toNat
  let m0 := scaleTo m e (min e q)
  -- one unit at least, so that a value strictly above m has a remainder
  let lo := m0 / 2 ^ d0
  let rem := m0 % 2 ^ d0
  if rem = 0 && !above then (lo, false, g)
  else
    let g' := if mode = .sto then draw g else g
    (if roundsUp mode neg lo (2 * rem) (d0 + 1) above g' then lo + 1 else lo, true, g')

/-- A sign bit on an encoding. -/
def withSign (f : FFmt) (neg : Bool) (n : Nat) : Nat := if neg then n + f.signBit else n

/-- R121: round(x, fmt, mode, sat), with the generator. -/
def roundF (f : FFmt) (mode : RMode) (sat : Bool) (g : BitVec 32) : Val → Nat × BitVec 5 × BitVec 32
  | .nan _ => match f.nan with
    | some n => (n, 0, g)
    | none => (f.maxEnc, fNV, g)
  | .inf neg =>
    if f = e2m1 then (withSign f neg f.maxEnc, fNV, g)
    else if f = e4m3 then (if sat then withSign f neg f.maxEnc else 0x7F, fNV, g)
    else if sat then (withSign f neg f.maxEnc, 0, g)
    else (withSign f neg (f.maxEnc + 1), 0, g)
  | .fin neg m e above =>
    if m = 0 && !above then (withSign f neg 0, 0, g)
    else
      let qmin : Int := 1 - (f.bias : Int) - f.frac
      let q := max (e + bitLen m - 1 - f.frac) qmin
      let (r, inexact, g') := rndMag mode neg m e q above g
      let enc := r + (q - qmin).toNat * 2 ^ f.frac
      if f.maxEnc < enc then
        if mode = .rtz || (mode = .rdn && !neg) || (mode = .rup && neg) || sat || f = e2m1 then
          (withSign f neg f.maxEnc, fOF ||| fNX, g')
        else if f = e4m3 then (0x7F, fOF ||| fNX, g')
        else (withSign f neg (f.maxEnc + 1), fOF ||| fNX, g')
      else
        (withSign f neg enc,
          if inexact then fNX ||| flagIf (decide (enc < 2 ^ f.frac)) fUF else 0, g')

/-- R125: round_int, to the range lo to hi. -/
def roundInt (lo hi : Int) (mode : RMode) (g : BitVec 32) : Val → Int × BitVec 5 × BitVec 32
  | .nan _ => (hi, fNV, g)
  | .inf neg => (if neg then lo else hi, fNV, g)
  | .fin neg m e above =>
    let (r, inexact, g') := rndMag mode neg m e 0 above g
    let v : Int := if neg then -(r : Int) else r
    if v < lo then (lo, fNV, g') else if hi < v then (hi, fNV, g')
    else (v, if inexact then fNX else 0, g')

/-- The order of two values that are not NaN. −0 and +0 compare equal. -/
def ltV (a b : Val) : Bool :=
  match a, b with
  | .nan _, _ => false
  | _, .nan _ => false
  | .inf n1, .inf n2 => n1 && !n2
  | .inf n, _ => n
  | _, .inf n => !n
  | .fin n1 m1 e1 _, .fin n2 m2 e2 _ =>
    let e := min e1 e2
    let x : Int := scaleTo m1 e1 e
    let y : Int := scaleTo m2 e2 e
    decide ((if n1 then -x else x) < (if n2 then -y else y))

/-- Two values that are not NaN are equal. -/
def eqV (a b : Val) : Bool := !a.isNan && !b.isNan && !ltV a b && !ltV b a

/-- R126: whether minimumNumber takes the first of two numbers: −0 orders below +0. -/
def firstIsMin (a b : Val) : Bool := ltV a b || (eqV a b && (a.neg || !b.neg))

/-- R126: minimum or maximum of two encodings of a format: the encoding chosen, and the flags. -/
def minMaxF (f : FFmt) (isMax : Bool) (x y : Nat) : Nat × BitVec 5 :=
  let a := decodeF f x
  let b := decodeF f y
  let fl := flagIf (a.isSnan || b.isSnan) fNV
  if a.isNan && b.isNan then (f.nan.getD 0, fl)
  else if a.isNan then (y, fl)
  else if b.isNan then (x, fl)
  else (if firstIsMin a b != isMax then x else y, fl)

/-- R126, R176: round(±(a × b) ± c) with one rounding: the exact value and the flags raised before rounding. -/
def fmaV (rdn negProd negAdd : Bool) (a b c : Val) : Val × BitVec 5 :=
  let (p, f1) := mulV a b
  let p := if negProd then p.negate else p
  let c' := if negAdd then c.negate else c
  let (s, f2) := addV rdn p c'
  (s, f1 ||| f2)

/-- R113: the value of an sc24 scale. -/
def sc24V (n : Nat) : Val :=
  let ex := n / 65536 % 256
  let fr := n % 65536
  if ex = 255 then .nan false
  else if ex = 0 then .fin false fr (-142) false
  else .fin false (65536 + fr) ((ex : Int) - 143) false

/-- R283: the smallest sc24 value at or above a positive value; none above the largest. -/
def sc24Up : Val → Option Nat
  | .fin _ m e above =>
    let q := max (e + bitLen m - 1 - 16) (-142)
    let (r, _, _) := rndMag .rup false m e q above 0
    let enc := r + (q + 142).toNat * 65536
    if 0xFEFFFF < enc then none else some enc
  | _ => none

end Sys2Proof.Machine
end

