-- ==== Sys2Proof/Machine/Ops.lean ====
section
/-! DEFINITION. Machine/Ops.lean: how an instruction ends (R9), the operations every meaning shares: registers, counters,
release conditions (R93), taking a trap (R373, R381 to R385) and returning from one. -/

namespace Sys2Proof.Machine

/-- A request that an access makes before it can be performed, and that is made once. -/
inductive Req where
  /-- R422: a half of host memory, for reading or for ownership -/
  | cxl (half : Nat) (kind : CxlReq)
  /-- R108: the modified halves of a line of host memory are written back -/
  | evict (line : Nat)
  /-- R423: a back-invalidation of a half the host holds -/
  | bisnp (half : Nat)
  /-- R415: the sweep of a source line -/
  | sweep (line : Nat)
  /-- R427: a private tier-two line, fetched whole -/
  | tier2 (line : Nat)
  /-- R427: the modified value of a private tier-two line goes back to its memory -/
  | writeBack (line : Nat)
  /-- R427: a line of shared tier-two or peer memory, for a reader -/
  | uio (reader line : Nat)
  /-- R80, R418: nothing is asked; the access waits for a line's sweep or lease to end -/
  | later (line : Nat)
  /-- R425, R458: nothing is asked; a sender on die `d` waits for credit -/
  | credit (d : Nat)
  /-- R462: nothing is asked; the access is held at the route table while die `d` is quiescing -/
  | die (d : Nat)
  deriving DecidableEq, Repr

/-- A message that a context sends and whose reply it waits for. -/
inductive Msg where
  | cone (cone : Nat) (op : ConeOp)
  | post (record : LRec) (target : Nat) (stage : Option (Nat × Nat)) (rep : Bool)
  | atomic (op : AOp) (amo : Bool) (key size : Nat) (opnd expv : Word) (order : Order) (scope : Scope) (packet : Bool) (tags : List Nat)
  | uioRead (line : Nat) (fetch : Bool)
  deriving DecidableEq, Repr

/-- How an instruction can end without completing. All but `parkWith` and `sendWith` act on the state before the instruction. -/
inductive Stop where
  /-- a synchronous trap; R9: every effect of the instruction is discarded -/
  | trap (cause : Nat) (tval : Word)
  /-- R24: the context parks, nothing issued -/
  | park (why : Park)
  /-- the context parks in a state that the instruction has already changed; it executes the instruction again -/
  | parkWith (s : State) (why : Park)
  /-- R25: the context stays READY but is not eligible; requests have been made -/
  | hold (reqs : List Req)
  /-- R24, R232: a message is sent; the context parks for its reply, or stays READY but not eligible -/
  | send (m : Msg) (why : Option (Nat → Park))
  /-- the same, with a state that the instruction has already changed -/
  | sendWith (s : State) (m : Msg) (why : Option (Nat → Park))
  /-- R42: a token landing through end k -/
  | land (k : Nat)
  /-- R412: NOT-PRESENT, after a walk that read `lines` -/
  | notPresent (acc : Access) (va : Word) (lines : List Nat)
  /-- R186, R456: entry into debug mode -/
  | debug

/-- What a meaning does: a state transformer that can stop. -/
abbrev Act (α : Type) := StateT State (Except Stop) α

/-- Ends an instruction. -/
def stop {α : Type} (e : Stop) : Act α := fun _ => .error e
/-- Raises a synchronous trap. -/
def trap {α : Type} (cause : Nat) (tval : Word) : Act α := stop (.trap cause tval)
/-- Raises a trap when a condition holds. -/
def trapIf (c : Bool) (cause : Nat) (tval : Word) : Act Unit := if c then trap cause tval else pure ()
/-- Parks when a condition does not hold (R8). -/
def parkUnless (c : Bool) (why : Park) : Act Unit := if c then pure () else stop (.park why)
/-- Holds the instruction until a condition holds. -/
def holdUnless (c : Bool) : Act Unit := if c then pure () else stop (.hold [])

/-- The executing agent's context. -/
def me : Act Ctx := fun s => .ok (getCtx s s.cur, s)
/-- Changes the executing agent's context. -/
def modMe (f : Ctx → Ctx) : Act Unit := fun s => .ok ((), modCtx s s.cur f)
/-- The word of an instruction, as trap records and tval give it (R134, R383). -/
def iword (i : Instr) : Word := word ((encode i).getD 0)

/-- R9: continue with the next instruction. -/
def advance : Act Unit := modMe fun c => { c with pc := c.pc + 4 }
/-- Continue at an address. -/
def jumpTo (target : Word) : Act Unit := modMe fun c => { c with pc := target }

/-- R452, R455: a count that stops at its maximum. -/
def capped (n : Nat) : Nat := min 0xFFFF (n + 1)

/-- Adds to a counter that counts a source (R458). -/
def bump (src : Nat) (n : Nat) (k : Counter) : Counter :=
  if fieldOf k.sel 0 9 = 256 + src then { k with val := k.val + word n } else k
/-- Counts a source in a core's counters. -/
def countCore (s : State) (core src n : Nat) : State :=
  match tfind s.cores core with
  | none => s
  | some c => setCore s core { c with ctr := c.ctr.map (bump src n) }
/-- Counts a source in a cluster's counters. -/
def countCluster (s : State) (cl src n : Nat) : State :=
  match tfind s.clusters cl with
  | none => s
  | some c => if c.ctr.isEmpty then s else setCluster s cl { c with ctr := c.ctr.map fun e => (e.1, bump src n e.2) }
/-- Counts a source in a die's counters. -/
def countDie (s : State) (d src n : Nat) : State :=
  match tfind s.dies d with
  | none => s
  | some c => if c.ctr.isEmpty then s else setDie s d { c with ctr := c.ctr.map fun e => (e.1, bump src n e.2) }

/-- R57: a late arrival at a cone's cluster. -/
def countLate (s : State) (cl : Nat) : State :=
  countCluster (modCluster s cl fun c => { c with late := c.late + 1 }) cl 0x16 1

/-! Release conditions -/

/-- R108: the host, in the place of a die that has not acknowledged a write. -/
def hostSide : Nat := Config.dies

/-- R107, R108: a write is performed with respect to every agent of a scope, as far as the device knows it: its writer and its home hear of it when
every sharing die has acknowledged. Sys scope takes in the host. -/
def performedFor (sc : Scope) (w : Write) : Bool :=
  w.home && (match sc with
    | .sys => w.acks.isEmpty
    | _ => w.acks.all (· == hostSide))

/-- R470: an access that waits for its value or its reply. -/
def Outstanding.waits (o : Outstanding) : Bool := o.reply.isNone

/-- R237, R247: the access has failed; its trap is still to be taken. -/
def Outstanding.failed (o : Outstanding) : Bool := match o.reply with | some (.trap _ _) | some .offline => true | _ => false

/-- R240, R246: order aq or ar. -/
def holdsLater (o : Order) : Bool := o == .aq || o == .ar

/-- R470: the accesses of a context that wait. -/
def waiting (c : Ctx) : List Outstanding := c.out.filter (·.waits)

/-- R93: the earlier accesses of an agent, and every write it may have observed, are performed with respect to a scope. A
write is taken as observed as soon as its home has performed it (log entry 6). -/
def settled (s : State) (a : Nat) (sc : Scope) : Bool :=
  (getCtx s a).sb.isEmpty && (waiting (getCtx s a)).isEmpty && s.writes.all fun w => !(w.agent == a || w.home) || performedFor sc w

/-- R97, R102, R330: what engines have written or observed is performed with respect to a scope. Engines write at their homes; a write that its
home has performed is taken as observed (log entry 6). -/
def enginesSettled (s : State) (sc : Scope) : Bool := s.writes.all fun w => !w.home || performedFor sc w

/-- R240, R246: no earlier aq or ar load, store or atomic of the agent is still to be performed. -/
def acqClear (s : State) (a : Nat) : Bool :=
  ((getCtx s a).sb.all fun e => !holdsLater e.order) && ((getCtx s a).out.all fun o => !holdsLater o.order) &&
  (s.writes.all fun w => !(w.agent == a && holdsLater w.order))

/-- R108: the write-backs that make the writes visible which the host does not see yet. -/
def visibleReqs (s : State) : List Req := (s.writes.filter fun w => w.home && w.acks.contains hostSide).map fun w => .evict (w.addr / 128)

/-- R240: waits for the agent's earlier aq and ar stores. -/
def orderClear : Act Unit := fun s => if acqClear s s.cur then .ok ((), s) else .error (.hold (visibleReqs s))

/-- Waits for the release condition of R93 at a scope. -/
def release (sc : Scope) : Act Unit := fun s =>
  if settled s s.cur sc then .ok ((), s) else .error (.hold (if sc = .sys then visibleReqs s else []))

/-- R237, R451: the die is not offline. -/
def clusterOnline (s : State) (cl : Nat) : Bool := !(getDie s (dieOfCluster cl)).off

/-! Taking a trap and returning from one -/

/-- R379: the cause numbers of a fetch, load or store by kind of access: misaligned, access fault, page fault. -/
def causeOf (acc : Access) (misaligned access page : Nat × Nat × Nat) (which : Nat) : Nat :=
  let t := if which = 0 then misaligned else if which = 1 then access else page
  match acc with
  | .fetch => t.1
  | .read => t.2.1
  | .write => t.2.2
/-- R67: access faults 1, 5, 7. -/
def accessCause (acc : Access) : Nat := causeOf acc (0, 4, 6) (1, 5, 7) (12, 13, 15) 1
/-- R394: page faults 12, 13, 15. -/
def pageCause (acc : Access) : Nat := causeOf acc (0, 4, 6) (1, 5, 7) (12, 13, 15) 2
/-- R170: misaligned 0, 4, 6. -/
def alignCause (acc : Access) : Nat := causeOf acc (0, 4, 6) (1, 5, 7) (12, 13, 15) 0

/-- R383: the record of a trap. -/
def trapRecord (c : Ctx) (ctx cause : Nat) (epc tval iw : Word) (prstat : Nat) : TrapRec where
  ctx := ctx
  w0 := word (cause + ctx * 2 ^ 8 + (instOf c).2 * 2 ^ 16 + c.space * 2 ^ 32)
  w1 := epc
  w2 := tval
  w3 := word ((if cause = 0 ∨ cause = 1 ∨ cause = 12 then 0 else iw.toNat % 2 ^ 32) + prstat % 256 * 2 ^ 32)

/-- R385: an escalation of core `core` reaches hub core `h`. -/
def escalate (s : State) (core h : Nat) : State :=
  let s := modHub s h fun x => { x with esc := x.esc ++ [core] }
  modCtx s (Config.contexts + h) fun c => { c with scsr := { c.scsr with sip := setField c.scsr.sip 18 1 1 } }

/-- R373: a hub core enters its handler. `int`: the cause is an interrupt. -/
def hubEnter (c : Ctx) (int : Bool) (code : Nat) (epc tval : Word) : Ctx :=
  let st := c.scsr.sstatus
  let st := setField st 8 1 (bit c.sup)
  let st := setField st 5 1 (fieldOf st 1 1)
  let st := setField st 1 1 0
  { c with
    sup := true
    status := .ready
    pc := c.scsr.stvec &&& ~~~(3 : Word)
    scsr := { c.scsr with
      sstatus := st
      sepc := epc &&& ~~~(3 : Word)
      scause := word (code + if int then 2 ^ 63 else 0)
      stval := tval } }

/-- R173: a reservation becomes invalid. -/
def dropResv (c : Ctx) : Ctx := { c with resv := c.resv.map fun r => { r with valid := false } }

/-- Items in increasing order of position. -/
def insertItem (it : Item) : List Item → List Item
  | [] => [it]
  | x :: t => if it.pos < x.pos then it :: x :: t else x :: insertItem it t

/-- R9, R47: an entry is again at the place it was popped from; a bag that was claimed with it is unclaimed. -/
def putBack (q : Queue) (a : Nat) (it : Item) (fresh : Bool) : Queue :=
  if !fresh then { q with items := insertItem it q.items }
  else
    let free (i : Item) : Item := if i.owner = some a then { i with owner := none } else i
    { q with
      items := (insertItem { it with owner := none } q.items).map free
      claims := q.claims.filter (· != a)
      openBag := if q.openBag = some (some a) then some none else q.openBag }

/-- R9: one entry goes back: to its queue, to the entries that were sent to the consumer, to the reduce queue of the partition, or to the queue of
handles or of trap records. -/
def giveBack (s : State) (a : Nat) (t : Taken) : State :=
  match t.queue with
  | some id => match findQueue s id with
    | some q => setQueue s (putBack q a t.item t.fresh)
    | none => s
  | none =>
    let c := getCtx s a
    match (c.ends.toList.getD t.k {}).queue with
    | some _ => setCtx s a { c with ends := c.ends.setIfInBounds t.k (let e := c.ends.toList.getD t.k {}; { e with got := t.item :: e.got }) }
    | none =>
      if isHub a then modPart s (partOf s a) fun p => { p with backBlk := t.item.entry.payload.toNat :: p.backBlk }
      else if t.k = 6 then modCore s (coreOf a) fun k => { k with handles := t.item.entry :: k.handles }
      else modCore s (coreOf a) fun k => { k with trapQ := t.item.entry :: k.trapQ, intr := if t.fresh then k.intr + 1 else k.intr }

/-- R9: popped entries go back to their heads. -/
def giveBackAll (s : State) (a : Nat) (l : List Taken) : State := l.reverse.foldl (fun s t => giveBack s a t) s

/-- R427: the lines of uncached memory that the agent's own instruction has read, beside those of its outstanding accesses, are dropped. -/
def dropReads (s : State) (a : Nat) : State := { s with uio := s.uio.filter fun u => u.agent != a && u.agent != fetchAgent a }

/-- R9, R38: an instruction that has issued ends without completing: the entries it has taken are at their heads again, no slot is kept, and what it
has read of uncached memory is dropped. -/
def returnTaken (s : State) (a : Nat) : State :=
  let s := dropReads s a
  match (getCtx s a).claim with
  | none => s
  | some k => modCtx (giveBackAll s a k.taken) a fun c => { c with claim := none }

/-- R381, R385, R373: a synchronous trap of agent `a`: a user context becomes TRAPPED with its saved pc and its record waits
for the core's trap queue; context 0 writes its own registers and escalates; a hub core enters its handler. -/
def takeTrap (s : State) (a cause : Nat) (epc tval iw : Word) (prstat : Nat) : State :=
  let s := returnTaken s a
  let c := dropResv { getCtx s a with sent := none, reply := none, pageFault := none, scout := none, stepping := false }
  if isHub a then setCtx s a (hubEnter c false cause epc tval)
  else if ctxNo a = 0 then
    let s := setCtx s a { c with
      status := .trapped
      pc := epc
      scsr := { c.scsr with sepc := epc &&& ~~~(3 : Word), scause := word cause, stval := tval } }
    escalate s (coreOf a) (fieldOf (getCore s (coreOf a)).scctl 8 6)
  else
    let r := trapRecord c (ctxNo a) cause epc tval iw prstat
    let s := setCtx s a { c with status := .trapped, pc := epc, trapRec := some r }
    modCore s (coreOf a) fun k => { k with waiting := k.waiting ++ [r] }

/-- R373: `sret` on a hub core, and in context 0 of a barrel core. -/
def trapReturn (hub : Bool) (c : Ctx) : Ctx :=
  if hub then
    let st := c.scsr.sstatus
    let sup := bitOf st 8
    let st := setField st 1 1 (fieldOf st 5 1)
    let st := setField st 5 1 1
    let st := setField st 8 1 0
    { c with pc := c.scsr.sepc, sup := sup, scsr := { c.scsr with sstatus := st } }
  else { c with pc := c.scsr.sepc }

/-! Page request groups (R391, R392) -/

/-- The address-space entry's PASID is read where the request is made. -/
def sendGroup (s : State) (part pasid : Nat) (who : PageFor) (pages : List (Nat × Bool)) : Nat × State :=
  let (id, s) := takeId s
  (id, { s with pages := s.pages ++ [{ id, part, pasid, who, pages, sent := false }] })

/-! The end of an instruction -/

/-- R265: the pace of the producers still judged, after an instruction of issue distance `cost`. -/
def agePace (cost : Nat) (l : List Producer) : List Producer :=
  (l.map fun p => { p with dist := p.dist + cost }).filter fun p => p.dist < p.lat

/-- R458: a source of the counters of a core and of its cluster. -/
def countIssue (s : State) (core src n : Nat) : State := countCluster (countCore s core src n) (core / 256) src n

/-- R20 to R22, R459: the agent has taken the issue slot of its core for `rows` rows, and its rotation floor is over `cost` cycles on, or later. While the
die is throttled an idle cycle follows every third issue cycle. -/
def takeSlot (s : State) (rows cost : Nat) : State :=
  let a := s.cur
  let s := { s with slotUsed := true }
  if isHub a then s
  else
    let k := getCore s (coreOf a)
    let run := if k.slotAt = s.clock then k.run else 0
    let idle := if s.clock < (getDie s (dieOf a)).throttle then (run + rows - 1) / 3 else 0
    let s := modCore s (coreOf a) fun k => { k with last := ctxNo a, slotAt := s.clock + rows + idle, run := run + rows - 3 * idle }
    let s := if (getCtx s a).status = .free then s else modCtx s a fun c => { c with readyAt := s.clock + idle + cost }
    countIssue (countDie (countIssue s (coreOf a) 6 idle) (dieOf a) 6 idle) (coreOf a) 2 1

/-- R20, R21, R458: the agent has taken an issue slot for one cycle. -/
def issued (s : State) : State := takeSlot s 1 4

/-- R457: a stepped context halts again, when no access of it is outstanding. -/
def stepEnds (c : Ctx) : Ctx := if c.stepping && c.out.isEmpty then { c with stepping := false, halted := some c.status, dbgEntry := false } else c

/-- An instruction of `rows` rows has issued and completed: R183 counts it, R21 keeps the context's number, R457 halts a stepped context
again. -/
def retire (s : State) (rows cost : Nat) : State :=
  let a := s.cur
  let c := getCtx s a
  takeSlot (if c.status == .free then s else setCtx s a (stepEnds { c with ucsr := { c.ucsr with instret := c.ucsr.instret + 1 } })) rows cost

/-- R42: a landing through end k: the token has been popped by `s`. -/
def landCtx (c : Ctx) (k : Nat) (level : BitVec 3) : Ctx :=
  let c := dropResv c
  { c with
    pc := (c.ucsr.tkvec.toList.getD k 0)
    ucsr := { c.ucsr with tklvl := level, tkq := BitVec.ofNat 3 k, tkepc := c.pc &&& ~~~(3 : Word) } }

/-- R456: the context enters debug mode through an armed `ebreak`. -/
def enterDebug (s : State) (a : Nat) : State :=
  modCtx s a fun c => { c with halted := some c.status, dbgEntry := true, stepping := false }

end Sys2Proof.Machine
end

