-- ==== Sys2Proof/Machine/Xlate.lean ====
section
/-! DEFINITION. Machine/Xlate.lean: physical address classes (R68, R69), what must happen before a line can be written
(R80, R84, R416, R422), and address translation (R404 to R419). -/

namespace Sys2Proof.Machine

/-- R68, R69: the HDM window of a partition holds the address. -/
def inHdm (s : State) (part pa : Nat) : Bool :=
  decide ((getPart s part).hdmBase ≤ pa) && decide (pa < (getPart s part).hdmBase + (diesOf s part).length * Config.dieBytes)

/-- R435: the address lies in the HDM window of another partition that runs. -/
def inForeignHdm (s : State) (part pa : Nat) : Bool :=
  (List.range Config.dies).any fun d => partOfDie s d == d && d != part && (getPart s d).go && inHdm s d pa

/-- R16, R434: the host ports of a partition: its first, and the second when DUAL is 1. -/
def hostPorts (s : State) (part : Nat) : List Nat := if bitOf s.ptcfg 3 then [2 * part, 2 * part + 1] else [2 * part]

/-- R434: the ports of a partition that reach tier-two memory and peers. -/
def otherPorts (s : State) (part : Nat) : List Nat :=
  ((diesOf s part).flatMap fun d => [2 * d, 2 * d + 1]).filter fun p => !(hostPorts s part).contains p

/-- R68, R427: a window of a kind (0 private tier two, 1 shared tier two, 2 peer) holds the address; it is reached through a port that the partition
owns and that is no host port. What an address in a window that names another port counts as the manual does not say: here the window holds nothing,
and the address is host memory where no other row claims it (log entry 97). -/
def inKind (s : State) (part kind pa : Nat) : Bool :=
  (getPart s part).windows.any fun w => w.kind == kind && decide (w.base ≤ pa) && decide (pa < w.base + w.len) && (otherPorts s part).contains w.port

/-- R68, R69, R435: the class of a physical address in a partition: the first row of the table of R68 that holds it. -/
def locate (s : State) (part pa : Nat) : Loc :=
  let p := getPart s part
  let other (c : Cls) : Loc := ⟨c, 2 ^ 52 * (1 + part) + pa⟩
  if inHdm s part pa then ⟨.hbm (part + (pa - p.hdmBase) / Config.dieBytes), part * Config.dieBytes + (pa - p.hdmBase)⟩
  else if inKind s part 0 pa then other .priv
  else if inKind s part 1 pa then other .shared
  else if inKind s part 2 pa then other .peer
  else if p.mgBase ≤ pa ∧ pa < p.mgBase + 2 ^ 20 then other .mgmt
  else if inForeignHdm s part pa then other .foreign
  else ⟨.host, 2 ^ 52 * 5 + pa⟩

/-- The location of a kept address. -/
def locOfKey (s : State) (key : Nat) : Loc :=
  if key < 4 * Config.dieBytes then ⟨.hbm (key / Config.dieBytes), key⟩
  else if key / 2 ^ 52 = 5 then ⟨.host, key⟩
  else locate s (key / 2 ^ 52 - 1) (key % 2 ^ 52)

/-- The home die of a line, for device memory. -/
def homeDie (line : Nat) : Option Nat :=
  if line * 128 < 4 * Config.dieBytes then some (line * 128 / Config.dieBytes) else none

/-! Source lines in use (R415, R416) -/

/-- A command's translations count as an access in progress: its firing runs, or it is to write its outputs (R319). -/
def cmdBusy (cl : Cluster) (c : Cmd) : Bool :=
  match c.at_ with
  | .done => !c.out.isEmpty
  | .setting n => cl.settings.any fun x => x.opened == n && (match x.at_ with | .firing _ _ => true | _ => false)
  | _ => false

/-- The die whose memory a place of an entry lies in is the agent's own; the scratchpads are. -/
def ownPlace (a : Nat) (k : Bool × Nat) : Bool := !isHub a && (k.1 || homeDie (lineOf k.2) == some (dieOf a))

/-- R470: an entry to memory homed on the context's die. -/
def ownEntry (a : Nat) (e : SbEntry) : Bool :=
  match e.kind with
  | .store | .zero => e.bytes.any fun b => ownPlace a b.1
  | _ => ownPlace a (false, e.addr)

/-- The lines of memory that an entry writes or acts on. -/
def entryLines (e : SbEntry) : List Nat :=
  match e.kind with
  | .store | .zero => dedup (e.bytes.filterMap fun b => if b.1.1 then none else some (lineOf b.1.2))
  | _ => [lineOf e.addr]

/-- R416, item 2: an access in progress that took its address from a translation: the cluster that the translation belongs to, its source lines, and the
lines whose writes it waits for: its own, and those of accesses that come before it (R93, R470). -/
structure InUse where
  cl : Nat
  tags : List Nat
  lines : List Nat
  deriving DecidableEq, Repr

/-- R416: the entries of a store buffer, oldest first. `perf`: the lines of the earlier accesses that an entry of order rl or ar, or one to the context's
die, waits for; `behind`: those that an entry before it waits for. -/
def entriesInUse (a : Nat) : List Nat → List Nat → List SbEntry → List InUse
  | _, _, [] => []
  | perf, behind, e :: t =>
    let behind := if ownEntry a e || e.order == .rl || e.order == .ar then behind ++ perf else behind
    ⟨clusterOf a, e.tags, entryLines e ++ behind⟩ :: entriesInUse a (perf ++ entryLines e) behind t

/-- The lines of a stretch. -/
def linesOf (p : Loc × Nat) : List Nat := (List.range (lineOf (p.1.key + p.2 - 1) - lineOf p.1.key + 1)).map (lineOf p.1.key + ·)

/-- R470: the lines that an access touches. -/
def linesOfElems (l : List ReadElem) : List (Cls × Nat) :=
  dedup (l.flatMap fun e => e.pieces.flatMap fun p => (linesOf p).map (p.1.cls, ·))

/-- The lines of memory that the elements of a read touch. -/
def readLines (l : List ReadElem) : List Nat := ((linesOfElems l).filter (·.1 != .spad)).map (·.2)

/-- R416, item 2: what an agent's instructions have in progress. -/
def agentInUse (s : State) (a : Nat) (c : Ctx) : List InUse :=
  let loads := c.out.filter fun o => o.waits && !o.atomic
  let mine := (s.writes.filter fun w => w.agent == a && !w.home).map fun w => lineOf w.addr
  loads.map (fun o => ⟨clusterOf a, o.elems.flatMap (·.tags), readLines o.elems⟩) ++ entriesInUse a (mine ++ loads.flatMap fun o => readLines o.elems) [] c.sb

/-- R416, item 2: every access in progress, with respect to every agent (R107, R108). -/
def accessesInUse (s : State) : List InUse :=
  (s.ctxs.flatMap fun e => agentInUse s e.1 e.2) ++
  (s.writes.map fun w => ⟨w.src.getD (clusterOf w.agent), w.tags, if w.home then [] else [lineOf w.addr]⟩) ++
  (s.atomics.map fun m => ⟨m.src.getD (clusterOf m.agent), m.tags, [lineOf m.pa]⟩) ++
  (s.coneMsgs.flatMap fun m => match m.op with
    | .snap _ spad key tags => [⟨clusterOf m.agent, tags, if spad then [] else [lineOf key]⟩]
    | _ => []) ++
  (s.clusters.flatMap fun e => (e.2.cmds.filter (cmdBusy e.2)).map fun c =>
    ⟨e.1, c.tags, match c.out with | b :: _ => if b.1 then [] else [lineOf b.2.1] | [] => []⟩)

/-- R416: what waits for a write of the lines `l` waits for that of `line` too: it is one of them, or the sweep of one of them waits for an access to it. -/
def waitsForLine (s : State) (all : List InUse) (line : Nat) : Nat → List Nat → Bool
  | 0, l => l.contains line
  | n + 1, l => l.contains line ||
    (let swept := l.filter fun x => s.sweeps.any fun y => y.line == x
     let more := dedup (l ++ (all.filter fun x => x.tags.any swept.contains).flatMap (·.lines))
     more.length != l.length && waitsForLine s all line n more)

/-- R416, item 2: accesses of a cluster (32: the hub) that took their address from a translation of the line are still to be performed. One that cannot be
performed before the line itself is written is not waited for (log entry 76). -/
def inFlight (s : State) (cl line : Nat) : Bool :=
  let all := accessesInUse s
  all.any fun x => x.cl == cl && x.tags.contains line && !waitsForLine s all line (s.sweeps.length + 1) (dedup x.lines)

/-- A cluster (32: the hub) holds a translation of the line, or an access through one. -/
def holdsTag (s : State) (line cl : Nat) : Bool :=
  inFlight s cl line ||
  (if cl = 32 then s.hubs.any fun e => e.2.tlb.any fun t => t.tags.contains line
   else ((getCluster s cl).tlb.any fun t => t.tags.contains line) ||
     (s.cores.any fun e => e.1 / 256 == cl && e.2.tlb.any fun t => t.tags.contains line))

/-- Somewhere a translation derived from the line, or the line itself in a walk cache, is held. -/
def isSource (s : State) (line : Nat) : Bool :=
  (List.range 33).any (holdsTag s line) || (s.dies.any fun e => e.2.walk.contains line) || s.hubWalk.any fun e => e.2 == line

/-- R415: the entries of a cluster (32: the hub) that hold the line's tag are removed. -/
def dropTag (s : State) (line cl : Nat) : State :=
  let keep (t : TlbEntry) : Bool := !t.tags.contains line
  if cl = 32 then { s with hubs := s.hubs.map fun e => (e.1, { e.2 with tlb := e.2.tlb.filter keep }) }
  else
    let s := { s with cores := s.cores.map fun e => if e.1 / 256 = cl then (e.1, { e.2 with tlb := e.2.tlb.filter keep }) else e }
    match tfind s.clusters cl with
    | some c => setCluster s cl { c with tlb := c.tlb.filter keep }
    | none => s

/-- R415: the walk caches' copies of a line are removed. -/
def dropWalk (s : State) (line : Nat) : State :=
  { s with
    dies := s.dies.map fun e => (e.1, { e.2 with walk := e.2.walk.filter (· != line) })
    hubWalk := s.hubWalk.filter fun e => e.2 != line }

/-- R415: every translation derived from the line is removed at once. -/
def sweepNow (s : State) (line : Nat) : State :=
  (List.range 33).foldl (fun s cl => dropTag s line cl) (dropWalk s line)

/-- R415: a sweep starts; a second request for a line that is being swept does nothing. -/
def startSweep (s : State) (line : Nat) : State :=
  if s.sweeps.any fun x => x.line == line then s
  else
    let pending := (List.range 33).filter (holdsTag s line)
    let s := dropWalk s line
    let (id, s) := takeId s
    let s := { s with sweeps := s.sweeps ++ [{ id, line, pending }] }
    (match homeDie line with | some d => countDie s d 0x21 1 | none => s)

/-- R410, R451: every translation of a partition is removed. -/
def dropPart (s : State) (part : Nat) : State :=
  let keep (t : TlbEntry) : Bool := t.part != part
  { s with
    cores := s.cores.map fun e => (e.1, { e.2 with tlb := e.2.tlb.filter keep })
    clusters := s.clusters.map fun e => (e.1, { e.2 with tlb := e.2.tlb.filter keep })
    hubs := s.hubs.map fun e => (e.1, { e.2 with tlb := e.2.tlb.filter keep })
    dies := s.dies.map fun e => if partOfDie s e.1 = part then (e.1, { e.2 with walk := [] }) else e
    hubWalk := s.hubWalk.filter fun e => e.1 != part }

/-! Requests -/

/-- The agent number under which engines ask for uncached lines (R427). -/
def engineAgent : Nat := Config.agents + 1

/-- The halves of a line. -/
def halvesOf (line : Nat) : List Nat := [2 * line, 2 * line + 1]

/-- R427: the hub's tier-two directory has a place for a further line, with those that are being fetched. -/
def tier2Room (s : State) : Bool :=
  decide (s.tier2.length + (s.uio.filter fun u => u.agent == Config.agents).length ≤ Config.tier2Lines)

/-- R427: the hub's tier-two directory evicts its oldest line: every copy goes, and a modified value is written back. -/
def evictTier2 (s : State) : State :=
  match s.tier2 with
  | [] => s
  | line :: _ =>
    if s.writes.any fun w => w.kind == .flush && w.addr == line * 128 then s
    else
      let (id, s) := takeId s
      { s with writes := s.writes ++ [
        { id, agent := engineAgent, kind := .flush, addr := line * 128, bytes := [], order := .rlx, scope := .sys, tags := [], ea := 0,
          atHome := false, home := false, inv := [], acks := [] }] }

/-- A request is made, once. -/
def applyReq (s : State) : Req → State
  | .cxl half kind => match tfind s.cxl half with
    | none => { s with cxl := tset s.cxl half kind }
    | some .rdShared => { s with cxl := tset s.cxl half kind }
    | some _ => s
  | .evict line => { s with cxl := (halvesOf line).foldl (fun t h =>
      if (tfind t h).isNone && tfind s.held h == some true then tset t h .dirtyEvict else t) s.cxl }
  | .bisnp half => if s.bisnp.contains half then s else { s with bisnp := s.bisnp ++ [half] }
  | .sweep line => startSweep s line
  | .tier2 line =>
    if s.uio.any fun u => u.pa == line * 128 && u.agent == Config.agents then s
    else if !tier2Room s then evictTier2 s
    else
      let (id, s) := takeId s
      { s with uio := s.uio ++ [{ id, agent := Config.agents, pa := line * 128, data := none, failed := false }] }
  | .writeBack line =>
    if s.backs.any fun b => b.line == line then s
    else
      let (id, s) := takeId s
      { s with backs := s.backs ++ [⟨id, line, readLine s.mem line⟩] }
  | .later _ | .die _ => s
  | .credit d => if d < Config.dies then countDie s d 0x22 1 else s
  | .uio reader line =>
    if s.uio.any fun u => u.pa == line * 128 && u.agent == reader then s
    else
      let (id, s) := takeId s
      { s with uio := s.uio ++ [{ id, agent := reader, pa := line * 128, data := none, failed := false }] }

/-- All of a list of requests. -/
def applyReqs (s : State) (l : List Req) : State := l.foldl applyReq s

/-- R462: a die in steps 2 to 4 of a warm reset holds the requests for its lines. -/
def quiet (s : State) (d : Nat) : List Req :=
  if s.resets.any fun r => r.die == d && decide (1 ≤ r.stepDone) && decide (r.stepDone < 5) then [.die d] else []

/-- R454: a lost line that is still to be reverted is neither read nor written. -/
def lostWait (s : State) (line : Nat) : List Req := if s.lostLines.any fun e => e.1 == line then [.later line] else []

/-- R423: the host holds the half. -/
def hostHolds (s : State) (half : Nat) : Bool := s.filter.any fun e => e.1 == half

/-- R422: a snoop of the half has arrived and is not answered yet; later accesses of the device wait. -/
def snooped (s : State) (half : Nat) : Bool := s.snoops.any fun e => e.1 == half

/-- R422: what an access to a half of host memory asks for; `kind`: the request that gets what it needs. -/
def hostNeed (s : State) (kind : CxlReq) (half : Nat) : Option Req :=
  if snooped s half then some (.later (half / 2))
  else match tfind s.held half with
    | some true => none
    | some false => if kind = .rdShared then none else some (.cxl half kind)
    | none => some (.cxl half kind)

/-- R84, R422, R427: what must still be asked before the halves of a line can be read. -/
def readNeeds (s : State) (line : Nat) (halves : List Nat) : List Req :=
  match (locOfKey s (line * 128)).cls with
  | .hbm d => quiet s d ++ lostWait s line ++ (halves.filter (hostHolds s)).map .bisnp
  | .host => lostWait s line ++ halves.filterMap (hostNeed s .rdShared)
  | .priv => lostWait s line ++ if s.tier2.contains line then [] else [.tier2 line]
  | _ => []

/-- R80, R84, R416, R422: what must still be asked before the halves of a line can be written; `whole`: those that the write replaces whole. -/
def writeNeeds (s : State) (line : Nat) (halves : List Nat) (whole : List Nat := []) : List Req :=
  (match (locOfKey s (line * 128)).cls with
    | .hbm d => quiet s d ++ lostWait s line ++ (halves.filter (hostHolds s)).map .bisnp
    | .host => lostWait s line ++ halves.filterMap fun h => hostNeed s (if whole.contains h then .rdOwnNoData else .rdOwn) h
    | .priv => lostWait s line ++ if s.tier2.contains line then [] else [.tier2 line]
    | _ => []) ++ (if isSource s line then [.sweep line] else [])

/-- R80: no lease of an L1 of the home die on the line is live. -/
def leaseOver (s : State) (line : Nat) : Bool :=
  match homeDie line with
  | some d => decide (tget 0 (getDie s d).leases line ≤ s.clock)
  | none => true

/-- R80, R416: a write of the line can be performed now; `whole`: the halves that it replaces whole. -/
def canWrite (s : State) (line : Nat) (halves : List Nat) (whole : List Nat := []) : Bool := leaseOver s line && (writeNeeds s line halves whole).isEmpty

/-- The halves that a list of bytes touches. -/
def halvesTouched (bytes : List (Nat × Byte)) : List Nat := dedup (bytes.map fun b => b.1 / 64)

/-- The halves that a list of bytes replaces whole. -/
def wholeHalves (bytes : List (Nat × Byte)) : List Nat :=
  (halvesTouched bytes).filter fun h => decide (64 ≤ (bytes.filter fun b => b.1 / 64 == h).length)

/-- R380: the physical address of a line of device memory. -/
def physLine (s : State) (line : Nat) : Nat :=
  let part := partOfDie s (line * 128 / Config.dieBytes)
  (getPart s part).hdmBase + (line * 128 - part * Config.dieBytes)

/-- R71: the home slice of a line of device memory: its home die and the slice's index there. -/
def homeSlice (s : State) (line : Nat) : Option (Nat × Nat) :=
  (homeDie line).map fun d =>
    let pa := physLine s line
    (d, (nbits pa 7 8) ^^^ (nbits pa 15 8) ^^^ (nbits pa 23 8) ^^^ (nbits pa 31 8))

/-- R72, R424: the station of an agent: its cluster's, or the hub's. -/
def stationOf (a : Nat) : Nat := if a < Config.contexts then clusterOf a else 32

/-- R424: the path of a line's traffic from a station: source, destination and lane. -/
def laneOf (s : State) (src line : Nat) : Nat × Nat × Nat :=
  let pa := if (homeDie line).isSome then physLine s line else line * 128 % 2 ^ 52
  (src, match homeSlice s line with | some (d, n) => 8 * d + n / 32 | none => 32,
    (nbits pa 7 4) ^^^ (nbits pa 11 4) ^^^ (nbits pa 15 4) ^^^ (nbits pa 19 4))

/-- R424: a request sent before number `id` on the path from a station to a line has not reached its home. -/
def laneBusyFrom (s : State) (id station line : Nat) : Bool :=
  let path := laneOf s station line
  let travels (l : Nat) : Bool := match (locOfKey s (l * 128)).cls with | .hbm _ | .host | .priv => true | _ => false
  (s.writes.any fun w => decide (w.id < id) && !w.atHome && !w.home && travels (w.addr / 128) &&
    laneOf s (w.src.getD (stationOf w.agent)) (w.addr / 128) == path) ||
  (s.atomics.any fun m => decide (m.id < id) && !m.atHome && !m.packet && travels (lineOf m.pa) &&
    laneOf s (m.src.getD (stationOf m.agent)) (lineOf m.pa) == path)

/-- R424: the same, from an agent's station. -/
def laneBusy (s : State) (id agent line : Nat) : Bool := laneBusyFrom s id (stationOf agent) line

/-- R424: a request of an agent's station for the line, sent now, has one before it on its path. -/
def laneHeld (s : State) (a line : Nat) : Bool := laneBusy s s.nextId a line

/-! Writes at their home -/

/-- R175: the priority reservation on a block ends before its 64 cycles are over; contexts that wait for it, and have not missed their time, have 256
cycles from now on. -/
def endPrio (s : State) (block : Nat) : State :=
  { s with ctxs := s.ctxs.map fun e =>
      match e.2.qual with
      | some q => if q.block = block ∧ q.seq.isSome ∧ s.clock ≤ q.until_ then
          (e.1, { e.2 with qual := some { q with until_ := s.clock + Config.qualCycles } }) else e
      | none => e }

/-- R175: the blocks with a live priority reservation. -/
def prioBlocks (s : State) : List Nat :=
  s.ctxs.filterMap fun e => e.2.resv.bind fun r => if r.valid && r.prio.any (s.clock < ·) then some r.block else none

/-- R175: a live priority reservation on a block, held by an agent other than `a`. -/
def prioElsewhere (s : State) (a block : Nat) : Bool :=
  s.ctxs.any fun e => e.1 != a && (match e.2.resv with
    | some r => r.block == block && r.valid && (match r.prio with | some t => decide (s.clock < t) | none => false)
    | none => false)

/-- R173: a write to a block invalidates the reservations on it, but for that of `by_`, the context of a plain store. -/
def killResv (s : State) (block : Nat) (by_ : Nat) : State :=
  { s with ctxs := s.ctxs.map fun e =>
      match e.2.resv with
      | some r => if r.block = block ∧ e.1 ≠ by_ ∧ r.valid then (e.1, { e.2 with resv := some { r with valid := false } }) else e
      | none => e }

/-- R83: the dies other than the home that hold a copy of the line. -/
def sharers (s : State) (line : Nat) : List Nat := (s.dies.filter fun e => (tfind e.2.copies line).isSome).map (·.1)

/-- R250, R454: the memory's own value of a line is kept while the device holds a newer one. -/
def keepStale (s : State) (line : Nat) : State :=
  match tfind s.stale line with
  | some _ => s
  | none => { s with stale := tset s.stale line (readLine s.mem line) }

/-- R107, R108: a write has taken effect at its home. Its sharing dies have been told to drop their copies when it arrived, or are told now; a
write of host memory is visible to the host when it has been written back, and one record a context and line keeps that. -/
def trackWrite (s : State) (w : Write) : State :=
  let line := w.addr / 128
  let host := (w.kind == .store || w.kind == .zero) && (locOfKey s w.addr).cls == .host
  let (inv, acks) := if w.atHome then (w.inv, w.acks) else (sharers s line, sharers s line)
  let acks := if host then acks ++ [hostSide] else acks
  let rest := s.writes.filter fun x => x.id != w.id &&
    !(host && x.home && x.agent == w.agent && x.addr == w.addr && x.order == w.order && x.acks == [hostSide] && x.tags == w.tags && x.src == w.src &&
      x.group == w.group)
  if acks.isEmpty then { s with writes := rest } else { s with writes := rest ++ [{ w with atHome := true, home := true, inv, acks }] }

/-- R80, R89, R107: a write of bytes of one line is performed at its home. `spare`: the context whose reservation it leaves valid (R173). -/
def homeWrite (s : State) (spare line : Nat) (bytes : List (Nat × Byte)) (w : Write) : State :=
  let s := keepStale s line
  let s := { s with mem := writeCells s.mem bytes }
  trackWrite (killResv s line spare) w

/-- A write that an atomic, the walker, the host or an engine performs at once. `src`, `group`: the cluster whose translation, and the draw group for
which, hardware makes it. -/
def directWrite (s : State) (agent line : Nat) (bytes : List (Nat × Byte)) (order : Order := .rlx) (scope : Scope := .sys)
    (tags : List Nat := []) (spare : Nat := Config.agents) (src : Option Nat := none) (group : Option (Nat × Nat) := none) : State :=
  let (id, s) := takeId s
  homeWrite s spare line bytes
    { id, agent, kind := .store, addr := line * 128, bytes, order, scope, tags, ea := 0, atHome := false, home := false, inv := [], acks := [],
      src, group }

/-- Bytes grouped by their line, lines in order of first use. -/
def byLine (bytes : List (Nat × Byte)) : List (Nat × List (Nat × Byte)) :=
  (dedup (bytes.map fun b => lineOf b.1)).map fun l => (l, bytes.filter fun b => lineOf b.1 == l)

/-- An engine's or a save's bytes, performed line by line. -/
def directBytes (s : State) (agent : Nat) (bytes : List (Nat × Byte)) (tags : List Nat := []) (src : Option Nat := none)
    (group : Option (Nat × Nat) := none) : State :=
  (byLine bytes).foldl (fun s g => directWrite s agent g.1 g.2 .rlx .sys tags Config.agents src group) s

/-! The address-space table and the walk -/

/-- How a translation ends (R411, R412). -/
inductive XRes where
  | ok (pa : Nat) (tags : List Nat) (s : State)
  /-- R404: access fault -/
  | access
  | format
  | permission
  /-- with the lines that the walk read -/
  | notPresent (lines : List Nat)
  /-- R237: a table line on an offline die -/
  | offline
  /-- the walk waits for a line -/
  | wait (reqs : List Req)

/-- R411: eight bytes of a table, through the walk cache. -/
inductive PteRes where
  | ok (v : Word) (line : Nat)
  | offline
  | bad
  | wait (reqs : List Req)

/-- R411: a read of eight bytes of a table at a physical address. A table line that is being swept makes the walk wait
(R418). A table in shared tier-two or peer memory or in the management window is an access fault (log entry 7). -/
def readPte (s : State) (part pa : Nat) : PteRes :=
  let l := locate s part pa
  let line := lineOf l.key
  let read : PteRes := match readNeeds s line [l.key / 64] with
    | [] => .ok (word (leNat (readBytes s.mem l.key 8))) line
    | q => .wait q
  if s.sweeps.any fun x => x.line == line then .wait [.later line]
  else match l.cls with
    | .hbm d => if (getDie s d).off then .offline else read
    | .host => if (getPart s part).linkDown then .offline else read
    | .priv => read
    | _ => .bad

/-- R406: LEVELS. -/
def levelsOf (p : Part) : Nat := fieldOf p.wfmt 0 3
/-- R406: PA(pte). -/
def paOfPte (p : Part) (pte : Word) : Nat := (pte &&& p.wpamask).toNat * 2 ^ fieldOf p.wfmt 6 2
/-- R407: the bit that a field of `wperm` points to. -/
def permBit (p : Part) (lo : Nat) (pte : Word) : Bool := bitOf pte (fieldOf p.wperm lo 6)
/-- R406, R407: the execute permission. -/
def execBit (p : Part) (pte : Word) : Bool := permBit p 24 pte != bitOf p.wfmt 5
/-- R406: a leaf at level j is allowed. -/
def leafAllowed (p : Part) (j : Nat) : Bool := j == 1 || bitOf p.wfmt (9 + (j - 2))

/-- R412: the access is allowed. -/
def allowed (acc : Access) (sup w u x : Bool) : Bool :=
  (match acc with | .read => true | .write => w | .fetch => x) && (sup || u)

/-- The leaf that a walk reached: entry, its address, its level, permissions, and the lines read. -/
structure Leaf where
  pte : Word
  addr : Nat
  level : Nat
  w : Bool
  u : Bool
  x : Bool
  tags : List Nat
  deriving DecidableEq, Repr

/-- How the descent ends. -/
inductive Descent where
  | leaf (l : Leaf)
  | stop (r : XRes)

/-- R411: the loop of the walk, from level j down. -/
def descend (s : State) (part va : Nat) : Nat → Nat → Bool → Bool → Bool → List Nat → Descent
  | 0, _, _, _, _, _ => .stop .format
  | j + 1, a, w, u, x, tags =>
    let p := getPart s part
    let addr := a + 8 * nbits va (9 * (j + 1) + 3) 9
    match readPte s part addr with
    | .bad => .stop .access
    | .offline => .stop .offline
    | .wait q => .stop (.wait q)
    | .ok pte line =>
      let tags := tags ++ [line]
      if !permBit p 0 pte then .stop (.notPresent tags)
      else if j = 0 ∨ pte &&& p.wleaf ≠ 0 then
        .leaf ⟨pte, addr, j + 1, w && permBit p 8 pte, u && permBit p 16 pte, x && execBit p pte, tags⟩
      else
        let hier := bitOf p.wfmt 3
        let next := paOfPte p pte
        if next % 4096 ≠ 0 ∨ 2 ^ 52 ≤ next then .stop .format
        else descend s part va j next (if hier then w && permBit p 8 pte else w) (if hier then u && permBit p 16 pte else u)
          (if hier then x && execBit p pte else x) tags

/-- R414: a line enters the walk cache of an agent's die or of the hub; the oldest line leaves a full one, and its
translations with it. -/
def holdLine (s : State) (a line : Nat) : State :=
  if isHub a then
    let e := (partOf s a, line)
    if s.hubWalk.contains e then s
    else
      let s := if s.hubWalk.length < Config.hubWalkCache then s else sweepNow s (s.hubWalk.headD e).2
      { s with hubWalk := s.hubWalk ++ [e] }
  else
    let l := (getDie s (dieOf a)).walk
    if l.contains line then s
    else if l.length < Config.walkCache then modDie s (dieOf a) fun x => { x with walk := l ++ [line] }
    else modDie (sweepNow s (l.headD 0)) (dieOf a) fun x => { x with walk := x.walk ++ [line] }

/-- R414: the lines that a walk has read. -/
def holdLines (s : State) (a : Nat) (lines : List Nat) : State := lines.foldl (fun s t => holdLine s a t) s

/-- R414: a translation is installed in the agent's L1 TLB and its cluster's L2 TLB; the oldest entry leaves a full one. -/
def installTlb (s : State) (a : Nat) (t : TlbEntry) : State :=
  let put (cap : Nat) (l : List TlbEntry) : List TlbEntry := t :: l.take (cap - 1)
  if isHub a then modHub s (a - Config.contexts) fun h => { h with tlb := put Config.l1Tlb h.tlb }
  else
    let s := modCore s (coreOf a) fun k => { k with tlb := put Config.l1Tlb k.tlb }
    modCluster s (clusterOf a) fun k => { k with tlb := put Config.l2Tlb k.tlb }

/-- The translations an agent can use: its L1 TLB, then its cluster's. -/
def tlbOf (s : State) (a : Nat) : List TlbEntry :=
  if isHub a then (getHub s (a - Config.contexts)).tlb
  else (getCore s (coreOf a)).tlb ++ (getCluster s (clusterOf a)).tlb

/-- R411: a TLB entry covers the address and allows the access; a write through an entry whose D is 0 walks again (R412). -/
def tlbHit (s : State) (part a space va : Nat) (acc : Access) (sup : Bool) : Option TlbEntry :=
  (tlbOf s a).find? fun t =>
    t.part == part && t.space == space && t.va == va / t.size * t.size && allowed acc sup t.w t.u t.x &&
    !(acc == .write && !t.d && bitOf (getPart s part).wfmt 4)

/-- R413: the entry with its accessed bit set, and its dirty bit for a write. -/
def marked (p : Part) (acc : Access) (pte : Word) : Word :=
  let v := pte ||| (1 <<< fieldOf p.wperm 32 6)
  if acc = .write then v ||| (1 <<< fieldOf p.wperm 40 6) else v

/-- R411: the walk; `fuel` bounds the restarts after updates of R413. -/
def walk (part a space va : Nat) (acc : Access) (sup : Bool) (root : Nat) (asLine : Nat) : Nat → State → XRes
  | 0, _ => .wait [.later asLine]
  | fuel + 1, s =>
    let p := getPart s part
    match descend s part va (levelsOf p) root true true true [asLine] with
    | .stop r => r
    | .leaf l =>
      let z := 2 ^ (12 + 9 * (l.level - 1))
      let pa := paOfPte p l.pte
      if (decide (1 < l.level) && !leafAllowed p l.level) ∨ pa % z ≠ 0 ∨ 2 ^ 52 ≤ pa then .format
      else if !allowed acc sup l.w l.u l.x then .permission
      else if bitOf p.wfmt 4 && (!permBit p 32 l.pte || (acc == .write && !permBit p 40 l.pte)) then
        let key := (locate s part l.addr).key
        let line := lineOf key
        if (List.range 33).any (fun cl => inFlight s cl line) then .wait [.sweep line]
        else
          let s1 := sweepNow s line
          if canWrite s1 line [key / 64] then
            walk part a space va acc sup root asLine fuel
              (directWrite s1 Config.agents line (cellsAt key (leBytes 8 (marked p acc l.pte).toNat)))
          else .wait (.later line :: writeNeeds s1 line [key / 64])
      else
        let s := installTlb (holdLines s a l.tags) a
          { part, space, va := va / z * z, size := z, pa, w := l.w, u := l.u, x := l.x, d := permBit p 40 l.pte, tags := l.tags }
        .ok (pa + va % z) l.tags s

/-- R404: an enabled space: its root and the line of its entry; or how an access in it ends. -/
def spaceRoot (s : State) (part space : Nat) : Except XRes (Nat × Nat) :=
  let p := getPart s part
  if 2 ^ fieldOf p.astab 0 5 ≤ space then .error .access
  else
    let base := fieldOf p.astab 12 52 * 4096 + 16 * space
    match readPte s part base, readPte s part (base + 8) with
    | .bad, _ | _, .bad => .error .access
    | .offline, _ | _, .offline => .error .offline
    | .wait q, _ | _, .wait q => .error (.wait q)
    | .ok w0 line, .ok w1 _ =>
      if !bitOf w0 0 || fieldOf w0 1 11 != 0 || fieldOf w0 52 12 != 0 || fieldOf w1 29 35 != 0 then .error .access
      else .ok (fieldOf w0 12 40 * 4096, line)

/-- R411: `xlate(va, access)` for an agent's context, or for an engine that acts with an agent's space and mode. -/
def xlate (s : State) (a space : Nat) (sup : Bool) (va : Nat) (acc : Access) : XRes :=
  let part := partOf s a
  match spaceRoot s part space with
  | .error r => r
  | .ok (root, line) =>
    let p := getPart s part
    let w := 12 + 9 * levelsOf p
    let top := nbits va (w - 1) (57 - (w - 1))
    if levelsOf p < 5 ∧ top ≠ 0 ∧ top ≠ 2 ^ (57 - (w - 1)) - 1 then .format
    else match tlbHit s part a space va acc sup with
      | some t => .ok (t.pa + va % t.size) t.tags s
      | none => walk part a space va acc sup root line 3 s

/-- R404: word 1 of an address-space entry, for its PASID, domain and NOPR, as an access that has just read it finds it; zero when it cannot be
read. -/
def spaceWord (s : State) (part space : Nat) : Word :=
  match readPte { s with sweeps := [] } part (fieldOf (getPart s part).astab 12 52 * 4096 + 16 * space + 8) with
  | .ok v _ => v
  | _ => 0

end Sys2Proof.Machine
end

