-- ==== Sys2Proof/Machine/Regs.lean ====
section
/-! DEFINITION. Machine/Regs.lean: CSRs (R5, R179 to R185, R374 to R378), the selector of `cx.rd` and `cx.wr` (R387), and reads of the
management window (R449, R452, R455, R457, R458). -/

namespace Sys2Proof.Machine

/-! User CSRs -/

/-- R429: the hub's time counter counts at 2.4 GHz, two thirds of the core clock. -/
def hubTime (s : State) : Nat := s.clock * 2 / 3

/-- R182: the time counter of an agent's die, or the hub's. -/
def timeOf (s : State) (a : Nat) : Nat := if isHub a then hubTime s else s.clock - (getDie s (dieOf a)).since

/-- R181: the cycles of an agent's core since its last reset. -/
def cycleOf (s : State) (a : Nat) : Nat :=
  if isHub a then hubTime s
  else s.clock - (getCore s (coreOf a)).since.getD (getDie s (dieOf a)).coreSince

/-- R184: the value of core event counter n; a hub core has none. -/
def hpmOf (s : State) (a n : Nat) : Word :=
  if isHub a then 0 else (((getCore s (coreOf a)).ctr.toList.getD n {}).val)

/-- R179: the value of a user CSR; none where the number is not implemented. -/
def readUCsr (s : State) (a num : Nat) : Option Word :=
  let c := getCtx s a
  let u := c.ucsr
  if 0x808 ≤ num ∧ num < 0x810 then some (u.tkvec.toList.getD (num - 0x808) 0)
  else if 0xC03 ≤ num ∧ num < 0xC07 then some (hpmOf s a (num - 0xC03))
  else match num with
    | 0x001 => some (u.fflags.setWidth 64)
    | 0x002 => some (u.frm.setWidth 64)
    | 0x003 => some (word (u.fflags.toNat + 32 * u.frm.toNat))
    | 0x800 => some u.spovf
    | 0x801 => some (u.vseed.setWidth 64)
    | 0x802 => some (u.vrm.setWidth 64)
    | 0x803 => some u.vflg0
    | 0x804 => some u.vflg1
    | 0xC00 => some (word (cycleOf s a))
    | 0xC01 => some (word (timeOf s a))
    | 0xC02 => some u.instret
    | 0xCC0 => some (if isHub a then 0 else (getPart s (partOf s a)).spwin)
    | 0xCC1 => some (if isHub a then 0 else word (c.cbase + c.ctop * 2 ^ 16))
    | 0xCC2 => some (if isHub a then 0 else word (getDie s (dieOf a)).lease)
    | 0xCC3 => some (u.tklvl.setWidth 64)
    | 0xCC4 => some (u.tkq.setWidth 64)
    | 0xCC5 => some u.tkepc
    | 0xCC6 => some s.lossgen
    | _ => none

/-- R119, R6: a rounding mode field; 110 and 111 leave it unchanged. -/
def modeField (old : BitVec 3) (v : Nat) : BitVec 3 := if v < 6 then BitVec.ofNat 3 v else old

/-- R128: the flag bits of `vflg0` and `vflg1`. -/
def laneMask : Word := 0x1F1F1F1F1F1F1F1F

/-- R5, R179: a write of a user CSR under its map; a read-only or unimplemented number is unchanged. -/
def writeUCsr (u : UCsr) (num : Nat) (v : Word) : UCsr :=
  if 0x808 ≤ num ∧ num < 0x810 then { u with tkvec := u.tkvec.setIfInBounds (num - 0x808) (v &&& ~~~(3 : Word)) }
  else match num with
    | 0x001 => { u with fflags := v.setWidth 5 }
    | 0x002 => { u with frm := modeField u.frm (fieldOf v 0 3) }
    | 0x003 => { u with fflags := v.setWidth 5, frm := modeField u.frm (fieldOf v 5 3) }
    | 0x800 => { u with spovf := v &&& ~~~(15 : Word) }
    | 0x801 => { u with vseed := if v.setWidth 32 = (0 : BitVec 32) then 1 else v.setWidth 32 }
    | 0x802 => { u with vrm := modeField u.vrm (fieldOf v 0 3) }
    | 0x803 => { u with vflg0 := v &&& laneMask }
    | 0x804 => { u with vflg1 := v &&& laneMask }
    | _ => u

/-! Supervisor CSRs -/

/-- R374: supervisor CSRs that both context 0 and hub cores have. -/
def bothCsr (num : Nat) : Bool :=
  [0x104, 0x144, 0x141, 0x142, 0x143, 0x14D, 0x5D0, 0x5D1, 0x5D2, 0x5D3, 0x5D4].contains num
/-- R374: supervisor CSRs of context 0 only. -/
def zeroCsr (num : Nat) : Bool :=
  [0x5C0, 0x5C1, 0x5C2, 0x5C3].contains num || (decide (0x5C8 ≤ num) && decide (num < 0x5D0)) ||
  (decide (0x5F0 ≤ num) && decide (num < 0x5F4))
/-- R374: supervisor CSRs of hub cores only. -/
def hubCsr (num : Nat) : Bool := [0x100, 0x105, 0x5E0, 0x5E1].contains num

/-- R374: the CSR is implemented for the agent. -/
def hasSCsr (a num : Nat) : Bool := bothCsr num || (if isHub a then hubCsr num else zeroCsr num)

/-- R308: the reset values of the hold registers. -/
def holdReset (p : Nat) : Nat := if p = 0 then 0 else 64 * 2 ^ p
/-- R308: a hold register. -/
def holdOf (s : State) (cl p : Nat) : Nat := tget (holdReset p) (getCluster s cl).hold p

/-- R374: the value of a supervisor CSR. -/
def readSCsr (s : State) (a num : Nat) : Word :=
  let c := (getCtx s a).scsr
  let p := getPart s (partOf s a)
  if 0x5C8 ≤ num ∧ num < 0x5D0 then word (holdOf s (clusterOf a) (num - 0x5C8))
  else if 0x5F0 ≤ num ∧ num < 0x5F4 then ((getCore s (coreOf a)).ctr.toList.getD (num - 0x5F0) {}).sel
  else match num with
    | 0x100 => c.sstatus
    | 0x104 => c.sie
    | 0x144 => c.sip
    | 0x105 => c.stvec
    | 0x141 => c.sepc
    | 0x142 => c.scause
    | 0x143 => c.stval
    | 0x14D => c.stimecmp
    | 0x5C0 => word (getDie s (dieOf a)).lease
    | 0x5C1 => word p.drawdly
    | 0x5C2 => (getCore s (coreOf a)).scctl
    | 0x5C3 => p.spwin
    | 0x5D0 => p.wfmt
    | 0x5D1 => p.wperm
    | 0x5D2 => p.wpamask
    | 0x5D3 => p.wleaf
    | 0x5D4 => p.astab
    | 0x5E0 => word (p.nblk + if p.busy then 2 ^ 63 else 0)
    | 0x5E1 => wordOfBool (getHub s (a - Config.contexts)).rqen
    | _ => 0

/-- R376: the interrupt bits. -/
def intMask : Word := 0x70222

/-- A change of the agent's own supervisor CSRs. -/
def modSCsr (s : State) (a : Nat) (f : SCsr → SCsr) : State := modCtx s a fun c => { c with scsr := f c.scsr }

/-- R73: every context 1 to 15 of the partition is FREE. -/
def usersFree (s : State) (part : Nat) : Bool :=
  s.ctxs.all fun e => isHub e.1 || ctxNo e.1 == 0 || partOf s e.1 != part || e.2.status == .free

/-- R73: a write of `sspwin`. -/
def writeSpwin (s : State) (a : Nat) (v : Word) : State :=
  let part := partOf s a
  if usersFree s part then modPart s part fun p => { p with spwin := word (v.toNat / 2 ^ 24 * 2 ^ 24) } else s
/-- R81: a write of `slscfg`. -/
def writeLease (s : State) (a : Nat) (v : Word) : State :=
  let n := fieldOf v 0 13
  if 32 ≤ n ∧ n ≤ 4096 then modDie s (dieOf a) fun d => { d with lease := n } else s
/-- R378: a write of `drawdly`. -/
def writeDrawdly (s : State) (a : Nat) (v : Word) : State :=
  let n := fieldOf v 0 16
  if 256 ≤ n then modPart s (partOf s a) fun p => { p with drawdly := n } else s
/-- R378: a write of `scctl`. -/
def writeScctl (s : State) (a : Nat) (v : Word) : State :=
  modCore s (coreOf a) fun k => { k with scctl := v &&& 0x3F01 }
/-- R308: a write of a hold register. -/
def writeHold (s : State) (a p : Nat) (v : Word) : State :=
  modCluster s (clusterOf a) fun c => { c with hold := tset c.hold p (fieldOf v 0 16) }
/-- R377: a write of `stimecmp`. -/
def writeStimecmp (s : State) (a : Nat) (v : Word) : State := modSCsr s a fun c => { c with stimecmp := v, armed := true }
/-- R376, R380: a write of `sip`: only SSIP is writable. -/
def writeSip (s : State) (a : Nat) (v : Word) : State := modSCsr s a fun c => { c with sip := setField c.sip 1 1 (fieldOf v 1 1) }

/-- R406 to R410: a write of a walk-format register (0 wfmt, 1 wperm, 2 wpamask, 3 wleaf, 4 astab): every translation of the
partition goes. -/
def writeWalk (s : State) (a r : Nat) (v : Word) : State :=
  let part := partOf s a
  let s := modPart s part fun p =>
    match r with
    | 0 =>
      let lv := if 3 ≤ fieldOf v 0 3 ∧ fieldOf v 0 3 ≤ 5 then fieldOf v 0 3 else fieldOf p.wfmt 0 3
      { p with wfmt := word (lv + 256) ||| (v &&& 0x1EF8) }
    | 1 => { p with wperm := v &&& 0x00003F3F3F3F3F3F }
    | 2 => { p with wpamask := v }
    | 3 => { p with wleaf := v }
    | _ =>
      let n := if fieldOf v 0 5 ≤ 16 then fieldOf v 0 5 else fieldOf p.astab 0 5
      { p with astab := word (fieldOf v 12 52 * 4096 + n) }
  dropPart s part

/-- R458: the sources valid at a level: 0 core, 1 cluster, 2 die. -/
def srcValid (level src : Nat) : Bool :=
  match level with
  | 0 => [1, 2, 3, 4, 5, 6].contains src
  | 1 => [1, 2, 3, 4, 5, 6, 0x10, 0x11, 0x12, 0x13, 0x14, 0x15, 0x16].contains src
  | _ => [1, 6, 0x20, 0x21, 0x22, 0x23, 0x24].contains src

/-- R458: a select word written. -/
def selWrite (level : Nat) (old v : Word) : Word :=
  word ((if srcValid level (fieldOf v 0 8) then fieldOf v 0 8 else fieldOf old 0 8) + 256 * fieldOf v 8 1)

/-- R458: a write of `evsel`n. -/
def writeEvsel (s : State) (a n : Nat) (v : Word) : State :=
  modCore s (coreOf a) fun k =>
    let e := k.ctr.toList.getD n {}
    { k with ctr := k.ctr.setIfInBounds n { e with sel := selWrite 0 e.sel v } }

/-- R430, R432: a write of `rqjob`. -/
def writeRqjob (s : State) (a : Nat) (v : Word) : State :=
  let part := partOf s a
  let n := fieldOf v 0 32
  if (getPart s part).busy ∨ n = 0 then s
  else
    let on := (List.range Config.hubs).filter fun h => partOf s (Config.contexts + h) == part && (getHub s h).rqen
    modPart s part fun p => { p with nblk := n, nextBlk := 0, backBlk := [], tokens := on, busy := !on.isEmpty }

/-- R431, R34: a write of `rqen`: binding and unbinding discard x24. -/
def writeRqen (s : State) (a : Nat) (v : Word) : State :=
  if (getPart s (partOf s a)).busy then s
  else
    let on := bitOf v 0
    let s := if on = (getHub s (a - Config.contexts)).rqen then s else modCtx s a fun c => { c with x := c.x.set 24 0 }
    modHub s (a - Config.contexts) fun h => { h with rqen := on }

/-- R5, R374 to R378: a write of a supervisor CSR under its map. -/
def writeSCsr (s : State) (a num : Nat) (v : Word) : State :=
  if 0x5C8 ≤ num ∧ num < 0x5D0 then writeHold s a (num - 0x5C8) v
  else if 0x5D0 ≤ num ∧ num < 0x5D5 then writeWalk s a (num - 0x5D0) v
  else if 0x5F0 ≤ num ∧ num < 0x5F4 then writeEvsel s a (num - 0x5F0) v
  else match num with
    | 0x100 => modSCsr s a fun c => { c with sstatus := v &&& 0x122 }
    | 0x104 => modSCsr s a fun c => { c with sie := v &&& intMask }
    | 0x144 => writeSip s a v
    | 0x105 => modSCsr s a fun c => { c with stvec := v &&& ~~~(3 : Word) }
    | 0x141 => modSCsr s a fun c => { c with sepc := v &&& ~~~(3 : Word) }
    | 0x142 => modSCsr s a fun c => { c with scause := v }
    | 0x143 => modSCsr s a fun c => { c with stval := v }
    | 0x14D => writeStimecmp s a v
    | 0x5C0 => writeLease s a v
    | 0x5C1 => writeDrawdly s a v
    | 0x5C2 => writeScctl s a v
    | 0x5C3 => writeSpwin s a v
    | 0x5E0 => writeRqjob s a v
    | 0x5E1 => writeRqen s a v
    | _ => s

/-! Items of a context (R387) -/

/-- The end in x register r is bound, by `ctx.start`, `q.bind`, or by hardware. -/
def xBound (s : State) (a r : Nat) : Bool :=
  decide (24 ≤ r) && ((((getCtx s a).ends.toList.getD (r - 24) {}).queue).isSome ||
    (if isHub a then r == 24 && (getHub s (a - Config.contexts)).rqen else ctxNo a == 0 && (r == 30 || r == 31)))

/-- R387: a CSR that may be named for the target. -/
def itemCsr (s : State) (a idx : Nat) : Bool :=
  if ctxNo a = 0 then decide (0x141 ≤ idx) && decide (idx ≤ 0x143) else (readUCsr s a idx).isSome

/-- R387: an item of context `a`: kind 0 an x register or the saved pc, kind 1 a CSR. -/
def readItem (s : State) (a kind idx : Nat) : Word :=
  let c := getCtx s a
  if c.status = .free then 0
  else if kind = 0 then
    if idx = 0 then 0
    else if idx = 32 then c.pc
    else if idx < 32 then (if xBound s a idx then 0 else c.x.toList.getD idx 0)
    else 0
  else if !itemCsr s a idx then 0
  else if ctxNo a = 0 then readSCsr s a idx
  else (readUCsr s a idx).getD 0

/-- R387: an item of context `a` is written; the caller has checked that the context may be written. -/
def writeItem (s : State) (a kind idx : Nat) (v : Word) : State :=
  if kind = 0 then
    if idx = 32 then modCtx s a fun c => { c with pc := v &&& ~~~(3 : Word) }
    else if 0 < idx ∧ idx < 32 then
      (if xBound s a idx then s else modCtx s a fun c => { c with x := c.x.setIfInBounds idx v })
    else s
  else if !itemCsr s a idx then s
  else if ctxNo a = 0 then writeSCsr s a idx v
  else modCtx s a fun c => { c with ucsr := writeUCsr c.ucsr idx v }

/-! The management window -/

/-- R451: STATE of a die as a number. -/
def DieState.code : DieState → Nat
  | .ready => 0
  | .quiescing => 1
  | .offline => 2
  | .admitting => 3

/-- R452: `dstat` of a die. -/
def dstatOf (d : Die) : Word := word (d.state.code * 2 + (if d.off then 8 else 0) + d.offdrop * 2 ^ 16)
/-- R455: `dierr` of a die. -/
def dierrOf (d : Die) : Word := word (d.corr + d.uncorr * 2 ^ 16 + d.lost * 2 ^ 32)

/-- R457: the context that `dbgsel` names. -/
def dbgAgent (p : Part) : Nat := fieldOf p.dbgsel 0 17

/-- R457: `dbgctl` as it reads. -/
def dbgctlOf (s : State) (p : Part) : Word :=
  let a := dbgAgent p
  let c := getCtx s a
  word ((if (getCore s (coreOf a)).armbrk then 8 else 0) + (if c.halted.isSome then 16 else 0) + (if c.dbgEntry then 32 else 0))

/-- R449: the doubleword at an offset (a multiple of 8) of a partition's management window. -/
def readMg (s : State) (part off : Nat) : Word :=
  let p := getPart s part
  let die (base : Nat) : Nat := part + (off - base) / 8
  let inside (d : Nat) : Bool := (diesOf s part).contains d
  if 0x100 ≤ off ∧ off < 0x120 then (if inside (die 0x100) then dstatOf (getDie s (die 0x100)) else 0)
  else if 0x200 ≤ off ∧ off < 0x220 then (if inside (die 0x200) then dierrOf (getDie s (die 0x200)) else 0)
  else if 0x1000 ≤ off ∧ off < 0x1040 then p.port.staged.toList.getD ((off - 0x1000) / 8) 0
  else if off = 0x1048 then word (p.port.status + p.port.code.toNat * 256)
  else if 0x10000 ≤ off ∧ off < 0x12000 then
    let cl := part * 8 + (off - 0x10000) / 0x100
    let r := (off - 0x10000) % 0x100
    let e := tget {} (getCluster s cl).ctr (r % 0x80 / 8)
    if (clustersOf s part).contains cl then (if r < 0x80 then e.val else e.sel) else 0
  else if 0x20000 ≤ off ∧ off < 0x20800 then
    let d := part + (off - 0x20000) / 0x200
    let r := (off - 0x20000) % 0x200
    let e := tget {} (getDie s d).ctr (r % 0x100 / 8)
    if inside d then (if r < 0x100 then e.val else e.sel) else 0
  else match off with
    | 0x60000 => p.dbgsel
    | 0x60008 => dbgctlOf s p
    | 0x60010 => p.dbgitem
    | 0x60018 => readItem s (dbgAgent p) (fieldOf p.dbgitem 4 1) (fieldOf p.dbgitem 5 12)
    | _ => 0

/-- R449: bytes of a management window, by physical address. -/
def readMgBytes (s : State) (part pa n : Nat) : List Byte :=
  (List.range n).map fun i =>
    let off := pa + i - (getPart s part).mgBase
    BitVec.ofNat 8 ((readMg s part (off / 8 * 8)).toNat / 2 ^ (8 * (off % 8)))

end Sys2Proof.Machine
end

