-- ==== Sys2Proof/Machine/Mem.lean ====
section
/-! DEFINITION. Machine/Mem.lean: the accesses of a context: address resolution (R67, R74, R75, R79, R237), loads with store
forwarding, leases and remote copies (R80, R83, R91), the store buffer, atomics at their sites (R104, R172, R173 to R175, R243
to R245). -/

namespace Sys2Proof.Machine

/-- R67: bits [63:57] equal bit 56. -/
def canonical (va : Word) : Bool := fieldOf va 56 8 == 0 || fieldOf va 56 8 == 255

/-- R73: the base of the scratchpad window of an agent's partition. -/
def windowBase (s : State) (a : Nat) : Nat := (getPart s (partOf s a)).spwin.toNat / 2 ^ 24 * 2 ^ 24

/-- R74: an address lies in the window. A hub core has none (R429). -/
def inWindow (s : State) (a : Nat) (va : Nat) : Bool :=
  !isHub a && decide (windowBase s a ≤ va) && decide (va < windowBase s a + 2 ^ 24)

/-- R388: the tag of a block without an owner, as reset leaves it. -/
def noOwner : Word := 0x100000000

/-- R388: the owner tag of a block of a core. -/
def ownerTag (k : Core) (b : Nat) : Word := tget noOwner k.owner b

/-- R388: the instance that a tag names; none under NONE. -/
def tagInst (v : Word) : Option (Nat × Nat) := if bitOf v 32 then none else some (fieldOf v 0 16, fieldOf v 16 16)

/-- R75: an instance owns byte `off` of a cluster's scratchpads: it lies in a carve-out of one of its contexts, or in a block whose tag names it. -/
def ownsByte (s : State) (cl off : Nat) (inst : Nat × Nat) : Bool :=
  let core := cl * 256 + off / 65536
  let inside := off % 65536
  tagInst (ownerTag (getCore s core) (inside / 4096)) == some inst ||
  s.ctxs.any fun e => !isHub e.1 && coreOf e.1 == core && e.2.status != .free && instOf e.2 == inst &&
    decide (e.2.cbase * 256 ≤ inside) && decide (inside < e.2.ctop * 256)

/-- R75: an instance may access `n` bytes of a cluster's scratchpads from `off` on. -/
def ownsBytes (s : State) (cl off n : Nat) (inst : Nat × Nat) : Bool :=
  (List.range n).all fun i => ownsByte s cl (off + i) inst

/-- R75: a context may access `n` bytes of the window from `off` on. -/
def ownsRange (s : State) (a off n : Nat) : Bool := ownsBytes s (clusterOf a) off n (instOf (getCtx s a))

/-- One stretch of an access: where it lies and how many bytes. -/
abbrev Piece := Loc × Nat

/-- R79: where an access through x2 goes. -/
inductive Redirect where
  | straddles
  | to (va : Word)
  | none

/-- R79: the redirection of an access of `n` bytes at `ea` through x2. -/
def redirect (s : State) (a : Nat) (ea : Word) (n : Nat) : Redirect :=
  if isHub a then .none
  else
    let c := getCtx s a
    let cb : Int := windowBase s a + coreOf a % 256 * 65536 + c.cbase * 256
    let e : Int := ea.toNat
    if cb - 2 ^ 24 ≤ e ∧ e < cb then
      if cb ≤ e + n - 1 then .straddles
      else .to (BitVec.ofInt 64 ((c.ucsr.spovf.toNat / 16 * 16 : Nat) + (e - cb)))
    else .none

/-- R411, R412, R237: one stretch within a page, translated: its physical address and the source lines. `tv`: the tval of an offline fault. -/
def xlateA (acc : Access) (va : Word) (tv : Word) : Act (Nat × List Nat) := fun s =>
  let c := getCtx s s.cur
  match xlate s s.cur c.space c.sup (va.toNat % 2 ^ 57) acc with
  | .access => .error (.trap (accessCause acc) va)
  | .format | .permission => .error (.trap (pageCause acc) va)
  | .notPresent lines => .error (.notPresent acc va lines)
  | .offline => .error (.trap 30 tv)
  | .wait q => .error (.hold q)
  | .ok pa tags s' => .ok ((pa, tags), s')

/-- R68, R237: where a translated stretch lies, when the agent may access it: not on an offline die, nor behind a link that is down. -/
def reach (acc : Access) (pa : Nat) (va : Word) (tv : Word) : Act Loc := fun s =>
  let a := s.cur
  let l := locate s (partOf s a) pa
  match l.cls with
  | .hbm d => if (getDie s d).off then .error (.trap 30 tv) else .ok (l, s)
  | .host => if (getPart s (partOf s a)).linkDown then .error (.trap 30 tv) else .ok (l, s)
  | .mgmt => if isHub a then .ok (l, s) else .error (.trap (accessCause acc) va)
  | .foreign => .error (.trap (accessCause acc) va)
  | _ => .ok (l, s)

/-- R67, R170: the stretches of an access of `n` bytes outside the window, by page: all are translated first; `va` is canonical. -/
def resolvePages (acc : Access) (va : Word) (n : Nat) : Act (List Piece × List Nat) := do
  let room := 4096 - va.toNat % 4096
  let (p1, t1) ← xlateA acc va va
  if n ≤ room then
    let l1 ← reach acc p1 va va
    pure ([(l1, n)], t1)
  else
    let va2 := va + word room
    trapIf (!canonical va2) (accessCause acc) va2
    let (p2, t2) ← xlateA acc va2 va
    let l1 ← reach acc p1 va va
    let l2 ← reach acc p2 va2 va
    pure ([(l1, room), (l2, n - room)], t1 ++ t2)

/-- R67, R74, R75, R170: an access of `n` bytes at `va`: the stretches it consists of, by page. -/
def resolveAt (acc : Access) (va : Word) (n : Nat) : Act (List Piece × List Nat) := do
  let s ← get
  let a := s.cur
  trapIf (!canonical va) (accessCause acc) va
  let first := inWindow s a va.toNat
  let last := inWindow s a (va + word (n - 1)).toNat
  if first && last then
    let off := va.toNat - windowBase s a
    trapIf (!ownsRange s a off n) (accessCause acc) va
    pure ([(⟨.spad, clusterOf a * 2 ^ 24 + off⟩, n)], [])
  else if first || last then trap (accessCause acc) va
  else resolvePages acc va n

/-- R169, R233: an access of `n` bytes at `ea`; `sp`: its base register is x2. -/
def resolve (acc : Access) (ea : Word) (n : Nat) (sp : Bool) : Act (List Piece × List Nat) := do
  let s ← get
  trapIf (!canonical ea) (accessCause acc) ea
  match if sp then redirect s s.cur ea n else .none with
  | .straddles => trap (alignCause acc) ea
  | .none => resolveAt acc ea n
  | .to va =>
    trapIf (!canonical va) (accessCause acc) va
    resolvePages acc va n

/-- The bytes of an access: whether they lie in a scratchpad, and their kept addresses. -/
def keysOf (ps : List Piece) : List (Bool × Nat) :=
  ps.flatMap fun p => (List.range p.2).map fun i => (p.1.cls == .spad, p.1.key + i)

/-- R91: the youngest buffered byte for an address. -/
def sbByte (sb : List SbEntry) (k : Bool × Nat) : Option Byte :=
  sb.reverse.findSome? fun e => e.bytes.reverse.findSome? fun b => if b.1 = k then some b.2 else none

/-- R89: a write of the agent that has left its buffer and touches one of the bytes is not performed yet. -/
def ownPending (s : State) (a : Nat) (ks : List (Bool × Nat)) : Bool :=
  s.writes.any fun w => w.agent == a && !w.home && w.bytes.any fun b => ks.any fun k => !k.1 && k.2 == b.1

/-- R83: the number of line copies a die may hold. -/
def copyRoom (d : Die) : Bool := decide (d.copies.length < d.region * 262144)

/-- R427: the line lies in memory that is never cached. -/
def uncached (s : State) (line : Nat) : Bool :=
  match (locOfKey s (line * 128)).cls with
  | .shared | .peer => true
  | _ => false

/-- R237: a home that agent `a` cannot reach: an offline die, or host memory behind its partition's link when that is down (R436). -/
def unreachable (s : State) (a key : Nat) : Bool :=
  match (locOfKey s key).cls with
  | .hbm d => (getDie s d).off
  | .host => (getPart s (partOf s a)).linkDown
  | _ => false

/-- R237, R452: an entry is discarded at the route table and counted. -/
def countDrop (s : State) (key : Nat) : State :=
  match (locOfKey s key).cls with
  | .hbm d => modDie s d fun x => { x with offdrop := capped x.offdrop }
  | _ => s

/-- R80, R84: a lease on the halves of a line that the host does not hold, in an agent's L1, and at its die; leases that have ended are forgotten.
A full L1 holds 256 lines (R12); the manual does not say which of them leaves: here the highest-numbered (log entry 24). -/
def grant (s : State) (a line : Nat) : State :=
  let t := s.clock + (getDie s (dieOf a)).lease
  let s := modDie s (dieOf a) fun x =>
    { x with leases := tset (x.leases.filter fun e => decide (s.clock < e.2)) line (max t (tget 0 x.leases line)) }
  modCore s (coreOf a) fun k =>
    let live := k.l1.filter fun e => decide (s.clock < e.2) && e.1 / 2 != line
    let stay := (dedup (live.map fun e => e.1 / 2)).take 255
    { k with l1 := ((halvesOf line).filter fun h => !hostHolds s h).foldl (fun l h => tset l h t) (live.filter fun e => stay.contains (e.1 / 2)) }

/-- R172, R244: the value an atomic writes, if it writes: `m` old value, `s` operand, `e` expected value, of `n` bytes. -/
def atomResult (op : AOp) (n : Nat) (m s e : Nat) : Option Nat :=
  let md := 2 ^ (8 * n)
  let sg (v : Nat) : Int := (BitVec.ofNat (8 * n) v).toInt
  match op with
  | .add => some ((m + s) % md)
  | .and => some (m &&& s)
  | .or => some (m ||| s)
  | .xor => some (m ^^^ s)
  | .min => some (if sg s < sg m then s else m)
  | .max => some (if sg m < sg s then s else m)
  | .minu => some (min m s)
  | .maxu => some (max m s)
  | .swap => some s
  | .cas => if m = e then some s else none
  | .fadd => some (roundF fp32 .rne false 0 (addV false (decodeF fp32 m) (decodeF fp32 s)).1).1
  | .bfadd2 =>
    let half (x y : Nat) : Nat := (roundF bf16 .rne false 0 (addV false (decodeF bf16 x) (decodeF bf16 y)).1).1
    some (half (m % 65536) (s % 65536) + half (m / 65536) (s / 65536) * 65536)
  | .lr => none
  | .sc => some s

/-- The block a reservation names: scratchpad blocks are numbered apart (R173). -/
def blockOf (l : Loc) : Nat := if l.cls = .spad then 2 ^ 60 + l.key / 128 else l.key / 128

/-- R173: the reservation of a context on a block is valid. -/
def resvValid (s : State) (a block : Nat) : Bool :=
  match (getCtx s a).resv with
  | some r => r.block == block && r.valid && decide (s.clock < r.since + Config.resvCycles) && !prioElsewhere s a block
  | none => false

/-- The old value of an atomic's location. -/
def siteRead (s : State) (l : Loc) (n : Nat) : Nat :=
  leNat (readBytes (if l.cls = .spad then s.spad else s.mem) l.key n)

/-- R245: whether the atomic will write, as far as the site can tell. -/
def writesAt (s : State) (a : Nat) (op : AOp) (l : Loc) (n opnd expv : Nat) : Bool :=
  match op with
  | .lr => false
  | .sc => resvValid s a (blockOf l)
  | _ => (atomResult op n (siteRead s l n) opnd expv).isSome

/-- R80, R245: a store or an atomic that will write the line is on its way to its home, or waits there. -/
def writeWaits (s : State) (line : Nat) : Bool :=
  (s.writes.any fun w => !w.home && w.bytes.any fun b => lineOf b.1 == line) ||
  s.atomics.any fun m => !m.packet && lineOf m.pa == line &&
    writesAt s m.agent m.op (locOfKey s m.pa) m.size (m.opnd.toNat % 2 ^ (8 * m.size)) (m.expv.toNat % 2 ^ (8 * m.size))

/-- R83, R107: an invalidation of a die's copy of the line waits for the leases there. -/
def dropWaits (s : State) (d line : Nat) : Bool := s.writes.any fun w => w.inv.contains d && w.addr / 128 == line

/-- R458: an L1 data miss of an agent's core. -/
def countMiss (s : State) (a : Nat) : State := countCluster (countCore s (coreOf a) 4 1) (clusterOf a) 4 1

/-- R80, R83, R84: halves of a line are made readable for an agent: an L1 hit under a live lease, a remote copy of its die, or a fill from
the home, which waits while a write of the line waits there and behind what its station has sent on the same lane (R424); no lease is granted on a copy
that is to go. The result says what is still needed. With no room in the remote-cache region, or one of size 0, the manual does not say what a read of a
remote line leaves: here it is served by the home, no copy is kept and no lease granted (log entry 101). Nor does it name a home for leases on lines of
host memory: here the L1 holds none of them (log entry 102). -/
def fill (s : State) (a line : Nat) (halves : List Nat) : Except (List Req) State :=
  let d := dieOf a
  if !isHub a && halves.all fun h => decide (s.clock < tget 0 (getCore s (coreOf a)).l1 h) then .ok s
  else if !isHub a && (tfind (getDie s d).copies line).isSome && !halves.any (hostHolds s) then
    if dropWaits s d line then .error [] else .ok (grant (countMiss s a) a line)
  else if writeWaits s line || laneHeld s a line then .error []
  else match readNeeds s line halves with
    | _ :: _ => .error (readNeeds s line halves)
    | [] =>
      if isHub a then .ok s
      else
        let s := countMiss s a
        if homeDie line = some d then .ok (grant s a line)
        else match (locOfKey s (line * 128)).cls with
          | .hbm _ | .priv =>
            if copyRoom (getDie s d) then
              .ok (grant (modDie s d fun x => { x with copies := tset x.copies line (readLine s.mem line) }) a line)
            else .ok s
          | _ => .ok s

/-- R80, R89: agents that read through one L1: those of a core. -/
def sameL1 (a b : Nat) : Bool := a == b || (decide (a < Config.contexts) && decide (b < Config.contexts) && coreOf a == coreOf b)

/-- R80, R89: the byte that the agent's core has last written, where its write has been performed at the home and the copy of its die is still to go. -/
def ownWritten (s : State) (a key : Nat) : Option Byte :=
  s.writes.reverse.findSome? fun w =>
    if sameL1 w.agent a ∧ w.home ∧ w.inv.contains (dieOf a) then w.bytes.findSome? fun b => if b.1 = key then some b.2 else none else none

/-- R83, R89: the value an agent reads for a byte: what it wrote itself, the copy of its die, or the home. -/
def visibleByte (s : State) (a key : Nat) : Byte :=
  match tfind (getDie s (dieOf a)).copies (lineOf key) with
  | some v => (ownWritten s a key).getD (BitVec.ofNat 8 (v.toNat / 2 ^ (8 * (key % 128))))
  | none => readByte s.mem key

/-- The halves of a line that a stretch touches. -/
def halvesIn (p : Piece) (line : Nat) : List Nat :=
  (halvesOf line).filter fun h => decide (p.1.key < h * 64 + 64) && decide (h * 64 < p.1.key + p.2)

/-- R427: the data of a line of uncached memory that has come back for a reader. -/
def uioData (s : State) (reader line : Nat) : Option (Option (BitVec 1024)) :=
  (s.uio.find? fun u => u.agent == reader && u.pa == line * 128).bind fun u =>
    if u.failed then some none else u.data.map some

/-- Why a read cannot be performed yet, or not at all. -/
inductive ReadWait where
  /-- requests of the home, the host or the route table come first -/
  | needs (reqs : List Req)
  /-- R427: a line of uncached memory has not come -/
  | uncached (line : Nat)
  /-- R436, R247: its read has failed -/
  | failed

/-- One stretch, read by agent `a`: R76 for the scratchpad, R427 for uncached memory, whose data comes under the number `reader`. -/
def readStretch (s : State) (a reader : Nat) (p : Piece) : Except ReadWait (List Byte × State) :=
  match p.1.cls with
  | .spad => .ok (readBytes s.spad p.1.key p.2, s)
  | .mgmt => .ok (readMgBytes s (p.1.key / 2 ^ 52 - 1) (p.1.key % 2 ^ 52) p.2, s)
  | .shared | .peer =>
    match uioData s reader (lineOf p.1.key) with
    | none => .error (.uncached (lineOf p.1.key))
    | some none => .error .failed
    | some (some v) => .ok ((leBytes 128 v.toNat).drop (p.1.key % 128) |>.take p.2, s)
  | _ =>
    match (linesOf p).foldlM (fun s l => fill s a l (halvesIn p l)) s with
    | .error q => .error (.needs q)
    | .ok s' => .ok ((List.range p.2).map fun i => visibleByte s' a (p.1.key + i), s')

/-- Stretches cut at line boundaries, for memory that is read line by line. -/
def cutLines (p : Piece) : List Piece :=
  match p.1.cls with
  | .shared | .peer => (linesOf p).map fun l =>
      let lo := max p.1.key (l * 128)
      (⟨p.1.cls, lo⟩, min (p.1.key + p.2) (l * 128 + 128) - lo)
  | _ => [p]

/-- Reads of several stretches, in order. -/
def readStretches (a reader : Nat) : List Piece → State → Except ReadWait (List Byte × State)
  | [], s => .ok ([], s)
  | p :: t, s => match readStretch s a reader p with
    | .error e => .error e
    | .ok (b, s1) => match readStretches a reader t s1 with
      | .error e => .error e
      | .ok (r, s2) => .ok (b ++ r, s2)

/-- R89, R91: the bytes of an access of agent `a`, before which the entries `sb` stand in its store buffer: from these when they cover every byte;
else after every overlapping one, and every overlapping store on its way, has been performed. A register of the management window is read as it is, before
or after the agent's own earlier writes of it (R461). -/
def bytesOf (s : State) (a reader : Nat) (sb : List SbEntry) (ps : List Piece) : Except ReadWait (List Byte × State) :=
  let mem := ps.filter fun p => p.1.cls != .mgmt
  let ks := keysOf mem
  let fwd := ks.map (sbByte sb)
  if !fwd.isEmpty && fwd.all (·.isSome) && mem.length == ps.length then .ok (fwd.filterMap id, s)
  else if fwd.any (·.isSome) || ownPending s a ks then .error (.needs [])
  else readStretches a reader (ps.flatMap cutLines) s

/-- R90, R268: the elements of a read, in order; a failure comes with the address of its element. -/
def readElems (a reader : Nat) (sb : List SbEntry) : List ReadElem → State → Except (ReadWait × Word) (List (ReadElem × Nat) × State)
  | [], s => .ok ([], s)
  | e :: t, s => match bytesOf s a reader sb e.pieces with
    | .error w => .error (w, e.ea)
    | .ok (b, s1) => match readElems a reader sb t s1 with
      | .error w => .error w
      | .ok (r, s2) => .ok ((e, leNat b) :: r, s2)

/-- The uncached lines that the agent's instruction has read are used up. -/
def doneUio : Act Unit := modify fun s => if s.uio.any fun u => u.agent == s.cur then dropReads s s.cur else s

/-- R470: the access goes to memory homed on the agent's die, the scratchpads included. -/
def ownDie (a : Nat) (l : List ReadElem) : Bool :=
  !isHub a && l.any fun e => e.pieces.any fun p => match p.1.cls with
    | .spad => true
    | .hbm d => d == dieOf a
    | _ => false

/-- R470: a further access may issue: fewer than 8 wait, and none of them to die-homed memory when this one goes there. -/
def mayAccess (s : State) (a : Nat) (l : List ReadElem) : Bool :=
  let w := waiting (getCtx s a)
  decide (w.length < Config.outstanding) && !(ownDie a l && w.any fun o => ownDie a o.elems)

/-- R89: an access of a list touches one of the lines of another. -/
def touches (w : List Outstanding) (l : List ReadElem) : Bool := w.any fun o => (linesOfElems o.elems).any (linesOfElems l).contains

/-- R89, R91: a read of the executing context by an instruction that waits for its value. -/
def readNow (l : List ReadElem) : Act (List (ReadElem × Nat)) := fun s =>
  let c := getCtx s s.cur
  if !mayAccess s s.cur l || touches (waiting c) l then .error (.hold [])
  else match readElems s.cur s.cur c.sb l s with
    | .ok r => .ok r
    | .error (.needs q, _) => .error (.hold q)
    | .error (.uncached line, _) => .error (.send (.uioRead line false) none)
    | .error (.failed, ea) => .error (.trap 7 ea)

/-- R80, R470: an entry enters the store buffer of the executing context, when it has a free place. -/
def pushSb (e : SbEntry) : Act Unit := do
  let c ← me
  let s ← get
  if c.sb.length < Config.storeBuffer then modMe fun c => { c with sb := c.sb ++ [{ e with seq := s.nextId }] }
  else stop (.hold [])

/-- R240: what an access of an order waits for before it issues. -/
def orderGate (ord : Order) (sc : Scope) : Act Unit := do
  orderClear
  match ord with
  | .rl | .ar => release sc
  | _ => pure ()

/-- R8: `mem.read(va, size, order, scope)` of a context, as one of several reads of an instruction: the uncached lines it has read are kept. -/
def memReadOne (ea : Word) (n : Nat) (sp : Bool) (ord : Order) (sc : Scope) : Act (List Byte) := do
  orderGate ord sc
  let (ps, tags) ← resolve .read ea n sp
  let l ← readNow [⟨0, 0, ea, ps, tags⟩]
  pure (leBytes n ((l.map (·.2)).getD 0 0))

/-- R8: `mem.read(va, size, order, scope)` of a context, the only or last read of an instruction. -/
def memRead (ea : Word) (n : Nat) (sp : Bool) (ord : Order) (sc : Scope) : Act (List Byte) := do
  let b ← memReadOne ea n sp ord sc
  doneUio
  pure b

/-- R8: `mem.write(va, size, v, order, scope)` of a context: the store enters the store buffer; a store of order rl or ar
leaves it when its release condition holds (R240). -/
def memWrite (ea : Word) (bytes : List Byte) (sp : Bool) (ord : Order) (sc : Scope) : Act Unit := do
  orderGate .rlx sc
  let (ps, tags) ← resolve .write ea bytes.length sp
  let ks := keysOf ps
  pushSb { bytes := ks.zip bytes, order := ord, scope := sc, tags, ea }

/-! Atomics -/

/-- R175: when the live priority reservation on a block that an agent other than `a` holds ends at the latest. -/
def prioEnd (s : State) (a block : Nat) : Option Nat :=
  s.ctxs.findSome? fun e => if e.1 = a then none else match e.2.resv with
    | some r => if r.block == block && r.valid then r.prio.bind fun t => if s.clock < t then some t else none else none
    | none => none

/-- R175: another context qualified for the block before `a`, and the site has received its `lr`. -/
def olderQual (s : State) (a block : Nat) (seq : Option Nat) : Bool :=
  s.ctxs.any fun e => e.1 != a && (match e.2.qual with
    | some o => o.block == block && decide (s.clock ≤ o.until_) && (match o.seq, seq with
      | some x, some y => decide (x < y)
      | some _, none => true
      | none, _ => false)
    | none => false)

/-- R175: a priority reservation of agent `a` on a block begins: the 256 cycles of the contexts that wait for the block run from its end. -/
def extendQuals (s : State) (a block : Nat) : State :=
  { s with ctxs := s.ctxs.map fun e => match e.2.qual with
      | some q => if e.1 ≠ a ∧ q.block = block ∧ q.seq.isSome ∧ s.clock ≤ q.until_ then
          (e.1, { e.2 with qual := some { q with until_ := s.clock + Config.prioCycles + Config.qualCycles } }) else e
      | none => e }

/-- R173, R175: an `lr` of agent `a` takes its reservation, a priority one when it qualifies and none is before it; the holder of a live priority
reservation keeps it. A qualified context that must wait keeps its qualification until 256 cycles after the priority reservation it waits for. From
when a younger waiting context's cycles run when the older one misses its turn the manual does not say: here from the same end, so that it misses its
own with it (log entry 104). -/
def takeResv (s : State) (a block : Nat) : State :=
  let c := getCtx s a
  let mine : Option Nat := c.resv.bind fun r => if r.block == block && r.valid then r.prio.bind fun t => if s.clock < t then some t else none else none
  let take (prio : Option Nat) (qual : Option Qual) (s : State) : State :=
    setCtx s a { c with resv := some { block, since := s.clock, valid := true, prio }, qual }
  match mine, c.qual with
  | some t, q => take (some t) q s
  | none, none => take none none s
  | none, some q =>
    if q.block ≠ block ∨ q.until_ < s.clock then take none (some q) s
    else match prioEnd s a block, olderQual s a block q.seq with
      | none, false => take (some (s.clock + Config.prioCycles)) none (extendQuals s a block)
      | live, _ =>
        let q' : Qual := { q with seq := q.seq.orElse fun _ => some s.nextId, until_ := (live.map (· + Config.qualCycles)).getD q.until_ }
        take none (some q') { s with nextId := s.nextId + 1 }

/-- R173, R175: an `sc` of agent `a` on a block has been judged; its reservation is gone. `lost`: it failed because the
reservation had become invalid; a context that waits for its turn already keeps it. -/
def endResv (s : State) (a block : Nat) : State :=
  let c := getCtx s a
  let ok := resvValid s a block
  let lost := match c.resv with
    | some r => r.block == block && !(r.valid && decide (s.clock < r.since + Config.resvCycles))
    | none => false
  let waits := match c.qual with
    | some q => q.block == block && q.seq.isSome && decide (s.clock ≤ q.until_)
    | none => false
  setCtx s a { c with
    resv := none
    qual := if lost && !ok && !waits then some { block, since := s.clock, seq := none, until_ := s.clock + Config.qualCycles } else c.qual }

/-- The write of an atomic at its site. `spare`: the context whose reservation it leaves valid. -/
def siteWrite (s : State) (a : Nat) (l : Loc) (n v : Nat) (ord : Order) (sc : Scope) (tags : List Nat) (spare : Nat) : State :=
  let cells := cellsAt l.key (leBytes n v)
  if l.cls = .spad then killResv { s with spad := writeCells s.spad cells } (blockOf l) spare
  else directWrite s a (lineOf l.key) cells ord sc tags spare

/-- R104, R172, R173, R243, R245: an atomic performed at its site as one action: the value for rd (not yet extended). The write of an `xam`
invalidates every reservation on the block; that of an AMO (`amo`) leaves its own context's. -/
def atSite (s : State) (a : Nat) (op : AOp) (amo : Bool) (l : Loc) (n opnd expv : Nat) (ord : Order) (sc : Scope) (tags : List Nat) : Nat × State :=
  let m := siteRead s l n
  match op with
  | .lr => (m, takeResv s a (blockOf l))
  | .sc =>
    if resvValid s a (blockOf l) then (0, endResv (siteWrite s a l n opnd ord sc tags a) a (blockOf l))
    else (1, endResv s a (blockOf l))
  | _ => match atomResult op n m opnd expv with
    | some v => (m, siteWrite s a l n v ord sc tags (if amo then a else Config.agents))
    | none => (m, s)

/-- R80, R84: what the site still needs before it can act: none when it can. It does not act while a copy that is older than the site's value is
still to be removed from the agent's die, which would then read older than its atomic (R89). `id`: the atomic that has arrived there; the ones that
arrived before it come first (R246). -/
def siteNeeds (s : State) (a : Nat) (op : AOp) (l : Loc) (n opnd expv : Nat) (id : Option Nat := none) : Option (List Req) :=
  let line := lineOf l.key
  let h := [l.key / 64]
  let first := match s.atomics.find? fun m => m.atHome && lineOf m.pa == line with
    | some m => id == some m.id
    | none => true
  let waiting := s.writes.any fun w => !w.home && w.bytes.any fun b => lineOf b.1 == line
  if l.cls = .spad then none
  else if !first || waiting || (id.isNone && laneHeld s a line) || (decide (a < Config.contexts) && dropWaits s (dieOf a) line) then some []
  else if writesAt s a op l n opnd expv then
    if canWrite s line h then none else some (writeNeeds s line h)
  else match (if l.cls = .host then writeNeeds s line h else readNeeds s line h) with
    | [] => none
    | q => some q

/-- R172, R243: how an atomic of the executing context begins: with the old value that the site gives at once, or as a message on its way there. -/
inductive Begun where
  | done (old : Nat)
  | sent (m : Msg)

/-- R172, R174, R243, R461: an atomic of the executing context issues; `acc` is the kind of its translation. One whose site cannot act at once waits
there (R245). -/
def beginAtomic (op : AOp) (amo : Bool) (ea : Word) (n : Nat) (opnd expv : Word) (sp : Bool) (ord : Order) (sc : Scope) : Act (Begun × List ReadElem) := do
  let acc : Access := if op = .lr then .read else .write
  trapIf (ea.toNat % n != 0) (alignCause acc) ea
  orderGate ord sc
  let (ps, tags) ← resolve acc ea n sp
  let s ← get
  let c ← me
  let els : List ReadElem := [⟨0, 0, ea, ps, tags⟩]
  let l := match ps with | p :: _ => p.1 | [] => ⟨.spad, 0⟩
  let far : Msg := .atomic op amo l.key n opnd expv ord sc (l.cls == .shared || l.cls == .peer) tags
  let mine := (linesOfElems els).map (·.2)
  let before := if ownDie s.cur els then c.sb.isEmpty else c.sb.all fun e => (entryLines e).all fun x => !mine.contains x
  let uncachedWaits := (l.cls == .shared || l.cls == .peer) &&
    (touches (waiting c) els || s.writes.any fun w => w.agent == s.cur && !w.home && mine.contains (w.addr / 128))
  holdUnless (mayAccess s s.cur els && before && !ownPending s s.cur (keysOf ps) && !uncachedWaits)
  let o := opnd.toNat % 2 ^ (8 * n)
  let e := expv.toNat % 2 ^ (8 * n)
  match l.cls with
  | .foreign => trap (accessCause acc) ea
  | .mgmt => pure (.sent far, els)
  | .shared | .peer => if op = .lr ∨ op = .sc then trap (accessCause acc) ea else pure (.sent far, els)
  | .host | .priv => pure (.sent far, els)
  | .hbm d =>
    if d ≠ dieOf s.cur || isHub s.cur || (siteNeeds s s.cur op l n o e).isSome then pure (.sent far, els)
    else let (m, s') := atSite s s.cur op amo l n o e ord sc tags; set s'; pure (.done m, els)
  | .spad => let (m, s') := atSite s s.cur op amo l n o e ord sc tags; set s'; pure (.done m, els)

end Sys2Proof.Machine
end

