-- ==== Sys2Proof/Machine/Operands.lean ====
section
/-! DEFINITION. Machine/Operands.lean: queue ends (R34 to R41, R47) and the operands of instructions: which entries an end
offers, pops, pushes, claims of bags, and the operand rule of R37. -/

namespace Sys2Proof.Machine

/-! Queues -/

/-- R35: an entry is a token. -/
def Entry.isToken (e : Entry) : Bool := e.tag.getLsbD 3
/-- R35: the level of a token. -/
def Entry.level (e : Entry) : Nat := e.tag.toNat % 8
/-- R35: a data entry. -/
def dataEntry (v : Word) : Entry := ⟨v, 0⟩
/-- R35: a token of a level. -/
def tokenEntry (lvl : Nat) : Entry := ⟨0, BitVec.ofNat 4 (8 + lvl % 8)⟩

/-- R26, R429: end k is bound as a read end by hardware: q6 and q7 of context 0, q0 of an enabled hub core. -/
def hwRead (s : State) (a k : Nat) : Bool :=
  if isHub a then k == 0 && (getHub s (a - Config.contexts)).rqen
  else ctxNo a == 0 && (k == 6 || k == 7)

/-- An end of a context. -/
def endOf (s : State) (a k : Nat) : QEnd := (getCtx s a).ends.toList.getD k {}
/-- State with an end of a context replaced. -/
def setEnd (s : State) (a k : Nat) (e : QEnd) : State :=
  modCtx s a fun c => { c with ends := c.ends.setIfInBounds k e }
/-- End k is bound. -/
def isBound (s : State) (a k : Nat) : Bool := hwRead s a k || (endOf s a k).queue.isSome
/-- End k is bound as a read end. -/
def isReadEnd (s : State) (a k : Nat) : Bool := hwRead s a k || ((endOf s a k).queue.isSome && !(endOf s a k).write)
/-- End k is bound as a write end. -/
def isWriteEnd (s : State) (a k : Nat) : Bool := !hwRead s a k && (endOf s a k).queue.isSome && (endOf s a k).write
/-- R322: end k is lent to a pug. -/
def isLent (s : State) (a k : Nat) : Bool := (endOf s a k).lent.isSome
/-- R36: the other direction of the same queue is bound in the context. -/
def otherBound (s : State) (a k : Nat) : Bool :=
  let e := endOf s a k
  e.queue.isSome && (getCtx s a).ends.toList.any fun o => o.queue == e.queue && o.write != e.write

/-- R40: where a coil's slot lies; `gone`: its address does not translate (log entry 8); `wait`: its translation waits for a line. -/
inductive RingAt where
  | at_ (l : Loc) (tags : List Nat) (s : State)
  | gone
  | wait (reqs : List Req)

/-- R40: the place of the slot of a position. -/
def ringLoc (s : State) (q : Queue) (pos : Nat) (acc : Access) : RingAt :=
  let va := q.ring.toNat + 16 * (pos % q.depth)
  let base := (getPart s q.part).spwin.toNat / 2 ^ 24 * 2 ^ 24
  if base ≤ va ∧ va < base + 2 ^ 24 then .at_ ⟨.spad, q.ringCluster * 2 ^ 24 + (va - base)⟩ [] s
  else match xlate s (agentOf q.core 0) q.space false (va % 2 ^ 57) acc with
    | .ok pa tags s' => .at_ (locate s' q.part pa) tags s'
    | .wait r => .wait r
    | _ => .gone

/-- R40, R80, R84, R418: what a read or write of a coil's slot waits for, with the requests to make; none when it can be performed. -/
def slotNeeds (s : State) (q : Queue) (pos : Nat) (acc : Access) : Option (List Req) :=
  if !q.coil then none
  else match ringLoc s q pos acc with
    | .wait r => some r
    | .gone => none
    | .at_ l _ s' =>
      let line := lineOf l.key
      if l.cls = .spad then none
      else if laneHeld s' (agentOf q.core 0) line then some []
      else match acc with
        | .write => if canWrite s' line [l.key / 64] then none else some (writeNeeds s' line [l.key / 64])
        | _ => match readNeeds s' line [l.key / 64] with
          | [] => none
          | r => some r

/-- R40: what a pop of an item returns: a coil's slot as memory holds it. -/
def itemEntry (s : State) (q : Queue) (it : Item) : Entry :=
  if q.coil then
    match ringLoc s q it.pos .read with
    | .at_ l _ _ =>
      let m := if l.cls = .spad then s.spad else s.mem
      ⟨word (leNat (readBytes m l.key 8)), BitVec.ofNat 4 (readByte m (l.key + 8)).toNat⟩
    | _ => it.entry
  else it.entry

/-- R411, R413: a state with what the translation of a coil's slot installs and marks. -/
def slotRead (s : State) (q : Queue) (pos : Nat) : State :=
  if q.coil then
    match ringLoc s q pos .read with
    | .at_ _ _ s' => s'
    | _ => s
  else s

/-- R40, R173: hardware writes a coil's slot, for producer `a`. What a push to a slot whose address does not translate does the manual does not say: here
nothing is written, and the entry stands in the queue as it was pushed (log entry 98). -/
def writeSlot (s : State) (q : Queue) (a pos : Nat) (e : Entry) : State :=
  if q.coil then
    match ringLoc s q pos .write with
    | .at_ l tags s =>
      let cells := cellsAt l.key (leBytes 8 e.payload.toNat ++ leBytes 4 e.tag.toNat ++ leBytes 4 (pos % 2 ^ 32))
      if l.cls = .spad then killResv { s with spad := writeCells s.spad cells } (blockOf l) Config.agents
      else directWrite s Config.agents (lineOf l.key) cells .rlx .sys tags Config.agents (some (q.core / 256)) ((groupOf s a).map (q.part, ·))
    | _ => s
  else s

/-- R40: the consumer reaches the owner by request. -/
def isRemote (q : Queue) (a : Nat) : Bool := q.coil && coreOf a != q.core

/-- R47: the entries of the first unclaimed bag. -/
def untilToken : List Item → List Item
  | [] => []
  | it :: t => if it.entry.isToken then [it] else it :: untilToken t

/-- R47: the first unclaimed bag, as far as it has been pushed. -/
def unclaimedBag (q : Queue) : List Item := untilToken (q.items.filter fun i => i.owner.isNone)

/-- R37, R47: the items that a consumer can pop at the owner, in order. -/
def localItems (q : Queue) (a : Nat) : List Item :=
  if !q.bag then q.items
  else if q.claims.contains a then q.items.filter fun i => i.owner == some a
  else match unclaimedBag q with
    | [] => []
    | it :: t => if q.copies.any fun c => c.2.2.1.contains a && decide (c.2.1 < it.pos) then [] else it :: t

/-- R432: the block indices that the reduce queue of a hub core's partition still holds, as far as one instruction can pop. -/
def reduceData (s : State) (a : Nat) : List Entry :=
  let p := getPart s (partOf s a)
  if p.busy then ((p.backBlk ++ (List.range (min 3 (p.nblk - p.nextBlk))).map (p.nextBlk + ·)).map fun i => dataEntry (word i)) else []

/-- R37: the entries that a read end offers, in order. -/
def offered (s : State) (a k : Nat) : List Entry :=
  if hwRead s a k then
    if isHub a then (getHub s (a - Config.contexts)).got ++ reduceData s a
    else if k = 6 then (getCore s (coreOf a)).handles else (getCore s (coreOf a)).trapQ
  else
    let e := endOf s a k
    e.got.map (·.entry) ++ (match e.queue.bind (findQueue s) with
      | some q => if isRemote q a then [] else (localItems q a).map (itemEntry s q)
      | none => [])

/-- R47, R198: a consumer claims the bag it pops from or inspects. -/
def claimBag (q : Queue) (a : Nat) : Queue :=
  if !q.bag || q.claims.contains a then q
  else
    let bag := unclaimedBag q
    if bag.isEmpty then q
    else
      let ps := bag.map (·.pos)
      let closed := bag.any fun i => i.entry.isToken
      let last := (bag.getLast?.map (·.pos)).getD 0
      { q with
        items := q.items.map fun i => if ps.contains i.pos then { i with owner := some a } else i
        claims := q.claims ++ [a]
        openBag := if closed then q.openBag else some (some a)
        copies := q.copies.map fun c => if closed && c.2.1 == last then (c.1, c.2.1, c.2.2.1.filter (· != a), c.2.2.2) else c }

/-- R47: an item leaves the queue at the owner for a consumer. -/
def takeItem (q : Queue) (a : Nat) : Option (Item × Queue) :=
  match localItems q a with
  | [] => none
  | it :: _ =>
    let q := claimBag q a
    some (it, { q with
      items := q.items.filter fun i => i.pos != it.pos
      claims := if q.bag && it.entry.isToken then q.claims.filter (· != a) else q.claims })

/-- R34, R37: the head entry of a read end is removed. -/
def popEnd (s : State) (a k : Nat) : Option (Entry × State) :=
  if hwRead s a k then
    if isHub a then
      let h := a - Config.contexts
      let part := partOf s a
      match (getHub s h).got with
      | [] => match reduceData s a with
        | [] => none
        | e :: _ => some (e, modPart s part fun p => match p.backBlk with
          | [] => { p with nextBlk := p.nextBlk + 1 }
          | _ :: t => { p with backBlk := t })
      | e :: t =>
        let s := modHub s h fun x => { x with got := t }
        some (e, if e.isToken then modPart s part fun p =>
          let left := p.tokens.filter (· != h)
          { p with tokens := left, busy := p.busy && !left.isEmpty }
        else s)
    else
      let c := getCore s (coreOf a)
      if k = 6 then match c.handles with
        | [] => none
        | e :: t => some (e, setCore s (coreOf a) { c with handles := t })
      else match c.trapQ with
        | [] => none
        | e :: t => some (e, setCore s (coreOf a) { c with trapQ := t, intr := c.intr - 1 })
  else
    let e := endOf s a k
    match e.got with
    | it :: t => some (it.entry, setEnd s a k { e with got := t })
    | [] => match e.queue.bind (findQueue s) with
      | none => none
      | some q => if isRemote q a then none else match takeItem q a with
        | none => none
        | some (it, q') => some (itemEntry s q it, setQueue (slotRead s q it.pos) q')

/-- R9, R37: the first n entries of a read end, as they go back when the instruction that pops them traps. -/
def takenFrom (s : State) (a k n : Nat) : List Taken :=
  if hwRead s a k then
    ((offered s a k).take n).map fun e => ⟨k, ⟨0, e, none⟩, none, !isHub a && decide ((getCore s (coreOf a)).intr ≠ 0)⟩
  else
    let e := endOf s a k
    (e.got.take n).map (⟨k, ·, none, false⟩) ++
      (match e.queue.bind (findQueue s) with
        | some q => ((localItems q a).take (n - e.got.length)).map (⟨k, ·, some q.id, q.bag && !q.claims.contains a⟩)
        | none => [])

/-- R8, R9, R37: the popped entries that may still go back: those of the issued instructions that await a reply. -/
def heldTaken (s : State) : List Taken :=
  s.ctxs.flatMap fun e => (match e.2.claim with | some k => k.taken | none => []) ++ e.2.out.flatMap (·.taken)

/-- R39, R40: the slots in use: from the oldest position that is still held to the tail. The manual does not say whether entries that have been
popped behind an older bag still count; here they do (log entry 78). -/
def usedSlots (s : State) (q : Queue) : Nat :=
  let held := q.items.map (·.pos) ++ (q.copies.filter fun c => c.2.2.2).map (·.2.1) ++
    ((heldTaken s).filter fun t => t.queue == some q.id).map (·.item.pos)
  match held with
  | [] => 0
  | p :: t => q.tail - t.foldl min p

/-- R41: the free slots of a queue; pushes on their way have theirs taken. -/
def freeSlots (s : State) (q : Queue) : Nat :=
  q.depth - usedSlots s q - (s.coilMsgs.filter fun m => m.queue == q.id).length

/-- R47: the consumers bound to a queue. -/
def consumersOf (s : State) (qid : Nat) : List Nat :=
  (s.ctxs.filter fun e => e.2.ends.toList.any fun d => d.queue == some qid && !d.write).map (·.1)

/-- R41: producer `a` holds the append position: its last push is not a token. -/
def openAppend (s : State) (q : Queue) (a : Nat) : Bool :=
  q.append == some a && (match (s.coilMsgs.filter fun m => m.queue == q.id && m.producer == a).getLast? with
    | some m => !m.entry.isToken
    | none => true)

/-- R41, R47: an entry of producer `a` is appended at the owner. A token gives the append position up, unless later entries of the producer are
on their way. Which consumers get a copy of a token when bindings change while its push is on its way the manual does not say: here those bound now, when
it is appended (log entry 99). -/
def appendEntry (s : State) (qid a : Nat) (e : Entry) : State :=
  match findQueue s qid with
  | none => s
  | some q =>
    let pos := q.tail
    let s := writeSlot s q a pos e
    let more := s.coilMsgs.any fun m => m.queue == qid && m.producer == a
    let q := if q.bag && e.isToken && !more then { q with append := none } else q
    let all := consumersOf s qid
    let q' :=
      if !q.bag then { q with tail := pos + 1, items := q.items ++ [⟨pos, e, none⟩] }
      else if e.isToken then
        match q.openBag with
        | some o => { q with
            tail := pos + 1
            items := q.items ++ [⟨pos, e, o⟩]
            openBag := none
            copies := if 2 ≤ e.level then q.copies ++ [(e, pos, all.filter fun x => some x != o, false)] else q.copies }
        | none =>
          if 2 ≤ e.level then { q with tail := pos + 1, copies := q.copies ++ [(e, pos, all, true)] }
          else { q with tail := pos + 1, items := q.items ++ [⟨pos, e, none⟩] }
      else
        let o := q.openBag.getD none
        { q with tail := pos + 1, items := q.items ++ [⟨pos, e, o⟩], openBag := some o }
    setQueue s q'

/-- R37: the issued instructions for whose results slots of a queue are kept: all but access `id` of agent `a`. -/
def keptSlots (s : State) (q : Queue) (a : Nat) (id : Option Nat) : Nat :=
  (s.ctxs.filter fun e => e.1 != a && e.2.claim.any (·.slot == some q.id)).length +
  (s.ctxs.flatMap fun e => e.2.out.filter fun o => o.slot == some q.id && !(e.1 == a && some o.id == id)).length

/-- R41: producer `a` may push the entry now; `id`: the outstanding access whose result it is. -/
def canPush (s : State) (q : Queue) (a : Nat) (e : Entry) (id : Option Nat := none) : Bool :=
  decide ((if q.bag && !e.isToken then 2 else 1) + keptSlots s q a id ≤ freeSlots s q) &&
  (!q.bag || ((q.append.isNone || q.append == some a) && keptSlots s q a id == 0))

/-- R40, R41, R425: producer `a`'s entry is appended, or it is sent to the coil's owner: in another cluster, behind entries of the producer that are
on their way, or to wait for its slot. -/
def pushQueue (s : State) (q : Queue) (a : Nat) (e : Entry) : State :=
  let behind := s.coilMsgs.any fun m => m.queue == q.id && m.producer == a
  let s := if q.bag then setQueue s { q with append := some a } else s
  if q.coil && (clusterOf a != q.core / 256 || behind || (slotNeeds s q q.tail .write).isSome) then
    let (id, s) := takeId s
    { s with coilMsgs := s.coilMsgs ++ [{ id, queue := q.id, producer := a, src := clusterOf a, entry := e, group := groupOf s a }] }
  else appendEntry s q.id a e

/-- The cluster that a record comes from: its poster's, or, for a copy of `ln.rep`, that of the balancer which posts it (R223); 32 for the hub. -/
def postSource (p : Post) : Nat :=
  match p.poster, p.stage with
  | .agent _, some st => st.1
  | .agent a, none => clusterOf a
  | .balancer cl, _ | .replay cl, _ => cl
  | .port _, _ => 32

/-- R425: a sender to a cluster has credit: the reorder buffer of the cluster's die has room for one more message (log entry 87). Messages inside one
cluster use no flow. -/
def hasCredit (s : State) (cl : Nat) : Bool :=
  let d := dieOfCluster cl
  let coil := s.coilMsgs.filter fun m => match findQueue s m.queue with | some q => q.core / 2048 == d && m.src != q.core / 256 | none => false
  decide (coil.length + (s.posts.filter fun p => !p.rep && dieOfCluster p.target == d && postSource p != p.target).length < Config.reorder)

/-- R97: the scope of a queue: core for a near queue, the declared scope for a coil. -/
def queueScope (q : Queue) : Scope := if q.coil then q.scope else .core

/-- R8, R192, R240: push an entry to write end k of the executing context: parks while it is full, then releases; a push of a coil waits for the
context's aq and ar stores. -/
def pushEnd (k : Nat) (e : Entry) : Act Unit := fun s =>
  match (endOf s s.cur k).queue.bind (findQueue s) with
  | none => .ok ((), s)
  | some q =>
    if (getCtx s s.cur).out.any (·.slot == some q.id) then .error (.hold [])
    else if !canPush s q s.cur e then .error (.park (.push k e.isToken))
    else if q.coil && !acqClear s s.cur then .error (.hold (visibleReqs s))
    else if q.coil && clusterOf s.cur != q.core / 256 && !hasCredit s (q.core / 256) then .error (.hold [.credit (dieOf s.cur)])
    else if !settled s s.cur (queueScope q) then .error (.hold [])
    else .ok ((), pushQueue s q s.cur e)

/-! Registers -/

/-- R34: the end that a register field names. -/
def endNo (r : Reg) : Option Nat := if 24 ≤ r.toNat then some (r.toNat - 24) else none

/-- The value of an x register; x0 is zero. -/
def readX (c : Ctx) (r : Reg) : Word := if r = 0 then 0 else c.x[r.toNat]
/-- A context with an x register written; x0 discards. -/
def writeX (c : Ctx) (r : Reg) (v : Word) : Ctx := if r = 0 then c else { c with x := c.x.set r.toNat v }

/-- R36, R193, R322: a source field names an end it must not. -/
def badSource (s : State) (a : Nat) (r : Reg) : Option Nat :=
  (endNo r).bind fun k => if isBound s a k && (!isReadEnd s a k || isLent s a k || otherBound s a k) then some k else none
/-- R36, R193, R322: rd names an end it must not. -/
def badDest (s : State) (a : Nat) (r : Reg) : Option Nat :=
  (endNo r).bind fun k =>
    if isBound s a k && (!isWriteEnd s a k || isLent s a k || otherBound s a k || (endOf s a k).closed) then some k else none

/-- R37: the operand positions that use an end, in order, with j(k): how many earlier positions use the same end. -/
def endUses (s : State) (a : Nat) (srcs : List Reg) : List (Nat × Nat) :=
  let ks := srcs.filterMap fun r => (endNo r).bind fun k => if isReadEnd s a k then some k else none
  (List.range ks.length).map fun i => (ks.getD i 0, ((ks.take i).filter (· == ks.getD i 0)).length)

/-- R37: entry j of an end is present, or an earlier entry of it is a token. -/
def entryReady (l : List Entry) (j : Nat) : Bool := decide (j < l.length) || (l.take j).any (·.isToken)

/-- R40, R418: what a pop from the end waits for before the slot of its first entry can be read. -/
def popNeeds (s : State) (a k : Nat) : Option (List Req) :=
  let e := endOf s a k
  if !e.got.isEmpty then none
  else match e.queue.bind (findQueue s) with
    | some q => if isRemote q a then none else match localItems q a with
      | it :: _ => slotNeeds s q it.pos .read
      | [] => none
    | none => none

/-- R37: the direction check, the parking test, the landing, and the pops: the operands in order. `rd`: the destination. An instruction that has
issued and awaits a reply has its operands already (R8). -/
def operands (srcs : List Reg) (rd : Option Reg) : Act (List Word) := fun s =>
  let a := s.cur
  match (getCtx s a).claim with
  | some k => .ok (k.vals, s)
  | none =>
  match (srcs.filterMap (badSource s a) ++ (rd.bind (badDest s a)).toList).head? with
  | some k => .error (.trap 24 (word k))
  | none =>
    let us := endUses s a srcs
    match us.find? fun u => !entryReady (offered s a u.1) u.2 with
    | some u => .error (.park (.pop u.1))
    | none =>
      let full : Option Nat := rd.bind fun r => (endNo r).bind fun k =>
        match if isWriteEnd s a k then (endOf s a k).queue.bind (findQueue s) else none with
        | some q => if canPush s q a (dataEntry 0) || (getCtx s a).out.any (·.slot == some q.id) then none else some k
        | none => none
      let coil (k : Nat) : Bool := match (endOf s a k).queue.bind (findQueue s) with | some q => q.coil | none => false
      match full with
      | some k => .error (.park (.push k false))
      | none =>
        if (us.any fun u => coil u.1) && !acqClear s a then .error (.hold (visibleReqs s)) else
        match us.findSome? fun u => popNeeds s a u.1 with
        | some r => .error (.hold r)
        | none =>
        match us.find? fun u => match (offered s a u.1)[u.2]? with | some e => e.isToken | none => false with
        | some u => if u.2 = 0 then .error (.land u.1) else .error (.trap 25 (word u.1))
        | none =>
          let step (acc : List Word × State) (r : Reg) : List Word × State :=
            match (endNo r).bind fun k => if isReadEnd acc.2 a k then some k else none with
            | some k => match popEnd acc.2 a k with
              | some (e, s') => (acc.1 ++ [e.payload], s')
              | none => (acc.1 ++ [0], acc.2)
            | none => (acc.1 ++ [readX (getCtx acc.2 a) r], acc.2)
          let (vs, s') := srcs.foldl step ([], s)
          .ok (vs, s')

/-- One operand. -/
def operand1 (r : Reg) (rd : Option Reg) : Act Word := do
  let l ← operands [r] rd
  pure (l.getD 0 0)
/-- Two operands. -/
def operand2 (r1 r2 : Reg) (rd : Option Reg) : Act (Word × Word) := do
  let l ← operands [r1, r2] rd
  pure (l.getD 0 0, l.getD 1 0)
/-- Three operands. -/
def operand3 (r1 r2 r3 : Reg) (rd : Option Reg) : Act (Word × Word × Word) := do
  let l ← operands [r1, r2, r3] rd
  pure (l.getD 0 0, l.getD 1 0, l.getD 2 0)

/-- R34: the result: x0 discards, a write end pushes, another register is written. -/
def writeRd (rd : Reg) (v : Word) : Act Unit := fun s =>
  match (endNo rd).bind fun k => if isWriteEnd s s.cur k then some k else none with
  | some k => pushEnd k (dataEntry v) s
  | none => .ok ((), modCtx s s.cur fun c => writeX c rd v)

/-- The result is written and the next instruction follows. -/
def finishRd (rd : Reg) (v : Word) : Act Unit := do
  writeRd rd v
  advance

end Sys2Proof.Machine
end

