-- ==== Sys2Proof/Machine/VecState.lean ====
section
/-! DEFINITION. Machine/VecState.lean: the vector registers and masks of a context (R257 to R260), the registers an instruction
reads and writes, its pace and its latency (R263 to R265), and the addresses that a memory instruction accesses (R169, R233,
R266). -/

namespace Sys2Proof

/-- R259: the size in bytes of an element. -/
def VFmt.size : VFmt → Nat
  | .f32 | .i32 => 4
  | .bf16 | .f16 | .i16 => 2
  | .e4m3 | .e5m2 | .i8 => 1

/-- R266: the size in bytes of an element of a vector memory instruction. -/
def Esz.size : Esz → Nat
  | .e8 => 1
  | .e16 => 2
  | .e32 => 4

end Sys2Proof

namespace Sys2Proof.Machine

/-- R257: row r of vector register i. -/
def vrow (c : Ctx) (i : VReg) (r : Nat) : Row := tget 0 c.vec.vrf (16 * r + i.toNat)

/-- R257: a context with row r of vector register i written; a row of zeros is not listed. -/
def setVrow (c : Ctx) (i : VReg) (r : Nat) (v : Row) : Ctx :=
  let k := 16 * r + i.toNat
  { c with vec := { c.vec with vrf := if v = 0 then terase c.vec.vrf k else tset c.vec.vrf k v } }

/-- R259: element e of a row, of `size` bytes. -/
def elemOf (v : Row) (size e : Nat) : Nat := nbits v.toNat (8 * size * e) (8 * size)

/-- R259: a row with element e replaced. -/
def setElem (v : Row) (size e x : Nat) : Row :=
  let sh := 8 * size * e
  let m := 2 ^ (8 * size)
  (v &&& ~~~(BitVec.ofNat 512 ((m - 1) * 2 ^ sh))) ||| BitVec.ofNat 512 (x % m * 2 ^ sh)

/-- R258: a whole mask as a source; m0 is all ones. -/
def maskVal (c : Ctx) (m : MReg) : Row := if m = 0 then BitVec.allOnes 512 else c.vec.masks[m.toNat]

/-- R258: bit e of row r of a mask. -/
def maskBit (c : Ctx) (m : MReg) (r e : Nat) : Bool := (maskVal c m).getLsbD (64 * r + e)

/-- R258: a context with a mask written; m0 discards. -/
def setMask (c : Ctx) (m : MReg) (v : Row) : Ctx :=
  if m = 0 then c else { c with vec := { c.vec with masks := c.vec.masks.set m.toNat v } }

/-- R259: the row length of an instruction on elements of `size` bytes. -/
def rowLen (c : Ctx) (size : Nat) : Nat := min c.vec.len (64 / size)

/-- R260: the active elements of row r, in lane order. -/
def activeIn (c : Ctx) (m : MReg) (len r : Nat) : List Nat := (List.range len).filter fun e => maskBit c m r e

/-- R260: the active elements, in row order, then lane order. -/
def activeElems (c : Ctx) (m : MReg) (len : Nat) : List (Nat × Nat) :=
  (List.range c.vec.rows).flatMap fun r => (activeIn c m len r).map fun e => (r, e)

/-- What scouting does with an instruction (R390). -/
inductive FootKind where
  | plain
  | branch
  | load
  | store
  | stops
  deriving DecidableEq, Repr

/-- What an instruction names: its x sources (and which of them is only the data of a store), its rd, the vector registers and
masks it reads (for its addresses: `areads`) and writes (bits 0-15: v, 16-23: m), its pace, the latency of its first row, whether
it issues a row a cycle, and whether it depends on the grant. -/
structure Foot where
  kind : FootKind := .stops
  srcs : List Reg := []
  data : Option Reg := none
  areads : BitVec 24 := 0
  grant : Bool := false
  rd : Option Reg := none
  reads : BitVec 24 := 0
  writes : BitVec 24 := 0
  pace : Nat := 0
  lat : Nat := 0
  rows : Bool := false
  deriving DecidableEq, Repr

/-- The bit of a vector register. -/
def vbit (v : VReg) : BitVec 24 := 1 <<< v.toNat
/-- The bit of a mask; m0 is never waited for. -/
def mbit (m : MReg) : BitVec 24 := if m = 0 then 0 else 1 <<< (16 + m.toNat)

/-- A register-only instruction of two sources. -/
def footR (rd rs1 rs2 : Reg) : Foot := { kind := .plain, srcs := [rs1, rs2], rd := some rd }
/-- A register-only instruction of one source. -/
def footI (rd rs1 : Reg) : Foot := { kind := .plain, srcs := [rs1], rd := some rd }
/-- A load of one source. -/
def footL (rd rs1 : Reg) : Foot := { kind := .load, srcs := [rs1], rd := some rd }
/-- A store: only its address register matters to a scout. -/
def footS (rs1 : Reg) (rs2 : Option Reg) : Foot := { kind := .store, srcs := rs1 :: rs2.toList, data := rs2 }
/-- A vector instruction of two vector sources. -/
def footV (vd vs1 vs2 : VReg) (m : MReg) (pace : BitVec 2) (lat : Nat) : Foot :=
  { kind := .plain, reads := vbit vs1 ||| vbit vs2 ||| mbit m, writes := vbit vd, pace := pace.toNat, lat, rows := true }
/-- A vector instruction whose destination is also a source. -/
def footV3 (vd vs1 vs2 : VReg) (m : MReg) (pace : BitVec 2) (lat : Nat) : Foot :=
  { footV vd vs1 vs2 m pace lat with reads := vbit vd ||| vbit vs1 ||| vbit vs2 ||| mbit m }
/-- A compare. -/
def footC (md : MReg) (vs1 vs2 : VReg) (m : MReg) (pace : BitVec 2) : Foot :=
  { kind := .plain, reads := vbit vs1 ||| vbit vs2 ||| mbit m, writes := mbit md, pace := pace.toNat, lat := 4, rows := true }

/-- An instruction that stops a scout and can await a reply: its queue operands (R37). -/
def footM (srcs : List Reg) (rd : Option Reg) : Foot := { srcs, rd }

/-- R263: the latency of an instruction whose integer form is faster. -/
def latOf (ty : VFmt) : Nat := if ty.isInt then 4 else 8

/-- What an instruction names. Instructions that stop a scout (R190, R256, R288, R331, R335, R390), tile commands and events keep
the default. -/
def footOf : Instr → Foot
  | .lb rd rs1 _ | .lh rd rs1 _ | .lw rd rs1 _ | .ld rd rs1 _ | .lbu rd rs1 _ | .lhu rd rs1 _ | .lwu rd rs1 _ => footL rd rs1
  | .sb rs2 rs1 _ | .sh rs2 rs1 _ | .sw rs2 rs1 _ | .sd rs2 rs1 _ => footS rs1 (some rs2)
  | .beq a b _ | .bne a b _ | .blt a b _ | .bge a b _ | .bltu a b _ | .bgeu a b _ => { kind := .branch, srcs := [a, b] }
  | .jal rd _ => { kind := .plain, rd := some rd }
  | .jalr rd rs1 _ => { kind := .branch, srcs := [rs1], rd := some rd }
  | .lui rd _ | .auipc rd _ => { kind := .plain, rd := some rd }
  | .addi rd a _ | .slti rd a _ | .sltiu rd a _ | .xori rd a _ | .ori rd a _ | .andi rd a _ | .slli rd a _ | .srli rd a _
  | .srai rd a _ | .addiw rd a _ | .slliw rd a _ | .srliw rd a _ | .sraiw rd a _ => footI rd a
  | .add rd a b | .sub rd a b | .sll rd a b | .slt rd a b | .sltu rd a b | .xor rd a b | .srl rd a b | .sra rd a b | .or rd a b
  | .and rd a b | .mul rd a b | .mulh rd a b | .mulhsu rd a b | .mulhu rd a b | .div rd a b | .divu rd a b | .rem rd a b
  | .remu rd a b | .addw rd a b | .subw rd a b | .sllw rd a b | .srlw rd a b | .sraw rd a b | .mulw rd a b | .divw rd a b
  | .divuw rd a b | .remw rd a b | .remuw rd a b => footR rd a b
  | .lr rd rs1 _ _ _ => footL rd rs1
  | .sc rd b a _ _ _ | .amoswap rd b a _ _ _ | .amoadd rd b a _ _ _ | .amoxor rd b a _ _ _ | .amoand rd b a _ _ _ | .amoor rd b a _ _ _
  | .amomin rd b a _ _ _ | .amomax rd b a _ _ _ | .amominu rd b a _ _ _ | .amomaxu rd b a _ _ _ => footM [a, b] rd
  | .xamAdd rd b a _ _ _ | .xamAnd rd b a _ _ _ | .xamOr rd b a _ _ _ | .xamXor rd b a _ _ _ | .xamMin rd b a _ _ _ | .xamMax rd b a _ _ _
  | .xamMinu rd b a _ _ _ | .xamMaxu rd b a _ _ _ | .xamSwap rd b a _ _ _ | .xamFadd rd b a _ _ | .xamBfadd2 rd b a _ _ => footM [a, b] rd
  | .xamCas _ b a _ _ _ => footM [a, b] none
  | .cnInit a b | .cnArrive a b | .cnDrop a b | .lnHash a b | .lnSnap a b | .lnReplay a b | .tidSet a b => footM [a, b] none
  | .cnJoin rd a | .cnStat rd a | .lnRep rd a | .pgClose rd a => footM [a] rd
  | .cnTry rd a b | .pgOpen rd a b => footM [a, b] rd
  | .lnPost a | .lnQuiet a | .tcIssue a => footM [a] none
  | .qBind rd a b | .evRd rd a b | .cnWait rd a b | .pmReq rd a b => footM [a, b] rd
  | .qUnbind rd a | .ctxStart rd a | .pgStat rd a | .cxRd rd a | .ownGet rd a | .pmLoad rd a => footM [a] rd
  | .qCnt rd _ | .qPeek rd _ | .qTag rd _ | .ctxSelf rd => footM [] rd
  | .ctxReap a b | .evSet a b | .evClr a b | .evWaitm a b | .tidGet a b | .cxWr a b | .ownSet a b => footM [a, b] none
  | .ctxResume a | .evWait a | .tidDrop a | .pxLoad _ a | .escRes a | .clFlush a | .clClean a | .clPref a | .clInval a => footM [a] none
  | .csrrw rd a _ => footM [a] rd
  | .csrrwi rd _ _ => footM [] rd
  | .fmaddS rd a b c _ | .fmsubS rd a b c _ | .fnmsubS rd a b c _ | .fnmaddS rd a b c _ =>
    { kind := .plain, srcs := [a, b, c], rd := some rd }
  | .faddS rd a b _ | .fsubS rd a b _ | .fmulS rd a b _ | .fdivS rd a b _ => footR rd a b
  | .fsgnjS rd a b | .fsgnjnS rd a b | .fsgnjxS rd a b | .fminS rd a b | .fmaxS rd a b | .feqS rd a b | .fltS rd a b
  | .fleS rd a b => footR rd a b
  | .fsqrtS rd a _ | .fcvtWS rd a _ | .fcvtWuS rd a _ | .fcvtLS rd a _ | .fcvtLuS rd a _ | .fcvtSW rd a _ | .fcvtSWu rd a _
  | .fcvtSL rd a _ | .fcvtSLu rd a _ => footI rd a
  | .fclassS rd a => footI rd a
  | .csrrs rd rs1 _ | .csrrc rd rs1 _ => if rs1 = 0 then { kind := .plain, rd := some rd } else footM [rs1] rd
  | .csrrsi rd u _ | .csrrci rd u _ => if u = 0 then { kind := .plain, rd := some rd } else footM [] rd
  | .wfi => { kind := .plain }
  | .hint rd rs1 _ => footI rd rs1
  | .pxRun rd a b c _ => { kind := .plain, srcs := [a, b, c], rd := some rd }
  | .mld rd rs1 _ _ _ _ => footL rd rs1
  | .mst rs2 rs1 _ _ _ _ => footS rs1 (some rs2)
  | .clZero rs1 => footS rs1 none
  | .vadd d a b m ty p _ | .vsub d a b m ty p _ => footV d a b m p (latOf ty)
  | .vmul d a b m _ p _ => footV d a b m p 8
  | .vfma d a b m _ p _ | .vfms d a b m _ p _ | .vfnma d a b m _ p _ | .vdot2 d a b m _ p _ => footV3 d a b m p 8
  | .vmin d a b m _ p _ | .vmax d a b m _ p _ | .vand d a b m _ p _ | .vor d a b m _ p _ | .vxor d a b m _ p _
  | .vshl d a b m _ p _ | .vshr d a b m _ p _ | .vsra d a b m _ p _ | .vsel d a b m _ p _ => footV d a b m p 4
  | .vabs d a m _ p _ | .vneg d a m _ p _ | .vmvv d a m _ p _ => footV d a a m p 4
  | .vrcp d a m _ p _ | .vrsq d a m _ p _ | .vexp2 d a m _ p _ | .vlog2 d a m _ p _ => footV d a a m p 16
  | .vcvt d a m _ _ _ p _ => footV d a a m p 8
  | .vperm d a b m _ p _ => footV d a b m p 8
  | .vredSum d a m _ p _ | .vredMax d a m _ p _ | .vredMin d a m _ p _ => footV d a a m p 12
  | .vbqAddrq d a b _ p _ => footV d a b 0 p 16
  | .vcmpEq d a b m _ p _ | .vcmpLt d a b m _ p _ | .vcmpNe d a b m _ p _ | .vcmpLe d a b m _ p _ => footC d a b m p
  | .vld d rs1 m _ => { kind := .load, srcs := [rs1], reads := mbit m, areads := mbit m, writes := vbit d, rows := true }
  | .vlds d rs1 rs2 m _ => { kind := .load, srcs := [rs1, rs2], reads := mbit m, areads := mbit m, writes := vbit d, rows := true }
  | .vldx d rs1 vi m _ => { kind := .load, srcs := [rs1], reads := mbit m ||| vbit vi, areads := mbit m ||| vbit vi, writes := vbit d, rows := true }
  | .vst v rs1 m _ => { kind := .store, srcs := [rs1], reads := mbit m ||| vbit v, areads := mbit m, rows := true }
  | .vsts v rs1 rs2 m _ => { kind := .store, srcs := [rs1, rs2], reads := mbit m ||| vbit v, areads := mbit m, rows := true }
  | .vstx v rs1 vi m _ => { kind := .store, srcs := [rs1], reads := mbit m ||| vbit v ||| vbit vi, areads := mbit m ||| vbit vi, rows := true }
  | .vbcast d rs1 _ p => { kind := .plain, srcs := [rs1], writes := vbit d, grant := true, pace := p.toNat, lat := 4 }
  | .vmvxToX rd v rs2 _ p => { kind := .plain, srcs := [rs2], rd := some rd, reads := vbit v, grant := true, pace := p.toNat }
  | .vmvxToV d rs1 rs2 _ p => { kind := .plain, srcs := [rs1, rs2], writes := vbit d, grant := true, pace := p.toNat, lat := 8 }
  | .vshape rd rs1 _ p => { kind := .plain, srcs := [rs1], rd := some rd, pace := p.toNat }
  | .mand d a b | .mor d a b | .mxor d a b => { kind := .plain, reads := mbit a ||| mbit b, writes := mbit d, lat := 4 }
  | .mnot d a => { kind := .plain, reads := mbit a, writes := mbit d, lat := 4 }
  | .mpop rd a | .mfirst rd a => { kind := .plain, rd := some rd, reads := mbit a, grant := true }
  | .mset d rs1 => { kind := .plain, srcs := [rs1], writes := mbit d, lat := 4 }
  | .tcIssuev v => { reads := vbit v }
  | _ => {}

/-- R20, R390: the marks of x registers that are not known yet (bits 0-31). -/
def xMarks (l : List Reg) : BitVec 56 := l.foldl (fun (b : BitVec 56) (r : Reg) => if r = 0 then b else b ||| ((1 : BitVec 56) <<< r.toNat)) 0
/-- R20, R390: the marks of vector registers (bits 32-47) and masks (48-55). -/
def vMarks (b : BitVec 24) : BitVec 56 := b.setWidth 56 <<< 32

/-- R263, R265: the rows an instruction issues. -/
def issueRows (c : Ctx) (f : Foot) : Nat := if f.rows then max c.vec.rows 1 else 1

/-- R265: the issue distance an instruction adds. -/
def issueCost (c : Ctx) (f : Foot) : Nat := issueRows c f - 1 + 4 * (1 + f.pace)

/-- R265: the row-0 latency of a producer; a reduction's counts from its last row. -/
def producerLat (c : Ctx) (i : Instr) (f : Foot) : Nat :=
  match i with
  | .vredSum .. | .vredMax .. | .vredMin .. => issueRows c f - 1 + f.lat
  | _ => f.lat

/-- R265: the producer whose pace is undersized for an instruction, the nearest when there are several (log entry 9). -/
def undersized (c : Ctx) (f : Foot) : Option Producer := c.vec.pace.reverse.find? fun p => p.wrote &&& f.reads != 0

/-- R378: PACECHK of the agent's core. -/
def paceCheck (s : State) (a : Nat) : Bool := !isHub a && bitOf (getCore s (coreOf a)).scctl 0

/-- R265: cause 28 when the instruction reads what an undersized producer writes. -/
def paceGate (i : Instr) : Act Unit := do
  let s ← get
  let c ← me
  match undersized c (footOf i) with
  | some p => trapIf (paceCheck s s.cur) 28 p.addr
  | none => pure ()

/-- R265: the producers still judged after an instruction has issued; `c` is the context before it. -/
def agedPace (i : Instr) (c : Ctx) : List Producer :=
  let f := footOf i
  let old := agePace (issueCost c f) c.vec.pace
  let lat := producerLat c i f
  if f.writes = 0 ∨ lat ≤ issueCost c f then old
  else old ++ [{ wrote := f.writes, addr := c.pc, lat, dist := issueCost c f }]

/-- One access of a memory instruction: kind, address, bytes, and whether its base is x2. -/
abbrev Reach := Access × Word × Nat × Bool

/-- R266: the addresses of the active elements of a vector memory instruction. -/
def elemAddrs (c : Ctx) (m : MReg) (e : Esz) (addr : Nat → Nat → Nat → Word) : List (Nat × Nat × Word) :=
  (activeElems c m (rowLen c e.size)).map fun p => (p.1, p.2, addr (rowLen c e.size) p.1 p.2)

/-- R266: unit stride. -/
def addrUnit (base : Word) (s len r e : Nat) : Word := base + word ((r * len + e) * s)
/-- R266: a byte stride between rows. -/
def addrStride (base stride : Word) (s _len r e : Nat) : Word := base + word r * stride + word (e * s)
/-- R266: an index for each element. -/
def addrIndex (c : Ctx) (vi : VReg) (base : Word) (s _len r e : Nat) : Word := base + word (elemOf (vrow c vi r) s e * s)

/-- The effective address of a scalar access. -/
def eaOf (base : Word) (imm : BitVec 12) : Word := base + imm.signExtend 64
/-- R141: the effective address of a scoped access: the offset counts units of the access size. -/
def eaScoped (base : Word) (off : BitVec 5) (sz : BitVec 2) : Word := base + off.signExtend 64 * word (2 ^ sz.toNat)

/-- R390: what a load or store of a scouting context reaches; `b1` and `b2` are the values of its first two x operands. -/
def reaches (c : Ctx) (i : Instr) (b1 b2 : Word) : List Reach :=
  let one (acc : Access) (r : Reg) (ea : Word) (n : Nat) : List Reach := [(acc, ea, n, r == 2)]
  let els (acc : Access) (r : Reg) (e : Esz) (l : List (Nat × Nat × Word)) : List Reach :=
    l.map fun q => (acc, q.2.2, e.size, r == 2)
  match i with
  | .lb _ r i | .lbu _ r i => one .read r (eaOf b1 i) 1
  | .lh _ r i | .lhu _ r i => one .read r (eaOf b1 i) 2
  | .lw _ r i | .lwu _ r i => one .read r (eaOf b1 i) 4
  | .ld _ r i => one .read r (eaOf b1 i) 8
  | .sb _ r i => one .write r (eaOf b1 i) 1
  | .sh _ r i => one .write r (eaOf b1 i) 2
  | .sw _ r i => one .write r (eaOf b1 i) 4
  | .sd _ r i => one .write r (eaOf b1 i) 8
  | .lr _ r _ _ d => one .read r b1 (if d then 8 else 4)
  | .mld _ r off sz _ _ => one .read r (eaScoped b1 off sz) (2 ^ sz.toNat)
  | .mst _ r off sz _ _ => one .write r (eaScoped b1 off sz) (2 ^ sz.toNat)
  | .clZero _ => [(.write, b1 &&& ~~~(127 : Word), 128, false)]
  | .vld _ r m e => els .read r e (elemAddrs c m e (addrUnit b1 e.size))
  | .vlds _ r _ m e => els .read r e (elemAddrs c m e (addrStride b1 b2 e.size))
  | .vldx _ r vi m e => els .read r e (elemAddrs c m e (addrIndex c vi b1 e.size))
  | .vst _ r m e => els .write r e (elemAddrs c m e (addrUnit b1 e.size))
  | .vsts _ r _ m e => els .write r e (elemAddrs c m e (addrStride b1 b2 e.size))
  | .vstx _ r vi m e => els .write r e (elemAddrs c m e (addrIndex c vi b1 e.size))
  | _ => []

/-- R390, R170, R172, R235, R267: the instruction's accesses must be aligned. -/
def mustAlign : Instr → Bool
  | .lr .. | .mld .. | .mst .. | .vld .. | .vlds .. | .vldx .. | .vst .. | .vsts .. | .vstx .. => true
  | _ => false

end Sys2Proof.Machine
end

