-- ==== Sys2Proof/Machine/Access.lean ====
section
/-! DEFINITION. Machine/Access.lean: loads and atomics that have issued and whose value has not come (R20, R23, R237, R470): how an access becomes
outstanding, what waits for it, and how it completes. -/

namespace Sys2Proof.Machine

/-! What an issued instruction has taken -/

/-- R37: the queue in which an instruction's result is to be pushed. -/
def resultSlot (s : State) (rd : Option Reg) : Option Nat :=
  rd.bind fun r => (endNo r).bind fun k => if isWriteEnd s s.cur k then (endOf s s.cur k).queue else none

/-- R9, R37: the entries that an instruction pops as its operands. -/
def takenFor (s : State) (srcs : List Reg) : List Taken :=
  let us := endUses s s.cur srcs
  (dedup (us.map (·.1))).flatMap fun k => takenFrom s s.cur k (us.filter fun u => u.1 == k).length

/-- R8, R37: the instruction issues and awaits a reply: it has taken its queue operands, and a slot is kept for its result. -/
def takeOperands (i : Instr) (s : State) : State :=
  let f := footOf i
  let out := resultSlot s f.rd
  if (getCtx s s.cur).claim.isSome || ((endUses s s.cur f.srcs).isEmpty && out.isNone) then s
  else match operands f.srcs f.rd s with
    | .ok (vs, s') => modCtx s' s.cur fun c => { c with claim := some ⟨vs, takenFor s f.srcs, out⟩ }
    | .error _ => s

/-! Issue -/

/-- The access of an instruction as it becomes outstanding; `s0`: the state before the instruction. -/
def accessOf (s0 : State) (i : Instr) (id : Nat) (ord : Order) (atomic : Bool) (size : Nat) (signed : Bool) (els : List ReadElem) : Outstanding :=
  let f := footOf i
  let slot := resultSlot s0 f.rd
  { id, pc := (getCtx s0 s0.cur).pc, iw := iword i, order := ord, atomic, rd := f.rd.getD 0
    vd := ((List.range 16).find? fun n => f.writes.getLsbD n).map (BitVec.ofNat 4)
    size, signed, elems := els, marks := if slot.isSome then 0 else xMarks f.rd.toList ||| vMarks f.writes
    slot, taken := if holdsLater ord then takenFor s0 f.srcs else [], reply := none }

/-- R470: the access becomes outstanding. -/
def addOut (o : Outstanding) : Act Unit := modMe fun c => { c with out := c.out ++ [o] }

/-- R268: the elements that a vector load has read are written to its rows. -/
def writeRows (vd : VReg) (n : Nat) (l : List (ReadElem × Nat)) (c : Ctx) : Ctx :=
  l.foldl (fun c p => setVrow c vd p.1.row (setElem (vrow c vd p.1.row) n p.1.elem p.2)) c

/-- The word that a value of `n` bytes gives. -/
def extended (signed : Bool) (n v : Nat) : Word := if signed then sextN (8 * n) v else word v

/-- The value of a load goes where its instruction says. -/
def putLoaded (i : Instr) (n : Nat) (signed : Bool) (l : List (ReadElem × Nat)) : Act Unit :=
  match (footOf i).rd, (List.range 16).find? fun k => (footOf i).writes.getLsbD k with
  | some rd, _ => writeRd rd (extended signed n ((l.map (·.2)).getD 0 0))
  | none, some k => modMe (writeRows (BitVec.ofNat 4 k) n l)
  | none, none => pure ()

/-- What a wait of a read asks for under the number `reader`. -/
def ReadWait.reqs (reader : Nat) : ReadWait → List Req
  | .needs q => q
  | .uncached line => [.uio reader line]
  | .failed => []

/-- R20, R268, R470: the load of an instruction issues; it completes at once when its value can be read now, and is outstanding otherwise. A scouting
context waits for the value. `s0`: the state before the instruction. -/
def issueLoad (s0 : State) (i : Instr) (ord : Order) (n : Nat) (signed : Bool) (els : List ReadElem) : Act Unit := do
  let s ← get
  let c ← me
  if c.scout.isSome then
    let l ← readNow els
    doneUio
    putLoaded i n signed l
  else
    holdUnless (mayAccess s s.cur els)
    let first := if touches (waiting c) els then .error (ReadWait.needs [], (0 : Word)) else readElems s.cur (readerOf s.cur s.nextId) c.sb els s
    match first with
    | .ok (l, s') =>
      set s'
      putLoaded i n signed l
    | .error (w, _) =>
      let (id, s1) := takeId s
      set (applyReqs s1 (w.reqs (readerOf s.cur id)))
      addOut (accessOf s0 i id ord false n signed els)
  advance

/-- R8, R172, R243, R470: an atomic of an instruction issues; it completes at once when its site is on the agent's die and can act, and its result needs
no queue. `s0`: the state before the instruction. -/
def issueAtomic (s0 : State) (i : Instr) (amo : Bool) (op : AOp) (ea : Word) (n : Nat) (opnd expv : Word) (sp : Bool) (ord : Order) (sc : Scope) : Act Unit := do
  let (b, els) ← beginAtomic op amo ea n opnd expv sp ord sc
  let s ← get
  match b with
  | .done old =>
    if (resultSlot s0 (footOf i).rd).isSome then
      let (id, s1) := takeId s
      set s1
      let o := accessOf s0 i id ord true n true els
      addOut { o with reply := some (.value (word old)) }
    else writeRd ((footOf i).rd.getD 0) (sextN (8 * n) old)
  | .sent m =>
    let (id, s1) := takeId s
    match m with
    | .atomic op amo key size opnd expv order scope packet tags =>
      set ({ s1 with atomics := s1.atomics ++ [{ id, agent := s.cur, op, amo, pa := key, size, opnd, expv, order, scope, packet, tags }] } : State)
    | _ => set s1
    addOut (accessOf s0 i id ord true n true els)
  advance

/-! What waits -/

/-- R20: the registers that an instruction reads, and the vector registers that it writes. -/
def usedMarks (i : Instr) : BitVec 56 :=
  let f := footOf i
  let old := match i with | .xamCas rd .. => xMarks [rd] | _ => 0
  xMarks f.srcs ||| vMarks (f.reads ||| f.writes) ||| old

/-- R20, R237, R240: the scoreboard holds the instruction: it uses a register that waits for an outstanding access, or an access of order aq or ar is
outstanding, after which nothing issues until it has completed, so that its trap is precise (R237; R240 lets other instructions proceed: log entry 110). -/
def blocked (i : Instr) (c : Ctx) : Bool := c.out.any fun o => o.marks &&& usedMarks i != 0 || holdsLater o.order

/-- R20: an instruction that has completed has written `rd`: earlier accesses `old` that were to write it too write nothing. -/
def superseded (i : Instr) (old l : List Outstanding) : List Outstanding :=
  match (footOf i).rd with
  | none => l
  | some r => l.map fun o => if o.slot.isNone && o.rd == r && old.any (·.id == o.id) then { o with rd := 0, marks := 0 } else o

/-! Completion -/

/-- R237, R436: the element of an access whose home is not reached any more. -/
def lostElem (s : State) (a : Nat) (o : Outstanding) : Option ReadElem := o.elems.find? fun e => e.pieces.any fun p => unreachable s a p.1.key

/-- State with an outstanding access replaced, or gone. -/
def setOut (s : State) (a id : Nat) (o : Option Outstanding) : State :=
  modCtx s a fun c => { c with out := c.out.flatMap fun x => if x.id = id then o.toList else [x] }

/-- R427: what an outstanding access has read of uncached memory is used up. -/
def dropReader (s : State) (a id : Nat) : State := { s with uio := s.uio.filter fun u => u.agent != readerOf a id }

/-- R89, R470: an outstanding load gets its value when it can be read; a later access to one of its lines comes after it. -/
def tryLoad (s : State) (a : Nat) (o : Outstanding) : State :=
  let c := getCtx s a
  let before := (waiting c).takeWhile (·.id != o.id)
  let failed (ea : Word) (cause : Nat) : State := dropReader (setOut s a o.id (some { o with reply := some (.trap cause ea) })) a o.id
  match lostElem s a o with
  | some e => failed e.ea 30
  | none =>
    if touches before o.elems then s
    else match readElems a (readerOf a o.id) (c.sb.filter fun e => decide (e.seq ≤ o.id)) o.elems s with
      | .error (.failed, ea) => failed ea 7
      | .error (w, _) => applyReqs s (w.reqs (readerOf a o.id))
      | .ok (l, s') =>
        let s' := dropReader s' a o.id
        match o.vd with
        | some vd => modCtx (setOut s' a o.id none) a (writeRows vd o.size l)
        | none => setOut s' a o.id (some { o with reply := some (.value (extended o.signed o.size ((l.map (·.2)).getD 0 0))) })

/-- R8, R97: what comes before access `id` is performed with respect to a scope. -/
def settledBefore (s : State) (a id : Nat) (sc : Scope) : Bool :=
  let c := getCtx s a
  (c.sb.all fun e => decide (id < e.seq)) && ((waiting c).all fun o => decide (id ≤ o.id)) &&
  s.writes.all fun w => !(w.agent == a || w.home) || performedFor sc w

/-- R8, R20, R37: the value of an access is written to its register, or pushed when its end's queue takes it. -/
def deliver (s : State) (a : Nat) (o : Outstanding) : State :=
  match o.reply with
  | some (.value v) =>
    let v := if o.atomic then sextN (8 * o.size) (v.toNat % 2 ^ (8 * o.size)) else v
    match o.slot with
    | none => modCtx (setOut s a o.id none) a fun c => writeX c o.rd v
    | some qid => match findQueue s qid with
      | none => setOut s a o.id none
      | some q =>
        let first := match (getCtx s a).out.find? fun x => x.slot == some qid with | some x => x.id == o.id | none => true
        if first && canPush s q a (dataEntry 0) (some o.id) && settledBefore s a o.id (queueScope q) &&
            (!q.coil || clusterOf a == q.core / 256 || hasCredit s (q.core / 256)) then
          pushQueue (setOut s a o.id none) q a (dataEntry v)
        else s
  | _ => s

/-- R237: the agent stands between two instructions, where a trap of an issued access can be taken. A context that is being pre-empted or reaped may
stand there parked. -/
def atBoundary (c : Ctx) : Bool :=
  c.sent.isNone && c.reply.isNone && c.claim.isNone && c.scout.isNone && c.halted.isNone && (match c.status with
    | .ready => true
    | .parked (.page _) => false
    | .parked _ => c.stopping.isSome
    | _ => false)

/-- R237, R240: the trap of an outstanding access that has failed. Of order aq or ar: nothing later has issued, the saved pc is its own, and its entries
go back; else the saved pc is that of the next instruction. It is not retired (R183). -/
def outTrap (s : State) (a : Nat) (o : Outstanding) (cause : Nat) (tv : Word) : State :=
  let ea := match o.elems with | e :: _ => e.ea | [] => 0
  let c := getCtx s a
  let s := setOut s a o.id none
  let s := modCtx s a fun c => { c with ucsr := { c.ucsr with instret := c.ucsr.instret - 1 } }
  takeTrap (giveBackAll s a o.taken) a cause (if holdsLater o.order then o.pc else c.pc) (if tv = 0 then ea else tv) o.iw 0

/-- R237: the oldest access that has failed traps at the next boundary, when the others have completed. -/
def faultOut (s : State) (a : Nat) : State :=
  let c := getCtx s a
  match c.out.find? (·.failed) with
  | none => s
  | some o =>
    if !atBoundary c || c.out.any fun x => !x.failed then s
    else match o.reply with
      | some (.trap cause tv) => outTrap s a o cause tv
      | _ => outTrap s a o 30 0

/-- R20, R237, R457, R470: what an agent's outstanding accesses come to at the beginning of a turn. -/
def settleOut (s : State) (a : Nat) : State :=
  let ids := (getCtx s a).out.map (·.id)
  let now (s : State) (id : Nat) : Option Outstanding := (getCtx s a).out.find? (·.id == id)
  let s := ids.foldl (fun s id => match now s id with
    | some o => if o.waits && !o.atomic then tryLoad s a o else s
    | none => s) s
  let s := ids.foldl (fun s id => match now s id with | some o => deliver s a o | none => s) s
  let s := faultOut s a
  modCtx s a fun c => if c.sent.isNone && c.reply.isNone && c.claim.isNone then stepEnds c else c

/-- The outstanding accesses of every agent. -/
def settleAll (s : State) : State :=
  (s.ctxs.filter fun e => !e.2.out.isEmpty).foldl (fun s e => settleOut s e.1) s

end Sys2Proof.Machine
end

