-- ==== Sys2Proof/Machine/Perform.lean ====
section
/-! DEFINITION. Machine/Perform.lean: how an instruction of the current agent is carried through: completion (R183), or the way
in which it ends without completing: trap, park, hold, message, landing, page request, scouting (R389 to R394), debug mode. -/

namespace Sys2Proof.Machine

/-- R232, R425: a message of the current agent is sent; the agent waits for the reply, parked or not eligible. -/
def sendMsg (s : State) (m : Msg) (why : Option (Nat → Park)) : State :=
  let a := s.cur
  let part := partOf s a
  match m with
  | .uioRead line fetch =>
    let who := if fetch then fetchAgent a else a
    if s.uio.any fun u => u.agent == who && u.pa == line * 128 then s
    else
      let (id, s) := takeId s
      { s with uio := s.uio ++ [{ id, agent := who, pa := line * 128, data := none, failed := false }] }
  | .cone cone op =>
    let (id, s) := takeId s
    modCtx { s with coneMsgs := s.coneMsgs ++ [{ id, agent := a, cone, op }] } a fun c =>
      { c with sent := some id, status := match why with | some w => .parked (w id) | none => c.status }
  | .post record target stage rep =>
    let (id, s) := takeId s
    modCtx { s with posts := s.posts ++ [{ id, record, poster := .agent a, target, part, stage, rep }] } a fun c =>
      { c with sent := some id, status := match why with | some w => .parked (w id) | none => c.status }
  | .atomic op amo key size opnd expv order scope packet tags =>
    let (id, s) := takeId s
    modCtx { s with atomics := s.atomics ++ [{ id, agent := a, op, amo, pa := key, size, opnd, expv, order, scope, packet, tags }] } a fun c =>
      { c with sent := some id, status := match why with | some w => .parked (w id) | none => c.status }

/-- R391, R392: the page of an address. -/
def pageOf (va : Word) : Nat := va.toNat / 4096 * 4096

/-- R391: the scout ends: the context rolls back, sends its group and parks on it. -/
def endScout (s : State) (sc : Scout) : State :=
  let a := s.cur
  let c := getCtx s a
  let part := partOf s a
  let (id, s) := sendGroup s part sc.pasid (.agent a) sc.pages
  setCtx s a { c with
    scout := none
    pc := sc.pc
    x := sc.x
    vec := sc.vec
    ucsr := sc.ucsr
    status := .parked (.page id) }

/-- R390: the mark of a grant that is not known stands in the place of m0. -/
def grantMark : BitVec 56 := 1 <<< 48

/-- R413: a state with what the translation of an access marks and holds. -/
def translated (acc : Access) (va : Word) (n : Nat) (s : State) : State :=
  match resolve acc va n false s with
  | .ok (_, s') => s'
  | .error _ => s

/-- R390: what the scouting context has found so far: the pages, and whether this instruction's access is held or stops. -/
inductive Probe where
  | ok (s : State) (pages : List (Nat × Bool)) (missing : Bool)
  | held (reqs : List Req)
  | stop

/-- R390, R391: a further page, unless it would be the eighth. -/
def addPage (pages : List (Nat × Bool)) (page : Nat) (w : Bool) : Option (List (Nat × Bool)) :=
  if pages.any fun p => p.1 == page then some (pages.map fun p => if p.1 = page then (p.1, p.2 || w) else p)
  else if 8 ≤ pages.length then none
  else some (pages ++ [(page, w)])

/-- R390: the accesses of a load or store are translated. -/
def probe (s : State) (pages : List (Nat × Bool)) (align : Bool) : List Reach → Probe
  | [] => .ok s pages false
  | (acc, ea, n, sp) :: t =>
    if align && ea.toNat % n != 0 then .stop
    else match resolve acc ea n sp s with
      | .ok (_, s') => probe s' pages align t
      | .error (.notPresent acc va lines) =>
        let s := holdLines s s.cur lines
        (match addPage pages (pageOf va) (acc == .write) with
        | none => .stop
        | some pages => match probe s pages align t with
          | .ok s p _ => .ok s p true
          | r => r)
      | .error (.hold q) => .held q
      | .error _ => .stop

/-- R390: an `lr` of a scouting context: a load. -/
def scoutLr (rd rs1 : Reg) (d : Bool) : Act Unit := do
  let c ← me
  let n := if d then 8 else 4
  let b ← memRead (readX c rs1) n (rs1 == 2) .rlx .sys
  modMe fun c => writeX c rd (sextN (8 * n) (leNat b))
  advance

/-- R390: an instruction of a scouting context, whose results are kept in its registers only. -/
def scoutRun (m : Act Unit) (sc : Scout) (marks : BitVec 56) (s : State) : State :=
  let a := s.cur
  let c := getCtx s a
  let open_ := c.ends.map fun e => if e.write then ({} : QEnd) else e
  match m (setCtx s a { c with ends := open_ }) with
  | .ok (_, s2) =>
    let c2 := getCtx s2 a
    let x := (List.range 8).foldl (fun x k =>
      if ((c.ends.toList.getD k {}).queue).isSome then x.setIfInBounds (24 + k) (c.x.toList.getD (24 + k) 0) else x) c2.x
    issued (setCtx s2 a { c2 with
      ends := c.ends
      x := x
      sb := c.sb
      resv := c.resv
      qual := c.qual
      scout := some { sc with count := sc.count + 1, unknown := marks } })
  | .error (.hold q) => applyReqs s q
  | .error (.send msg why) => sendMsg s msg why
  | .error _ => endScout s sc

/-- The values of an instruction's x operands, without taking them: those of bound read ends are the entries it would pop (R37). -/
def operandValues (s : State) (srcs : List Reg) : List Word :=
  (List.range srcs.length).map fun i =>
    let r := srcs.getD i 0
    match (endNo r).bind fun k => if isReadEnd s s.cur k then some k else none with
    | some k => ((offered s s.cur k).getD ((srcs.take i).filter (· == r)).length ⟨0, 0⟩).payload
    | none => readX (getCtx s s.cur) r

/-- R389, R390: one instruction of a scouting context; at count 0 it is the faulting instruction itself, from which the scout goes on. -/
def scoutStep (i : Instr) (m : Act Unit) (sc : Scout) (s : State) : State :=
  let a := s.cur
  let c := getCtx s a
  let f := footOf i
  let first := sc.count == 0
  let bound (r : Reg) : Bool := match endNo r with | some k => isBound s a k | none => false
  let isPx := match i with | .pxRun .. => true | _ => false
  let rdStops := match f.rd with | some r => (badDest s a r).isSome || (isPx && bound r) | none => false
  if !first && (f.kind == .stops || decide (256 ≤ sc.count) || f.srcs.any bound || rdStops) then endScout s sc
  else
    let usesGrant := f.rows || f.grant
    let dest := xMarks f.rd.toList ||| vMarks f.writes ||| (match i with | .vshape .. => grantMark | _ => 0)
    let reads := xMarks f.srcs ||| vMarks f.reads ||| (if usesGrant then grantMark else 0)
    let unk := first || sc.unknown &&& reads != 0
    let skip (s : State) (pages : List (Nat × Bool)) (marks : BitVec 56) : State :=
      issued (modCtx s a fun c => { c with
        pc := c.pc + 4
        scout := some { sc with pages, count := sc.count + 1, unknown := marks } })
    let known := sc.unknown &&& ~~~(xMarks f.rd.toList)
    match f.kind with
    | .stops => skip s sc.pages (sc.unknown ||| dest)
    | .branch => if unk then endScout s sc else scoutRun m sc known s
    | .plain => if unk then skip s sc.pages (sc.unknown ||| dest) else scoutRun m sc known s
    | .load | .store =>
      let areads := xMarks (f.srcs.filter fun r => some r != f.data || f.srcs.head? == some r) ||| vMarks f.areads |||
        (if usesGrant then grantMark else 0)
      if !first && sc.unknown &&& areads != 0 then skip s sc.pages (sc.unknown ||| dest)
      else match probe s sc.pages (mustAlign i) (let v := operandValues s f.srcs; reaches c i (v.getD 0 0) (v.getD 1 0)) with
        | .stop => endScout s sc
        | .held q => applyReqs s q
        | .ok s' pages missing =>
          if missing || first || f.kind == .store then skip s' pages (sc.unknown ||| dest)
          else
            let m := match i with | .lr rd rs1 _ _ d => scoutLr rd rs1 d | _ => m
            scoutRun m { sc with pages } (known ||| vMarks f.writes) s

/-- R389, R392 to R394: an access of the current agent met NOT-PRESENT. -/
def missingPage (s : State) (i : Instr) (m : Act Unit) (acc : Access) (va : Word) : State :=
  let a := s.cur
  let c := getCtx s a
  let part := partOf s a
  let w1 := spaceWord s part c.space
  let fault (code : Nat) : State := takeTrap s a (pageCause acc) c.pc va (iword i) code
  if !isHub a && ctxNo a == 0 then fault 0
  else if (getPart s part).prFailed then fault 0x0F
  else if bitOf w1 28 then fault 1
  else
    let s := modCtx s a fun c => { c with pageFault := some (acc, va, iword i) }
    let pages := [(pageOf va, acc == .write)]
    if isHub a || acc == .fetch then
      let (id, s) := sendGroup s part (fieldOf w1 0 20) (.agent a) pages
      modCtx s a fun c => { c with status := .parked (.page id) }
    else
      let sc : Scout := { pages, unknown := 0, count := 0, pc := c.pc, x := c.x, vec := c.vec, ucsr := c.ucsr, pasid := fieldOf w1 0 20 }
      scoutStep i m sc (modCtx s a fun c => { c with scout := some sc })

/-- R24, R40: a context parks; one that waits for an entry of a coil owned by another core sends its pop request. -/
def parkCtx (s : State) (why : Park) : State :=
  let a := s.cur
  let s := modCtx s a fun c => { c with status := .parked why }
  match why with
  | .pop k => match (endOf s a k).queue.bind (findQueue s) with
    | some q => if isRemote q a then setEnd s a k { endOf s a k with asked := true } else s
    | none => s
  | _ => s

/-- R9: what the agent has issued before it stops here must be complete first: its outstanding accesses, for a trap, a page request (whose scout goes on from
its registers) and debug mode. -/
def waitsForOut : Stop → Bool
  | .trap _ _ | .notPresent _ _ _ | .debug => true
  | _ => false

/-- An instruction ends without completing. -/
def settle (i : Instr) (m : Act Unit) (s : State) : Stop → State
  | .trap cause tval =>
    takeTrap (if cause = 28 then s else issued s) s.cur cause (getCtx s s.cur).pc tval (iword i) 0
  | .park why => parkCtx (dropReads s s.cur) why
  | .parkWith s' why => modCtx (takeOperands i s') s'.cur fun c => { c with status := .parked why }
  | .hold reqs => applyReqs s reqs
  | .send msg why => sendMsg (takeOperands i s) msg why
  | .sendWith s' msg why => sendMsg (takeOperands i s') msg why
  | .land k =>
    let c := getCtx s s.cur
    if c.ucsr.tkvec.toList.getD k 0 = 0 then takeTrap (issued s) s.cur 25 c.pc (word k) (iword i) 0
    else match popEnd s s.cur k with
      | some (e, s') => issued (modCtx s' s.cur fun c => stepEnds (landCtx c k (BitVec.ofNat 3 e.level)))
      | none => s
  | .notPresent acc va lines => missingPage (holdLines s s.cur lines) i m acc va
  | .debug => enterDebug s s.cur

/-- R20, R183, R265: an instruction has completed: `c` is its context before it, `s` the state with its effect. An earlier access whose value was to go to
the register that it has written writes nothing any more. -/
def completed (i : Instr) (c : Ctx) (s : State) : State :=
  retire (modCtx s s.cur fun k => if k.status = .free then k else { k with
    claim := none
    out := superseded i c.out k.out
    vec := { k.vec with pace := agedPace i c } }) (issueRows c (footOf i)) (issueCost c (footOf i))

/-- R23: the instruction's parking condition holds, whatever its scoreboard waits for. -/
def parksAnyway (m : Act Unit) (s : State) : Option Park :=
  match m s with
  | .error (.park (.pop k)) => some (.pop k)
  | .error (.park (.push k t)) => some (.push k t)
  | .error (.park .window) => some .window
  | _ => none

/-- R9, R20: the current agent carries out an instruction whose effect is `m`, when its scoreboard lets it. -/
def perform (i : Instr) (m : Act Unit) (s : State) : Host.Outcome State Fault Refusal :=
  let c := getCtx s s.cur
  match c.scout with
  | some sc => .next (scoutStep i m sc s)
  | none =>
    if blocked i c then .next (match parksAnyway m s with | some why => parkCtx s why | none => s)
    else match m s with
      | .error e => .next (if waitsForOut e && !c.out.isEmpty then s else settle i m s e)
      | .ok (_, s') => .next (completed i c s')

end Sys2Proof.Machine
end

