-- ==== Sys2Proof/Machine/Engine.lean ====
section
/-! DEFINITION. Machine/Engine.lean: accesses that hardware makes for a context's space without being an instruction of it:
descriptors of `ctx.start`, tile operands, table rows, save areas (R8, R75, R237, R411). -/

namespace Sys2Proof.Machine

/-- Why an engine's access cannot be made. -/
inductive EFail where
  /-- R67: not canonical, or partly in the scratchpad window -/
  | address
  /-- R75 -/
  | owner
  /-- R404 -/
  | space
  | format
  | permission
  /-- with the lines that the walk read -/
  | notPresent (lines : List Nat)
  | offline
  /-- R436: an uncached line whose completion failed -/
  | failed
  | wait (reqs : List Req)

/-- For whom an engine acts: the agent whose cluster, window and walk cache it uses, the space, the mode and the instance. -/
structure Actor where
  agent : Nat
  space : Nat
  sup : Bool
  inst : Nat × Nat
  deriving DecidableEq, Repr

/-- R67, R74, R75, R237, R411: where `n` bytes at `va`, which lie in one page, are; with the source lines used. -/
def engLoc (s : State) (w : Actor) (va n : Nat) (acc : Access) : Except EFail (Loc × List Nat × State) :=
  if !canonical (word va) then .error .address
  else if inWindow s w.agent va || inWindow s w.agent ((va + n - 1) % 2 ^ 64) then
    if inWindow s w.agent va && inWindow s w.agent ((va + n - 1) % 2 ^ 64) then
      let off := va - windowBase s w.agent
      if ownsBytes s (clusterOf w.agent) off n w.inst then
        .ok (⟨.spad, clusterOf w.agent * 2 ^ 24 + off⟩, [], s)
      else .error .owner
    else .error .address
  else match xlate s w.agent w.space w.sup (va % 2 ^ 57) acc with
    | .access => .error .space
    | .format => .error .format
    | .permission => .error .permission
    | .notPresent lines => .error (.notPresent lines)
    | .offline => .error .offline
    | .wait q => .error (.wait q)
    | .ok pa tags s' =>
      let part := partOf s' w.agent
      let l := locate s' part pa
      match l.cls with
      | .hbm d => if (getDie s' d).off then .error .offline else .ok (l, tags, s')
      | .host => if (getPart s' part).linkDown then .error .offline else .ok (l, tags, s')
      | .mgmt | .foreign => .error .space
      | _ => .ok (l, tags, s')

/-- Bytes at a location, as an engine of an agent's die reads them: from the copy of its die or from the home; what must still be asked otherwise. -/
def engRead (s : State) (a : Nat) (l : Loc) (n : Nat) : Except EFail (List Byte) :=
  match l.cls with
  | .spad => .ok (readBytes s.spad l.key n)
  | .shared | .peer =>
    let lines := linesOf (l, n)
    let data := lines.map fun x => uioData s engineAgent x
    if data.any fun d => match d with | some none => true | _ => false then .error .failed
    else match lines.filter fun x => (uioData s engineAgent x).isNone with
      | [] =>
        let all := data.flatMap fun d => match d with
          | some (some v) => leBytes 128 v.toNat
          | _ => []
        .ok ((all.drop (l.key % 128)).take n)
      | ask => .error (.wait (ask.map (.uio engineAgent)))
  | _ =>
    let near (x : Nat) : Bool := (tfind (getDie s (dieOf a)).copies x).isSome && !(halvesIn (l, n) x).any (hostHolds s)
    let q := ((linesOf (l, n)).filter (!near ·)).flatMap fun x => (if laneHeld s a x then [.later x] else []) ++ readNeeds s x (halvesIn (l, n) x)
    if q.isEmpty then .ok ((List.range n).map fun i => visibleByte s a (l.key + i)) else .error (.wait q)

/-- The uncached lines that engines have read are used up. -/
def dropUio (s : State) : State := { s with uio := s.uio.filter fun u => !(u.agent == engineAgent && (u.data.isSome || u.failed)) }

/-- R8: an engine's read of `n` bytes at `va`, page by page; `fuel` bounds the pages. -/
def engFetchN (s : State) (w : Actor) : Nat → Nat → Nat → Except EFail (List Byte × List Nat × State)
  | 0, _, _ => .ok ([], [], s)
  | fuel + 1, va, n =>
    if n = 0 then .ok ([], [], s)
    else
      let k := min n (4096 - va % 4096)
      match engLoc s w va k .read with
      | .error e => .error e
      | .ok (l, tags, s') => match engRead s' w.agent l k with
        | .error e => .error e
        | .ok b => match engFetchN s' w fuel (va + k) (n - k) with
          | .error e => .error e
          | .ok (rest, t, s'') => .ok (b ++ rest, tags ++ t, s'')

/-- R8: an engine's read of `n` bytes at `va`. -/
def engFetch (s : State) (w : Actor) (va n : Nat) : Except EFail (List Byte × List Nat × State) :=
  engFetchN s w (n / 4096 + 2) va n

/-- R296, R315, R329, R412: the code of an engine's failure; none while it waits or its page is missing. -/
def EFail.code : EFail → Option (BitVec 8)
  | .address | .owner | .space | .permission | .failed => some 2
  | .format => some 1
  | .offline => some 6
  | .notPresent _ | .wait _ => none

/-- Every byte of a list of places may be written now by an engine of agent `a`'s station (R80, R84, R416, R424), or what must still be asked. -/
def engCanWrite (s : State) (a : Nat) (bytes : List ((Bool × Nat) × Byte)) : Except (List Req) Unit :=
  let mem := bytes.filterMap fun b => if b.1.1 then none else some (b.1.2, b.2)
  let gs := byLine mem
  if gs.all fun g => !laneHeld s a g.1 && canWrite s g.1 (halvesTouched g.2) (wholeHalves g.2) then .ok ()
  else .error (gs.flatMap fun g => writeNeeds s g.1 (halvesTouched g.2) (wholeHalves g.2))

/-- The bytes of scratchpads are written at once; reservations on the blocks end (R76, R173), but for that of `agent`, the context of a plain store. -/
def spadWrite (s : State) (agent : Nat) (cells : List (Nat × Byte)) : State :=
  let s := { s with spad := writeCells s.spad cells }
  (dedup (cells.map fun c => 2 ^ 60 + c.1 / 128)).foldl (fun s b => killResv s b agent) s

/-- An engine's bytes are written, scratchpads and memory. -/
def engWrite (s : State) (agent : Nat) (bytes : List ((Bool × Nat) × Byte)) (tags : List Nat := []) (src : Option Nat := none)
    (group : Option (Nat × Nat) := none) : State :=
  let sp := bytes.filterMap fun b => if b.1.1 then some (b.1.2, b.2) else none
  let mem := bytes.filterMap fun b => if b.1.1 then none else some (b.1.2, b.2)
  directBytes (if sp.isEmpty then s else spadWrite s agent sp) agent mem tags src group

/-- The places of `n` bytes at a location. -/
def placesOf (l : Loc) (n : Nat) : List (Bool × Nat) := (List.range n).map fun i => (l.cls == .spad, l.key + i)

/-- The doublewords of a list of bytes. -/
def wordsOf (b : List Byte) : List Word := (List.range (b.length / 8)).map fun i => word (leNat ((b.drop (8 * i)).take 8))

/-- The eight doublewords of 64 bytes. -/
def words8 (b : List Byte) : Vector Word 8 := Vector.ofFn fun i => (wordsOf b).getD i.val 0

/-- The actor that a context or hub core is. -/
def actorOf (s : State) (a : Nat) : Actor :=
  let c := getCtx s a
  { agent := a, space := c.space, sup := c.sup, inst := instOf c }

/-- The bytes of a list of words. -/
def bytesOfWords (l : List Word) : List Byte := l.flatMap fun w => leBytes 8 w.toNat

end Sys2Proof.Machine
end

