-- ==== Sys2Proof/Machine/Cones.lean ====
section
/-! DEFINITION. Machine/Cones.lean: cones (R56 to R61, R214 to R219), and the arrival of a context that ends (R29). -/

namespace Sys2Proof.Machine

/-- R56: the cluster of a cone name. -/
def coneCluster (name : Nat) : Nat := name / 4096 % 32

/-- A cone by name. -/
def getCone (s : State) (name : Nat) : Cone := tget {} (getCluster s (coneCluster name)).cones (name % 4096)

/-- State with a cone replaced. -/
def setCone (s : State) (name : Nat) (c : Cone) : State :=
  modCluster s (coneCluster name) fun k => { k with cones := tset k.cones (name % 4096) c }

/-- R56: an agent is a member of the cone's scope. -/
def inScope (s : State) (a name : Nat) (c : Cone) : Bool :=
  match c.scope with
  | 0 => !isHub a && coreOf a == c.owner
  | 1 => clusterOf a == coneCluster name
  | 2 => dieOf a == dieOfCluster (coneCluster name)
  | _ => partOf s a == partOfCluster s (coneCluster name)

/-- R97: a cone's scope as a scope of memory. -/
def coneScope (c : Cone) : Scope :=
  match c.scope with
  | 0 => .core
  | 1 => .clus
  | 2 => .die
  | _ => .pkg

/-- R57: `trip`. -/
def tripCone (c : Cone) (code : BitVec 8) : Cone :=
  { c with
    err := code
    ferr := 0
    arrived := 0
    expect := (max 0 ((c.expect : Int) + c.delta)).toNat
    delta := 0
    phase := (c.phase + 1) % 65536 }

/-- R57: an arrival that the cone counts, at a time. -/
def countArrival (c : Cone) (now : Nat) (code : BitVec 8) (drop : Bool) : Cone :=
  let c := { c with
    first := if c.arrived = 0 then now else c.first
    arrived := c.arrived + 1
    ferr := if code ≠ 0 ∧ c.ferr = 0 then code else c.ferr
    delta := if drop then c.delta - 1 else c.delta }
  if c.arrived = c.expect then tripCone c c.ferr else c

/-- R57: an arrival for a phase is not counted: the cone is idle or the phase is not the current one. -/
def overArrival (c : Cone) (phase : Nat) : Bool := c.expect == 0 || phase != c.phase

/-- R59: the phase has passed v. -/
def phasePassed (c : Cone) (v : Nat) : Bool :=
  let d := (c.phase + 65536 - v % 65536) % 65536
  decide (1 ≤ d) && decide (d ≤ 32767)

/-- R60: the state word. -/
def coneWord (c : Cone) : Word :=
  word (c.expect + c.arrived * 2 ^ 16 + c.phase * 2 ^ 32 + c.err.toNat * 2 ^ 48 + c.scope * 2 ^ 56 +
    (if c.timeout = 0 then 0 else 2 ^ 59) + (if c.expect = 0 then 2 ^ 60 else 0))

/-- R57, R58, R215 to R219: an operation of agent `a` as the cone receives it, with the reply. -/
def coneDo (s : State) (a name : Nat) (op : ConeOp) : State × Reply :=
  let c := getCone s name
  let outside := !inScope s a name c
  match op with
  | .arrive phase code drop =>
    if outside then (s, .trap 31 (word name))
    else if overArrival c phase then (s, .trap 27 (word name))
    else (setCone s name (countArrival c s.clock code drop), .value 0)
  | .join =>
    if outside then (s, .trap 31 (word name))
    else if c.expect = 0 then (setCone s name { c with expect := 1, arrived := 0 }, .value 0)
    else if 65535 < (c.expect : Int) + c.delta + 1 then (s, .value 1)
    else (setCone s name { c with delta := c.delta + 1 }, .value 0)
  | .init expect scope timeout =>
    (setCone s name { c with
      expect := expect
      scope := scope
      timeout := timeout
      arrived := 0
      err := 0
      delta := 0
      ferr := 0
      owner := if scope = 0 then coreOf a else c.owner }, .value 0)
  | .test v =>
    if outside then (s, .trap 31 (word name))
    else (s, .value (if phasePassed c v then word (0x100 + c.err.toNat) else 0))
  | .wait _ =>
    if outside then (s, .trap 31 (word name)) else (s, .value (word (0x100 + c.err.toNat)))
  | .stat => (s, .value (coneWord c))
  | .snap _ _ _ _ => (s, .value 0)
  | .complete code =>
    if outside || overArrival c c.phase then (countLate s (coneCluster name), .value 0)
    else (setCone s name (countArrival c s.clock code false), .value 0)

/-- R29: "no cone" in CONE of a record. -/
def noCone : Nat := 0x1FFFF

/-- R29: the completion arrival of a context or an abandoned record: at once in the own cluster, else by message; a cone of
another partition counts it as late, and a cone on an offline die is not reached. -/
def completeArrival (s : State) (a name : Nat) (code : BitVec 8) (group : Option Nat) : State :=
  if name = noCone then s
  else if clusterOf a = coneCluster name then (coneDo s a name (.complete code)).1
  else if !clusterOnline s (coneCluster name) then s
  else if partOf s a ≠ partOfCluster s (coneCluster name) then countLate s (coneCluster name)
  else
    let (id, s) := takeId s
    { s with coneMsgs := s.coneMsgs ++ [{ id, agent := a, cone := name, op := .complete code, group }] }

/-- R57, R317: the arrival of an engine for a phase, with the code; `a`: the issuing context. -/
def engineArrival (s : State) (a name phase : Nat) (code : BitVec 8) : State :=
  let c := getCone s name
  if !inScope s a name c || overArrival c phase then countLate s (coneCluster name)
  else setCone s name (countArrival c s.clock code false)

end Sys2Proof.Machine
end

