-- ==== Sys2Proof/Machine/Queues.lean ====
section
/-! DEFINITION. Machine/Queues.lean: descriptors (R30 to R33), live queues, binding and unbinding of ends (R34, R39, R40, R47, R199,
R200, R205). -/

namespace Sys2Proof.Machine

/-- R32: a queue table entry. -/
structure QDesc where
  coil : Bool
  lgd : Nat
  ord : Bool
  bag : Bool
  cscope : Nat
  reserved : Bool
  ring : Word
  deriving DecidableEq, Repr

/-- R32: a queue table entry from its two words. -/
def qdescOf (l : List Word) : QDesc :=
  let w := l.getD 0 0
  { coil := bitOf w 0
    lgd := fieldOf w 1 5
    ord := bitOf w 6
    bag := bitOf w 7
    cscope := fieldOf w 8 2
    reserved := fieldOf w 10 54 != 0
    ring := l.getD 1 0 }

/-- R33: an entry in use is well formed. -/
def QDesc.ok (d : QDesc) : Bool :=
  !d.reserved && decide (3 ≤ d.lgd) && decide (d.lgd ≤ if d.coil then 16 else 8) && !(d.coil && d.cscope == 3)

/-- R40: the declared scope of a coil. -/
def QDesc.scope (d : QDesc) : Scope := match d.cscope with | 1 => .clus | 2 => .die | _ => .pkg

/-- R40: the place to which a scope ties a coil. -/
def placeOf (a : Nat) (sc : Scope) : Nat := match sc with | .clus => clusterOf a | .die => dieOf a | _ => 0

/-- R39: the live queue of an instance's index; a near queue is one core's. -/
def liveQueue (s : State) (a : Nat) (space : Nat) (pdesc : Word) (inst index : Nat) (coil : Bool) : Option Queue :=
  s.queues.find? fun q => q.part == partOf s a && q.space == space && q.pdesc == pdesc && q.inst == inst && q.index == index &&
    (if coil then q.coil else !q.coil && q.core == coreOf a)

/-- R39: entries of a core's queue RAM in use. -/
def ramUsed (s : State) (core : Nat) : Nat :=
  (s.queues.filter fun q => !q.coil && q.core == core).foldl (fun n q => n + q.depth) 0

/-- R40: a live coil's scope includes an agent. -/
def coilAdmits (q : Queue) (a : Nat) : Bool :=
  match q.scope with
  | .clus => q.place == clusterOf a
  | .die => q.place == dieOf a
  | _ => true

/-- R34, R39, R40: end k of context `a` is bound to a queue of its instance, which becomes live when it is not. A coil belongs to the core of the
first context that binds a read end of it. The manual does not say to which core it belongs before: here to that of the first context that binds
any end (log entry 79). -/
def bindEnd (s : State) (a k : Nat) (write : Bool) (space : Nat) (pdesc : Word) (inst index : Nat) (d : QDesc) : State :=
  let (q, s) := match liveQueue s a space pdesc inst index d.coil with
    | some q => (q, s)
    | none =>
      let (id, s) := takeId s
      let sc := if d.coil then d.scope else .core
      let q : Queue :=
        { id, part := partOf s a, space, pdesc, inst, index, coil := d.coil, depth := 2 ^ d.lgd, bag := d.coil && d.bag,
          ord := d.ord, scope := sc, place := placeOf a sc, core := coreOf a, holder := none, ring := d.ring, ringCluster := clusterOf a,
          tail := 0, items := [], append := none, openBag := none, claims := [], copies := [] }
      (q, { s with queues := s.queues ++ [q] })
  let s := if d.coil && !write && q.holder.isNone then setQueue s { q with core := coreOf a, holder := some a } else s
  modCtx s a fun c => { c with
    ends := c.ends.setIfInBounds k { queue := some q.id, write := write }
    x := c.x.setIfInBounds (24 + k) 0 }

/-- R47: what a consumer holds of a queue returns to it: entries sent to it and not popped, and the rest of its bag. A copy of a
token, which no consumer has claimed, does not. -/
def releaseItems (q : Queue) (a : Nat) (got : List Item) : Queue :=
  let back := (got.filter fun it => !q.bag || it.owner.isSome).foldl (fun l it => insertItem { it with owner := none } l) q.items
  { q with
    items := back.map fun i => if i.owner = some a then { i with owner := none } else i
    claims := q.claims.filter (· != a)
    openBag := if q.openBag = some (some a) then some none else q.openBag
    copies := (q.copies.map fun c => (c.1, c.2.1, c.2.2.1.filter (· != a), c.2.2.2)).filter fun c => !c.2.2.1.isEmpty }

/-- Contexts that have an end of a queue bound. -/
def boundTo (s : State) (qid : Nat) : List Nat :=
  (s.ctxs.filter fun e => e.2.ends.toList.any fun d => d.queue == some qid).map (·.1)

/-- R40: context `a`, by whose read end its core owns the coil, has ended: the role passes to the core of the lowest-numbered consumer. With none
left the core keeps it until a read end is bound (log entry 79). -/
def passOwner (s : State) (qid a : Nat) : State :=
  match findQueue s qid with
  | none => s
  | some q =>
    if !q.coil || q.holder != some a then s
    else match consumersOf s qid with
      | [] => setQueue s { q with holder := none }
      | b :: _ => setQueue s { q with core := coreOf b, holder := some b }

/-- R39: a near queue without a bound end ceases to be live; so does a coil when no context of its instance is left
(log entry 11) and the instance is not stopped by a pre-emption. -/
def retireQueue (s : State) (qid : Nat) : State :=
  match findQueue s qid with
  | none => s
  | some q =>
    let live := s.ctxs.any fun e => !isHub e.1 && partOf s e.1 == q.part && e.2.status != .free &&
      (match e.2.record with
        | some r => e.2.space == q.space && r.w0 == q.pdesc && fieldOf r.w5 48 16 == q.inst
        | none => false)
    let stopped := s.preempts.any fun p => p.part == q.part && p.space == q.space && p.inst == q.inst
    if (boundTo s qid).isEmpty && (!q.coil || !(live || stopped)) then
      { s with queues := s.queues.filter (fun e => e.id != qid), coilMsgs := s.coilMsgs.filter fun m => m.queue != qid }
    else s

/-- R47, R200, R205: end k of a context is unbound. The manual does not say what becomes of an end that is lent to a pug: here it is unbound like
any other, and the stream stays open without it (log entry 80). -/
def unbindEnd (s : State) (a k : Nat) : State :=
  let e := endOf s a k
  match e.queue with
  | none => s
  | some qid =>
    let s := match findQueue s qid with
      | none => s
      | some q =>
        if e.write then (if q.bag && openAppend s q a then pushQueue s q a (tokenEntry 1) else s)
        else setQueue s (releaseItems q a e.got)
    let s := modCtx s a fun c => { c with ends := c.ends.setIfInBounds k {}, x := c.x.setIfInBounds (24 + k) 0 }
    retireQueue s qid

/-- The header of a pipeline descriptor, or of what is needed of it. -/
structure PDescHdr where
  nstage : Nat
  nqueue : Nat
  lrev : Nat
  reserved : Bool
  stages : Word
  queues : Word
  save : Word
  deriving DecidableEq, Repr

/-- R30: the header from its words. -/
def hdrOf (l : List Word) : PDescHdr :=
  let w := l.getD 0 0
  { nstage := fieldOf w 0 7
    nqueue := fieldOf w 16 9
    lrev := fieldOf w 25 6
    reserved := fieldOf w 7 9 != 0 || fieldOf w 31 33 != 0 || (l.drop 4).any (· != 0)
    stages := l.getD 1 0
    queues := l.getD 2 0
    save := l.getD 3 0 }

/-- How a descriptor's read ends: words, unreadable, or not yet. -/
inductive Fetched (α : Type) where
  | ok (v : α) (s : State)
  | fail
  | wait (reqs : List Req)

/-- R28, R199: words of a descriptor, read by hardware; a failure raises no trap. -/
def descWords (s : State) (w : Actor) (va : Word) (n : Nat) : Fetched (List Word) :=
  match engFetch s w va.toNat n with
  | .ok (b, _, s') => .ok (wordsOf b) s'
  | .error (.wait q) => .wait q
  | .error _ => .fail

/-- R30: the header of a pipeline descriptor, which is 64-byte aligned. -/
def readHdr (s : State) (w : Actor) (pdesc : Word) : Fetched PDescHdr :=
  if pdesc.toNat % 64 ≠ 0 then .fail
  else match descWords s w pdesc 64 with
    | .ok l s' => .ok (hdrOf l) s'
    | .fail => .fail
    | .wait q => .wait q

/-- R32: a queue table entry. -/
def readQDesc (s : State) (w : Actor) (h : PDescHdr) (idx : Nat) : Fetched QDesc :=
  match descWords s w (h.queues + word (16 * idx)) 16 with
  | .ok l s' => .ok (qdescOf l) s'
  | .fail => .fail
  | .wait q => .wait q

end Sys2Proof.Machine
end

