-- ==== Sys2Proof/Machine/Launch.lean ====
section
/-! DEFINITION. Machine/Launch.lean: launch records, launch queues and handles (R50 to R53, R202), stage instances (R48, R203), and the
end of a context (R29, R204). -/

namespace Sys2Proof.Machine

/-! Records -/

/-- R50: the fields of a launch record. -/
def LRec.stageNo (r : LRec) : Nat := fieldOf r.w4 0 8
def LRec.kind (r : LRec) : Nat := fieldOf r.w4 8 2
def LRec.prio (r : LRec) : Nat := fieldOf r.w4 10 3
def LRec.draw (r : LRec) : Nat := fieldOf r.w4 13 6
def LRec.repmax (r : LRec) : Nat := fieldOf r.w4 19 4
def LRec.cone (r : LRec) : Nat := fieldOf r.w5 0 17
def LRec.inst (r : LRec) : Nat := fieldOf r.w5 48 16
def LRec.spill (r : LRec) : Nat := fieldOf r.w6 0 8
def LRec.vrows (r : LRec) : Nat := fieldOf r.w6 8 11
def LRec.space (r : LRec) : Nat := fieldOf r.w7 0 16

/-- R50: a record from its words. -/
def recordOf (l : List Word) : LRec :=
  ⟨l.getD 0 0, l.getD 1 0, l.getD 2 0, l.getD 3 0, l.getD 4 0, l.getD 5 0, l.getD 6 0, l.getD 7 0⟩

/-- R51: a reserved field is not zero, or KIND = 3. -/
def LRec.bad (r : LRec) : Bool :=
  r.kind == 3 || bitOf r.w4 23 || fieldOf r.w4 39 25 != 0 || fieldOf r.w5 17 15 != 0 || fieldOf r.w6 19 45 != 0 ||
  fieldOf r.w7 16 48 != 0

/-- R50: the copy carries the poster's address space. -/
def LRec.withSpace (r : LRec) (space : Nat) : LRec := { r with w7 := word space }

/-- R51: the target cluster of a record that a cluster posts. -/
def LRec.target (r : LRec) (own : Nat) : Nat := if bitOf r.w4 38 then fieldOf r.w4 33 5 else own

/-- R51, R223: the copy with TGT set and TGTV = 1. -/
def LRec.withTarget (r : LRec) (cl : Nat) : LRec := { r with w4 := setField (setField r.w4 33 5 cl) 38 1 1 }

/-- R48: the replica record for a core of the cluster. -/
def LRec.replicaAt (r : LRec) (core : Nat) : LRec :=
  { r with w4 := setField (setField (setField r.w4 8 2 2) 24 8 (core % 256)) 32 1 1 }

/-- R223: the replica record for a cluster. -/
def LRec.replicaTo (r : LRec) (cl : Nat) : LRec :=
  LRec.withTarget { r with w4 := setField (setField r.w4 8 2 2) 32 1 0 } cl

/-! Launch queues -/

/-- R52: the launch queue of a cluster has a free place. -/
def launchRoom (s : State) (cl : Nat) : Bool := decide ((getCluster s cl).launch.length < Config.launchQueue)

/-- A slot of the launch queue that holds no record. The manual does not say which one a new record takes: here the lowest (log entry 92). -/
def freeSlot (l : List LSlot) : Nat := ((List.range Config.launchQueue).find? fun n => !l.any fun x => x.slot == n).getD 0

/-- R52, R53, R202: a record is accepted into the launch queue of a cluster. -/
def acceptRecord (s : State) (cl : Nat) (r : LRec) (poster : Poster) (stage : Option (Nat × Nat)) : State :=
  let s := modCluster s cl fun k =>
    let slot := freeSlot k.launch
    let gen := (tget 0 k.gens slot + 1) % 128
    let key := fieldOf r.w5 32 6
    let n := tget 0 k.route key
    { k with
      launch := k.launch ++ [{ slot, gen, record := r, poster, seq := k.seq, core := none, stage }]
      gens := tset k.gens slot gen
      seq := k.seq + 1
      route := tset k.route key (if n = 0xFFFFFFFF then n else n + 1) }
  match stage with
  | some (b, i) => modCluster s b fun k => match tfind k.stages i with
    | some x => { k with stages := tset k.stages i { x with live := x.live + 1 } }
    | none => k
  | none => s

/-- R202: the record that a handle names on a core. -/
def handleSlot (s : State) (core : Nat) (h : Word) : Option LSlot :=
  if fieldOf h 16 48 ≠ 0 then none
  else (getCluster s (core / 256)).launch.find? fun x =>
    x.slot == fieldOf h 0 9 && x.gen == fieldOf h 9 7 && x.core == some core

/-- R202: a record leaves its slot. -/
def dropSlot (s : State) (cl slot : Nat) : State :=
  modCluster s cl fun k => { k with launch := k.launch.filter fun x => x.slot != slot }

/-- R397: the instance is being pre-empted, or is stopped. -/
def heldInst (s : State) (part space inst : Nat) : Bool :=
  s.preempts.any fun p => p.part == part && p.space == space && p.inst == inst

/-- The contexts 1 to 15 of a core that are not FREE. -/
def liveCtxs (s : State) (core : Nat) : List (Nat × Ctx) :=
  s.ctxs.filter fun e => !isHub e.1 && coreOf e.1 == core && ctxNo e.1 != 0 && e.2.status != .free

/-- R52: the available contexts of a core. -/
def available (s : State) (core : Nat) : Int :=
  15 - (liveCtxs s core).length - ((getCluster s (core / 256)).launch.filter fun x => x.core == some core).length

/-- R52: the launch-handle queue of a core has a free entry. -/
def handleRoom (s : State) (core : Nat) : Bool := decide ((getCore s core).handles.length < Config.handleQueue)

/-- R48: a core runs a context of a stage instance. -/
def runsStage (s : State) (core : Nat) (st : Nat × Nat) : Bool := (liveCtxs s core).any fun e => e.2.stage == some st

/-- The element with the greatest key, the first on ties. -/
def mostBy (key : Nat → Int) : List Nat → Option Nat
  | [] => none
  | a :: t => match mostBy key t with
    | none => some a
    | some b => if key a < key b then some b else some a

/-- R48, R52: the core of a cluster with the most available contexts, lowest index on ties, of those that `ok` admits. -/
def bestCore (s : State) (cl : Nat) (ok : Nat → Bool) : Option Nat :=
  mostBy (available s) (((List.range 256).map (cl * 256 + ·)).filter ok)

/-- R52: the core to which a record can be dispatched now. -/
def dispatchCore (s : State) (cl : Nat) (x : LSlot) : Option Nat :=
  if bitOf x.record.w4 32 then
    let core := cl * 256 + fieldOf x.record.w4 24 8
    if handleRoom s core then some core else none
  else bestCore s cl fun k => handleRoom s k && !(match x.stage with | some st => runsStage s k st | none => false)

/-- R52: an earlier record of the same poster and class still waits. -/
def heldBack (l : List LSlot) (x : LSlot) : Bool :=
  l.any fun y => y.core.isNone && decide (y.seq < x.seq) && y.poster == x.poster && y.record.prio == x.record.prio

/-- R52: the record that a cluster dispatches next, and its core: by class, then oldest first. -/
def nextDispatch (s : State) (cl : Nat) : Option (LSlot × Nat) :=
  let l := (getCluster s cl).launch
  let part := partOfCluster s cl
  let can := l.filterMap fun x =>
    if x.core.isSome || heldInst s part x.record.space x.record.inst || heldBack l x then none
    else (dispatchCore s cl x).map fun k => (x, k)
  leastBy (fun p => p.1.record.prio * 2 ^ 64 + p.1.seq) can

/-- R202: the handle of a record. -/
def handleOf (x : LSlot) : Word := word (x.slot + x.gen * 512)

/-! Stage instances -/

/-- R223: the live replicas of a stage instance: those posted and not yet ended. -/
def liveReplicas (s : State) (st : Nat × Nat) (x : StageInst) : Nat :=
  x.live + (s.posts.filter fun p => p.stage == some st && !p.rep).length

/-- A stage instance by balancer and number. -/
def findStage (s : State) (st : Nat × Nat) : Option StageInst := tfind (getCluster s st.1).stages st.2

/-- R203: the copy of a stage instance goes when its last context has ended and no posted replica waits. -/
def gcStage (s : State) (st : Nat × Nat) : State :=
  match findStage s st with
  | none => s
  | some x =>
    if liveReplicas s st x == 0 && !s.ctxs.any fun e => e.2.stage == some st && e.2.status != .free then
      modCluster s st.1 fun k => { k with stages := terase k.stages st.2 }
    else s

/-- R223: a replica of a stage instance has ended. -/
def endReplica (s : State) (st : Nat × Nat) : State :=
  gcStage (modCluster s st.1 fun k => match tfind k.stages st.2 with
    | some x => { k with stages := tset k.stages st.2 { x with live := x.live - 1 } }
    | none => k) st

/-! The end of a context -/

/-- R172: an atomic that hardware makes for a context at a virtual address; it is performed at its site. A translation that
fails drops it. -/
def hwAtomic (s : State) (w : Actor) (va : Nat) (op : AOp) (size : Nat) (opnd : Word) (scope : Scope) : State :=
  match engLoc s w va size .write with
  | .error _ => s
  | .ok (l, tags, s) =>
    match l.cls with
    | .spad => (atSite s w.agent op false l size opnd.toNat 0 .ar scope []).2
    | _ =>
      let (id, s) := takeId s
      let packet := l.cls == .shared || l.cls == .peer
      { s with atomics := s.atomics ++ [
        { id, agent := engineAgent, op, pa := l.key, size, opnd, expv := 0, order := .ar, scope, packet, tags, src := some (clusterOf w.agent),
          group := (groupOf s w.agent).map (partOf s w.agent, ·) }] }

/-- What the READERS updates of an ending context's streams still need. -/
def pugNeeds (s : State) (a : Nat) : List Req :=
  ((getCluster s (clusterOf a)).pugs.filter fun p => p.2.agent == a).flatMap fun p =>
    match engLoc s (actorOf s a) (p.2.desc + 32) 4 .write with
    | .error (.wait q) => q
    | _ => []

/-- R331: the streams that an ending context opened end: READERS is decremented and the pugs become free. -/
def closePugs (s : State) (a : Nat) : State :=
  let cl := clusterOf a
  let own := (getCluster s cl).pugs.filter fun p => p.2.agent == a
  let s := own.foldl (fun s p => hwAtomic s (actorOf s a) (p.2.desc + 32) .add 4 (BitVec.ofInt 64 (-1)) .pkg) s
  if own.isEmpty then s
  else modCluster s cl fun k => { k with pugs := k.pugs.filter fun p => p.2.agent != a }

/-- R335, R397: the patch slots of an instance that has no context left on the core are free. -/
def freePatch (s : State) (core : Nat) (inst : Nat × Nat) : State :=
  if (liveCtxs s core).any fun e => instOf e.2 == inst then s
  else match tfind s.cores core with
    | none => s
    | some k => setCore s core { k with slots := k.slots.map fun x => match x with
        | some y => if (y.space, y.inst) = inst then none else some y
        | none => none }

/-- R29, R204: what an ending context still waits for: its stores and pushes are released at sys scope, and no arrival or atomic
it has sent is unanswered. -/
def endable (s : State) (a : Nat) : Bool :=
  let c := getCtx s a
  settled s a .sys && !(s.coilMsgs.any fun m => m.producer == a) && c.out.all (·.failed) && c.reply.isNone && !(s.uio.any fun u => u.agent == a) &&
  (match c.sent with
    | some id => !(s.coneMsgs.any fun m => m.id == id) && !(s.atomics.any fun m => m.id == id)
    | none => true)

/-- R29, steps 2 to 6: a context ends; its completion arrival carries a code. -/
def endContext (s : State) (a : Nat) (code : BitVec 8) : State :=
  let c := getCtx s a
  let group := groupOf s a
  let s := closePugs s a
  let s := (List.range 8).foldl (fun s k => unbindEnd s a k) s
  let s := s.queues.foldl (fun s q => passOwner s q.id a) s
  let s := { s with
    posts := s.posts.filter fun p => some p.id != c.sent
    uio := s.uio.filter fun u => uioOwner u != a }
  let s := match c.record with
    | some r => completeArrival s a r.cone code group
    | none => s
  let s := { s with ctxs := terase s.ctxs a }
  let s := freePatch s (coreOf a) (instOf c)
  let s := (s.queues.filter fun q => q.coil && (q.space, q.inst) == instOf c).foldl (fun s q => retireQueue s q.id) s
  match c.stage, c.record with
  | some st, some r => if r.kind = 2 then endReplica s st else gcStage s st
  | _, _ => s

/-- R28, R204: a launch handle is abandoned. -/
def abandon (s : State) (a : Nat) (x : LSlot) : State :=
  let s := dropSlot s (clusterOf a) x.slot
  let s := completeArrival s a x.record.cone 9 (some x.record.draw)
  match x.stage with
  | some st => endReplica s st
  | none => s

end Sys2Proof.Machine
end

