-- ==== Sys2Proof/Machine/Flags.lean ====
section
/-! DEFINITION. Machine/Flags.lean: rounding modes (R119, R120), the flags of scalar and vector instructions (R127, R128), the
generator (R123, R124), and the rounding that scalar and vector results share. -/

namespace Sys2Proof.Machine

/-- R119, R177: the mode of a scalar rounding; dynamic is `frm`. -/
def scalarMode (c : Ctx) (rm : RMode) : RMode :=
  match rm with
  | .dyn => (RMode.ofCode c.ucsr.frm.toNat).getD .rne
  | m => m

/-- R119, R120: the mode of a vector rounding: `vrm`. -/
def vectorMode (c : Ctx) : RMode := (RMode.ofCode c.ucsr.vrm.toNat).getD .rne

/-- R127: scalar flags are ORed into `fflags`. -/
def raiseFlags (c : Ctx) (f : BitVec 5) : Ctx := { c with ucsr := { c.ucsr with fflags := c.ucsr.fflags ||| f } }

/-- R127, R128: a vector instruction's flags are ORed into the group of a lane, unless nf = 1. -/
def raiseLane (c : Ctx) (nf : Bool) (lane : Nat) (f : BitVec 5) : Ctx :=
  if nf then c
  else
    let v := word (f.toNat * 2 ^ (8 * (lane % 8)))
    if lane < 8 then { c with ucsr := { c.ucsr with vflg0 := c.ucsr.vflg0 ||| v } }
    else { c with ucsr := { c.ucsr with vflg1 := c.ucsr.vflg1 ||| v } }

/-- R123: the generator's state is put back. -/
def setSeed (c : Ctx) (g : BitVec 32) : Ctx := { c with ucsr := { c.ucsr with vseed := g } }

/-- R123: a draw of a context. -/
def drawSeed (c : Ctx) : BitVec 32 × Ctx := (draw c.ucsr.vseed, setSeed c (draw c.ucsr.vseed))

/-- R176, R177: a scalar result rounded to fp32, its flags raised, sign-extended as Zfinx writes it. -/
def roundS (rm : RMode) (r : Val × BitVec 5) : Act Word := do
  let c ← me
  let (enc, f, g) := roundF fp32 (scalarMode c rm) false c.ucsr.vseed r.1
  modMe fun c => setSeed (raiseFlags c (r.2 ||| f)) g
  pure (sextN 32 enc)

/-- R125, R177: a scalar conversion to an integer of `n` bits, sign-extended. -/
def roundToInt (rm : RMode) (signed : Bool) (n : Nat) (x : Val) : Act Word := do
  let c ← me
  let lo : Int := if signed then -2 ^ (n - 1) else 0
  let hi : Int := if signed then 2 ^ (n - 1) - 1 else 2 ^ n - 1
  let (v, f, g) := roundInt lo hi (scalarMode c rm) c.ucsr.vseed x
  modMe fun c => setSeed (raiseFlags c f) g
  pure ((BitVec.ofInt n v).signExtend 64)

/-- The value of a scalar operand: bits [31:0] as fp32 (R176). -/
def fval (w : Word) : Val := decodeF fp32 (w.toNat % 2 ^ 32)

/-- R126: the sign of an exact zero sum is − under rdn. -/
def isRdn (m : RMode) : Bool := m == .rdn

/-- R144: the number format of a floating element format. -/
def fmtOf : VFmt → FFmt
  | .f32 => fp32
  | .bf16 => bf16
  | .f16 => fp16
  | .e4m3 => e4m3
  | .e5m2 => e5m2
  | .i8 | .i16 | .i32 => fp32

/-- The signed value of an integer element. -/
def ival (ty : VFmt) (n : Nat) : Int := (BitVec.ofNat (8 * ty.size) n).toInt

/-- The value of an element of a format, exactly. -/
def elemVal (ty : VFmt) (n : Nat) : Val := if ty.isInt then Val.ofInt (ival ty n) else decodeF (fmtOf ty) n

/-- The encoding of an integer in an element, wrapped. -/
def ofIval (ty : VFmt) (i : Int) : Nat := (BitVec.ofInt (8 * ty.size) i).toNat

/-- The least and greatest value of an integer format. -/
def intRange (ty : VFmt) : Int × Int := (-2 ^ (8 * ty.size - 1), 2 ^ (8 * ty.size - 1) - 1)

end Sys2Proof.Machine
end

