-- ==== Sys2Proof/Machine/Memory.lean ====
section
/-! DEFINITION. Machine/Memory.lean: plain loads and stores (R169, R170), the A extension (R171 to R174), scoped accesses, fences,
device atomics and cache instructions (R233 to R256). -/

namespace Sys2Proof.Machine

/-! Gates -/

/-- R429: an encoding that a hub core does not execute. -/
def barrelOnly (i : Instr) : Act Unit := do
  let s ← get
  trapIf (isHub s.cur) 2 (iword i)

/-- R148, R372: an encoding that is illegal in user mode. -/
def supervisorOnly (i : Instr) : Act Unit := do
  let c ← me
  trapIf (!c.sup) 2 (iword i)

/-- R26: only context 0 of a barrel core; R429 on a hub core. -/
def contextZeroOnly (i : Instr) : Act Unit := do
  barrelOnly i
  let s ← get
  trapIf (ctxNo s.cur != 0) 26 (iword i)

/-! Shared operations -/

/-- R169: a load of n bytes. -/
def load (i : Instr) (rd rs1 : Reg) (imm : BitVec 12) (n : Nat) (signed : Bool) : Act Unit := do
  let s ← get
  let a ← operand1 rs1 rd
  orderGate .rlx .sys
  let (ps, tags) ← resolve .read (eaOf a imm) n (rs1 == 2)
  issueLoad s i .rlx n signed [⟨0, 0, eaOf a imm, ps, tags⟩]

/-- R169: a store of n bytes. -/
def store (rs2 rs1 : Reg) (imm : BitVec 12) (n : Nat) : Act Unit := do
  let (a, v) ← operand2 rs1 rs2 none
  memWrite (eaOf a imm) (leBytes n v.toNat) (rs1 == 2) .rlx .sys
  advance

/-- R94: the order that the aq and rl bits select. -/
def orderOf (aq rl : Bool) : Order := if aq then (if rl then .ar else .aq) else (if rl then .rl else .rlx)

/-- R171: the size in bytes of a word or doubleword form. -/
def wd (d : Bool) : Nat := if d then 8 else 4

/-- R171, R172, R243: an atomic with one operand. -/
def atomicOp (i : Instr) (amo : Bool) (op : AOp) (rd rs2 rs1 : Reg) (ord : Order) (d : Bool) (sc : Scope) : Act Unit := do
  let s ← get
  let (a, v) ← operand2 rs1 rs2 rd
  issueAtomic s i amo op a (wd d) v 0 (rs1 == 2) ord sc

/-- R234, R243: a compare-and-swap; rd gives the expected value and may not be a bound end. -/
def casOp (i : Instr) (rd rs2 rs1 : Reg) (ord : Order) (d : Bool) (sc : Scope) : Act Unit := do
  let s ← get
  match (endNo rd).bind fun k => if isBound s s.cur k then some k else none with
  | some k => trap 24 (word k)
  | none =>
    let (a, v) ← operand2 rs1 rs2 none
    let c ← me
    issueAtomic s i false .cas a (wd d) v (readX c rd) (rs1 == 2) ord sc

/-- R233, R236, R237: where a `cl.*` instruction acts: none in the scratchpad window, else the line and the translation's source lines. -/
def clResolve (acc : Access) (ea : Word) : Act (Option (Loc × List Nat)) := do
  let s ← get
  if !canonical ea then trap (accessCause acc) ea
  else if inWindow s s.cur ea.toNat then pure none
  else do
    let (pa, tags) ← xlateA acc ea ea
    let l ← reach acc pa ea ea
    pure (some (⟨l.cls, l.key / 128 * 128⟩, tags))

/-- R249: a cache operation enters the store buffer behind the context's earlier stores; R250: on peer and shared tier-two memory
and in the window it has no effect. -/
def cacheOp (kind : SbKind) (rs1 : Reg) : Act Unit := do
  let a ← operand1 rs1 none
  orderClear
  match ← clResolve .read a with
  | none => pure ()
  | some (l, tags) => match l.cls with
    | .peer | .shared => pure ()
    | _ => pushSb { kind, addr := l.key, bytes := [], tags, ea := a }
  advance

/-! Instructions -/

/-- R169: `lb`. -/
def execLb (rd rs1 : Reg) (imm : BitVec 12) (s : State) : Host.Outcome State Fault Refusal :=
  perform (.lb rd rs1 imm) (load (.lb rd rs1 imm) rd rs1 imm 1 true) s

/-- R169: `lh`. -/
def execLh (rd rs1 : Reg) (imm : BitVec 12) (s : State) : Host.Outcome State Fault Refusal :=
  perform (.lh rd rs1 imm) (load (.lh rd rs1 imm) rd rs1 imm 2 true) s

/-- R169: `lw`. -/
def execLw (rd rs1 : Reg) (imm : BitVec 12) (s : State) : Host.Outcome State Fault Refusal :=
  perform (.lw rd rs1 imm) (load (.lw rd rs1 imm) rd rs1 imm 4 true) s

/-- R169: `ld`. -/
def execLd (rd rs1 : Reg) (imm : BitVec 12) (s : State) : Host.Outcome State Fault Refusal :=
  perform (.ld rd rs1 imm) (load (.ld rd rs1 imm) rd rs1 imm 8 true) s

/-- R169: `lbu`. -/
def execLbu (rd rs1 : Reg) (imm : BitVec 12) (s : State) : Host.Outcome State Fault Refusal :=
  perform (.lbu rd rs1 imm) (load (.lbu rd rs1 imm) rd rs1 imm 1 false) s

/-- R169: `lhu`. -/
def execLhu (rd rs1 : Reg) (imm : BitVec 12) (s : State) : Host.Outcome State Fault Refusal :=
  perform (.lhu rd rs1 imm) (load (.lhu rd rs1 imm) rd rs1 imm 2 false) s

/-- R169: `lwu`. -/
def execLwu (rd rs1 : Reg) (imm : BitVec 12) (s : State) : Host.Outcome State Fault Refusal :=
  perform (.lwu rd rs1 imm) (load (.lwu rd rs1 imm) rd rs1 imm 4 false) s

/-- R169: `sb`. -/
def execSb (rs2 rs1 : Reg) (imm : BitVec 12) (s : State) : Host.Outcome State Fault Refusal :=
  perform (.sb rs2 rs1 imm) (store rs2 rs1 imm 1) s

/-- R169: `sh`. -/
def execSh (rs2 rs1 : Reg) (imm : BitVec 12) (s : State) : Host.Outcome State Fault Refusal :=
  perform (.sh rs2 rs1 imm) (store rs2 rs1 imm 2) s

/-- R169: `sw`. -/
def execSw (rs2 rs1 : Reg) (imm : BitVec 12) (s : State) : Host.Outcome State Fault Refusal :=
  perform (.sw rs2 rs1 imm) (store rs2 rs1 imm 4) s

/-- R169: `sd`. -/
def execSd (rs2 rs1 : Reg) (imm : BitVec 12) (s : State) : Host.Outcome State Fault Refusal :=
  perform (.sd rs2 rs1 imm) (store rs2 rs1 imm 8) s

/-- R171, R173: `lr`. -/
def execLr (rd rs1 : Reg) (aq rl d : Bool) (s : State) : Host.Outcome State Fault Refusal :=
  perform (.lr rd rs1 aq rl d) (do
    let s ← get
    let a ← operand1 rs1 rd
    issueAtomic s (.lr rd rs1 aq rl d) true .lr a (wd d) 0 0 (rs1 == 2) (orderOf aq rl) .sys) s

/-- R173: `sc`. -/
def execSc (rd rs2 rs1 : Reg) (aq rl d : Bool) (s : State) : Host.Outcome State Fault Refusal :=
  perform (.sc rd rs2 rs1 aq rl d) (atomicOp (.sc rd rs2 rs1 aq rl d) true .sc rd rs2 rs1 (orderOf aq rl) d .sys) s

/-- R172: `amoswap`. -/
def execAmoswap (rd rs2 rs1 : Reg) (aq rl d : Bool) (s : State) : Host.Outcome State Fault Refusal :=
  perform (.amoswap rd rs2 rs1 aq rl d) (atomicOp (.amoswap rd rs2 rs1 aq rl d) true .swap rd rs2 rs1 (orderOf aq rl) d .sys) s

/-- R172: `amoadd`. -/
def execAmoadd (rd rs2 rs1 : Reg) (aq rl d : Bool) (s : State) : Host.Outcome State Fault Refusal :=
  perform (.amoadd rd rs2 rs1 aq rl d) (atomicOp (.amoadd rd rs2 rs1 aq rl d) true .add rd rs2 rs1 (orderOf aq rl) d .sys) s

/-- R172: `amoxor`. -/
def execAmoxor (rd rs2 rs1 : Reg) (aq rl d : Bool) (s : State) : Host.Outcome State Fault Refusal :=
  perform (.amoxor rd rs2 rs1 aq rl d) (atomicOp (.amoxor rd rs2 rs1 aq rl d) true .xor rd rs2 rs1 (orderOf aq rl) d .sys) s

/-- R172: `amoand`. -/
def execAmoand (rd rs2 rs1 : Reg) (aq rl d : Bool) (s : State) : Host.Outcome State Fault Refusal :=
  perform (.amoand rd rs2 rs1 aq rl d) (atomicOp (.amoand rd rs2 rs1 aq rl d) true .and rd rs2 rs1 (orderOf aq rl) d .sys) s

/-- R172: `amoor`. -/
def execAmoor (rd rs2 rs1 : Reg) (aq rl d : Bool) (s : State) : Host.Outcome State Fault Refusal :=
  perform (.amoor rd rs2 rs1 aq rl d) (atomicOp (.amoor rd rs2 rs1 aq rl d) true .or rd rs2 rs1 (orderOf aq rl) d .sys) s

/-- R172: `amomin`. -/
def execAmomin (rd rs2 rs1 : Reg) (aq rl d : Bool) (s : State) : Host.Outcome State Fault Refusal :=
  perform (.amomin rd rs2 rs1 aq rl d) (atomicOp (.amomin rd rs2 rs1 aq rl d) true .min rd rs2 rs1 (orderOf aq rl) d .sys) s

/-- R172: `amomax`. -/
def execAmomax (rd rs2 rs1 : Reg) (aq rl d : Bool) (s : State) : Host.Outcome State Fault Refusal :=
  perform (.amomax rd rs2 rs1 aq rl d) (atomicOp (.amomax rd rs2 rs1 aq rl d) true .max rd rs2 rs1 (orderOf aq rl) d .sys) s

/-- R172: `amominu`. -/
def execAmominu (rd rs2 rs1 : Reg) (aq rl d : Bool) (s : State) : Host.Outcome State Fault Refusal :=
  perform (.amominu rd rs2 rs1 aq rl d) (atomicOp (.amominu rd rs2 rs1 aq rl d) true .minu rd rs2 rs1 (orderOf aq rl) d .sys) s

/-- R172: `amomaxu`. -/
def execAmomaxu (rd rs2 rs1 : Reg) (aq rl d : Bool) (s : State) : Host.Outcome State Fault Refusal :=
  perform (.amomaxu rd rs2 rs1 aq rl d) (atomicOp (.amomaxu rd rs2 rs1 aq rl d) true .maxu rd rs2 rs1 (orderOf aq rl) d .sys) s

/-- R186: `fence` is `mfence.sys`; its fields are ignored. -/
def execFence (rd rs1 : Reg) (fm pred succ : BitVec 4) (s : State) : Host.Outcome State Fault Refusal :=
  perform (.fence rd rs1 fm pred succ) (do
    release .sys
    advance) s

/-- R94, R186: `fence.i`: the context's later fetches read what its own earlier stores and those performed with respect to it have written: it waits
for its own, and the core's instruction cache is empty afterwards. -/
def execFenceI (rd rs1 : Reg) (imm : BitVec 12) (s : State) : Host.Outcome State Fault Refusal :=
  perform (.fenceI rd rs1 imm) (do
    let c ← me
    let s ← get
    holdUnless (c.sb.isEmpty && s.writes.all fun w => w.agent != s.cur || w.home)
    if isHub s.cur then pure () else modify fun s => modCore s (coreOf s.cur) fun k => { k with icache := [] }
    advance) s

/-- R238: `mld`. -/
def execMld (rd rs1 : Reg) (off : BitVec 5) (sz : BitVec 2) (ord : Order) (sc : Scope) (s : State) :
    Host.Outcome State Fault Refusal :=
  perform (.mld rd rs1 off sz ord sc) (do
    let s ← get
    let a ← operand1 rs1 rd
    let ea := eaScoped a off sz
    let n := 2 ^ sz.toNat
    trapIf (!canonical ea) 5 ea
    trapIf (ea.toNat % n != 0) 4 ea
    orderGate ord sc
    let (ps, tags) ← resolve .read ea n (rs1 == 2)
    issueLoad s (.mld rd rs1 off sz ord sc) ord n true [⟨0, 0, ea, ps, tags⟩]) s

/-- R239: `mst`. Which fault an address takes that is neither canonical nor aligned the manual does not say: here `mld` and `mst` take the access fault, and
atomics the misaligned one (log entry 106). -/
def execMst (rs2 rs1 : Reg) (off : BitVec 5) (sz : BitVec 2) (ord : Order) (sc : Scope) (s : State) :
    Host.Outcome State Fault Refusal :=
  perform (.mst rs2 rs1 off sz ord sc) (do
    let (a, v) ← operand2 rs1 rs2 none
    let ea := eaScoped a off sz
    let n := 2 ^ sz.toNat
    trapIf (!canonical ea) 7 ea
    trapIf (ea.toNat % n != 0) 6 ea
    memWrite ea (leBytes n v.toNat) (rs1 == 2) ord sc
    advance) s

/-- R242: `mfence`. -/
def execMfence (sc : Scope) (s : State) : Host.Outcome State Fault Refusal :=
  perform (.mfence sc) (do
    release sc
    advance) s

/-- R250: `cl.flush`. -/
def execClFlush (rs1 : Reg) (s : State) : Host.Outcome State Fault Refusal :=
  perform (.clFlush rs1) (cacheOp .flush rs1) s

/-- R250: `cl.clean`. -/
def execClClean (rs1 : Reg) (s : State) : Host.Outcome State Fault Refusal :=
  perform (.clClean rs1) (cacheOp .clean rs1) s

/-- R253: `cl.inval`; illegal in user mode. -/
def execClInval (rs1 : Reg) (s : State) : Host.Outcome State Fault Refusal :=
  perform (.clInval rs1) (do
    supervisorOnly (.clInval rs1)
    cacheOp .inval rs1) s

/-- R251: `cl.zero`: a 128-byte store. -/
def execClZero (rs1 : Reg) (s : State) : Host.Outcome State Fault Refusal :=
  perform (.clZero rs1) (do
    let a ← operand1 rs1 none
    orderClear
    let s ← get
    match ← clResolve .write a with
    | none =>
      let off := (a.toNat - windowBase s s.cur) / 128 * 128
      trapIf (!ownsRange s s.cur off 128) 7 a
      pushSb { kind := .zero, bytes := (List.range 128).map fun i => ((true, clusterOf s.cur * 2 ^ 24 + off + i), 0), ea := a }
    | some (l, tags) => pushSb { kind := .zero, bytes := (List.range 128).map fun i => ((false, l.key + i), 0), tags, ea := a }
    advance) s

/-- R252: `cl.pref`: the line is fetched, or nothing happens; nothing waits for it and nothing traps. -/
def execClPref (rs1 : Reg) (s : State) : Host.Outcome State Fault Refusal :=
  perform (.clPref rs1) (do
    let a ← operand1 rs1 none
    let s ← get
    let s' : State := match clResolve .read a s with
      | .ok (some (l, _), s1) => match l.cls with
        | .hbm _ | .priv | .host => match fill s1 s1.cur (lineOf l.key) (halvesOf (lineOf l.key)) with
          | .ok s2 => s2
          | .error q => applyReqs s1 q
        | _ => s1
      | _ => s
    set s'
    advance) s

/-- R243, R244: `xam.add`. -/
def execXamAdd (rd rs2 rs1 : Reg) (ord : Order) (d : Bool) (sc : Scope) (s : State) : Host.Outcome State Fault Refusal :=
  perform (.xamAdd rd rs2 rs1 ord d sc) (atomicOp (.xamAdd rd rs2 rs1 ord d sc) false .add rd rs2 rs1 ord d sc) s

/-- R243, R244: `xam.and`. -/
def execXamAnd (rd rs2 rs1 : Reg) (ord : Order) (d : Bool) (sc : Scope) (s : State) : Host.Outcome State Fault Refusal :=
  perform (.xamAnd rd rs2 rs1 ord d sc) (atomicOp (.xamAnd rd rs2 rs1 ord d sc) false .and rd rs2 rs1 ord d sc) s

/-- R243, R244: `xam.or`. -/
def execXamOr (rd rs2 rs1 : Reg) (ord : Order) (d : Bool) (sc : Scope) (s : State) : Host.Outcome State Fault Refusal :=
  perform (.xamOr rd rs2 rs1 ord d sc) (atomicOp (.xamOr rd rs2 rs1 ord d sc) false .or rd rs2 rs1 ord d sc) s

/-- R243, R244: `xam.xor`. -/
def execXamXor (rd rs2 rs1 : Reg) (ord : Order) (d : Bool) (sc : Scope) (s : State) : Host.Outcome State Fault Refusal :=
  perform (.xamXor rd rs2 rs1 ord d sc) (atomicOp (.xamXor rd rs2 rs1 ord d sc) false .xor rd rs2 rs1 ord d sc) s

/-- R243, R244: `xam.min`. -/
def execXamMin (rd rs2 rs1 : Reg) (ord : Order) (d : Bool) (sc : Scope) (s : State) : Host.Outcome State Fault Refusal :=
  perform (.xamMin rd rs2 rs1 ord d sc) (atomicOp (.xamMin rd rs2 rs1 ord d sc) false .min rd rs2 rs1 ord d sc) s

/-- R243, R244: `xam.max`. -/
def execXamMax (rd rs2 rs1 : Reg) (ord : Order) (d : Bool) (sc : Scope) (s : State) : Host.Outcome State Fault Refusal :=
  perform (.xamMax rd rs2 rs1 ord d sc) (atomicOp (.xamMax rd rs2 rs1 ord d sc) false .max rd rs2 rs1 ord d sc) s

/-- R243, R244: `xam.minu`. -/
def execXamMinu (rd rs2 rs1 : Reg) (ord : Order) (d : Bool) (sc : Scope) (s : State) : Host.Outcome State Fault Refusal :=
  perform (.xamMinu rd rs2 rs1 ord d sc) (atomicOp (.xamMinu rd rs2 rs1 ord d sc) false .minu rd rs2 rs1 ord d sc) s

/-- R243, R244: `xam.maxu`. -/
def execXamMaxu (rd rs2 rs1 : Reg) (ord : Order) (d : Bool) (sc : Scope) (s : State) : Host.Outcome State Fault Refusal :=
  perform (.xamMaxu rd rs2 rs1 ord d sc) (atomicOp (.xamMaxu rd rs2 rs1 ord d sc) false .maxu rd rs2 rs1 ord d sc) s

/-- R243, R244: `xam.swap`. -/
def execXamSwap (rd rs2 rs1 : Reg) (ord : Order) (d : Bool) (sc : Scope) (s : State) : Host.Outcome State Fault Refusal :=
  perform (.xamSwap rd rs2 rs1 ord d sc) (atomicOp (.xamSwap rd rs2 rs1 ord d sc) false .swap rd rs2 rs1 ord d sc) s

/-- R243, R244: `xam.cas`. -/
def execXamCas (rd rs2 rs1 : Reg) (ord : Order) (d : Bool) (sc : Scope) (s : State) : Host.Outcome State Fault Refusal :=
  perform (.xamCas rd rs2 rs1 ord d sc) (casOp (.xamCas rd rs2 rs1 ord d sc) rd rs2 rs1 ord d sc) s

/-- R244: `xam.fadd`. -/
def execXamFadd (rd rs2 rs1 : Reg) (ord : Order) (sc : Scope) (s : State) : Host.Outcome State Fault Refusal :=
  perform (.xamFadd rd rs2 rs1 ord sc) (atomicOp (.xamFadd rd rs2 rs1 ord sc) false .fadd rd rs2 rs1 ord false sc) s

/-- R244: `xam.bfadd2`. -/
def execXamBfadd2 (rd rs2 rs1 : Reg) (ord : Order) (sc : Scope) (s : State) : Host.Outcome State Fault Refusal :=
  perform (.xamBfadd2 rd rs2 rs1 ord sc) (atomicOp (.xamBfadd2 rd rs2 rs1 ord sc) false .bfadd2 rd rs2 rs1 ord false sc) s

end Sys2Proof.Machine
end

