-- ==== Sys2Proof/Machine/StageQueue.lean ====
section
/-! DEFINITION. Machine/StageQueue.lean: the queue instructions (R192 to R201). -/

namespace Sys2Proof.Machine

/-- R192, R193, R201, R322: qk is a write end that is neither closed nor lent; R188 gives the tval. -/
def needWrite (k : BitVec 3) : Act Unit := do
  let s ← get
  let n := k.toNat
  trapIf (!isWriteEnd s s.cur n || isLent s s.cur n || (endOf s s.cur n).closed) 24 (word n)

/-- R194 to R196, R201, R322: qk is a read end that is not lent. -/
def needRead (k : BitVec 3) : Act Unit := do
  let s ← get
  let n := k.toNat
  trapIf (!isReadEnd s s.cur n || isLent s s.cur n) 24 (word n)

/-- R34: the head of qk, if an entry is there; the slot of a coil's head is read (R40). -/
def headOf (k : BitVec 3) : Act (Option Entry) := do
  let s ← get
  match popNeeds s s.cur k.toNat with
  | some r => stop (.hold r)
  | none => pure (offered s s.cur k.toNat).head?

/-- R40, R194 to R196: the head of qk as it stands, at the owner when the consumer reaches it by request: nothing is removed. -/
def headAt (k : BitVec 3) : Act (Option Entry) := do
  let s ← get
  match ← headOf k with
  | some e => pure (some e)
  | none => match (endOf s s.cur k.toNat).queue.bind (findQueue s) with
    | some q => match localItems q s.cur with
      | it :: _ => match slotNeeds s q it.pos .read with
        | some r => stop (.hold r)
        | none => pure (some (itemEntry s q it))
      | [] => pure none
    | none => pure none

/-- R194: the head entry of qk is removed, at the owner when the consumer reaches it by request. -/
def popHead (s : State) (a k : Nat) : Option (Entry × State) :=
  match popEnd s a k with
  | some r => some r
  | none => match (endOf s a k).queue.bind (findQueue s) with
    | some q => (takeItem q a).map fun p => (itemEntry s q p.1, setQueue (slotRead s q p.1.pos) p.2)
    | none => none

/-- R198: an inspection of the head of qk claims its bag. -/
def inspect (k : BitVec 3) : Act Unit := modify fun s =>
  match (endOf s s.cur k.toNat).queue.bind (findQueue s) with
  | some q => if (endOf s s.cur k.toNat).got.isEmpty then setQueue s (claimBag q s.cur) else s
  | none => s

/-- R97: what an acquire from qk waits for: earlier aq and ar stores of the context when qk reads a coil (R240). -/
def acquireEnd (k : BitVec 3) : Act Unit := do
  let s ← get
  let coil := match (endOf s s.cur k.toNat).queue.bind (findQueue s) with | some q => q.coil | none => false
  if coil then orderClear else pure ()

/-- The entries up to and including the first token. -/
def bagCount : List Entry → Nat
  | [] => 0
  | e :: t => if e.isToken then 1 else bagCount t + 1

/-- R197: the entries of a queue that a consumer can pop at the owner, whether or not it reaches them by request. -/
def present (s : State) (a k : Nat) : List Entry :=
  let e := endOf s a k
  e.got.map (·.entry) ++ (match e.queue.bind (findQueue s) with
    | some q => (localItems q a).map (·.entry)
    | none => [])

/-- R197: the count that `q.cnt` returns; none for an unbound end. How a copy of a token counts at a read end with BAG = 1 the manual does not say: here it
counts 1 when it has been delivered, by itself as a bag that a token ends, and nothing before (log entry 105). -/
def countEnd (s : State) (a k : Nat) : Option Nat :=
  if isWriteEnd s a k then
    (endOf s a k).queue.bind (findQueue s) |>.map fun q =>
      freeSlots s q - (if q.bag && openAppend s q a then 1 else 0)
  else if hwRead s a k then some (offered s a k).length
  else (endOf s a k).queue.bind (findQueue s) |>.map fun q =>
    if q.bag then bagCount (present s a k) else (present s a k).length

/-! Instructions -/

/-- R192: `q.tok`. -/
def execQTok (k : BitVec 3) (lvl : BitVec 3) (s : State) : Host.Outcome State Fault Refusal :=
  perform (.qTok k lvl) (do
    barrelOnly (.qTok k lvl)
    needWrite k
    pushEnd k.toNat (tokenEntry lvl.toNat)
    advance) s

/-- R197: `q.cnt`. -/
def execQCnt (rd : Reg) (k : BitVec 3) (s : State) : Host.Outcome State Fault Refusal :=
  perform (.qCnt rd k) (do
    barrelOnly (.qCnt rd k)
    let s ← get
    trapIf (isLent s s.cur k.toNat) 24 (word k.toNat)
    match countEnd s s.cur k.toNat with
    | none => trap 24 (word k.toNat)
    | some n =>
      let _ ← operands [] rd
      finishRd rd (word n)) s

/-- R195: `q.peek`. -/
def execQPeek (rd : Reg) (k : BitVec 3) (s : State) : Host.Outcome State Fault Refusal :=
  perform (.qPeek rd k) (do
    barrelOnly (.qPeek rd k)
    needRead k
    let s ← get
    match badDest s s.cur rd with
    | some j => trap 24 (word j)
    | none => match ← headAt k with
      | none => stop (.park (.look k.toNat))
      | some e =>
        let _ ← operands [] rd
        acquireEnd k
        inspect k
        finishRd rd e.payload) s

/-- R196: `q.tag`. -/
def execQTag (rd : Reg) (k : BitVec 3) (s : State) : Host.Outcome State Fault Refusal :=
  perform (.qTag rd k) (do
    barrelOnly (.qTag rd k)
    needRead k
    let _ ← operands [] rd
    match ← headAt k with
    | none => finishRd rd 16
    | some e =>
      inspect k
      finishRd rd (e.tag.setWidth 64)) s

/-- R193: `q.close`. -/
def execQClose (k : BitVec 3) (s : State) : Host.Outcome State Fault Refusal :=
  perform (.qClose k) (do
    barrelOnly (.qClose k)
    needWrite k
    pushEnd k.toNat (tokenEntry 7)
    modify fun s => setEnd s s.cur k.toNat { endOf s s.cur k.toNat with closed := true }
    advance) s

/-- R194: `q.bt`; `off` counts units of 4 bytes. -/
def execQBt (k : BitVec 3) (lvl : BitVec 3) (off : BitVec 13) (s : State) : Host.Outcome State Fault Refusal :=
  perform (.qBt k lvl off) (do
    barrelOnly (.qBt k lvl off)
    needRead k
    match ← headAt k with
    | none => stop (.park (.look k.toNat))
    | some e =>
      if e.isToken && decide (lvl.toNat ≤ e.level) then
        acquireEnd k
        modify fun s => match popHead s s.cur k.toNat with
          | some (_, s') => s'
          | none => s
        let c ← me
        jumpTo (c.pc + (off.signExtend 64 <<< 2))
      else
        inspect k
        advance) s

/-- R199, R456: the target is TRAPPED, or PARKED on `ctx.park`; a halted one is parked on another condition. -/
def rebindable (c : Ctx) : Bool := c.halted.isNone && (c.status == .trapped || c.status == .parked .self)

/-- R199: the status of a bind whose descriptor has been read, after status 1, 2 and 6; 0 when it can be made. -/
def bindStatus (s : State) (t : Nat) (write : Bool) (r : LRec) (nqueue idx : Nat) (d : QDesc) : Nat :=
  let c := getCtx s t
  let live := liveQueue s t c.space r.w0 (fieldOf r.w5 48 16) idx d.coil
  let opposite := match live with
    | some q => c.ends.toList.any fun e => e.queue == some q.id && e.write != write
    | none => false
  let outside := match live with | some q => q.coil && !coilAdmits q t | none => false
  if nqueue ≤ idx then 3
  else if opposite then 5
  else if outside then 7
  else if !d.coil && live.isNone && decide (Config.queueRam < ramUsed s (coreOf t) + 2 ^ d.lgd) then 4
  else 0

/-- R199: `q.bind` on a target that can be bound: the status, and the bind. R199 gives no status for a queue-table entry that R33 refuses at
`ctx.start` (a reserved field, CSCOPE = 3, LGD out of range): here it is bound (log entry 93). -/
def bindTarget (t k idx : Nat) (write : Bool) : Act Nat := fun s =>
  let c := getCtx s t
  match c.record with
  | none => .ok (1, s)
  | some r => match readHdr s (actorOf s t) r.w0 with
    | .wait q => .error (.hold q)
    | .fail => .ok (6, s)
    | .ok h s1 =>
      if h.nqueue ≤ idx then .ok (3, s)
      else match readQDesc s1 (actorOf s1 t) h idx with
        | .wait q => .error (.hold q)
        | .fail => .ok (6, s)
        | .ok d s2 => match bindStatus s2 t write r h.nqueue idx d with
          | 0 => .ok (0, dropUio (bindEnd s2 t k write c.space r.w0 (fieldOf r.w5 48 16) idx d))
          | n => .ok (n, s)

/-- R199: `q.bind`. -/
def execQBind (rd rs1 rs2 : Reg) (s : State) : Host.Outcome State Fault Refusal :=
  perform (.qBind rd rs1 rs2) (do
    contextZeroOnly (.qBind rd rs1 rs2)
    let (a, b) ← operand2 rs1 rs2 rd
    trapIf (fieldOf a 0 4 == 0) 26 a
    let s ← get
    let t := agentOf (coreOf s.cur) (fieldOf a 0 4)
    let k := fieldOf a 4 3
    let st ← (if !rebindable (getCtx s t) then pure 1
      else if isBound s t k then pure 2
      else bindTarget t k (fieldOf b 0 8) (bitOf a 7))
    finishRd rd (word st)) s

/-- R200: `q.unbind`. -/
def execQUnbind (rd rs1 : Reg) (s : State) : Host.Outcome State Fault Refusal :=
  perform (.qUnbind rd rs1) (do
    contextZeroOnly (.qUnbind rd rs1)
    let a ← operand1 rs1 rd
    trapIf (fieldOf a 0 4 == 0) 26 a
    let s ← get
    let t := agentOf (coreOf s.cur) (fieldOf a 0 4)
    let k := fieldOf a 4 3
    let st : Nat := if !rebindable (getCtx s t) then 1 else if !isBound s t k then 2 else 0
    if st = 0 then modify fun s => unbindEnd s t k else pure ()
    finishRd rd (word st)) s

end Sys2Proof.Machine
end

