-- ==== Sys2Proof/Machine/StageCtx.lean ====
section
/-! DEFINITION. Machine/StageCtx.lean: the context and event instructions (R202 to R213). -/

namespace Sys2Proof.Machine

/-! Starting a context -/

/-- R77: carve-outs (base, top) in falling order of their tops. -/
def insertCarve (x : Nat × Nat) : List (Nat × Nat) → List (Nat × Nat)
  | [] => [x]
  | y :: t => if y.2 < x.2 then x :: y :: t else y :: insertCarve x t

/-- R77: the live carve-outs of a core, highest first. -/
def carveOuts (s : State) (core : Nat) : List (Nat × Nat) :=
  (liveCtxs s core).foldl (fun l e => if e.2.cbase < e.2.ctop then insertCarve (e.2.cbase, e.2.ctop) l else l) []

/-- R77: the top of the highest free run of at least `need` units below `top`. -/
def highestRun (need : Nat) : Nat → List (Nat × Nat) → Option Nat
  | top, [] => if need ≤ top then some top else none
  | top, (b, t) :: l => if t + need ≤ top then some top else highestRun need b l

/-- R77: CTOP for a carve-out of `spill` units. -/
def carveTop (s : State) (core spill : Nat) : Option Nat :=
  let live := carveOuts s core
  if spill = 0 then some ((highestRun 1 256 live).getD ((live.getLast?.map (·.1)).getD 0))
  else highestRun spill 256 live

/-- R203: the lowest FREE context of a core. -/
def freeCtx (s : State) (core : Nat) : Option Nat :=
  ((List.range 15).map (· + 1)).find? fun n => (getCtx s (agentOf core n)).status == .free

/-- R257: vector rows of a core that no context holds. -/
def freeRows (s : State) (core : Nat) : Nat := 1024 - (liveCtxs s core).foldl (fun n e => n + e.2.vec.vrows) 0

/-- An end that a stage binds: its number, its queue-table index, its direction, and the queue-table entry if the index is in
the table. -/
structure EndPlan where
  k : Nat
  idx : Nat
  write : Bool
  desc : Option QDesc
  deriving DecidableEq, Repr

/-- All that a start needs. -/
structure StartPlan where
  slot : LSlot
  ctx : Nat
  ctop : Nat
  hdr : PDescHdr
  entry : List Word
  ends : List EndPlan
  deriving DecidableEq, Repr

/-- How the checks of a start end. -/
inductive Startable where
  | status (n : Nat)
  | wait (reqs : List Req)
  | ok (p : StartPlan) (s : State)

/-- R31: the ends that a stage table entry binds. -/
def boundEnds (e : List Word) : List (Nat × Nat × Bool) :=
  (List.range 8).filterMap fun k =>
    let idx := fieldOf (e.getD 1 0) (8 * k) 8
    if idx = 255 then none else some (k, idx, bitOf (e.getD 2 0) k)

/-- R203: the queue table entries that a stage binds are read. -/
def readEnds (w : Actor) (h : PDescHdr) : List (Nat × Nat × Bool) → State → Fetched (List EndPlan)
  | [], s => .ok [] s
  | (k, idx, wr) :: t, s =>
    if h.nqueue ≤ idx then
      match readEnds w h t s with
      | .ok l s' => .ok (⟨k, idx, wr, none⟩ :: l) s'
      | .fail => .fail
      | .wait q => .wait q
    else match readQDesc s w h idx with
      | .fail => .fail
      | .wait q => .wait q
      | .ok d s1 => match readEnds w h t s1 with
        | .ok l s' => .ok (⟨k, idx, wr, some d⟩ :: l) s'
        | .fail => .fail
        | .wait q => .wait q

/-- R31: reserved fields of a stage table entry. -/
def stageReserved (e : List Word) : Bool :=
  fieldOf (e.getD 2 0) 9 7 != 0 || fieldOf (e.getD 2 0) 56 8 != 0 || e.getD 3 0 != 0

/-- R33: the checks of status 0x16 that need the tables. -/
def stageOk (s : State) (a : Nat) (r : LRec) (h : PDescHdr) (e : List Word) (ends : List EndPlan) : Bool :=
  let repl := bitOf (e.getD 2 0) 8
  !h.reserved && !stageReserved e && ends.all fun x => match x.desc with
    | none => false
    | some d =>
      d.ok && !(repl && !d.coil) && !(d.coil && repl && !x.write && d.cscope != 0) &&
      (match liveQueue s a r.space r.w0 r.inst x.idx d.coil with | some q => !q.coil || coilAdmits q a | none => true)

/-- R28, R39: the queue RAM holds the near queues to be made live. -/
def ramFits (s : State) (a : Nat) (r : LRec) (ends : List EndPlan) : Bool :=
  let fresh := dedup ((ends.filter fun x => match x.desc with
    | some d => !d.coil && (liveQueue s a r.space r.w0 r.inst x.idx false).isNone
    | none => false).map fun x => (x.idx, match x.desc with | some d => 2 ^ d.lgd | none => 0))
  decide (ramUsed s (coreOf a) + fresh.foldl (fun n p => n + p.2) 0 ≤ Config.queueRam)

/-- R203: the checks that read the descriptor, in their order. -/
def startRead (s : State) (a : Nat) (x : LSlot) (ctx ctop : Nat) : Startable :=
  let r := x.record
  let w : Actor := { agent := a, space := r.space, sup := false, inst := (r.space, r.inst) }
  match readHdr s w r.w0 with
  | .fail => .status 0x14
  | .wait q => .wait q
  | .ok h s1 =>
    if h.nstage ≤ r.stageNo then .status 0x13
    else if h.stages.toNat % 32 ≠ 0 then .status 0x16
    else match descWords s1 w (h.stages + word (32 * r.stageNo)) 32 with
      | .fail => .status 0x14
      | .wait q => .wait q
      | .ok e s2 =>
        if h.queues.toNat % 16 ≠ 0 then .status 0x16
        else match readEnds w h (boundEnds e) s2 with
          | .fail => .status 0x14
          | .wait q => .wait q
          | .ok ends s3 =>
            if !stageOk s3 a r h e ends then .status 0x16
            else if !ramFits s3 a r ends then .status 0x15
            else .ok ⟨x, ctx, ctop, h, e, ends⟩ (dropUio s3)

/-- R203: the checks of `ctx.start`, in the order of its table. -/
def startCheck (s : State) (handle : Word) : Startable :=
  let core := coreOf s.cur
  match handleSlot s core handle with
  | none => .status 0x17
  | some x =>
    if heldInst s (partOf s s.cur) x.record.space x.record.inst then .status 0x18
    else match freeCtx s core with
      | none => .status 0x10
      | some n =>
        if freeRows s core < x.record.vrows then .status 0x11
        else match carveTop s core x.record.spill with
          | none => .status 0x12
          | some top => startRead s (agentOf core n) x n top

/-- R27: the state of a context that starts. -/
def startedCtx (s : State) (a : Nat) (p : StartPlan) (born : Nat) (stage : Option (Nat × Nat)) : Ctx :=
  let r := p.slot.record
  let sp := word (windowBase s a + coreOf a % 256 * 65536 + p.ctop * 256)
  { status := .ready
    space := r.space
    pc := p.entry.getD 0 0
    x := (((Vector.replicate 32 0).set 10 r.w1).set 11 r.w2).set 2 sp
    ucsr := { spovf := r.w3 &&& ~~~(15 : Word), vseed := BitVec.ofNat 32 (a + 1) }
    vec := { vrows := r.vrows, rows := min 8 (r.vrows / 16), len := 64 }
    winRev := p.hdr.lrev
    record := some r
    stage := stage
    born := born
    cbase := p.ctop - r.spill
    ctop := p.ctop }

/-- R203: a start of a replicable stage leaves a copy of its record with the balancer of its cluster. -/
def newStage (s : State) (a : Nat) (p : StartPlan) : Option (Nat × Nat) × State :=
  let r := p.slot.record
  let w2 := p.entry.getD 2 0
  if bitOf w2 8 && r.kind != 2 then
    let (id, s) := takeId s
    let inq := fieldOf w2 16 8
    let inst : StageInst :=
      { record := r, part := partOf s a, inq := if inq < p.hdr.nqueue then some inq else none, hwm := fieldOf w2 24 16,
        dwell := fieldOf w2 40 16 * 64, started := s.clock, live := 0, since := none }
    (some (clusterOf a, id), modCluster s (clusterOf a) fun k => { k with stages := tset k.stages id inst })
  else (p.slot.stage, s)

/-- R27, R203: a context starts from a record. -/
def startCtx (s : State) (p : StartPlan) : State :=
  let a := agentOf (coreOf s.cur) p.ctx
  let r := p.slot.record
  let s := dropSlot s (clusterOf a) p.slot.slot
  let (stage, s) := newStage s a p
  let (born, s) := takeId s
  let s := setCtx s a (startedCtx s a p born stage)
  p.ends.foldl (fun s x => match x.desc with
    | some d => bindEnd s a x.k x.write r.space r.w0 r.inst x.idx d
    | none => s) s

/-! Context instructions -/

/-- R203: `ctx.start`. -/
def execCtxStart (rd rs1 : Reg) (s : State) : Host.Outcome State Fault Refusal :=
  perform (.ctxStart rd rs1) (do
    contextZeroOnly (.ctxStart rd rs1)
    let h ← operand1 rs1 rd
    let s ← get
    match startCheck s h with
    | .wait q => stop (.hold q)
    | .status n => finishRd rd (word n)
    | .ok p s' =>
      set (startCtx s' p)
      finishRd rd (word p.ctx)) s

/-- R204: the target of a reap that is not FREE: it ends when it can, and context 0 waits until then. `s0`: the state before
the instruction. -/
def reapCtx (s0 : State) (t : Nat) (code : BitVec 8) : Act Unit := fun s =>
  if !endable s t then
    .error (.parkWith (modCtx s0 t fun c => { c with stopping := some code }) (.reap (ctxNo t)))
  else match pugNeeds s t with
    | [] => .ok ((), endContext s t code)
    | q => .error (.hold q)

/-- R204: `ctx.reap`. With bits of rs1[63:17] set R204 gives no effect, and R189 a cause 26 for target 0: here no effect goes first, also where
the target is 0 (log entry 89). -/
def execCtxReap (rs1 rs2 : Reg) (s : State) : Host.Outcome State Fault Refusal :=
  perform (.ctxReap rs1 rs2) (do
    contextZeroOnly (.ctxReap rs1 rs2)
    let (a, b) ← operand2 rs1 rs2 none
    let now ← get
    let t := agentOf (coreOf now.cur) (fieldOf a 0 4)
    if fieldOf a 17 47 ≠ 0 then pure ()
    else if bitOf a 16 then
      match handleSlot now (coreOf now.cur) (word (fieldOf a 0 16)) with
      | some x => set (abandon now now.cur x)
      | none => pure ()
    else if fieldOf a 0 4 = 0 then trap 26 a
    else if (getCtx now t).status = .free then pure ()
    else reapCtx s t (BitVec.ofNat 8 (fieldOf b 0 8))
    advance) s

/-- R265: the pace of the producers of a TRAPPED context that goes on: an instruction that trapped and that its saved pc has moved on from stands between
them and what follows. -/
def resumedPace (c : Ctx) : List Producer :=
  match c.trapRec with
  | none => c.vec.pace
  | some r =>
    if r.w1 = c.pc ∨ fieldOf r.w3 0 32 = 0 then c.vec.pace
    else match decode32 (fieldOf r.w3 0 32) with
      | .ok i => agePace (issueCost c (footOf i)) c.vec.pace
      | .error _ => agePace 4 c.vec.pace

/-- R206, R456: `ctx.resume` on its target; a `ctx.park` completes. A halted context counts as parked on another condition. -/
def resumeCtx (c : Ctx) : Ctx :=
  if c.halted.isSome then c else
  match c.status with
  | .trapped => { c with status := .ready, trapRec := none, vec := { c.vec with pace := resumedPace c } }
  | .parked .self => { c with
      status := .ready
      pc := c.pc + 4
      ucsr := { c.ucsr with instret := c.ucsr.instret + 1 }
      vec := { c.vec with pace := agedPace .ctxPark c } }
  | .ready => { c with wake := true }
  | _ => c

/-- R206: `ctx.resume`. -/
def execCtxResume (rs1 : Reg) (s : State) : Host.Outcome State Fault Refusal :=
  perform (.ctxResume rs1) (do
    contextZeroOnly (.ctxResume rs1)
    let a ← operand1 rs1 none
    trapIf (fieldOf a 0 4 == 0) 26 a
    release .core
    modify fun s =>
      let t := agentOf (coreOf s.cur) (fieldOf a 0 4)
      if (getCtx s t).status = .free then s else modCtx s t resumeCtx
    advance) s

/-- R207: `ctx.park`. -/
def execCtxPark (s : State) : Host.Outcome State Fault Refusal :=
  perform .ctxPark (do
    barrelOnly .ctxPark
    let s ← get
    let c ← me
    if ctxNo s.cur = 0 then
      let k := getCore s (coreOf s.cur)
      parkUnless (!k.handles.isEmpty || !k.trapQ.isEmpty) .self
    else if c.wake then modMe fun c => { c with wake := false }
    else stop (.park .self)
    advance) s

/-- R208: `ctx.exit`. -/
def execCtxExit (s : State) : Host.Outcome State Fault Refusal :=
  perform .ctxExit (do
    barrelOnly .ctxExit
    let s ← get
    trapIf (ctxNo s.cur == 0) 2 (iword .ctxExit)
    if endable s s.cur then pure () else stop (.hold (visibleReqs s))
    match pugNeeds s s.cur with
    | [] => set (endContext s s.cur 0)
    | q => stop (.hold q)) s

/-- R209: the identity word of an agent. -/
def identity (s : State) (a : Nat) : Word :=
  let c := getCtx s a
  let sup := if c.sup then 2 ^ 17 else 0
  if isHub a then word (a - Config.contexts + sup + 2 ^ 63)
  else match c.record with
    | some r => word (a + sup + r.prio * 2 ^ 18 + r.draw * 2 ^ 21 + r.stageNo * 2 ^ 27 + r.kind * 2 ^ 35 + r.inst * 2 ^ 37)
    | none => word (a + sup)

/-- R209: `ctx.self`. -/
def execCtxSelf (rd : Reg) (s : State) : Host.Outcome State Fault Refusal :=
  perform (.ctxSelf rd) (do
    let _ ← operands [] rd
    let s ← get
    finishRd rd (identity s s.cur)) s

/-! Event instructions -/

/-- R211: the context whose event bits an operand names. -/
def eventTarget (v : Word) : Act Nat := do
  let s ← get
  if bitOf v 4 then
    trapIf (ctxNo s.cur != 0 && fieldOf v 0 4 != ctxNo s.cur) 26 v
    pure (agentOf (coreOf s.cur) (fieldOf v 0 4))
  else pure s.cur

/-- R213: the event bits that an instruction of a cycle sees: without what engines set in that cycle. -/
def seenEv (c : Ctx) (now : Nat) : BitVec 256 := if c.evCycle = some now then c.evSeen else c.ev

/-- A bit of a set of event bits, set or cleared. -/
def putBit (e : BitVec 256) (i : Nat) (v : Bool) : BitVec 256 := if v then e ||| ((1 : BitVec 256) <<< i) else e &&& ~~~((1 : BitVec 256) <<< i)

/-- R54, R213: a context's event bits with bit `i` set or cleared by an instruction in a cycle; what an engine sets in that cycle comes after it. -/
def eventBit (c : Ctx) (i : Nat) (v : Bool) (now : Nat) : Ctx :=
  let late := if c.evCycle = some now then c.evEngine else 0
  if c.status = .free then c
  else { c with ev := putBit c.ev i v ||| late, evSeen := putBit c.evSeen i v }

/-- R54, R213: an engine sets bit `i` of a context's event bits in a cycle. -/
def engineEvent (c : Ctx) (i now : Nat) : Ctx :=
  let b := (1 : BitVec 256) <<< i
  if c.status = .free then c
  else { c with
    ev := c.ev ||| b
    evEngine := if c.evCycle = some now then c.evEngine ||| b else b
    evSeen := seenEv c now
    evCycle := some now }

/-- R211: `ev.set` and `ev.clr`. -/
def eventOp (rs1 rs2 : Reg) (v : Bool) : Act Unit := do
  let (a, b) ← operand2 rs1 rs2 none
  let t ← eventTarget b
  let s ← get
  if v && t != s.cur then release .core else pure ()
  if (getCtx s t).status = .free then pure () else modify fun s => modCtx s t fun c => eventBit c (fieldOf a 0 8) v s.clock
  advance

/-- R211: `ev.set`. -/
def execEvSet (rs1 rs2 : Reg) (s : State) : Host.Outcome State Fault Refusal :=
  perform (.evSet rs1 rs2) (do
    barrelOnly (.evSet rs1 rs2)
    eventOp rs1 rs2 true) s

/-- R211: `ev.clr`. -/
def execEvClr (rs1 rs2 : Reg) (s : State) : Host.Outcome State Fault Refusal :=
  perform (.evClr rs1 rs2) (do
    barrelOnly (.evClr rs1 rs2)
    eventOp rs1 rs2 false) s

/-- R212: parks until all bits of a set are 1. -/
def awaitBits (bits : BitVec 256) : Act Unit := do
  let c ← me
  let s ← get
  parkUnless (seenEv c s.clock &&& bits == bits) (.event bits)
  advance

/-- R212: `ev.wait`. -/
def execEvWait (rs1 : Reg) (s : State) : Host.Outcome State Fault Refusal :=
  perform (.evWait rs1) (do
    barrelOnly (.evWait rs1)
    let a ← operand1 rs1 none
    awaitBits ((1 : BitVec 256) <<< fieldOf a 0 8)) s

/-- R212: `ev.waitm`. -/
def execEvWaitm (rs1 rs2 : Reg) (s : State) : Host.Outcome State Fault Refusal :=
  perform (.evWaitm rs1 rs2) (do
    barrelOnly (.evWaitm rs1 rs2)
    let (a, b) ← operand2 rs1 rs2 none
    awaitBits (b.setWidth 256 <<< (64 * fieldOf a 0 2))) s

/-- R211: `ev.rd`. -/
def execEvRd (rd rs1 rs2 : Reg) (s : State) : Host.Outcome State Fault Refusal :=
  perform (.evRd rd rs1 rs2) (do
    barrelOnly (.evRd rd rs1 rs2)
    let (a, b) ← operand2 rs1 rs2 rd
    let t ← eventTarget b
    let s ← get
    let c := getCtx s t
    finishRd rd (wordOfBool (c.status != .free && (seenEv c s.clock).getLsbD (fieldOf a 0 8)))) s

end Sys2Proof.Machine
end

