-- ==== Sys2Proof/Machine/ConeInstr.lean ====
section
/-! DEFINITION. Machine/ConeInstr.lean: the cone instructions (R214 to R219). -/

namespace Sys2Proof.Machine

/-- A cone name: bits 16 to 0 of an operand. -/
def nameOf (v : Word) : Nat := fieldOf v 0 17

/-- R214: the cluster of the name is one of the device and is not offline. -/
def coneThere (name : Nat) : Act Unit := do
  let s ← get
  trapIf (partOf s s.cur != partOfCluster s (coneCluster name)) 31 (word name)
  trapIf (!clusterOnline s (coneCluster name)) 30 (word name)

/-- A reply of a cone. -/
def coneAnswer (name : Nat) : Reply → Act Word
  | .value v => pure v
  | .trap cause tv => trap cause tv
  | .offline => trap 30 (word name)

/-- R24, R57, R232: an operation at a cone by message: the context parks for the reply, which completes the instruction. -/
def coneAsk (name : Nat) (op : ConeOp) (rel : Bool) : Act Word := do
  let c ← me
  match c.reply with
  | some r =>
    modMe fun c => { c with reply := none, sent := none, claim := none }
    coneAnswer name r
  | none =>
    coneThere name
    let s ← get
    if rel then release (coneScope (getCone s name)) else pure ()
    stop (.send (.cone name op) (some .coneReply))

/-- R216: the arrival that an operand describes. -/
def arrivalOp (v : Word) (drop : Bool) : ConeOp := .arrive (fieldOf v 0 16) (BitVec.ofNat 8 (fieldOf v 16 8)) drop

/-- R215: `cn.init`. -/
def execCnInit (rs1 rs2 : Reg) (s : State) : Host.Outcome State Fault Refusal :=
  perform (.cnInit rs1 rs2) (do
    let (a, b) ← operand2 rs1 rs2 none
    let s ← get
    let c ← me
    if c.reply.isNone then
      coneThere (nameOf a)
      trapIf (decide (4 ≤ fieldOf b 16 3) || (isHub s.cur && fieldOf b 16 3 == 0)) 31 b
    else pure ()
    let _ ← coneAsk (nameOf a) (.init (fieldOf b 0 16) (fieldOf b 16 3) (fieldOf b 19 16)) false
    advance) s

/-- R216: `cn.arrive`. -/
def execCnArrive (rs1 rs2 : Reg) (s : State) : Host.Outcome State Fault Refusal :=
  perform (.cnArrive rs1 rs2) (do
    let (a, b) ← operand2 rs1 rs2 none
    let _ ← coneAsk (nameOf a) (arrivalOp b false) true
    advance) s

/-- R216: `cn.drop`. -/
def execCnDrop (rs1 rs2 : Reg) (s : State) : Host.Outcome State Fault Refusal :=
  perform (.cnDrop rs1 rs2) (do
    let (a, b) ← operand2 rs1 rs2 none
    let _ ← coneAsk (nameOf a) (arrivalOp b true) true
    advance) s

/-- R217: `cn.join`. -/
def execCnJoin (rd rs1 : Reg) (s : State) : Host.Outcome State Fault Refusal :=
  perform (.cnJoin rd rs1) (do
    let a ← operand1 rs1 rd
    let v ← coneAsk (nameOf a) .join false
    finishRd rd v) s

/-- R59, R218: the ERR with which a cone of the own cluster releases a waiter. -/
def coneWait (name v : Nat) : Act Word := do
  coneThere name
  let s ← get
  let c := getCone s name
  trapIf (!inScope s s.cur name c) 31 (word name)
  parkUnless (phasePassed c v) (.cone name v)
  pure (c.err.setWidth 64)

/-- R191, R218: the same at a cone of another cluster, whose release comes by message. -/
def coneWaitFar (name v : Nat) : Act Word := do
  let c ← me
  match c.reply with
  | some r =>
    modMe fun c => { c with reply := none, sent := none, claim := none }
    let w ← coneAnswer name r
    pure (w &&& 0xFF)
  | none =>
    coneThere name
    stop (.send (.cone name (.wait v)) (some fun _ => .cone name v))

/-- R59, R218: `cn.wait`. -/
def execCnWait (rd rs1 rs2 : Reg) (s : State) : Host.Outcome State Fault Refusal :=
  perform (.cnWait rd rs1 rs2) (do
    let (a, b) ← operand2 rs1 rs2 rd
    let s ← get
    let wait := if clusterOf s.cur = coneCluster (nameOf a) then coneWait else coneWaitFar
    let v ← wait (nameOf a) (fieldOf b 0 16)
    orderClear
    finishRd rd v) s

/-- R59, R218: `cn.try`. -/
def execCnTry (rd rs1 rs2 : Reg) (s : State) : Host.Outcome State Fault Refusal :=
  perform (.cnTry rd rs1 rs2) (do
    let (a, b) ← operand2 rs1 rs2 rd
    let v ← coneAsk (nameOf a) (.test (fieldOf b 0 16)) false
    finishRd rd v) s

/-- R219: `cn.stat`. -/
def execCnStat (rd rs1 : Reg) (s : State) : Host.Outcome State Fault Refusal :=
  perform (.cnStat rd rs1) (do
    let a ← operand1 rs1 rd
    let v ← coneAsk (nameOf a) .stat false
    finishRd rd v) s

end Sys2Proof.Machine
end

