-- ==== Sys2Proof/Machine/Scalar.lean ====
section
/-! DEFINITION. Machine/Scalar.lean: integer arithmetic, branches and jumps (R133, R166 to R168). -/

namespace Sys2Proof.Machine

/-! Shared operations -/

/-- R167: a result of two register operands. -/
def aluR (rd rs1 rs2 : Reg) (f : Word → Word → Word) : Act Unit := do
  let (a, b) ← operand2 rs1 rs2 rd
  finishRd rd (f a b)

/-- R167: a result of one register operand. -/
def aluI (rd rs1 : Reg) (f : Word → Word) : Act Unit := do
  let a ← operand1 rs1 rd
  finishRd rd (f a)

/-- A result without register operands. -/
def aluC (rd : Reg) (f : Word → Word) : Act Unit := do
  let _ ← operands [] rd
  let c ← me
  finishRd rd (f c.pc)

/-- R167: a W form: the low 32 bits of a result, sign-extended. -/
def w32 (v : Word) : Word := (v.setWidth 32).signExtend 64

/-- The low 32 bits of an operand. -/
def low32 (v : Word) : BitVec 32 := v.setWidth 32

/-- R168: the signed quotient. -/
def divS {n : Nat} (a b : BitVec n) : BitVec n := if b = 0 then BitVec.allOnes n else a.sdiv b
/-- R168: the unsigned quotient. -/
def divU {n : Nat} (a b : BitVec n) : BitVec n := if b = 0 then BitVec.allOnes n else a / b
/-- R168: the signed remainder. -/
def remS {n : Nat} (a b : BitVec n) : BitVec n := if b = 0 then a else a.srem b
/-- R168: the unsigned remainder. -/
def remU {n : Nat} (a b : BitVec n) : BitVec n := if b = 0 then a else a % b

/-- The high half of a product of two integers. -/
def highHalf (a b : Int) : Word := BitVec.ofInt 64 (a * b / 2 ^ 64)

/-- R133: a jump or taken branch to a target. -/
def goTo (target : Word) : Act Unit := do
  trapIf (target.toNat % 4 != 0) 0 target
  jumpTo target

/-- R167: a branch; its offset counts units of 2 bytes. -/
def branch (rs1 rs2 : Reg) (off : BitVec 12) (taken : Word → Word → Bool) : Act Unit := do
  let (a, b) ← operand2 rs1 rs2 none
  let c ← me
  if taken a b then goTo (c.pc + (off.signExtend 64 <<< 1)) else advance

/-- A link: rd receives the address of the next instruction, then the jump is made. -/
def link (rd : Reg) (target : Word) : Act Unit := do
  trapIf (target.toNat % 4 != 0) 0 target
  let c ← me
  writeRd rd (c.pc + 4)
  jumpTo target

/-! Instructions -/

/-- R167: `beq`. -/
def execBeq (rs1 rs2 : Reg) (off : BitVec 12) (s : State) : Host.Outcome State Fault Refusal :=
  perform (.beq rs1 rs2 off) (branch rs1 rs2 off (fun a b => a == b)) s

/-- R167: `bne`. -/
def execBne (rs1 rs2 : Reg) (off : BitVec 12) (s : State) : Host.Outcome State Fault Refusal :=
  perform (.bne rs1 rs2 off) (branch rs1 rs2 off (fun a b => a != b)) s

/-- R167: `blt`, signed. -/
def execBlt (rs1 rs2 : Reg) (off : BitVec 12) (s : State) : Host.Outcome State Fault Refusal :=
  perform (.blt rs1 rs2 off) (branch rs1 rs2 off (fun a b => a.slt b)) s

/-- R167: `bge`, signed. -/
def execBge (rs1 rs2 : Reg) (off : BitVec 12) (s : State) : Host.Outcome State Fault Refusal :=
  perform (.bge rs1 rs2 off) (branch rs1 rs2 off (fun a b => !a.slt b)) s

/-- R167: `bltu`, unsigned. -/
def execBltu (rs1 rs2 : Reg) (off : BitVec 12) (s : State) : Host.Outcome State Fault Refusal :=
  perform (.bltu rs1 rs2 off) (branch rs1 rs2 off (fun a b => a.ult b)) s

/-- R167: `bgeu`, unsigned. -/
def execBgeu (rs1 rs2 : Reg) (off : BitVec 12) (s : State) : Host.Outcome State Fault Refusal :=
  perform (.bgeu rs1 rs2 off) (branch rs1 rs2 off (fun a b => !a.ult b)) s

/-- R167: `jal`; the offset counts units of 2 bytes. -/
def execJal (rd : Reg) (off : BitVec 20) (s : State) : Host.Outcome State Fault Refusal :=
  perform (.jal rd off) (do
    let _ ← operands [] rd
    let c ← me
    link rd (c.pc + (off.signExtend 64 <<< 1))) s

/-- R167: `jalr`; bit 0 of the target is cleared. -/
def execJalr (rd rs1 : Reg) (imm : BitVec 12) (s : State) : Host.Outcome State Fault Refusal :=
  perform (.jalr rd rs1 imm) (do
    let a ← operand1 rs1 rd
    link rd ((a + imm.signExtend 64) &&& ~~~(1 : Word))) s

/-- R167: `lui`. -/
def execLui (rd : Reg) (imm : BitVec 20) (s : State) : Host.Outcome State Fault Refusal :=
  perform (.lui rd imm) (aluC rd fun _ => (imm ++ (0 : BitVec 12)).signExtend 64) s

/-- R167: `auipc`. -/
def execAuipc (rd : Reg) (imm : BitVec 20) (s : State) : Host.Outcome State Fault Refusal :=
  perform (.auipc rd imm) (aluC rd fun pc => pc + (imm ++ (0 : BitVec 12)).signExtend 64) s

/-- R167: `addi`. -/
def execAddi (rd rs1 : Reg) (imm : BitVec 12) (s : State) : Host.Outcome State Fault Refusal :=
  perform (.addi rd rs1 imm) (aluI rd rs1 fun a => a + imm.signExtend 64) s

/-- R167: `slti`. -/
def execSlti (rd rs1 : Reg) (imm : BitVec 12) (s : State) : Host.Outcome State Fault Refusal :=
  perform (.slti rd rs1 imm) (aluI rd rs1 fun a => wordOfBool (a.slt (imm.signExtend 64))) s

/-- R167: `sltiu`. -/
def execSltiu (rd rs1 : Reg) (imm : BitVec 12) (s : State) : Host.Outcome State Fault Refusal :=
  perform (.sltiu rd rs1 imm) (aluI rd rs1 fun a => wordOfBool (a.ult (imm.signExtend 64))) s

/-- R167: `xori`. -/
def execXori (rd rs1 : Reg) (imm : BitVec 12) (s : State) : Host.Outcome State Fault Refusal :=
  perform (.xori rd rs1 imm) (aluI rd rs1 fun a => a ^^^ imm.signExtend 64) s

/-- R167: `ori`. -/
def execOri (rd rs1 : Reg) (imm : BitVec 12) (s : State) : Host.Outcome State Fault Refusal :=
  perform (.ori rd rs1 imm) (aluI rd rs1 fun a => a ||| imm.signExtend 64) s

/-- R167: `andi`. -/
def execAndi (rd rs1 : Reg) (imm : BitVec 12) (s : State) : Host.Outcome State Fault Refusal :=
  perform (.andi rd rs1 imm) (aluI rd rs1 fun a => a &&& imm.signExtend 64) s

/-- R167: `slli`. -/
def execSlli (rd rs1 : Reg) (sh : BitVec 6) (s : State) : Host.Outcome State Fault Refusal :=
  perform (.slli rd rs1 sh) (aluI rd rs1 fun a => a <<< sh.toNat) s

/-- R167: `srli`. -/
def execSrli (rd rs1 : Reg) (sh : BitVec 6) (s : State) : Host.Outcome State Fault Refusal :=
  perform (.srli rd rs1 sh) (aluI rd rs1 fun a => a >>> sh.toNat) s

/-- R167: `srai`. -/
def execSrai (rd rs1 : Reg) (sh : BitVec 6) (s : State) : Host.Outcome State Fault Refusal :=
  perform (.srai rd rs1 sh) (aluI rd rs1 fun a => a.sshiftRight sh.toNat) s

/-- R167: `addiw`. -/
def execAddiw (rd rs1 : Reg) (imm : BitVec 12) (s : State) : Host.Outcome State Fault Refusal :=
  perform (.addiw rd rs1 imm) (aluI rd rs1 fun a => w32 (a + imm.signExtend 64)) s

/-- R167: `slliw`. -/
def execSlliw (rd rs1 : Reg) (sh : BitVec 5) (s : State) : Host.Outcome State Fault Refusal :=
  perform (.slliw rd rs1 sh) (aluI rd rs1 fun a => (low32 a <<< sh.toNat).signExtend 64) s

/-- R167: `srliw`. -/
def execSrliw (rd rs1 : Reg) (sh : BitVec 5) (s : State) : Host.Outcome State Fault Refusal :=
  perform (.srliw rd rs1 sh) (aluI rd rs1 fun a => (low32 a >>> sh.toNat).signExtend 64) s

/-- R167: `sraiw`. -/
def execSraiw (rd rs1 : Reg) (sh : BitVec 5) (s : State) : Host.Outcome State Fault Refusal :=
  perform (.sraiw rd rs1 sh) (aluI rd rs1 fun a => ((low32 a).sshiftRight sh.toNat).signExtend 64) s

/-- R167: `add`. -/
def execAdd (rd rs1 rs2 : Reg) (s : State) : Host.Outcome State Fault Refusal :=
  perform (.add rd rs1 rs2) (aluR rd rs1 rs2 fun a b => a + b) s

/-- R167: `sub`. -/
def execSub (rd rs1 rs2 : Reg) (s : State) : Host.Outcome State Fault Refusal :=
  perform (.sub rd rs1 rs2) (aluR rd rs1 rs2 fun a b => a - b) s

/-- R167: `sll`. -/
def execSll (rd rs1 rs2 : Reg) (s : State) : Host.Outcome State Fault Refusal :=
  perform (.sll rd rs1 rs2) (aluR rd rs1 rs2 fun a b => a <<< (b.toNat % 64)) s

/-- R167: `slt`. -/
def execSlt (rd rs1 rs2 : Reg) (s : State) : Host.Outcome State Fault Refusal :=
  perform (.slt rd rs1 rs2) (aluR rd rs1 rs2 fun a b => wordOfBool (a.slt b)) s

/-- R167: `sltu`. -/
def execSltu (rd rs1 rs2 : Reg) (s : State) : Host.Outcome State Fault Refusal :=
  perform (.sltu rd rs1 rs2) (aluR rd rs1 rs2 fun a b => wordOfBool (a.ult b)) s

/-- R167: `xor`. -/
def execXor (rd rs1 rs2 : Reg) (s : State) : Host.Outcome State Fault Refusal :=
  perform (.xor rd rs1 rs2) (aluR rd rs1 rs2 fun a b => a ^^^ b) s

/-- R167: `srl`. -/
def execSrl (rd rs1 rs2 : Reg) (s : State) : Host.Outcome State Fault Refusal :=
  perform (.srl rd rs1 rs2) (aluR rd rs1 rs2 fun a b => a >>> (b.toNat % 64)) s

/-- R167: `sra`. -/
def execSra (rd rs1 rs2 : Reg) (s : State) : Host.Outcome State Fault Refusal :=
  perform (.sra rd rs1 rs2) (aluR rd rs1 rs2 fun a b => a.sshiftRight (b.toNat % 64)) s

/-- R167: `or`. -/
def execOr (rd rs1 rs2 : Reg) (s : State) : Host.Outcome State Fault Refusal :=
  perform (.or rd rs1 rs2) (aluR rd rs1 rs2 fun a b => a ||| b) s

/-- R167: `and`. -/
def execAnd (rd rs1 rs2 : Reg) (s : State) : Host.Outcome State Fault Refusal :=
  perform (.and rd rs1 rs2) (aluR rd rs1 rs2 fun a b => a &&& b) s

/-- R167: `mul`. -/
def execMul (rd rs1 rs2 : Reg) (s : State) : Host.Outcome State Fault Refusal :=
  perform (.mul rd rs1 rs2) (aluR rd rs1 rs2 fun a b => a * b) s

/-- R167: `mulh`. -/
def execMulh (rd rs1 rs2 : Reg) (s : State) : Host.Outcome State Fault Refusal :=
  perform (.mulh rd rs1 rs2) (aluR rd rs1 rs2 fun a b => highHalf a.toInt b.toInt) s

/-- R167: `mulhsu`. -/
def execMulhsu (rd rs1 rs2 : Reg) (s : State) : Host.Outcome State Fault Refusal :=
  perform (.mulhsu rd rs1 rs2) (aluR rd rs1 rs2 fun a b => highHalf a.toInt b.toNat) s

/-- R167: `mulhu`. -/
def execMulhu (rd rs1 rs2 : Reg) (s : State) : Host.Outcome State Fault Refusal :=
  perform (.mulhu rd rs1 rs2) (aluR rd rs1 rs2 fun a b => highHalf a.toNat b.toNat) s

/-- R168: `div`. -/
def execDiv (rd rs1 rs2 : Reg) (s : State) : Host.Outcome State Fault Refusal :=
  perform (.div rd rs1 rs2) (aluR rd rs1 rs2 fun a b => divS a b) s

/-- R168: `divu`. -/
def execDivu (rd rs1 rs2 : Reg) (s : State) : Host.Outcome State Fault Refusal :=
  perform (.divu rd rs1 rs2) (aluR rd rs1 rs2 fun a b => divU a b) s

/-- R168: `rem`. -/
def execRem (rd rs1 rs2 : Reg) (s : State) : Host.Outcome State Fault Refusal :=
  perform (.rem rd rs1 rs2) (aluR rd rs1 rs2 fun a b => remS a b) s

/-- R168: `remu`. -/
def execRemu (rd rs1 rs2 : Reg) (s : State) : Host.Outcome State Fault Refusal :=
  perform (.remu rd rs1 rs2) (aluR rd rs1 rs2 fun a b => remU a b) s

/-- R167: `addw`. -/
def execAddw (rd rs1 rs2 : Reg) (s : State) : Host.Outcome State Fault Refusal :=
  perform (.addw rd rs1 rs2) (aluR rd rs1 rs2 fun a b => w32 (a + b)) s

/-- R167: `subw`. -/
def execSubw (rd rs1 rs2 : Reg) (s : State) : Host.Outcome State Fault Refusal :=
  perform (.subw rd rs1 rs2) (aluR rd rs1 rs2 fun a b => w32 (a - b)) s

/-- R167: `sllw`. -/
def execSllw (rd rs1 rs2 : Reg) (s : State) : Host.Outcome State Fault Refusal :=
  perform (.sllw rd rs1 rs2) (aluR rd rs1 rs2 fun a b => (low32 a <<< (b.toNat % 32)).signExtend 64) s

/-- R167: `srlw`. -/
def execSrlw (rd rs1 rs2 : Reg) (s : State) : Host.Outcome State Fault Refusal :=
  perform (.srlw rd rs1 rs2) (aluR rd rs1 rs2 fun a b => (low32 a >>> (b.toNat % 32)).signExtend 64) s

/-- R167: `sraw`. -/
def execSraw (rd rs1 rs2 : Reg) (s : State) : Host.Outcome State Fault Refusal :=
  perform (.sraw rd rs1 rs2) (aluR rd rs1 rs2 fun a b => ((low32 a).sshiftRight (b.toNat % 32)).signExtend 64) s

/-- R167: `mulw`. -/
def execMulw (rd rs1 rs2 : Reg) (s : State) : Host.Outcome State Fault Refusal :=
  perform (.mulw rd rs1 rs2) (aluR rd rs1 rs2 fun a b => w32 (a * b)) s

/-- R168: `divw`. -/
def execDivw (rd rs1 rs2 : Reg) (s : State) : Host.Outcome State Fault Refusal :=
  perform (.divw rd rs1 rs2) (aluR rd rs1 rs2 fun a b => (divS (low32 a) (low32 b)).signExtend 64) s

/-- R168: `divuw`. -/
def execDivuw (rd rs1 rs2 : Reg) (s : State) : Host.Outcome State Fault Refusal :=
  perform (.divuw rd rs1 rs2) (aluR rd rs1 rs2 fun a b => (divU (low32 a) (low32 b)).signExtend 64) s

/-- R168: `remw`. -/
def execRemw (rd rs1 rs2 : Reg) (s : State) : Host.Outcome State Fault Refusal :=
  perform (.remw rd rs1 rs2) (aluR rd rs1 rs2 fun a b => (remS (low32 a) (low32 b)).signExtend 64) s

/-- R168: `remuw`. -/
def execRemuw (rd rs1 rs2 : Reg) (s : State) : Host.Outcome State Fault Refusal :=
  perform (.remuw rd rs1 rs2) (aluR rd rs1 rs2 fun a b => (remU (low32 a) (low32 b)).signExtend 64) s

/-- R149: a hint: rd := rs1. -/
def execHint (rd rs1 : Reg) (h : BitVec 12) (s : State) : Host.Outcome State Fault Refusal :=
  perform (.hint rd rs1 h) (aluI rd rs1 fun a => a) s

end Sys2Proof.Machine
end

