-- ==== Sys2Proof/Machine/Float.lean ====
section
/-! DEFINITION. Machine/Float.lean: single precision in the x registers (R176, R177). -/

namespace Sys2Proof.Machine

/-! Shared operations -/

/-- R176: a rounded result of two operands; the function receives whether the mode is rdn. -/
def fArith (rd rs1 rs2 : Reg) (rm : RMode) (f : Bool → Val → Val → Val × BitVec 5) : Act Unit := do
  let (a, b) ← operand2 rs1 rs2 rd
  let c ← me
  let r ← roundS rm (f (isRdn (scalarMode c rm)) (fval a) (fval b))
  finishRd rd r

/-- R176: a fused multiply-add. -/
def fFused (rd rs1 rs2 rs3 : Reg) (rm : RMode) (negProd negAdd : Bool) : Act Unit := do
  let (a, b, x) ← operand3 rs1 rs2 rs3 rd
  let c ← me
  let r ← roundS rm (fmaV (isRdn (scalarMode c rm)) negProd negAdd (fval a) (fval b) (fval x))
  finishRd rd r

/-- R176: a sign injection: bits [30:0] of a with a sign from b. -/
def fSign (rd rs1 rs2 : Reg) (sign : Bool → Bool → Bool) : Act Unit := do
  let (a, b) ← operand2 rs1 rs2 rd
  let s := sign (bitOf a 31) (bitOf b 31)
  finishRd rd (sextN 32 (fieldOf a 0 31 + if s then 2 ^ 31 else 0))

/-- R126, R176: minimum or maximum. -/
def fMinMax (rd rs1 rs2 : Reg) (isMax : Bool) : Act Unit := do
  let (a, b) ← operand2 rs1 rs2 rd
  let (v, f) := minMaxF fp32 isMax (fieldOf a 0 32) (fieldOf b 0 32)
  modMe fun c => raiseFlags c f
  finishRd rd (sextN 32 v)

/-- R177: a comparison; `quiet`: NV only for a signaling NaN. -/
def fCompare (rd rs1 rs2 : Reg) (quiet : Bool) (f : Val → Val → Bool) : Act Unit := do
  let (a, b) ← operand2 rs1 rs2 rd
  let x := fval a
  let y := fval b
  modMe fun c => raiseFlags c (flagIf (if quiet then x.isSnan || y.isSnan else x.isNan || y.isNan) fNV)
  finishRd rd (wordOfBool (f x y))

/-- R125, R176: a conversion to an integer. -/
def fToInt (rd rs1 : Reg) (rm : RMode) (signed : Bool) (n : Nat) : Act Unit := do
  let a ← operand1 rs1 rd
  let r ← roundToInt rm signed n (fval a)
  finishRd rd r

/-- R176: a conversion from an integer. -/
def fFromInt (rd rs1 : Reg) (rm : RMode) (f : Word → Int) : Act Unit := do
  let a ← operand1 rs1 rd
  let r ← roundS rm (Val.ofInt (f a), 0)
  finishRd rd r

/-- The class mask of `fclass.s`. -/
def fClass (n : Nat) : Nat :=
  let neg := decide (2 ^ 31 ≤ n)
  let ex := n / 2 ^ 23 % 256
  let fr := n % 2 ^ 23
  if ex = 255 then
    if fr = 0 then (if neg then 1 else 128)
    else if fr < 2 ^ 22 then 256 else 512
  else if ex = 0 then
    if fr = 0 then (if neg then 8 else 16) else (if neg then 4 else 32)
  else if neg then 2 else 64

/-! Instructions -/

/-- R176: `fmadd.s`. -/
def execFmaddS (rd rs1 rs2 rs3 : Reg) (rm : RMode) (s : State) : Host.Outcome State Fault Refusal :=
  perform (.fmaddS rd rs1 rs2 rs3 rm) (fFused rd rs1 rs2 rs3 rm false false) s

/-- R176: `fmsub.s`. -/
def execFmsubS (rd rs1 rs2 rs3 : Reg) (rm : RMode) (s : State) : Host.Outcome State Fault Refusal :=
  perform (.fmsubS rd rs1 rs2 rs3 rm) (fFused rd rs1 rs2 rs3 rm false true) s

/-- R176: `fnmsub.s`. -/
def execFnmsubS (rd rs1 rs2 rs3 : Reg) (rm : RMode) (s : State) : Host.Outcome State Fault Refusal :=
  perform (.fnmsubS rd rs1 rs2 rs3 rm) (fFused rd rs1 rs2 rs3 rm true false) s

/-- R176: `fnmadd.s`. -/
def execFnmaddS (rd rs1 rs2 rs3 : Reg) (rm : RMode) (s : State) : Host.Outcome State Fault Refusal :=
  perform (.fnmaddS rd rs1 rs2 rs3 rm) (fFused rd rs1 rs2 rs3 rm true true) s

/-- R176: `fadd.s`. -/
def execFaddS (rd rs1 rs2 : Reg) (rm : RMode) (s : State) : Host.Outcome State Fault Refusal :=
  perform (.faddS rd rs1 rs2 rm) (fArith rd rs1 rs2 rm addV) s

/-- R176: `fsub.s`. -/
def execFsubS (rd rs1 rs2 : Reg) (rm : RMode) (s : State) : Host.Outcome State Fault Refusal :=
  perform (.fsubS rd rs1 rs2 rm) (fArith rd rs1 rs2 rm (fun z a b => addV z a b.negate)) s

/-- R176: `fmul.s`. -/
def execFmulS (rd rs1 rs2 : Reg) (rm : RMode) (s : State) : Host.Outcome State Fault Refusal :=
  perform (.fmulS rd rs1 rs2 rm) (fArith rd rs1 rs2 rm (fun _ a b => mulV a b)) s

/-- R176: `fdiv.s`. -/
def execFdivS (rd rs1 rs2 : Reg) (rm : RMode) (s : State) : Host.Outcome State Fault Refusal :=
  perform (.fdivS rd rs1 rs2 rm) (fArith rd rs1 rs2 rm (fun _ a b => divV a b)) s

/-- R176, R177: `fsqrt.s`. -/
def execFsqrtS (rd rs1 : Reg) (rm : RMode) (s : State) : Host.Outcome State Fault Refusal :=
  perform (.fsqrtS rd rs1 rm) (do
    let a ← operand1 rs1 rd
    let r ← roundS rm (sqrtV (fval a))
    finishRd rd r) s

/-- R176: `fsgnj.s`. -/
def execFsgnjS (rd rs1 rs2 : Reg) (s : State) : Host.Outcome State Fault Refusal :=
  perform (.fsgnjS rd rs1 rs2) (fSign rd rs1 rs2 (fun _ b => b)) s

/-- R176: `fsgnjn.s`. -/
def execFsgnjnS (rd rs1 rs2 : Reg) (s : State) : Host.Outcome State Fault Refusal :=
  perform (.fsgnjnS rd rs1 rs2) (fSign rd rs1 rs2 (fun _ b => !b)) s

/-- R176: `fsgnjx.s`. -/
def execFsgnjxS (rd rs1 rs2 : Reg) (s : State) : Host.Outcome State Fault Refusal :=
  perform (.fsgnjxS rd rs1 rs2) (fSign rd rs1 rs2 (fun a b => a != b)) s

/-- R126, R176: `fmin.s`. -/
def execFminS (rd rs1 rs2 : Reg) (s : State) : Host.Outcome State Fault Refusal :=
  perform (.fminS rd rs1 rs2) (fMinMax rd rs1 rs2 false) s

/-- R126, R176: `fmax.s`. -/
def execFmaxS (rd rs1 rs2 : Reg) (s : State) : Host.Outcome State Fault Refusal :=
  perform (.fmaxS rd rs1 rs2) (fMinMax rd rs1 rs2 true) s

/-- R176, R177: `feq.s`. -/
def execFeqS (rd rs1 rs2 : Reg) (s : State) : Host.Outcome State Fault Refusal :=
  perform (.feqS rd rs1 rs2) (fCompare rd rs1 rs2 true eqV) s

/-- R176, R177: `flt.s`. -/
def execFltS (rd rs1 rs2 : Reg) (s : State) : Host.Outcome State Fault Refusal :=
  perform (.fltS rd rs1 rs2) (fCompare rd rs1 rs2 false ltV) s

/-- R176, R177: `fle.s`. -/
def execFleS (rd rs1 rs2 : Reg) (s : State) : Host.Outcome State Fault Refusal :=
  perform (.fleS rd rs1 rs2) (fCompare rd rs1 rs2 false (fun a b => ltV a b || eqV a b)) s

/-- R125, R176: `fcvt.w.s`. -/
def execFcvtWS (rd rs1 : Reg) (rm : RMode) (s : State) : Host.Outcome State Fault Refusal :=
  perform (.fcvtWS rd rs1 rm) (fToInt rd rs1 rm true 32) s

/-- R125, R176: `fcvt.wu.s`. -/
def execFcvtWuS (rd rs1 : Reg) (rm : RMode) (s : State) : Host.Outcome State Fault Refusal :=
  perform (.fcvtWuS rd rs1 rm) (fToInt rd rs1 rm false 32) s

/-- R125, R176: `fcvt.l.s`. -/
def execFcvtLS (rd rs1 : Reg) (rm : RMode) (s : State) : Host.Outcome State Fault Refusal :=
  perform (.fcvtLS rd rs1 rm) (fToInt rd rs1 rm true 64) s

/-- R125, R176: `fcvt.lu.s`. -/
def execFcvtLuS (rd rs1 : Reg) (rm : RMode) (s : State) : Host.Outcome State Fault Refusal :=
  perform (.fcvtLuS rd rs1 rm) (fToInt rd rs1 rm false 64) s

/-- R176: `fcvt.s.w`. -/
def execFcvtSW (rd rs1 : Reg) (rm : RMode) (s : State) : Host.Outcome State Fault Refusal :=
  perform (.fcvtSW rd rs1 rm) (fFromInt rd rs1 rm fun a => (low32 a).toInt) s

/-- R176: `fcvt.s.wu`. -/
def execFcvtSWu (rd rs1 : Reg) (rm : RMode) (s : State) : Host.Outcome State Fault Refusal :=
  perform (.fcvtSWu rd rs1 rm) (fFromInt rd rs1 rm fun a => (low32 a).toNat) s

/-- R176: `fcvt.s.l`. -/
def execFcvtSL (rd rs1 : Reg) (rm : RMode) (s : State) : Host.Outcome State Fault Refusal :=
  perform (.fcvtSL rd rs1 rm) (fFromInt rd rs1 rm fun a => a.toInt) s

/-- R176: `fcvt.s.lu`. -/
def execFcvtSLu (rd rs1 : Reg) (rm : RMode) (s : State) : Host.Outcome State Fault Refusal :=
  perform (.fcvtSLu rd rs1 rm) (fFromInt rd rs1 rm fun a => a.toNat) s

/-- R176: `fclass.s`. -/
def execFclassS (rd rs1 : Reg) (s : State) : Host.Outcome State Fault Refusal :=
  perform (.fclassS rd rs1) (aluI rd rs1 fun a => word (fClass (fieldOf a 0 32))) s

end Sys2Proof.Machine
end

