-- ==== Sys2Proof/Machine/LaunchInstr.lean ====
section
/-! DEFINITION. Machine/LaunchInstr.lean: the launch instructions (R221 to R226) and the tensor-record instructions (R228 to R230). -/

namespace Sys2Proof.Machine

/-! Launch instructions -/

/-- R221: the record at an address, read as a load, with the checks of R51; `tgt`: TGT is judged. -/
def readRecord (va : Word) (tgt : Bool) : Act LRec := do
  let b ← memReadOne va 64 false .rlx .sys
  let r := recordOf (wordsOf b)
  trapIf r.bad 2 va
  let s ← get
  let c ← me
  if tgt && bitOf r.w4 38 then
    trapIf (partOfCluster s (r.target 0) != partOf s s.cur) 2 va
    trapIf (!clusterOnline s (r.target 0)) 30 va
  else pure ()
  pure (r.withSpace c.space)

/-- R51: the scope at which a post to a cluster releases. -/
def pathScope (own cl : Nat) : Scope := if own = cl then .clus else .pkg

/-- R51, R452: a cluster of an online die that is not being reset accepts records. -/
def acceptsPosts (s : State) (cl : Nat) : Bool :=
  (getDie s (dieOfCluster cl)).state == .ready && !(getDie s (dieOfCluster cl)).off

/-- R221, R413: state `s0` with what the read of a record marks; what it has read of uncached memory is used up. -/
def recordRead (s0 : State) (va : Word) : State := dropReads (translated .read va 64 s0) s0.cur

/-- R51, R221, R240: a record is posted: at once into the own cluster's launch queue, else by message, from state `s1`; the poster waits until the
destination accepts. -/
def postRecord (s1 : State) (r : LRec) (cl : Nat) (stage : Option (Nat × Nat)) : Act Unit := do
  orderClear
  let s ← get
  let own := clusterOf s.cur
  release (pathScope own cl)
  let behind := s.posts.any fun p => p.target == cl && p.poster == .agent s.cur
  if own = cl && launchRoom s cl && acceptsPosts s cl && !behind then set (acceptRecord s cl r (.agent s.cur) stage)
  else if own ≠ cl && !hasCredit s cl then stop (.hold [.credit (dieOfCluster own)])
  else stop (.sendWith s1 (.post r cl stage false) (some .launch))

/-- R232: the answer to a post, when there is one. -/
def postAnswer (tv : Word) : Act (Option Word) := do
  let c ← me
  match c.reply with
  | none => pure none
  | some r =>
    modMe fun c => { c with reply := none, sent := none, claim := none }
    match r with
    | .value v => pure (some v)
    | .trap cause t => trap cause t
    | .offline => trap 30 tv

/-- R221: `ln.post`. -/
def execLnPost (rs1 : Reg) (s : State) : Host.Outcome State Fault Refusal :=
  perform (.lnPost rs1) (do
    barrelOnly (.lnPost rs1)
    let s0 ← get
    let a ← operand1 rs1 none
    match ← postAnswer a with
    | some _ => advance
    | none =>
      trapIf (a.toNat % 64 != 0) 4 a
      let r ← readRecord a true
      doneUio
      let s ← get
      postRecord (recordRead s0 a) r (r.target (clusterOf s.cur)) none
      advance) s

/-- R51, R222: the physical address of an address that is translated for read but not accessed. -/
def readPa (va : Word) : Act Nat := fun s =>
  let c := getCtx s s.cur
  if !canonical va || inWindow s s.cur va.toNat then .error (.trap 5 va)
  else match xlate s s.cur c.space c.sup (va.toNat % 2 ^ 57) .read with
    | .access => .error (.trap 5 va)
    | .format | .permission => .error (.trap 13 va)
    | .notPresent lines => .error (.notPresent .read va lines)
    | .offline => .error (.trap 30 va)
    | .wait q => .error (.hold q)
    | .ok pa _ s' => .ok (pa, s')

/-- R51: the hash of a physical address: PA[20:16] xor PA[25:21] xor ... xor PA[50:46]. -/
def hashPa (pa : Nat) : Nat := ([16, 21, 26, 31, 36, 41, 46].map fun lo => nbits pa lo 5).foldl (· ^^^ ·) 0

/-- R51: the cluster of the device that a hash selects. -/
def hashCluster (s : State) (part pa : Nat) : Nat :=
  let cs := clustersOf s part
  cs.getD (hashPa pa % cs.length) 0

/-- R222: `ln.hash`. R221 gives tval = rs1 for a cluster that is offline, and R188 the operand that caused the trap, which could be rs2, the
address hashed: here rs1 (log entry 90). -/
def execLnHash (rs1 rs2 : Reg) (s : State) : Host.Outcome State Fault Refusal :=
  perform (.lnHash rs1 rs2) (do
    barrelOnly (.lnHash rs1 rs2)
    let s0 ← get
    let (a, b) ← operand2 rs1 rs2 none
    match ← postAnswer a with
    | some _ => advance
    | none =>
      trapIf (a.toNat % 64 != 0) 4 a
      let r ← readRecord a false
      doneUio
      let pa ← readPa b
      let s ← get
      let cl := hashCluster s (partOf s s.cur) pa
      trapIf (!clusterOnline s cl) 30 a
      postRecord (translated .read b 1 (recordRead s0 a)) (r.withTarget cl) cl none
      advance) s

/-- R223: the judgement of a replica request at the balancer: the record to post, or the refusal. -/
def judgeReplica (s : State) (st : Nat × Nat) (cl : Nat) (named : Bool) (part : Nat) : Except Nat LRec :=
  match findStage s st with
  | none => .error 2
  | some x =>
    if named && (partOfCluster s cl != part || !clusterOnline s cl) then .error 3
    else if x.record.repmax ≤ liveReplicas s st x then .error 1
    else .ok (x.record.replicaTo cl)

/-- R223: `ln.rep`. The request reaches the balancer that holds the copy, at once in its own cluster. -/
def execLnRep (rd rs1 : Reg) (s : State) : Host.Outcome State Fault Refusal :=
  perform (.lnRep rd rs1) (do
    barrelOnly (.lnRep rd rs1)
    let s0 ← get
    let a ← operand1 rs1 rd
    match ← postAnswer a with
    | some v => finishRd rd v
    | none =>
      let c ← me
      let s ← get
      let own := clusterOf s.cur
      let named := bitOf a 5
      let cl := if named then fieldOf a 0 5 else own
      match c.stage with
      | none => finishRd rd 2
      | some st =>
        if st.1 = own || !clusterOnline s st.1 then
          match judgeReplica s st cl named (partOf s s.cur) with
          | .error n => finishRd rd (word n)
          | .ok r =>
            postRecord s0 r cl (some st)
            finishRd rd 0
        else if named && (partOfCluster s cl != partOf s s.cur || !clusterOnline s cl) then finishRd rd 3
        else
          orderClear
          release .pkg
          match findStage s st with
          | none => finishRd rd 2
          | some x => stop (.send (.post (x.record.replicaTo cl) cl (some st) true) (some .balReply))) s

/-- R53, R224: the sixteen counters of a block, and the state in which they are cleared. -/
def snapshot (s : State) (cl b : Nat) : List (BitVec 32) × State :=
  let k := getCluster s cl
  let keys := (List.range 16).map (16 * b + ·)
  (keys.map fun i => tget 0 k.route i, modCluster s cl fun k => { k with route := k.route.filter fun e => !keys.contains e.1 })

/-- R224: `ln.snap`: the destination is translated; then the balancer of the named cluster takes the snapshot. -/
def execLnSnap (rs1 rs2 : Reg) (s : State) : Host.Outcome State Fault Refusal :=
  perform (.lnSnap rs1 rs2) (do
    barrelOnly (.lnSnap rs1 rs2)
    let s0 ← get
    let (a, b) ← operand2 rs1 rs2 none
    match ← postAnswer b with
    | some _ => advance
    | none =>
      let now ← get
      let cl := fieldOf b 0 5
      trapIf (a.toNat % 64 != 0) 6 a
      trapIf (partOfCluster now cl != partOf now now.cur) 2 (iword (.lnSnap rs1 rs2))
      trapIf (!clusterOnline now cl) 30 b
      orderGate .ar (pathScope (clusterOf now.cur) cl)
      let (ps, tags) ← resolve .write a 64 false
      let l := match ps with | p :: _ => p.1 | [] => ⟨.spad, 0⟩
      stop (.sendWith (translated .write a 64 s0) (.cone (cl * 4096) (.snap (fieldOf b 5 2) (l.cls == .spad) l.key tags)) (some .balReply))) s

/-- R225: the records of an array, read and checked in order. -/
def readRecords (va : Word) : Nat → Act (List LRec)
  | 0 => pure []
  | n + 1 => do
    let r ← readRecord va true
    let rest ← readRecords (va + 64) n
    pure (r :: rest)

/-- R225: `ln.replay`. -/
def execLnReplay (rs1 rs2 : Reg) (s : State) : Host.Outcome State Fault Refusal :=
  perform (.lnReplay rs1 rs2) (do
    barrelOnly (.lnReplay rs1 rs2)
    let (a, b) ← operand2 rs1 rs2 none
    trapIf (a.toNat % 64 != 0) 4 a
    trapIf (b == 0 || decide (256 < b.toNat)) 2 (iword (.lnReplay rs1 rs2))
    let rs ← readRecords a b.toNat
    doneUio
    release .pkg
    let s ← get
    let cl := clusterOf s.cur
    parkUnless (decide ((getCluster s cl).replay.length + rs.length ≤ Config.replayBuffer)) (.replay rs.length)
    modify fun s => modCluster s cl fun k =>
      { k with replay := k.replay ++ rs.map fun r => { record := r, part := partOf s s.cur } }
    advance) s

/-- R63: a group of a partition is watched from now on. -/
def watch (s : State) (part g : Nat) : State :=
  if (getPart s part).watches.any fun w => w.group == g then s
  else modPart s part fun p => { p with watches := p.watches ++ [{ group := g, idle := none }] }

/-- R226: `ln.quiet`; a draw answers it. -/
def execLnQuiet (rs1 : Reg) (s : State) : Host.Outcome State Fault Refusal :=
  perform (.lnQuiet rs1) (do
    barrelOnly (.lnQuiet rs1)
    let a ← operand1 rs1 none
    match ← postAnswer a with
    | some _ =>
      orderClear
      advance
    | none => stop (.parkWith (watch s (partOf s s.cur) (fieldOf a 0 6)) (.draw (fieldOf a 0 6) s.clock))) s

/-! Tensor records -/

/-- R228: `tid.set`. The manual does not order the faults of the load against cause 7 of an entry that is VALID for another space: here the load
comes first (log entry 94). -/
def execTidSet (rs1 rs2 : Reg) (s : State) : Host.Outcome State Fault Refusal :=
  perform (.tidSet rs1 rs2) (do
    barrelOnly (.tidSet rs1 rs2)
    let (a, b) ← operand2 rs1 rs2 none
    trapIf (b.toNat % 64 != 0) 4 b
    let bytes ← memRead b 64 false .rlx .sys
    let s ← get
    let c ← me
    let cl := clusterOf s.cur
    let other := match tfind (getCluster s cl).tensors (fieldOf a 0 10) with
      | some e => e.space != c.space
      | none => false
    trapIf other 7 a
    modify fun s => modCluster s cl fun k => { k with tensors := tset k.tensors (fieldOf a 0 10) ⟨c.space, words8 bytes⟩ }
    advance) s

/-- R229: `tid.drop`. -/
def execTidDrop (rs1 : Reg) (s : State) : Host.Outcome State Fault Refusal :=
  perform (.tidDrop rs1) (do
    barrelOnly (.tidDrop rs1)
    let a ← operand1 rs1 none
    let c ← me
    modify fun s =>
      let cl := clusterOf s.cur
      match tfind (getCluster s cl).tensors (fieldOf a 0 10) with
      | some e => if e.space = c.space then modCluster s cl fun k => { k with tensors := terase k.tensors (fieldOf a 0 10) } else s
      | none => s
    advance) s

/-- R230: `tid.get`. -/
def execTidGet (rs1 rs2 : Reg) (s : State) : Host.Outcome State Fault Refusal :=
  perform (.tidGet rs1 rs2) (do
    barrelOnly (.tidGet rs1 rs2)
    let (a, b) ← operand2 rs1 rs2 none
    trapIf (b.toNat % 64 != 0) 6 b
    let s ← get
    let c ← me
    let bytes := match tfind (getCluster s (clusterOf s.cur)).tensors (fieldOf a 0 10) with
      | some e => if e.space = c.space then bytesOfWords e.w.toList else List.replicate 64 0
      | none => List.replicate 64 0
    memWrite b bytes false .rlx .sys
    advance) s

end Sys2Proof.Machine
end

