-- ==== Sys2Proof/Machine/Draw.lean ====
section
/-! DEFINITION. Machine/Draw.lean: the draw detector (R62, R63), the dwell counts of the load balancers (R48), and when a parked
context rejoins (R24). -/

namespace Sys2Proof.Machine

/-! Rejoining -/

/-- R325: the index queue of a pug is empty and no lookup or push is in progress. -/
def pugDrained (s : State) (cl p : Nat) : Bool :=
  match tfind (getCluster s cl).pugs p with
  | some x => x.out.isEmpty && x.page.isNone && (present s x.agent x.k).isEmpty
  | none => true

/-- R24: the condition that a parked agent waits for holds. -/
def conditionHolds (s : State) (a : Nat) (c : Ctx) : Park → Bool
  | .pop k =>
    let e := endOf s a k
    let waits := match e.queue.bind (findQueue s) with | some q => (e.asked || e.waits.isSome) && isRemote q a | none => false
    !waits && !(offered s a k).isEmpty
  | .look k => !(offered s a k).isEmpty || !(present s a k).isEmpty
  | .push k token => match (endOf s a k).queue.bind (findQueue s) with
    | some q => canPush s q a (if token then tokenEntry 1 else dataEntry 0)
    | none => true
  | .cone name v => c.reply.isSome || (c.sent.isNone && (phasePassed (getCone s name) v || !clusterOnline s (coneCluster name)))
  | .event bits => c.ev &&& bits == bits
  | .window => decide (c.win.length < Config.window)
  | .launch _ | .coneReply _ | .draw _ _ => c.reply.isSome
  | .balReply id => c.reply.isSome && !(s.writes.any fun w => w.id == id && !performedFor .core w)
  | .replay n => decide ((getCluster s (clusterOf a)).replay.length + n ≤ Config.replayBuffer)
  | .self => ctxNo a == 0 && !isHub a &&
      (!(getCore s (coreOf a)).handles.isEmpty || !(getCore s (coreOf a)).trapQ.isEmpty)
  | .page id => !(s.pages.any fun p => p.id == id)
  | .reap n =>
    let t := agentOf (coreOf a) n
    (getCtx s t).status == .free || endable s t
  | .pugClose p => c.reply.isSome || (c.sent.isNone && pugDrained s (clusterOf a) p)

/-- R204, R232, R256: an agent that context 0 or a pre-emption has asked for goes on only to complete an instruction whose reply has
come back. -/
def mayGo (s : State) (a : Nat) (c : Ctx) : Bool :=
  let mine := s.uio.filter fun u => u.agent == a
  c.stopping.isNone || c.reply.isSome || (!mine.isEmpty && mine.all fun u => u.data.isSome || u.failed)

/-- R24: a parked agent may rejoin; one that is halted does not. -/
def canRejoin (s : State) (a : Nat) : Bool :=
  let c := getCtx s a
  match c.status with
  | .parked why => mayGo s a c && c.halted.isNone && conditionHolds s a c why
  | _ => false

/-! Draw groups -/

/-- R62: a context in this state drives its group. -/
def drivesBusy : Status → Bool
  | .free => false
  | .ready | .trapped => true
  | .parked why => match why with
    | .pop _ | .look _ | .cone _ _ | .event _ | .draw _ _ => false
    | _ => true

/-- R62: the queue holds an entry for a consumer of the group. -/
def queueBusy (s : State) (part g : Nat) (q : Queue) : Bool :=
  q.part == part && !(q.items.isEmpty && q.copies.isEmpty) &&
  (consumersOf s q.id).any fun a => groupOf s a == some g

/-- R62, R327: the pug holds an index, token, bag or push in progress. -/
def pugWorks (p : Pug) : Bool := !p.out.isEmpty || p.n != 0 || p.page.isSome

/-- R62, R456: a context drives its group busy by its state, by an access that is outstanding, by entries on their way to it, and by a pop request on its way to a
coil's owner; a halted one always does. One whose condition holds counts as busy: it is READY within the bound of R65, which is below
the least `drawdly` (log entry 85). -/
def ctxBusy (s : State) (a : Nat) (c : Ctx) : Bool :=
  drivesBusy c.status || c.halted.isSome || !c.out.isEmpty || (c.ends.toList.any fun d => !d.got.isEmpty || d.asked) ||
  (match c.status with | .parked why => conditionHolds s a c why | _ => false)

/-- R62: group `g` of a partition is driven busy. Whether a command that a window has not sent yet counts among those that a context has issued the manual
does not say: here it does not (log entry 100). -/
def groupBusy (s : State) (part g : Nat) : Bool :=
  let mine (a : Nat) : Bool := decide (a < Config.agents) && partOf s a == part && groupOf s a == some g
  (s.ctxs.any fun e => mine e.1 && ctxBusy s e.1 e.2) ||
  (s.queues.any (queueBusy s part g)) ||
  ((clustersOf s part).any fun cl =>
    let k := getCluster s cl
    (k.launch.any fun x => x.record.draw == g) || (k.replay.any fun x => x.record.draw == g) ||
    (k.cmds.any fun c => c.group == some g) || (k.pugs.any fun p => p.2.group == some g && pugWorks p.2)) ||
  (s.coneMsgs.any fun m => mine m.agent || (m.group == some g && partOf s m.agent == part)) ||
  (s.coilMsgs.any fun m => m.group == some g && decide (m.producer < Config.agents) && partOf s m.producer == part) ||
  (s.posts.any fun m => m.part == part && m.record.draw == g) ||
  (s.writes.any fun w => (mine w.agent || w.group == some (part, g)) && (!w.home || w.acks.any (· != hostSide))) ||
  (s.atomics.any fun m => mine m.agent || m.group == some (part, g)) ||
  (s.preempts.any fun p => p.part == part && p.groups.contains g)

/-- R63: what a watched group shows in this cycle. -/
def sampleWatch (s : State) (part : Nat) (w : Watch) : Watch :=
  if groupBusy s part w.group then { w with idle := none }
  else { w with idle := some (w.idle.getD s.clock) }

/-- R63: every watched group is sampled; a group for which no context waits is no longer watched. -/
def sampleWatches (s : State) : State :=
  { s with parts := s.parts.map fun e =>
      if e.2.watches.isEmpty then e
      else
        let wanted (g : Nat) : Bool := s.ctxs.any fun c => partOf s c.1 == e.1 && (match c.2.status with
          | .parked (.draw h _) => h == g
          | _ => false)
        (e.1, { e.2 with watches := (e.2.watches.filter fun w => wanted w.group).map (sampleWatch s e.1) }) }

/-- R63: a draw whose first sample comes after cycle `start` completes now. -/
def drawnSince (p : Part) (g start now : Nat) : Bool :=
  match p.watches.find? fun w => w.group == g with
  | some w => match w.idle with
    | some t => decide (max t (start + 1) + p.drawdly ≤ now)
    | none => false
  | none => false

/-! Load balancers -/

/-- R48: the coil that a stage instance watches. -/
def watchedCoil (s : State) (x : StageInst) : Option Queue :=
  x.inq.bind fun idx => s.queues.find? fun q =>
    q.coil && q.part == x.part && q.space == x.record.space && q.pdesc == x.record.w0 && q.inst == x.record.inst && q.index == idx

/-- R48: the dwell count of a stage instance in this cycle. -/
def sampleStage (s : State) (x : StageInst) : StageInst :=
  match watchedCoil s x with
  | some q => if x.hwm ≤ usedSlots s q then { x with since := some (x.since.getD s.clock) } else { x with since := none }
  | none => { x with since := none }

/-- R48: the dwell counts of all running stage instances. -/
def sampleStages (s : State) : State :=
  if s.clusters.all fun e => e.2.stages.isEmpty then s
  else { s with clusters := s.clusters.map fun e =>
    if e.2.stages.isEmpty then e else (e.1, { e.2 with stages := e.2.stages.map fun x => (x.1, sampleStage s x.2) }) }

/-- R48: a stage instance's dwell count has expired and its limit is not reached. -/
def dwellOver (s : State) (st : Nat × Nat) (x : StageInst) : Bool :=
  (match x.since with | some t => decide (t + x.dwell ≤ s.clock) | none => false) &&
  decide (liveReplicas s st x < x.record.repmax)

/-- What the detectors and balancers see after a turn. -/
def sample (s : State) : State := sampleStages (sampleWatches s)

end Sys2Proof.Machine
end

