-- ==== Sys2Proof/Machine/LaunchEvents.lean ====
section
/-! DEFINITION. Machine/LaunchEvents.lean: the events of the execution model: rejoining, coil messages, launch queues, load balancers,
cones and draws (R24, R40, R47, R48, R52, R57, R59, R61, R63, R223, R225). An event whose condition does not hold is passed over
(log entry 12). -/

namespace Sys2Proof.Machine

/-- The outcome of an event. -/
abbrev Out := Host.Outcome State Fault Refusal

/-- Agent `a` receives the reply to message `id`: of the instruction that waits for it, or of an outstanding atomic. -/
def answer (s : State) (a id : Nat) (r : Reply) : State :=
  let c := getCtx s a
  if c.sent = some id then setCtx s a { c with reply := some r }
  else if c.out.any fun o => o.id == id && o.atomic then
    setCtx s a { c with out := c.out.map fun o => if o.id = id then { o with reply := some r } else o }
  else s

/-- R218: the release of a waiter that a cone of another cluster holds, with the ERR of the moment. -/
def coneRelease (s : State) (a : Nat) (c : Ctx) : Option Reply :=
  match c.status, c.reply with
  | .parked (.cone name v), none =>
    let k := getCone s name
    if clusterOf a != coneCluster name && phasePassed k v then some (.value (word (0x100 + k.err.toNat))) else none
  | _, r => r

/-- R24: a parked agent becomes READY. -/
def rejoin (s : State) (a : Nat) : State := modCtx s a fun c => { c with status := .ready, reply := coneRelease s a c }

/-- R24: `context rejoin`. -/
def execContextRejoin (agent : Nat) (s : State) : Out :=
  if Config.agents ≤ agent then .fault .noSuchAgent
  else if canRejoin s agent then .next (rejoin s agent)
  else match (getCtx s agent).status with
    | .parked (.reap _) => .next (applyReqs s (visibleReqs s))
    | _ => .next s

/-! Coils -/

/-- R40: a pop request reaches the owner, behind those that it has received. -/
def receivePop (s : State) (a k : Nat) : State :=
  let e := endOf s a k
  if !e.asked then s
  else
    let (n, s) := takeId s
    setEnd s a k { e with asked := false, waits := some n }

/-- R40: the owner has an earlier pop request of the queue that it can serve. -/
def earlierPop (s : State) (q : Queue) (n : Nat) : Bool :=
  s.ctxs.any fun x => x.2.ends.toList.any fun d => d.queue == some q.id && (match d.waits with
    | some m => decide (m < n) && !(localItems q x.1).isEmpty
    | none => false)

/-- R40, R47: the owner serves the pop request of a consumer on another core, in the order in which it has received them. -/
def servePop (s : State) (a k : Nat) : State :=
  let e := endOf s a k
  match e.queue.bind (findQueue s), e.waits with
  | none, _ | _, none => s
  | some q, some n =>
    if earlierPop s q n || !isRemote q a then s
    else match (localItems q a).head?.bind fun it => slotNeeds s q it.pos .read with
    | some r => applyReqs s r
    | none => match takeItem q a with
      | none => s
      | some (it, q') =>
        let it' := { it with entry := itemEntry s q it, owner := if q.bag then some a else none }
        setEnd (setQueue (slotRead s q it.pos) q') a k { e with got := e.got ++ [it'], waits := none }

/-- R40: `coil pop request`: it is received, and served as soon as it can be. -/
def execCoilPopRequest (agent : Nat) (k : BitVec 3) (s : State) : Out :=
  if Config.agents ≤ agent then .fault .noSuchAgent else .next (servePop (receivePop s agent k.toNat) agent k.toNat)

/-- R425: a stream of messages that arrive in order. -/
inductive Flow where
  /-- within a cluster: the entries of one producer -/
  | within (producer queue : Nat)
  /-- a flow that the coils of a source and a destination cluster share -/
  | shared (src dst : Nat)
  /-- the flow of a coil with ORD = 1 from a die -/
  | own (die queue : Nat)
  deriving DecidableEq, Repr

/-- R425: the flow of a coil message. -/
def flowOf (s : State) (m : CoilMsg) : Flow :=
  match findQueue s m.queue with
  | some q =>
    if m.src = q.core / 256 then .within m.producer q.id
    else if q.ord then .own (dieOfCluster m.src) q.id
    else .shared m.src (q.core / 256)
  | none => .shared m.src 32

/-- R425: no earlier message of the same flow waits. -/
def firstOfFlow (s : State) (m : CoilMsg) : Bool :=
  match s.coilMsgs.find? fun x => flowOf s x == flowOf s m with
  | some x => x.id == m.id
  | none => true

/-- R40, R41: `coil push arrival`: the entry is appended once its slot can be written. -/
def execCoilPushArrival (id : Nat) (s : State) : Out :=
  match s.coilMsgs.find? fun m => m.id == id with
  | none => .next s
  | some m =>
    if !firstOfFlow s m then .next s
    else match (findQueue s m.queue).bind fun q => slotNeeds s q q.tail .write with
      | some r => .next (applyReqs s r)
      | none => .next (appendEntry { s with coilMsgs := s.coilMsgs.filter fun x => x.id != id } m.queue m.producer m.entry)

/-- R47: every bag pushed before position `pos`, and the one that ends there, has been claimed. -/
def bagsClaimed (q : Queue) (pos : Nat) : Bool := q.items.all fun i => decide (pos < i.pos) || i.owner.isSome

/-- R47: a copy of a token reaches one consumer's read end of the queue, and answers a pop request of it (R24). -/
def giveCopy (s : State) (qid : Nat) (e : Entry) (pos a : Nat) : State :=
  let give (d : QEnd) : QEnd := if d.queue = some qid ∧ !d.write then { d with got := d.got ++ [⟨pos, e, none⟩], asked := false, waits := none } else d
  modCtx s a fun c => { c with ends := c.ends.map give }

/-- R47: copies of the oldest token whose earlier bags are all claimed go to the receivers that hold no bag. -/
def deliverCopies (s : State) (qid : Nat) : State :=
  match findQueue s qid with
  | none => s
  | some q => match q.copies with
    | [] => s
    | (e, pos, rs, ring) :: t =>
      if !bagsClaimed q pos then s
      else
        let free (a : Nat) : Bool := !q.claims.contains a && decide (a < Config.agents)
        let now := rs.filter free
        let left := rs.filter fun a => !free a
        let s := setQueue s { q with copies := if left.isEmpty then t else (e, pos, left, ring) :: t }
        now.foldl (fun s a => giveCopy s qid e pos a) s

/-- R47: `token copy delivery`. -/
def execTokenCopyDelivery (queue : Nat) (s : State) : Out := .next (deliverCopies s queue)

/-! Launch queues -/

/-- R48: the stage instance of a balancer that may have a replica now: of those on one coil the one that started first. -/
def chosenStage (s : State) (cl inst : Nat) : Option StageInst :=
  match tfind (getCluster s cl).stages inst with
  | none => none
  | some x =>
    let coil := (watchedCoil s x).map (·.id)
    let earlier := (getCluster s cl).stages.any fun y =>
      y.1 != inst && (watchedCoil s y.2).map (·.id) == coil && dwellOver s (cl, y.1) y.2 &&
      (decide (y.2.started < x.started) || (y.2.started == x.started && decide (y.1 < inst)))
    if dwellOver s (cl, inst) x && !earlier then some x else none

/-- R48, R51: `balancer replica post`, a release at clus scope. -/
def execBalancerReplicaPost (cluster inst : Nat) (s : State) : Out :=
  if Config.clusters ≤ cluster then .fault .noSuchObject
  else match chosenStage s cluster inst with
    | none => .next s
    | some x => match bestCore s cluster fun k => !runsStage s k (cluster, inst) with
      | none => .next s
      | some core =>
        if !enginesSettled s (pathScope cluster cluster) then .next s else
        let s := modCluster s cluster fun k => { k with stages := tset k.stages inst { x with since := none } }
        let r := x.record.replicaAt core
        if launchRoom s cluster && acceptsPosts s cluster then
          .next (acceptRecord s cluster r (.balancer cluster) (some (cluster, inst)))
        else
          let (id, s) := takeId s
          .next { s with posts := s.posts ++
            [{ id, record := r, poster := .balancer cluster, target := cluster, part := x.part, stage := some (cluster, inst), rep := false }] }

/-- R224, steps 2 and 3: the counters of a block are cleared and written as one action, when the write can be performed; the context waits for a
write that is not performed with respect to itself yet. A write to an offline home is discarded and counted. -/
def takeSnapshot (s : State) (m : ConeMsg) (b : Nat) (spad : Bool) (key : Nat) (tags : List Nat) : State :=
  let (v, s1) := snapshot { s with coneMsgs := s.coneMsgs.filter fun x => x.id != m.id } (coneCluster m.cone) b
  let cells := cellsAt key (v.flatMap fun x => leBytes 4 x.toNat)
  let line := lineOf key
  let pending (t : State) (id : Nat) : State :=
    if (getCtx t m.agent).sent = some m.id then
      modCtx t m.agent fun c => { c with sent := some id, reply := some (.value 0), status := .parked (.balReply id) }
    else t
  if spad then answer (spadWrite s1 Config.agents cells) m.agent m.id (.value 0)
  else if unreachable s m.agent key then answer (countDrop s1 key) m.agent m.id (.value 0)
  else match (locOfKey s key).cls with
    | .shared | .peer =>
      let (id, s2) := takeId s1
      let w : Write :=
        { id, agent := m.agent, kind := .store, addr := key, bytes := cells, order := .rlx, scope := .sys, tags,
          ea := 0, atHome := false, home := false, inv := [], acks := [] }
      pending { s2 with writes := s2.writes ++ [w] } id
    | _ =>
      if canWrite s line [key / 64] then
        let s2 := directWrite s1 m.agent line cells .rlx .sys tags
        if s2.writes.any fun w => w.id == s1.nextId && !performedFor .core w then pending s2 s1.nextId
        else answer s2 m.agent m.id (.value 0)
      else applyReqs s (writeNeeds s line [key / 64])

/-- R224: a snapshot's message reaches the balancer of an online cluster. -/
def snapshotEvent (id : Nat) (s : State) : Out :=
  match s.coneMsgs.find? fun m => m.id == id with
  | none => .next s
  | some m => match m.op with
    | .snap b spad key tags => .next (if clusterOnline s (coneCluster m.cone) then takeSnapshot s m b spad key tags else s)
    | _ => .next s

/-- R223, R224: `balancer request`: the balancer judges a replica request of another cluster and posts the copy, or takes a snapshot. -/
def execBalancerRequest (id : Nat) (s : State) : Out :=
  match s.posts.find? fun p => p.id == id && p.rep with
  | none => snapshotEvent id s
  | some p => match p.stage, p.poster with
    | some st, .agent a => match judgeReplica s st p.target true p.part with
      | .error n => .next (answer { s with posts := s.posts.filter fun x => x.id != id } a id (.value (word n)))
      | .ok r =>
        if !enginesSettled s (pathScope st.1 p.target) then .next s
        else if st.1 ≠ p.target ∧ !hasCredit s p.target then .next (applyReq s (.credit (dieOfCluster st.1)))
        else .next { s with posts := s.posts.map fun x => if x.id = id then { x with record := r, rep := false } else x }
    | _, _ => .next s

/-- R52, R449: the poster learns that its record has been accepted. -/
def postAccepted (s : State) (p : Post) : State :=
  match p.poster with
  | .agent a => answer s a p.id (.value 0)
  | .port part => modPart s part fun x => if x.port.post = some p.id then { x with port := { x.port with status := 0, post := none } } else x
  | _ => s

/-- R425: two records travel in one flow, or, within a cluster, come from one poster. -/
def sameFlow (p x : Post) : Bool :=
  x.target == p.target && (if postSource p = p.target then postSource x == p.target && x.poster == p.poster else postSource x == postSource p)

/-- R425: no earlier record of the flow waits. -/
def firstPost (s : State) (p : Post) : Bool :=
  match s.posts.find? fun x => !x.rep && sameFlow p x with
  | some x => x.id == p.id
  | none => true

/-- R52: `launch record accept`. -/
def execLaunchRecordAccept (id : Nat) (s : State) : Out :=
  match s.posts.find? fun p => p.id == id && !p.rep with
  | none => .next s
  | some p =>
    if launchRoom s p.target && acceptsPosts s p.target && firstPost s p then
      let s := acceptRecord { s with posts := s.posts.filter fun x => x.id != id } p.target p.record p.poster p.stage
      .next (postAccepted s p)
    else .next s

/-- R52, R202: `launch dispatch`: the handle of the next record is pushed to a core's q6. -/
def execLaunchDispatch (cluster : Nat) (s : State) : Out :=
  if Config.clusters ≤ cluster then .fault .noSuchObject
  else match nextDispatch s cluster with
    | none => .next s
    | some (x, core) =>
      let s := modCluster s cluster fun k =>
        { k with launch := k.launch.map fun y => if y.slot = x.slot then { y with core := some core } else y }
      .next (modCore s core fun k => { k with handles := k.handles ++ [dataEntry (handleOf x)] })

/-- R225: `replay buffer post`: the oldest copy is posted. -/
def execReplayBufferPost (cluster : Nat) (s : State) : Out :=
  if Config.clusters ≤ cluster then .fault .noSuchObject
  else match (getCluster s cluster).replay with
    | [] => .next s
    | x :: t =>
      let target := x.record.target cluster
      let gone := modCluster s cluster fun k => { k with replay := t }
      if heldInst s x.part x.record.space x.record.inst then .next s
    else if target ≠ cluster ∧ !hasCredit s target then .next (applyReq s (.credit (dieOfCluster cluster)))
      else if !clusterOnline s target then .next gone
      else if target = cluster then
        if launchRoom s cluster && acceptsPosts s cluster then .next (acceptRecord gone cluster x.record (.replay cluster) none)
        else .next s
      else
        let (id, s) := takeId gone
        .next { s with posts := s.posts ++
          [{ id, record := x.record, poster := .replay cluster, target, part := x.part, stage := none, rep := false }] }

/-! Cones -/

/-- R218: what a cone does with a waiter whose phase has not passed: it keeps it; the message is answered by no reply yet. -/
def keepWaiter (s : State) (m : ConeMsg) : State :=
  if (getCtx s m.agent).sent = some m.id then modCtx s m.agent fun c => { c with sent := none } else s

/-- A cone message reaches its cone, whose reply goes back. -/
def coneReceive (s : State) (m : ConeMsg) : State :=
  let s := { s with coneMsgs := s.coneMsgs.filter fun x => x.id != m.id }
  let k := getCone s m.cone
  let keeps := match m.op with | .wait v => inScope s m.agent m.cone k && !phasePassed k v | _ => false
  if keeps then keepWaiter s m
  else
    let (s, r) := coneDo s m.agent m.cone m.op
    answer s m.agent m.id r

/-- A message of a kind is received when its cluster is online. -/
def coneEvent (id : Nat) (kind : ConeOp → Bool) (s : State) : Out :=
  match s.coneMsgs.find? fun m => m.id == id && kind m.op with
  | none => .next s
  | some m => if clusterOnline s (coneCluster m.cone) then .next (coneReceive s m) else .next s

/-- R57: `cone arrival`: an arrival, drop or test is received. -/
def execConeArrival (id : Nat) (s : State) : Out :=
  coneEvent id (fun o => match o with | .join | .init _ _ _ | .snap _ _ _ _ => false | _ => true) s

/-- R58, R61: `cone join`. -/
def execConeJoin (id : Nat) (s : State) : Out := coneEvent id (fun o => match o with | .join => true | _ => false) s

/-- R215: `cone init`. -/
def execConeInit (id : Nat) (s : State) : Out := coneEvent id (fun o => match o with | .init _ _ _ => true | _ => false) s

/-- R59: the limit of a cone's phase has expired. -/
def coneExpired (c : Cone) (now : Nat) : Bool :=
  c.timeout != 0 && c.arrived != 0 && decide (c.first + c.timeout * 1024 < now)

/-- R59: `cone timeout`. -/
def execConeTimeout (cluster cone : Nat) (s : State) : Out :=
  if Config.clusters ≤ cluster ∨ 4096 ≤ cone then .fault .noSuchObject
  else
    let name := cluster * 4096 + cone
    let c := getCone s name
    if coneExpired c s.clock then .next (setCone s name (tripCone c 7)) else .next s

/-! Draws -/

/-- R63, R226: the group's draw, made by cycle `now`, answers every `ln.quiet` that it covers. -/
def releaseDraw (s : State) (part g now : Nat) : State :=
  { s with ctxs := s.ctxs.map fun e => match e.2.status with
      | .parked (.draw h t) =>
        if h = g ∧ partOf s e.1 = part ∧ e.2.stopping.isNone ∧ drawnSince (getPart s part) g t now then (e.1, { e.2 with reply := some (.value 0) }) else e
      | _ => e }

/-- R63: `draw`. -/
def execDraw (part group : Nat) (s : State) : Out :=
  if Config.dies ≤ part ∨ 64 ≤ group then .fault .noSuchObject else .next (releaseDraw s part group s.clock)

end Sys2Proof.Machine
end

