-- ==== Sys2Proof/Machine/Patch.lean ====
section
/-! DEFINITION. Machine/Patch.lean: the configured patch (R332 to R336). -/

namespace Sys2Proof.Machine

/-- R334: the FN values of an operation; none for an operation that does not exist. -/
def fnLimit (op : Nat) : Option Nat :=
  match op with
  | 7 | 8 | 9 | 10 => some 1
  | 11 => some 5
  | 0 | 1 | 2 | 3 | 4 | 5 | 6 | 12 => some 0
  | _ => none

/-- R333, R334: a cell word is valid. -/
def cellOk (w : Word) : Bool :=
  fieldOf w 13 3 == 0 && fieldOf w 36 28 == 0 && fieldOf w 4 3 != 7 && fieldOf w 7 3 != 7 && fieldOf w 10 3 != 7 &&
  (match fnLimit (fieldOf w 0 4) with | some n => decide (fieldOf w 32 4 ≤ n) | none => false)

/-- R333: the source that a select names for cell `i`, from the cells already computed. -/
def cellSource (done : List Word) (i sel : Nat) (cell x1 x2 x3 : Word) : Word :=
  match sel with
  | 0 => if i < 4 then 0 else done.getD (i - 4) 0
  | 1 => if i % 4 = 0 then 0 else done.getD (i - 1) 0
  | 2 => x1
  | 3 => x2
  | 4 => x3
  | 5 => sextN 16 (fieldOf cell 16 16)
  | _ => 0

/-- R334: cmp. -/
def cellCompare (fn : Nat) (a b : Word) : Bool :=
  match fn with
  | 0 => a == b
  | 1 => a != b
  | 2 => a.slt b
  | 3 => a.ult b
  | 4 => !a.slt b
  | _ => !a.ult b

/-- R334: the result of a cell. -/
def cellOp (op fn : Nat) (a b c : Word) : Word :=
  match op with
  | 0 => a
  | 1 => a + b
  | 2 => a - b
  | 3 => a &&& b
  | 4 => a ||| b
  | 5 => a ^^^ b
  | 6 => a <<< fieldOf b 0 6
  | 7 => if fn = 0 then a >>> fieldOf b 0 6 else a.sshiftRight (fieldOf b 0 6)
  | 8 => if fn = 0 then (if a.slt b then a else b) else (if a.ult b then a else b)
  | 9 => if fn = 0 then (if a.slt b then b else a) else (if a.ult b then b else a)
  | 10 =>
    if fn = 0 then word (fieldOf a 0 16 * fieldOf b 0 16)
    else BitVec.ofInt 64 ((BitVec.ofNat 16 (fieldOf a 0 16)).toInt * (BitVec.ofNat 16 (fieldOf b 0 16)).toInt)
  | 11 => wordOfBool (cellCompare fn a b)
  | _ => if c != 0 then a else b

/-- R336: the cells of a slot, evaluated in order. -/
def runCells (x1 x2 x3 : Word) : List Word → List Word → List Word
  | [], done => done
  | w :: t, done =>
    let src (lo : Nat) : Word := cellSource done done.length (fieldOf w lo 3) w x1 x2 x3
    runCells x1 x2 x3 t (done ++ [cellOp (fieldOf w 0 4) (fieldOf w 32 4) (src 4) (src 7) (src 10)])

/-- R336: the result of a slot: cell 15. -/
def runSlot (cells : List Word) (x1 x2 x3 : Word) : Word := (runCells x1 x2 x3 cells []).getD 15 0

/-- R335: the slot of a core is owned by another instance. -/
def slotTaken (k : Core) (slot : Nat) (inst : Nat × Nat) : Bool :=
  match k.slots.toList.getD slot none with
  | some x => (x.space, x.inst) != inst
  | none => false

/-- R336: `px.run`. -/
def execPxRun (rd rs1 rs2 rs3 : Reg) (slot : BitVec 2) (s : State) : Host.Outcome State Fault Refusal :=
  perform (.pxRun rd rs1 rs2 rs3 slot) (do
    barrelOnly (.pxRun rd rs1 rs2 rs3 slot)
    let s ← get
    let c ← me
    match (getCore s (coreOf s.cur)).slots.toList.getD slot.toNat none with
    | none => trap 2 (iword (.pxRun rd rs1 rs2 rs3 slot))
    | some x =>
      trapIf ((x.space, x.inst) != instOf c) 2 (iword (.pxRun rd rs1 rs2 rs3 slot))
      let (a, b, e) ← operand3 rs1 rs2 rs3 rd
      finishRd rd (runSlot x.cells a b e)) s

/-- R335: `px.load`. -/
def execPxLoad (slot : BitVec 2) (rs1 : Reg) (s : State) : Host.Outcome State Fault Refusal :=
  perform (.pxLoad slot rs1) (do
    barrelOnly (.pxLoad slot rs1)
    let a ← operand1 rs1 none
    trapIf (a.toNat % 128 != 0) 4 a
    let b ← memRead a 128 false .rlx .sys
    let s ← get
    let c ← me
    trapIf (!(wordsOf b).all cellOk) 2 (iword (.pxLoad slot rs1))
    trapIf (slotTaken (getCore s (coreOf s.cur)) slot.toNat (instOf c)) 2 (iword (.pxLoad slot rs1))
    modify fun s => modCore s (coreOf s.cur) fun k =>
      { k with slots := k.slots.setIfInBounds slot.toNat (some { space := (instOf c).1, inst := (instOf c).2, cells := wordsOf b }) }
    advance) s

end Sys2Proof.Machine
end

