-- ==== Sys2Proof/Machine/Pug.lean ====
section
/-! DEFINITION. Machine/Pug.lean: pug streams (R320 to R331): `pg.open`, `pg.close`, `pg.stat`, and the events of a stream. -/

namespace Sys2Proof.Machine

/-! Table descriptors -/

/-- R320: the fields of a table descriptor. -/
def tableOf (d : Vector Word 8) : Nat := d[0].toNat
def rowsOf (d : Vector Word 8) : Nat := fieldOf d[1] 0 32
def lenOf (d : Vector Word 8) : Nat := fieldOf d[1] 32 13
def rstrOf (d : Vector Word 8) : Nat := fieldOf d[2] 0 32
def cfmtOf (d : Vector Word 8) : Nat := fieldOf d[2] 32 2
def outBf16 (d : Vector Word 8) : Bool := bitOf d[2] 34
def modeOf (d : Vector Word 8) : Nat := fieldOf d[2] 35 2
def ringOf (d : Vector Word 8) : Nat := d[5].toNat
def slotsOf (d : Vector Word 8) : Nat := fieldOf d[6] 0 13

/-- R320: the size of a row. -/
def rowSize (d : Vector Word 8) : Nat :=
  match cfmtOf d with
  | 0 => 4 * lenOf d
  | 1 => 2 * lenOf d
  | 2 => 4 + lenOf d
  | _ => 4 + (lenOf d + 1) / 2

/-- R326: the size of an output element. -/
def outSize (d : Vector Word 8) : Nat := if outBf16 d then 2 else 4

/-- R326: Z, the stride of the pooled-row slots. -/
def slotStride (d : Vector Word 8) : Nat := 128 * ((lenOf d * outSize d + 127) / 128)

/-- R323: the checks of status 0x11. -/
def descOk (d : Vector Word 8) : Bool :=
  fieldOf d[1] 45 19 == 0 && fieldOf d[2] 37 27 == 0 && fieldOf d[4] 32 32 == 0 && fieldOf d[6] 13 51 == 0 && d[7] == 0 &&
  modeOf d != 3 && rowsOf d != 0 && lenOf d != 0 && decide (lenOf d ≤ 4096) && decide (rowSize d ≤ rstrOf d) &&
  rstrOf d % 4 == 0 && tableOf d % 4 == 0

/-- R323: the checks of status 0x12. -/
def ringOk (s : State) (a : Nat) (inst : Nat × Nat) (d : Vector Word 8) : Bool :=
  let n := slotsOf d * slotStride d
  let base := windowBase s a
  modeOf d != 2 ||
  (decide (2 ≤ slotsOf d) && ringOf d % 128 == 0 && decide (base ≤ ringOf d) && decide (ringOf d + n ≤ base + 2 ^ 24) &&
    (List.range ((n + 255) / 256)).all (fun i => ownsByte s (clusterOf a) (ringOf d - base + 256 * i) inst) &&
    ownsByte s (clusterOf a) (ringOf d - base + n - 1) inst)

/-! Streams -/

/-- A pug of a cluster. -/
def getPug (s : State) (cl p : Nat) : Option Pug := tfind (getCluster s cl).pugs p
/-- State with a pug replaced. -/
def setPug (s : State) (cl p : Nat) (x : Pug) : State := modCluster s cl fun k => { k with pugs := tset k.pugs p x }
/-- State with a pug free. -/
def freePug (s : State) (cl p : Nat) : State := modCluster s cl fun k => { k with pugs := terase k.pugs p }

/-- R322: the pug that an open takes; none when there is none (status 0x10). -/
def choosePug (s : State) (cl : Nat) (named : Bool) (n : Nat) : Option Nat :=
  let free (p : Nat) : Bool := (getPug s cl p).isNone
  if named then (if free n then some n else none) else (List.range Config.pugs).find? free

/-- R324: the status word of an open pug. -/
def pugStatus (s : State) (x : Pug) : Word :=
  let idle := (present s x.agent x.k).isEmpty && !pugWorks x
  word (x.flags.toNat + x.code.toNat * 2 ^ 8 + 2 ^ 16 + (if idle then 2 ^ 17 else 0) + x.errs * 2 ^ 32)

/-- R322, R325: the ends of a stream are lent to its pug, or returned. -/
def lendEnds (s : State) (a k j : Nat) (p : Option Nat) : State :=
  let lend (s : State) (n : Nat) : State := setEnd s a n { endOf s a n with lent := p }
  lend (lend s k) j

/-- The pug that an open or close of the context waits for. -/
def heldPug (s : State) (a : Nat) : Option (Nat × Pug) :=
  (getCluster s (clusterOf a)).pugs.find? fun p => p.2.agent == a && p.2.held

/-- R322, R325: READERS of a descriptor changes by an atomic. While its reply is on the way, the context waits with the change `f` of its pug; `s0`: the
state before the instruction, which keeps what the translation has marked (R413). -/
def readers (s0 : State) (f : State → State) (desc : Nat) (delta : Word) (why : Option (Nat → Park)) : Act Unit := do
  let (b, _) ← beginAtomic .add false (word (desc + 32)) 4 delta 0 false .ar .pkg
  match b with
  | .done _ => pure ()
  | .sent m => stop (.sendWith (f (translated .write (word (desc + 32)) 4 s0)) m why)

/-- R322: the descriptor of a stream: the one named, or the one its version word names, with what has been read for it; none for a misaligned one. -/
def countedDesc (a : Word) : Act (Option (Word × Vector Word 8 × List (Word × Nat))) := do
  let b ← memReadOne a 64 false .rlx .clus
  let d := words8 b
  if d[3] = 0 then pure (some (a, d, [(a, 64)]))
  else
    trapIf (d[3].toNat % 8 != 0) 4 d[3]
    let v ← memReadOne d[3] 8 false .aq .sys
    let dp := word (leNat v)
    if dp.toNat % 64 ≠ 0 then pure none
    else
      let b2 ← memReadOne dp 64 false .rlx .clus
      pure (some (dp, words8 b2, [(a, 64), (d[3], 8), (dp, 64)]))

/-- R413: the state before an instruction, with what the translations of its reads mark; the lines it has read of uncached memory are used up. -/
def afterReads (s0 : State) (reads : List (Word × Nat)) : State :=
  dropReads (reads.foldl (fun s r => translated .read r.1 r.2 s) s0) s0.cur

/-- R322, R323: the open of a stream whose ends have been checked; `s0`: the state before the instruction. -/
def openPug (s0 : State) (rd : Reg) (a b : Word) : Act Unit := do
  let cd ← countedDesc a
  doneUio
  match cd with
  | none => finishRd rd 0x11
  | some (dp, d, reads) =>
    let s ← get
    let c ← me
    let cl := clusterOf s.cur
    if !descOk d then finishRd rd 0x11
    else if !ringOk s s.cur (instOf c) d then finishRd rd 0x12
    else match choosePug s cl (bitOf b 6) (fieldOf b 7 4) with
      | none => finishRd rd 0x10
      | some p =>
        let x : Pug :=
          { agent := s.cur, space := c.space, inst := (instOf c).2, group := groupOf s s.cur, k := fieldOf b 0 3, j := fieldOf b 3 3,
            desc := dp.toNat, d, bag := 0, n := 0, acc := [], out := [], flags := 0, code := 0, errs := 0, hot := [], unused := [],
            page := none, badRow := none, held := false, closing := 0 }
        readers (afterReads s0 reads) (fun s => setPug s cl p { x with held := true }) dp.toNat 1 none
        modify fun s => lendEnds (setPug s cl p x) s.cur x.k x.j (some p)
        finishRd rd (word p)

/-- R322: the answer to the READERS update of an open. -/
def openAnswer (rd : Reg) (p : Nat) (x : Pug) : Reply → Act Unit
  | .value _ => do
    modMe fun c => { c with reply := none, sent := none, claim := none }
    modify fun s => lendEnds (setPug s (clusterOf s.cur) p { x with held := false }) s.cur x.k x.j (some p)
    finishRd rd (word p)
  | .trap cause tv => trap cause (if tv = 0 then word (x.desc + 32) else tv)
  | .offline => trap 30 (word (x.desc + 32))

/-- A stream whose opening has failed leaves no pug taken. -/
def dropHeld (s : State) : State :=
  if isHub s.cur then s
  else match (getCtx s s.cur).reply, heldPug s s.cur with
  | some (.trap _ _), some (p, _) | some .offline, some (p, _) => freePug s (clusterOf s.cur) p
  | _, _ => s

/-- R322: `pg.open`. -/
def execPgOpen (rd rs1 rs2 : Reg) (s : State) : Host.Outcome State Fault Refusal :=
  perform (.pgOpen rd rs1 rs2) (do
    barrelOnly (.pgOpen rd rs1 rs2)
    let (a, b) ← operand2 rs1 rs2 rd
    let now ← get
    match (getCtx s s.cur).reply, heldPug s s.cur with
    | some r, some (p, x) => openAnswer rd p x r
    | _, _ =>
      holdUnless (getCtx s s.cur).sent.isNone
      let k := fieldOf b 0 3
      let j := fieldOf b 3 3
      trapIf (!isReadEnd now now.cur k || isLent now now.cur k) 24 (word k)
      trapIf (!isWriteEnd now now.cur j || isLent now now.cur j) 24 (word j)
      trapIf (a.toNat % 64 != 0) 4 a
      openPug s rd a b) (dropHeld s)

/-- R324: `pg.stat`. -/
def execPgStat (rd rs1 : Reg) (s : State) : Host.Outcome State Fault Refusal :=
  perform (.pgStat rd rs1) (do
    barrelOnly (.pgStat rd rs1)
    let a ← operand1 rs1 rd
    let s ← get
    match getPug s (clusterOf s.cur) (fieldOf a 0 4) with
    | some x => finishRd rd (if x.agent = s.cur ∧ !x.held then pugStatus s x else 0)
    | none => finishRd rd 0) s

/-- R325, R9: a close whose update of READERS has failed leaves the stream open. -/
def reopenHeld (s : State) : State :=
  if isHub s.cur then s
  else match (getCtx s s.cur).reply, heldPug s s.cur with
  | some (.trap _ _), some (p, x) | some .offline, some (p, x) => setPug s (clusterOf s.cur) p { x with held := false }
  | _, _ => s

/-- R325, steps 4 and 5: the ends return and the pug becomes free. -/
def endStream (cl p : Nat) (x : Pug) : Act Unit := modify fun s => freePug (lendEnds s x.agent x.k x.j none) cl p

/-- R325: `pg.close`. -/
def execPgClose (rd rs1 : Reg) (s : State) : Host.Outcome State Fault Refusal :=
  perform (.pgClose rd rs1) (do
    barrelOnly (.pgClose rd rs1)
    let a ← operand1 rs1 rd
    let now ← get
    let c ← me
    let cl := clusterOf now.cur
    let p := fieldOf a 0 4
    match getPug now cl p with
    | none => finishRd rd 0
    | some x =>
      if x.agent ≠ now.cur then finishRd rd 0
      else match c.reply with
        | some r =>
          modMe fun c => { c with reply := none, sent := none, claim := none }
          match r with
          | .value _ =>
            endStream cl p x
            finishRd rd x.closing
          | .trap cause tv => trap cause (if tv = 0 then word (x.desc + 32) else tv)
          | .offline => trap 30 (word (x.desc + 32))
        | none =>
          parkUnless (pugDrained now cl p) (.pugClose p)
          readers s (fun s => setPug s cl p { x with held := true, closing := pugStatus now x }) x.desc (BitVec.ofInt 64 (-1)) (some fun _ => .pugClose p)
          endStream cl p x
          finishRd rd (pugStatus now x)) (reopenHeld s)

/-! The stream -/

/-- The actor that a stream is. -/
def pugActor (x : Pug) (s : State) : Actor := { agent := x.agent, space := x.space, sup := (getCtx s x.agent).sup, inst := (x.space, x.inst) }

/-- R118, R326: element `c` of a row, as an fp32 encoding, with flags. -/
def rowElem (d : Vector Word 8) (row : List Byte) (c : Nat) : Nat × BitVec 5 :=
  let code (n : Nat) : Nat × BitVec 5 :=
    let scale := decodeF fp16 (leNat (row.take 2))
    let off := decodeF fp16 (leNat ((row.drop 2).take 2))
    let (v, f1) := fmaV false false false (Val.ofInt n) scale off
    let (e, f2, _) := roundF fp32 .rne false 0 v
    (e, f1 ||| f2)
  match cfmtOf d with
  | 0 => (leNat ((row.drop (4 * c)).take 4), 0)
  | 1 => (leNat ((row.drop (2 * c)).take 2) * 65536, 0)
  | 2 => code (leNat ((row.drop (4 + c)).take 1))
  | _ => code (nbits (leNat ((row.drop (4 + c / 2)).take 1)) (4 * (c % 2)) 4)

/-- R326: out(x) of an fp32 encoding. The manual does not say whether rounding a signaling NaN here raises NV, as `vcvt` and `conv` do: here it does
not (log entry 81). -/
def pugOut (d : Vector Word 8) (x : Nat) : Nat × BitVec 5 :=
  let (e, f, _) := roundF (if outBf16 d then bf16 else fp32) .rne false 0 (decodeF fp32 x)
  (e, f)

/-- The values of some elements as entries, with their flags. -/
def outEntries (d : Vector Word 8) (l : List (Nat × BitVec 5)) : List Entry × BitVec 5 :=
  l.foldl (fun acc v => let (e, f) := pugOut d v.1; (acc.1 ++ [dataEntry (word e)], acc.2 ||| v.2 ||| f)) ([], 0)

/-- R326: a row added to a bag's sums: `none` for the first row. -/
def addRow (acc : List (BitVec 32)) (first : Bool) (l : List (Nat × BitVec 5)) : List (BitVec 32) × BitVec 5 :=
  if first then (l.map fun v => BitVec.ofNat 32 v.1, l.foldl (fun f v => f ||| v.2) 0)
  else
    let sums := (acc.zip l).map fun p =>
      let (v, f1) := addV false (decodeF fp32 p.1.toNat) (decodeF fp32 p.2.1)
      let (e, f2, _) := roundF fp32 .rne false 0 v
      (BitVec.ofNat 32 e, p.2.2 ||| f1 ||| f2)
    (sums.map (·.1), sums.foldl (fun f v => f ||| v.2) 0)

/-- R111: the canonical NaN of fp32. -/
def nan32 : Nat := 0x7FC00000

/-- R326, R329: the row and the columns that an index names; `none` for a BOUND fault. -/
def lookupOf (d : Vector Word 8) (i : Nat) : Option Nat × List Nat :=
  if modeOf d = 0 then (if i < rowsOf d * lenOf d then some (i / lenOf d) else none, [i % lenOf d])
  else (if i < rowsOf d then some i else none, List.range (lenOf d))

/-- R326: the values of a lookup take effect: they wait to be pushed, or are added to the bag. -/
def useValues (x : Pug) (l : List (Nat × BitVec 5)) : Pug :=
  if modeOf x.d = 2 then
    let (acc, f) := addRow x.acc (x.n == 0) l
    { x with acc, n := x.n + 1, flags := x.flags ||| f }
  else
    let (es, f) := outEntries x.d l
    { x with out := es, flags := x.flags ||| f }

/-- R324, R329: a fault is counted. -/
def countFault (x : Pug) (code : BitVec 8) : Pug :=
  { x with errs := min 0xFFFFFFFF (x.errs + 1), code := if x.code = 0 then code else x.code }

/-- R329: a faulted lookup yields NaNs. -/
def faultLookup (x : Pug) (cols : List Nat) (code : BitVec 8) : Pug :=
  countFault (useValues x (cols.map fun _ => (nan32, 0))) code

/-- R40, R418: what the pop of the index queue waits for before the head's slot can be read. -/
def pugNeedsSlot (s : State) (x : Pug) : Option (List Req) :=
  (endOf s x.agent x.k).queue.bind (findQueue s) |>.bind fun q => match localItems q x.agent with
    | it :: _ => slotNeeds s q it.pos .read
    | [] => none

/-- R326: the head of the index queue, and the state without it. A pug takes an entry from a coil's owner as one action. -/
def pugPop (s : State) (x : Pug) : Option (Entry × State) :=
  match popEnd s x.agent x.k with
  | some r => some r
  | none => match (endOf s x.agent x.k).queue.bind (findQueue s) with
    | none => none
    | some q => match takeItem q x.agent with
      | none => none
      | some (it, q') => some (itemEntry s q it, setQueue s q')

/-- R327, R330: an output entry is pushed to the value queue when it has room; the push is a release at the queue's scope. -/
def pugPush (s : State) (cl p : Nat) (x : Pug) (e : Entry) (t : List Entry) : State :=
  match (endOf s x.agent x.j).queue.bind (findQueue s) with
  | none => setPug s cl p { x with out := t }
  | some q => if canPush s q x.agent e && enginesSettled s (queueScope q) && (!q.coil || cl == q.core / 256 || hasCredit s (q.core / 256)) then pushQueue (setPug s cl p { x with out := t }) q x.agent e else s

/-- R328: where the bytes of a row come from: the cache, memory, or a fault. -/
inductive RowRes where
  | hit (row : List Byte)
  | fault (code : BitVec 8)
  | miss

/-- R328, R329: a row for a lookup. A row that memory can supply is first fetched (`pug row fetch`). -/
def rowFor (s : State) (x : Pug) (r : Nat) : RowRes :=
  match x.hot.find? fun h => h.1 == r with
  | some h => .hit h.2
  | none =>
    if x.badRow = some r then .fault 1
    else match engFetch s (pugActor x s) (tableOf x.d + r * rstrOf x.d) (rowSize x.d) with
      | .ok _ => .miss
      | .error e => match e.code with
        | some c => .fault c
        | none => .miss

/-- R331, R397: the instance of the stream is being pre-empted or is stopped: the pug takes no further entry. -/
def pugStopped (s : State) (x : Pug) : Bool := heldInst s (partOf s x.agent) x.space x.inst

/-- R326: one action of a stream: a push of an output, or a pop of an index or token that needs no fetch and closes no bag. -/
def pugStep (s : State) (cl p : Nat) (x : Pug) : State :=
  match x.out with
  | e :: t => pugPush s cl p x e t
  | [] => if pugStopped s x then s else match pugNeedsSlot s x with
    | some r => applyReqs s r
    | none => match pugPop s x with
    | none => s
    | some (e, s1) =>
      if e.isToken then
        if modeOf x.d = 2 ∧ (e.level = 1 ∨ 0 < x.n) then s else setPug s1 cl p { x with out := [e] }
      else
        let (row, cols) := lookupOf x.d e.payload.toNat
        let done (s : State) (x : Pug) : State := countCluster (setPug s cl p x) cl 0x14 1
        match row with
        | none => done s1 (faultLookup x cols 5)
        | some r => match rowFor s x r with
          | .miss => s
          | .fault c => done s1 (faultLookup { x with badRow := none } cols c)
          | .hit b =>
            let hot := (r, b) :: x.hot.filter fun h => h.1 != r
            let s2 := done s1 (useValues { x with hot, unused := x.unused.filter (· != r) } (cols.map fun c => rowElem x.d b c))
            if x.unused.contains r then s2 else countCluster s2 cl 0x15 1

/-- R326: `pug lookup`. -/
def execPugLookup (cluster pug : Nat) (s : State) : Out :=
  if Config.clusters ≤ cluster ∨ 16 ≤ pug then .fault .noSuchObject
  else match getPug s cluster pug with
    | none => .next s
    | some x => if x.held || x.page.isSome then .next s else .next (pugStep s cluster pug x)

/-- R326, R328: the row that the head of the index queue asks for and that must be fetched before its lookup. -/
def rowWanted (s : State) (x : Pug) : Option Nat :=
  match pugPop s x with
  | none => none
  | some (e, _) =>
    if e.isToken then none
    else match (lookupOf x.d e.payload.toNat).1 with
      | none => none
      | some r => match rowFor s x r with
        | .miss => some r
        | _ => none

/-- R329, R392: the stream's page request; refused at once under NOPR or after a Response Failure. -/
def pugPage (s : State) (cl p : Nat) (x : Pug) (va r : Nat) : State :=
  let part := partOf s x.agent
  let w1 := spaceWord s part x.space
  if bitOf w1 28 || (getPart s part).prFailed then setPug s cl p { x with badRow := some r }
  else
    let (id, s) := sendGroup s part (fieldOf w1 0 20) (.pug cl p) [(va / 4096 * 4096, false)]
    setPug s cl p { x with page := some (id, r) }

/-- R411: the first page of a stretch that is not present. -/
def missingVa (s : State) (w : Actor) : Nat → Nat → Nat → Nat
  | 0, va, _ => va
  | fuel + 1, va, n =>
    let k := min n (4096 - va % 4096)
    match engLoc s w va k .read with
    | .error (.notPresent _) => va
    | _ => if n ≤ k then va else missingVa s w fuel (va + k) (n - k)

/-- R328: a pug keeps up to 16 row fetches in flight: the rows that the first 16 entries of its index queue name. -/
def namedRows (s : State) (x : Pug) : List Nat :=
  let e := endOf s x.agent x.k
  let here := match e.queue.bind (findQueue s) with
    | some q => (localItems q x.agent).map (itemEntry s q)
    | none => []
  ((e.got.map (·.entry) ++ here).take 16).filterMap fun i => if i.isToken then none else (lookupOf x.d i.payload.toNat).1

/-- R328: `pug row fetch`: a row that an index of the queue names returns whole and enters the cache; the least recently used row leaves a full one. -/
def execPugRowFetch (cluster pug row : Nat) (s : State) : Out :=
  if Config.clusters ≤ cluster ∨ 16 ≤ pug then .fault .noSuchObject
  else match getPug s cluster pug with
    | none => .next s
    | some x =>
      if x.held || x.page.isSome || pugStopped s x || !((namedRows s x).contains row) || (x.hot.any fun h => h.1 == row) || decide (rowsOf x.d ≤ row) || x.badRow == some row then .next s
      else
        let va := tableOf x.d + row * rstrOf x.d
        match engFetch s (pugActor x s) va (rowSize x.d) with
        | .ok (b, _, s') => .next (setPug (dropUio s') cluster pug { x with
            hot := (row, b) :: x.hot.take (Config.hotRows - 1)
            unused := row :: x.unused.filter (· != row) })
        | .error (.wait q) => .next (applyReqs s q)
        | .error (.notPresent lines) => .next (pugPage (holdLines s x.agent lines) cluster pug x (missingVa s (pugActor x s) 8 va (rowSize x.d)) row)
        | .error _ => .next s

/-- R326: the value entry that used a slot's address has been popped from qj. -/
def slotFree (s : State) (x : Pug) : Bool :=
  let b := x.bag
  let addr := word (ringOf x.d + (b + 1) % slotsOf x.d * slotStride x.d)
  let isAddr (e : Entry) : Bool := !e.isToken && e.payload == addr
  decide (b < slotsOf x.d - 1) ||
  (match (endOf s x.agent x.j).queue with
    | none => true
    | some q =>
      !(match findQueue s q with | some v => v.items.any fun i => isAddr i.entry | none => false) &&
      !(s.coilMsgs.any fun m => m.queue == q && isAddr m.entry) &&
      !(s.ctxs.any fun c => c.2.ends.toList.any fun d => d.queue == some q && d.got.any fun i => isAddr i.entry))

/-- R326, R329: the pooled row is written to its slot, and its address and the token wait to be pushed. -/
def closeBag (s : State) (cl p : Nat) (x : Pug) (token : Entry) : State :=
  let a := ringOf x.d + x.bag % slotsOf x.d * slotStride x.d
  let vals := if x.n = 0 then List.replicate (lenOf x.d) ((0 : Nat), (0 : BitVec 5)) else x.acc.map fun v => pugOut x.d v.toNat
  let bytes := vals.flatMap fun v => leBytes (outSize x.d) v.1
  let x' := { x with
    flags := vals.foldl (fun f v => f ||| v.2) x.flags
    out := [dataEntry (word a), token]
    bag := x.bag + 1
    n := 0
    acc := [] }
  let off := a - windowBase s x.agent
  if ownsBytes s cl off bytes.length (x.space, x.inst) then
    setPug (spadWrite s engineAgent (cellsAt (cl * 2 ^ 24 + off) bytes)) cl p x'
  else setPug s cl p (countFault x' 2)

/-- R326: `pug bag close`: the head of the index queue is a token that closes the bag, and the bag's slot is free. -/
def execPugBagClose (cluster pug : Nat) (s : State) : Out :=
  if Config.clusters ≤ cluster ∨ 16 ≤ pug then .fault .noSuchObject
  else match getPug s cluster pug with
    | none => .next s
    | some x =>
      if x.held || x.page.isSome || pugStopped s x || !x.out.isEmpty || modeOf x.d != 2 || !slotFree s x then .next s
      else if let some r := pugNeedsSlot s x then .next (applyReqs s r)
      else match pugPop s x with
        | none => .next s
        | some (e, s1) =>
          if e.isToken && (e.level == 1 || decide (0 < x.n)) then .next (closeBag s1 cluster pug x e) else .next s

/-- R393: the answer to a page request group is taken from the list; a Response Failure is remembered. -/
def takeAnswer (s : State) (p : PageReq) (code : BitVec 8) : State :=
  let s := { s with pages := s.pages.filter fun x => x.id != p.id }
  if code = 0x0F then modPart s p.part fun x => { x with prFailed := true } else s

/-- R329: `pug page response`. -/
def execPugPageResponse (id : Nat) (code : BitVec 8) (s : State) : Out :=
  match s.pages.find? fun p => p.id == id && p.sent with
  | none => .next s
  | some g => match g.who with
    | .pug cl p =>
      let s := takeAnswer s g code
      match getPug s cl p with
      | some x => match x.page with
        | some (i, r) => if i = id then .next (setPug s cl p { x with page := none, badRow := if code = 0 then x.badRow else some r }) else .next s
        | none => .next s
      | none => .next s
    | _ => .next s

end Sys2Proof.Machine
end

