-- ==== Sys2Proof/Machine/Supervisor.lean ====
section
/-! DEFINITION. Machine/Supervisor.lean: the supervisor device operations `cx.rd`, `cx.wr`, `own.set`, `own.get` and `esc.res` (R386 to
R388). -/

namespace Sys2Proof.Machine

/-- R387: the item that a selector names: context, kind and index; none on a hub core with REMOTE = 0, and for a core of another
partition (log entry 13). -/
def selected (v : Word) : Act (Option (Nat × Nat × Nat)) := do
  let s ← get
  let item (core : Nat) : Nat × Nat × Nat := (agentOf core (fieldOf v 0 4), fieldOf v 4 1, fieldOf v 5 12)
  if isHub s.cur then
    let core := fieldOf v 17 13
    pure (if bitOf v 30 && partOf s (agentOf core 0) == partOf s s.cur then some (item core) else none)
  else
    trapIf (bitOf v 30 || fieldOf v 0 4 == 0) 26 v
    pure (some (item (coreOf s.cur)))

/-- R387: `cx.wr` may write a context: it is TRAPPED, or PARKED on `ctx.park`. -/
def cxWritable (c : Ctx) : Bool :=
  match c.status with
  | .trapped | .parked .self => true
  | _ => false

/-- R387: `cx.rd`. -/
def execCxRd (rd rs1 : Reg) (s : State) : Host.Outcome State Fault Refusal :=
  perform (.cxRd rd rs1) (do
    supervisorOnly (.cxRd rd rs1)
    let v ← operand1 rs1 rd
    let s ← get
    match ← selected v with
    | none => finishRd rd 0
    | some (t, kind, idx) => finishRd rd (readItem s t kind idx)) s

/-- R387: `cx.wr`. -/
def execCxWr (rs1 rs2 : Reg) (s : State) : Host.Outcome State Fault Refusal :=
  perform (.cxWr rs1 rs2) (do
    supervisorOnly (.cxWr rs1 rs2)
    let (v, x) ← operand2 rs1 rs2 none
    match ← selected v with
    | none => pure ()
    | some (t, kind, idx) => modify fun s => if cxWritable (getCtx s t) then writeItem s t kind idx x else s
    advance) s

/-- R388: the owner tag of a block of a core's scratchpad is written: SPACE, INST and NONE. -/
def setOwner (s : State) (core b : Nat) (v : Word) : State :=
  modCore s core fun k => { k with owner := tset k.owner b (v &&& 0x1FFFFFFFF) }

/-- R388: the tag that names an instance. -/
def instTag (space inst : Nat) : Word := word (space + inst * 2 ^ 16)

/-- R388: `own.set`. -/
def execOwnSet (rs1 rs2 : Reg) (s : State) : Host.Outcome State Fault Refusal :=
  perform (.ownSet rs1 rs2) (do
    barrelOnly (.ownSet rs1 rs2)
    supervisorOnly (.ownSet rs1 rs2)
    let (b, v) ← operand2 rs1 rs2 none
    modify fun s => setOwner s (coreOf s.cur) (fieldOf b 0 4) v
    advance) s

/-- R388: `own.get`. -/
def execOwnGet (rd rs1 : Reg) (s : State) : Host.Outcome State Fault Refusal :=
  perform (.ownGet rd rs1) (do
    barrelOnly (.ownGet rd rs1)
    supervisorOnly (.ownGet rd rs1)
    let b ← operand1 rs1 rd
    let s ← get
    finishRd rd (ownerTag (getCore s (coreOf s.cur)) (fieldOf b 0 4))) s

/-- R387: context 0 of a core continues at its saved pc, and the core's delivered escalations leave the lists of the hub cores; one
that is not yet delivered stays (log entry 14). Only a TRAPPED context 0 continues, as R387 and R403 say; R207 speaks of a hub that resumes one
parked on `ctx.park` (log entry 91). -/
def resumeZero (s : State) (core : Nat) : State :=
  let a := agentOf core 0
  if (getCtx s a).status ≠ .trapped then s
  else
    let s := modCtx s a fun c => { c with status := .ready, trapRec := none }
    { s with hubs := s.hubs.map fun e => (e.1, { e.2 with taken := e.2.taken.filter (· != core) }) }

/-- R387: `esc.res`. -/
def execEscRes (rs1 : Reg) (s : State) : Host.Outcome State Fault Refusal :=
  perform (.escRes rs1) (do
    supervisorOnly (.escRes rs1)
    let now ← get
    trapIf (!isHub now.cur) 2 (iword (.escRes rs1))
    let v ← operand1 rs1 none
    modify fun s =>
      let core := fieldOf v 0 13
      if partOf s (agentOf core 0) = partOf s s.cur then resumeZero s core else s
    advance) s

end Sys2Proof.Machine
end

