-- ==== Sys2Proof/Machine/Tensor.lean ====
section
/-! DEFINITION. Machine/Tensor.lean: tensor records, elements and scale slots (R109 to R117, R291 to R294), the fields of tile commands
(R150), and the arithmetic of kilns and data commands (R130, R304). -/

namespace Sys2Proof.Machine

/-! Formats (R292) -/

/-- R292: FMT of a block-scaled format. -/
def fmtScaled (f : Nat) : Bool := decide (0x0B ≤ f) && decide (f ≤ 0x10)

/-- R114: the format of the elements of a block-scaled format. -/
def fmtBase (f : Nat) : Nat :=
  match f with
  | 0x0B => 0x03
  | 0x0C => 0x04
  | 0x0D => 0x05
  | 0x0E => 0x06
  | 0x0F => 0x08
  | _ => f

/-- R109, R292: the width in bits of a stored element. -/
def fmtBits (f : Nat) : Nat :=
  match fmtBase f with
  | 0x00 | 0x09 => 32
  | 0x01 | 0x02 | 0x0A | 0x10 => 16
  | 0x03 | 0x04 | 0x06 | 0x07 => 8
  | _ => 4

/-- The bytes that hold a stored element. -/
def fmtBytes (f : Nat) : Nat := max 1 (fmtBits f / 8)

/-- R150: the K granule of B's format. -/
def fmtGranule (f : Nat) : Nat := if f = 0x10 then 256 else 1024 / fmtBits f

/-- R110: the floating-point formats. -/
def fmtFloat (f : Nat) : Option FFmt :=
  match fmtBase f with
  | 0x00 => some fp32
  | 0x01 => some bf16
  | 0x02 => some fp16
  | 0x03 => some e4m3
  | 0x04 => some e5m2
  | 0x05 => some e2m1
  | _ => none

/-- R112: the range of an integer format; meta4 is an unsigned nibble (log entry 15). -/
def fmtRange (f : Nat) : Int × Int :=
  match fmtBase f with
  | 0x06 => (-128, 127)
  | 0x07 => (0, 255)
  | 0x08 => (-8, 7)
  | 0x09 => (-2147483648, 2147483647)
  | 0x0A => (-32768, 32767)
  | _ => (0, 15)

/-- R110, R112: the value of a stored element. -/
def fmtVal (f raw : Nat) : Val :=
  match fmtFloat f with
  | some x => decodeF x raw
  | none => if (fmtRange f).1 < 0 then Val.ofInt (BitVec.ofNat (fmtBits f) raw).toInt else Val.ofInt raw

/-- R112: the value of a stored element of an integer format. -/
def fmtInt (f raw : Nat) : Int := if (fmtRange f).1 < 0 then (BitVec.ofNat (fmtBits f) raw).toInt else raw

/-- R117: the sign of weight i of a cb2 index: s(7) makes the count of negative weights even. -/
def cb2Sign (idx i : Nat) : Bool :=
  if i < 7 then idx.testBit (1 + i) else ((List.range 7).filter fun j => idx.testBit (1 + j)).length % 2 == 1

/-- R115, R117: weight i of a cb2 index under a glaze table. -/
def cb2Weight (rows : List (BitVec 32)) (idx i : Nat) : Val :=
  let row := (rows.getD (idx / 256 % 256) 0).toNat
  .fin (cb2Sign idx i) (2 * nbits row (3 * i) 3 + idx % 2) (-1) false

/-! Tensor records (R291) -/

/-- A tensor record. -/
abbrev TRec := Vector Word 8

/-- R291: FMT. -/
def trFmt (t : TRec) : Nat := fieldOf t[7] 0 5
/-- R291: ZPAD. -/
def trZpad (t : TRec) : Bool := bitOf t[7] 9
/-- R291, R292: FMT is reserved or a reserved bit is set. -/
def trBad (t : TRec) : Bool := decide (0x11 < trFmt t) || fieldOf t[7] 5 3 != 0 || fieldOf t[7] 10 54 != 0
/-- R291, R296: BASE or SBASE is misaligned. -/
def trMisaligned (t : TRec) : Bool :=
  t[0].toNat % fmtBytes (trFmt t) != 0 || (fmtScaled (trFmt t) && t[5].toNat % 4 != 0)
/-- R291: the column extents' product. -/
def trCols (t : TRec) : Nat := fieldOf t[1] 0 32 * fieldOf t[1] 32 32
/-- R291: the row extents' product. -/
def trRows (t : TRec) : Nat := fieldOf t[2] 0 32 * fieldOf t[2] 32 32

/-- R293: the row that the map uses. -/
def mapRow (t : TRec) (r : Nat) : Nat := if trFmt t = 0x10 then r / 8 else r

/-- R293: a coordinate is in range. -/
def trIn (t : TRec) (r c : Nat) : Bool := decide (c < trCols t) && decide (mapRow t r < trRows t)

/-- R293: the element offset of a coordinate in range. -/
def trOffset (t : TRec) (r c : Nat) : Int :=
  let e0 := fieldOf t[1] 0 32
  let e2 := fieldOf t[2] 0 32
  let r := mapRow t r
  (c % e0 : Nat) * sfield32 t[3] 0 + (c / e0 : Nat) * sfield32 t[3] 32 +
    (r % e2 : Nat) * sfield32 t[4] 0 + (r / e2 : Nat) * sfield32 t[4] 32

/-- Where an element lies: virtual address and nibble; none out of range. -/
abbrev Place := Option (Nat × Nat)

/-- R293: the place of an element. -/
def trPlace (t : TRec) (r c : Nat) : Place :=
  if trIn t r c then
    let o := trOffset t r c
    let at_ (i : Int) : Nat := (t[0] + BitVec.ofInt 64 i).toNat
    if fmtBits (trFmt t) = 4 then some (at_ (o / 2), (o % 2).toNat)
    else some (at_ (o * (fmtBytes (trFmt t) : Int)), 0)
  else none

/-- R294: the place of the scale slot of an element; none when the element is out of range (R300). `brole`: K along rows. -/
def trScale (t : TRec) (brole : Bool) (inRange : Bool) (r c : Nat) : Place :=
  if inRange then
    let s0 := sfield32 t[6] 0
    let s1 := sfield32 t[6] 32
    let o : Int := if brole then (r / 32 : Nat) * s0 + (c : Nat) * s1 else (r : Nat) * s0 + (c / 32 : Nat) * s1
    some ((t[5] + BitVec.ofInt 64 (4 * o)).toNat, 0)
  else none

/-- A rectangle of a record: first row, rows, first column, columns. -/
structure Region where
  r0 : Nat
  nr : Nat
  c0 : Nat
  nc : Nat
  deriving DecidableEq, Repr

/-- R296, check 8: every coordinate of a region is in range, or the record pads reads. -/
def Region.ok (g : Region) (t : TRec) (write : Bool) : Bool :=
  (!write && trZpad t) || trIn t (g.r0 + g.nr - 1) (g.c0 + g.nc - 1)

/-- The coordinates of a region, row by row. -/
def Region.coords (g : Region) : List (Nat × Nat) :=
  (List.range g.nr).flatMap fun i => (List.range g.nc).map fun j => (g.r0 + i, g.c0 + j)

/-- The places of a region, row by row. -/
def Region.places (g : Region) (t : TRec) : List Place := g.coords.map fun p => trPlace t p.1 p.2

/-! Fields of a command (R150) -/

/-- R150, R151: the fields of a tile command. -/
def Cmd.op (c : Cmd) : Nat := fieldOf c.w0 0 8
def Cmd.prio (c : Cmd) : Nat := fieldOf c.w0 14 3
def Cmd.acc (c : Cmd) : Bool := bitOf c.w0 18
def Cmd.nf (c : Cmd) : Bool := bitOf c.w0 19
def Cmd.sat (c : Cmd) : Bool := bitOf c.w0 23
def Cmd.retry (c : Cmd) : Bool := bitOf c.w0 24
def Cmd.coneNo (c : Cmd) : Nat := fieldOf c.w1 0 12
def Cmd.tidM (c : Cmd) : Nat := fieldOf c.w1 42 10
def Cmd.m (c : Cmd) : Nat := fieldOf c.w3 35 7 + 1
def Cmd.ks (c : Cmd) : Nat := fieldOf c.w3 42 9 + 1
def Cmd.stat (c : Cmd) : Nat := fieldOf c.w3 51 13
/-- R119: the resolved rounding mode. -/
def Cmd.rnd (c : Cmd) : RMode :=
  match fieldOf c.w0 20 3 with
  | 0 => .rne
  | 1 => .rtz
  | 2 => .rdn
  | 3 => .rup
  | 4 => .rmm
  | _ => .sto
/-- R298: a matrix command. -/
def Cmd.isMatrix (c : Cmd) : Bool := c.op == 1 || c.op == 2
/-- R301: `mma.sp`. -/
def Cmd.sparse (c : Cmd) : Bool := c.op == 2

/-- A record of a command, or zeros. -/
def recOf (t : Option TRec) : TRec := t.getD (Vector.replicate 8 0)

/-- R150, R298: G. -/
def Cmd.g (c : Cmd) : Nat := fmtGranule (trFmt (recOf c.tb))
/-- R298: K. -/
def Cmd.k (c : Cmd) : Nat := c.ks * c.g

/-- R298, R301: A's stored elements. -/
def Cmd.regA (c : Cmd) : Region :=
  let d := if c.sparse then 2 else 1
  ⟨fieldOf c.w2 0 20, c.m, fieldOf c.w2 20 14 * c.g / d, c.k / d⟩
/-- R298: B. -/
def Cmd.regB (c : Cmd) : Region := ⟨fieldOf c.w2 34 14 * c.g, c.k, 32 * fieldOf c.w2 48 15, 32⟩
/-- R298: C. -/
def Cmd.regC (c : Cmd) : Region := ⟨fieldOf c.w3 0 20, c.m, 32 * fieldOf c.w3 20 15, 32⟩
/-- R301: the metadata. -/
def Cmd.regM (c : Cmd) : Region := ⟨fieldOf c.w2 0 20, c.m, fieldOf c.w2 20 14 * c.g / 4, c.k / 4⟩
/-- R302: the source of a data command. -/
def Cmd.regSrc (c : Cmd) : Region := ⟨fieldOf c.w2 0 20, c.m, 32 * fieldOf c.w2 20 14, 32 * c.ks⟩
/-- R302: the destination of a data command. -/
def Cmd.regDst (c : Cmd) : Region := ⟨fieldOf c.w3 0 20, c.m, 32 * fieldOf c.w3 20 15, 32 * c.ks⟩

/-- R294, R300: the scale slots of A: one for each row and block of 32. -/
def Cmd.slotsA (c : Cmd) : List Place :=
  let t := recOf c.ta
  let g := c.regA
  let k0 := fieldOf c.w2 20 14 * c.g
  let d := if c.sparse then 2 else 1
  if fmtScaled (trFmt t) then
    (List.range g.nr).flatMap fun i => (List.range (c.k / 32)).map fun b =>
      trScale t false (trIn t (g.r0 + i) (g.c0 + 32 * b / d)) (g.r0 + i) (k0 + 32 * b)
  else []

/-- R294, R300: the scale slots of B: one for each block of 32 and column. -/
def Cmd.slotsB (c : Cmd) : List Place :=
  let t := recOf c.tb
  let g := c.regB
  if fmtScaled (trFmt t) then
    (List.range (c.k / 32)).flatMap fun b => (List.range 32).map fun n =>
      trScale t true (trIn t (g.r0 + 32 * b) (g.c0 + n)) (g.r0 + 32 * b) (g.c0 + n)
  else []

/-- R294, R304: the scale slots of the source of `conv`: one for each element. -/
def Cmd.slotsSrc (c : Cmd) : List Place :=
  let t := recOf c.ta
  if fmtScaled (trFmt t) then c.regSrc.coords.map fun p => trScale t false (trIn t p.1 p.2) p.1 p.2 else []

/-! Arithmetic of a kiln (R130) -/

/-- R130: the exact sum of the products of one block; none is an absent position of `mma.sp`. Infinities of both signs have no sum; that raises no NV,
which R130 keeps for three other cases (log entry 16). -/
def blockSum (l : List (Option Val × Val)) : Val × BitVec 5 :=
  let ps := l.filterMap fun p => p.1.map fun a => mulV a p.2
  let fl := ps.foldl (fun f p => f ||| p.2) 0
  let both := (ps.any fun p => p.1 == .inf false) && ps.any fun p => p.1 == .inf true
  if (ps.any fun p => p.1.isNan) || both then (.nan false, fl)
  else match ps with
    | [] => (.fin false 0 0 false, fl)
    | p :: t => (t.foldl (fun a q => (addV false a q.1).1) p.1, fl)

/-- R130: a block's sum scaled and rounded to fp32. -/
def blockVal (l : List (Option Val × Val)) (scale : Val) : Val × BitVec 5 :=
  let (p, f1) := blockSum l
  let (v, f2) := mulV scale p
  let (e, f3, _) := roundF fp32 .rne false 0 v
  (decodeF fp32 e, f1 ||| f2 ||| f3)

/-- R130: the running sum over the blocks of one element. -/
def runBlocks : Option Val → List (List (Option Val × Val) × Val) → BitVec 5 → Val × BitVec 5
  | run, [], f => (run.getD (.fin false 0 0 false), f)
  | none, b :: t, f =>
    let (v, f1) := blockVal b.1 b.2
    runBlocks (some v) t (f ||| f1)
  | some r, b :: t, f =>
    let (v, f1) := blockVal b.1 b.2
    let (x, f2) := addV false r v
    let (e, f3, _) := roundF fp32 .rne false 0 x
    runBlocks (some (decodeF fp32 e)) t (f ||| f1 ||| f2 ||| f3)

/-- R130: sat32. -/
def satAcc (v : Int) : Int × BitVec 5 :=
  if v < -2147483648 then (-2147483648, fOF) else if 2147483647 < v then (2147483647, fOF) else (v, 0)

/-- R130: the running sum of the integer formats. -/
def runInts : Option Int → List (List (Option Int × Int)) → BitVec 5 → Int × BitVec 5
  | run, [], f => (run.getD 0, f)
  | run, b :: t, f =>
    let s : Int := b.foldl (fun n p => match p.1 with | some a => n + a * p.2 | none => n) 0
    match run with
    | none => runInts (some s) t f
    | some r =>
      let (v, f1) := satAcc (r + s)
      runInts (some v) t (f ||| f1)

/-- What a member's kiln has read: A's positions (none: absent) and scales by row, B (none: out of range) and its scales, and C, as raw
elements. -/
structure Panel where
  m : Nat
  k : Nat
  a : Array (Option Nat)
  b : Array (Option Nat)
  sa : Array Val
  sb : Array Val
  c : Array Nat
  deriving Repr

/-- One: the scale of a format without scales. -/
def oneV : Val := .fin false 1 0 false

/-- R130: one element of C before rounding: an integer sum or a value. -/
structure Member where
  fa : Nat
  fb : Nat
  fc : Nat
  rows : List (BitVec 32)
  acc : Bool
  mode : RMode
  sat : Bool
  deriving Repr

/-- R117: the value of B's element (k, n) as stored: cb2 indices are decoded. -/
def bVal (w : Member) (b : Option Nat) (k : Nat) : Val :=
  match b with
  | none => .fin false 0 0 false
  | some v => if w.fb = 0x10 then cb2Weight w.rows v (k % 8) else fmtVal w.fb v

/-- R130: element (m, n) of C: its encoding, flags and the generator after. -/
def kilnElem (w : Member) (p : Panel) (m n : Nat) (g : BitVec 32) : Nat × BitVec 5 × BitVec 32 :=
  let blocks := List.range (p.k / 32)
  let ks (b : Nat) : List Nat := (List.range 32).map (32 * b + ·)
  let araw (k : Nat) : Option Nat := p.a.getD (m * p.k + k) none
  let braw (k : Nat) : Option Nat := p.b.getD (32 * k + n) none
  let cold : Nat := p.c.getD (32 * m + n) 0
  if w.fc = 0x09 then
    let (run, f) := runInts none (blocks.map fun b => (ks b).map fun k => ((araw k).map (fmtInt w.fa), fmtInt w.fb ((braw k).getD 0))) 0
    let (v, f2) := satAcc (if w.acc then run + fmtInt 0x09 cold else run)
    ((BitVec.ofInt 32 v).toNat, f ||| f2, g)
  else
    let scale (b : Nat) : Val := (mulV (p.sa.getD (m * (p.k / 32) + b) oneV) (p.sb.getD (32 * b + n) oneV)).1
    let (run, f) := runBlocks none
      (blocks.map fun b => ((ks b).map fun k => ((araw k).map (fmtVal w.fa), bVal w (braw k) k), scale b)) 0
    let (v, f2) := if w.acc then addV (w.mode == .rdn) run (fmtVal w.fc cold) else (run, 0)
    match fmtFloat w.fc with
    | some fm =>
      let (e, f3, g') := roundF fm w.mode w.sat g v
      (e, f ||| f2 ||| f3, g')
    | none => (0, f ||| f2, g)

/-- R124, R130, R300: every element of a member's C in row-major order, with the flags. -/
def kilnRun (w : Member) (p : Panel) : List (Nat × Nat) → BitVec 32 → List Nat × BitVec 5
  | [], _ => ([], 0)
  | (m, n) :: t, g =>
    let (e, f, g') := kilnElem w p m n g
    let (r, f') := kilnRun w p t g'
    (e :: r, f ||| f')

/-- R301: the positions of a group of four from its two stored values and its metadata; none when the metadata is invalid. -/
def expandGroup (md : Nat) (v0 v1 : Nat) : Option (List (Option Nat)) :=
  let p0 := md % 4
  let p1 := md / 4 % 4
  if p1 ≤ p0 then none
  else some ((List.range 4).map fun i => if i = p0 then some v0 else if i = p1 then some v1 else none)

/-- R301: A's positions from stored values and metadata. -/
def expandSparse : List Nat → List Nat → Option (List (Option Nat))
  | md :: ms, v0 :: v1 :: vs => match expandGroup md v0 v1, expandSparse ms vs with
    | some l, some r => some (l ++ r)
    | _, _ => none
  | _, _ => some []

/-! Data commands -/

/-- R304: one element of `conv`: encoding, flags and the generator after. -/
def convElem (dst : Nat) (mode : RMode) (sat : Bool) (x : Val) (g : BitVec 32) : Nat × BitVec 5 × BitVec 32 :=
  let f0 := flagIf x.isSnan fNV
  match fmtFloat dst with
  | some fm =>
    let (e, f, g') := roundF fm mode sat g x
    (e, f0 ||| f, g')
  | none =>
    let (lo, hi) := fmtRange dst
    let (v, f, g') := roundInt lo hi mode g x
    ((BitVec.ofInt (fmtBits dst) v).toNat, f0 ||| f, g')

/-- R304: every element of `conv`, in row-major order. -/
def convRun (dst : Nat) (mode : RMode) (sat : Bool) : List (Val × BitVec 5) → BitVec 32 → List Nat × BitVec 5
  | [], _ => ([], 0)
  | (x, f0) :: t, g =>
    let (e, f, g') := convElem dst mode sat x g
    let (r, f') := convRun dst mode sat t g'
    (e :: r, f0 ||| f ||| f')

end Sys2Proof.Machine
end

