-- ==== Sys2Proof/Machine/Window.lean ====
section
/-! DEFINITION. Machine/Window.lean: `tc.issue` and `tc.issuev` (R288, R289), the checks at send (R296), the setting buffer (R307 to
R309), `window send` with `mma`, `mma.sp` and `glaze` (R55, R298, R306), and completion (R297, R317). -/

namespace Sys2Proof.Machine

/-! Issuing -/

/-- R100: the scope of a command of a context's cluster. -/
def commandScope (s : State) (a cone : Nat) : Scope :=
  if cone = 0xFFF then .clus
  else match coneScope (getCone s (clusterOf a * 4096 + cone)) with
    | .core => .clus
    | sc => sc

/-- R288: a command enters the window of the executing context; R240, R246: not before the context's earlier aq and ar accesses. -/
def enterCommand (w0 w1 w2 w3 : Word) : Act Unit := do
  let c ← me
  let s ← get
  trapIf (c.winRev == 0) 29 w0
  let rnd := if fieldOf w0 20 3 = 7 then c.ucsr.vrm.toNat else fieldOf w0 20 3
  let d := draw c.ucsr.vseed
  let seed : BitVec 32 := if rnd = 5 then (if d = 0 then 1 else d) else 0
  parkUnless (decide (c.win.length < Config.window)) .window
  orderClear
  release (commandScope s s.cur (fieldOf w1 0 12))
  modMe fun c => { c with
    ucsr := if rnd = 5 then { c.ucsr with vseed := d } else c.ucsr
    win := c.win ++ [{ w0 := setField w0 20 3 rnd, w1, w2, w3, seed, sent := none }] }
  advance

/-- R288: `tc.issue`. -/
def execTcIssue (rs1 : Reg) (s : State) : Host.Outcome State Fault Refusal :=
  perform (.tcIssue rs1) (do
    barrelOnly (.tcIssue rs1)
    let a ← operand1 rs1 none
    trapIf (a.toNat % 32 != 0) 4 a
    let l := wordsOf (← memRead a 32 false .rlx .clus)
    enterCommand (l.getD 0 0) (l.getD 1 0) (l.getD 2 0) (l.getD 3 0)) s

/-- R289: `tc.issuev`. -/
def execTcIssuev (vs : VReg) (s : State) : Host.Outcome State Fault Refusal :=
  perform (.tcIssuev vs) (do
    barrelOnly (.tcIssuev vs)
    paceGate (.tcIssuev vs)
    let c ← me
    let r := vrow c vs 0
    let w (i : Nat) : Word := (r >>> (64 * i)).setWidth 64
    enterCommand (w 0) (w 1) (w 2) (w 3)) s

/-! Places, translated -/

/-- What translating a list of places yields: where each lies, the failures met, whether a walk waits, and what must still be asked. -/
structure Trans where
  s : State
  locs : List (Option (Loc × Nat))
  perm : Bool
  fmt : Bool
  off : Bool
  missing : List (Nat × Bool)
  held : Bool
  wait : List Req
  tags : List Nat
  deriving DecidableEq, Repr

/-- R307, R312: places of `n` bytes are translated for an actor. Memory that is not cached in L2 fails with PERM. The lines read by a walk that finds no
page stay in the walk cache (R414). -/
def transPlaces (w : Actor) (acc : Access) (n : Nat) : List Place → State → Trans
  | [], s => ⟨s, [], false, false, false, [], false, [], []⟩
  | none :: t, s =>
    let r := transPlaces w acc n t s
    { r with locs := none :: r.locs }
  | some (va, nib) :: t, s =>
    match engLoc s w va n acc with
    | .ok (l, tags, s') =>
      let r := transPlaces w acc n t s'
      if l.cls = .shared ∨ l.cls = .peer then { r with locs := none :: r.locs, perm := true }
      else { r with locs := some (l, nib) :: r.locs, tags := tags.filter (fun x => !r.tags.contains x) ++ r.tags }
    | .error e =>
      let r := transPlaces w acc n t (match e with | .notPresent lines => holdLines s w.agent lines | _ => s)
      let r := { r with locs := none :: r.locs }
      match e with
      | .wait q => { r with held := true, wait := q ++ r.wait }
      | .notPresent _ => { r with
          missing := (va / 4096 * 4096, acc == .write) :: r.missing.filter fun p => p.1 != va / 4096 * 4096 }
      | .format => { r with fmt := true }
      | .offline => { r with off := true }
      | _ => { r with perm := true }

/-- How the translation of a command's operands fails, with what its walks leave (R413, R414). -/
inductive CmdFail where
  | wait (reqs : List Req)
  | code (n : BitVec 8) (s : State)
  /-- R316 -/
  | page (pages : List (Nat × Bool)) (s : State)
  deriving DecidableEq, Repr

/-- R296, checks 9 to 11, and R315; `s`: the state that the translations leave. -/
def judge (retry : Bool) (ts : List Trans) (s : State) : Option CmdFail :=
  let missing := ts.flatMap (·.missing)
  if ts.any (·.held) then some (.wait (ts.flatMap (·.wait)))
  else if ts.any (·.perm) then some (.code 2 s)
  else if (ts.any (·.fmt)) || (!missing.isEmpty && !retry) then some (.code 1 s)
  else if ts.any (·.off) then some (.code 6 s)
  else if missing.isEmpty then none
  else some (.page missing s)

/-- For whom a command's accesses are made. -/
def Cmd.actor (c : Cmd) : Actor := { agent := c.agent, space := c.space, sup := c.sup, inst := (c.space, c.inst) }

/-- The translated operands of a command: B, its scales, C, A, its scales, the metadata; with the tags. -/
structure CmdLocs where
  b : List (Option (Loc × Nat))
  sb : List (Option (Loc × Nat))
  c : List (Option (Loc × Nat))
  a : List (Option (Loc × Nat))
  sa : List (Option (Loc × Nat))
  md : List (Option (Loc × Nat))
  tags : List Nat
  deriving DecidableEq, Repr

/-- R296, check 9, R404: the issuer's space is enabled, whichever memory the operands lie in. -/
def spaceCheck (s : State) (c : Cmd) : Option CmdFail :=
  match spaceRoot s c.part c.space with
  | .ok _ => none
  | .error (.wait q) => some (.wait q)
  | .error .offline => some (.code 6 s)
  | .error _ => some (.code 2 s)

/-- R296: B, its scales and C of a matrix command. -/
def transSend (s : State) (c : Cmd) : Except CmdFail (State × CmdLocs) :=
  if let some f := spaceCheck s c then .error f else
  let w := c.actor
  let tb := recOf c.tb
  let tc := recOf c.tc
  let b := transPlaces w .read (fmtBytes (trFmt tb)) (c.regB.places tb) s
  let sb := transPlaces w .read 4 c.slotsB b.s
  let x := transPlaces w .write (fmtBytes (trFmt tc)) (c.regC.places tc) sb.s
  match judge c.retry [b, sb, x] x.s with
  | some f => .error f
  | none => .ok (x.s, ⟨b.locs, sb.locs, x.locs, [], [], [], b.tags ++ sb.tags ++ x.tags⟩)

/-- R312, step 1: all operands of a member; a C that is homed on an offline die is refused only when it is written (R315). -/
def transStage (s : State) (c : Cmd) : Except CmdFail (State × CmdLocs) :=
  let w := c.actor
  let ta := recOf c.ta
  let tb := recOf c.tb
  let tc := recOf c.tc
  let b := transPlaces w .read (fmtBytes (trFmt tb)) (c.regB.places tb) s
  let sb := transPlaces w .read 4 c.slotsB b.s
  let x := transPlaces w .write (fmtBytes (trFmt tc)) (c.regC.places tc) sb.s
  let a := transPlaces w .read (fmtBytes (trFmt ta)) (c.regA.places ta) x.s
  let sa := transPlaces w .read 4 c.slotsA a.s
  let md := transPlaces w .read 1 (if c.sparse then c.regM.places (recOf c.tm) else []) sa.s
  match judge c.retry [b, sb, { x with off := false }, a, sa, md] md.s with
  | some f => .error f
  | none => .ok (md.s, ⟨b.locs, sb.locs, x.locs, a.locs, sa.locs, md.locs,
      dedup (b.tags ++ sb.tags ++ x.tags ++ a.tags ++ sa.tags ++ md.tags)⟩)

/-! The setting buffer -/

/-- A command of a cluster is replaced, or enters. -/
def putCmd (s : State) (cl : Nat) (c : Cmd) : State :=
  modCluster s cl fun k => { k with
    cmds := if k.cmds.any fun x => x.id == c.id then k.cmds.map fun x => if x.id = c.id then c else x else k.cmds ++ [c] }

/-- A command has its result, or its fault code. -/
def endCmd (s : State) (cl : Nat) (c : Cmd) (code : BitVec 8) : State :=
  putCmd s cl { c with code, out := [], flags := 0, at_ := .done }

/-- R316: the command waits for page service; refused at once under NOPR or after a Response Failure. -/
def cmdPage (s : State) (cl : Nat) (c : Cmd) (pages : List (Nat × Bool)) : State :=
  let part := c.part
  let w1 := spaceWord s part c.space
  if bitOf w1 28 || (getPart s part).prFailed then endCmd s cl c 1
  else
    let (id, s) := sendGroup s part (fieldOf w1 0 20) (.cmd cl c.id) (dedup pages)
    putCmd s cl { c with at_ := .page id }

/-- R306: the glaze table of a command that decodes cb2 weights. -/
def Cmd.table (c : Cmd) : Option (Nat × Nat) :=
  if (c.isMatrix && trFmt (recOf c.tb) == 0x10) || (c.op == 0x11 && trFmt (recOf c.ta) == 0x10) then some (c.tidM % 4, c.gen) else none

/-- R306: a load of table `t` of generation at most `g` has been sent and not performed. -/
def loadPending (k : Cluster) (t g : Nat) : Bool :=
  k.cmds.any fun c => c.op == 0x20 && c.tidM % 4 == t && decide (c.gen ≤ g) && c.at_ != .done

/-- R306: the setting's table is still to be loaded. -/
def tableWaits (k : Cluster) (x : Setting) : Bool := match x.table with | some (t, g) => loadPending k t g | none => false

/-- R254: the tile fetch unit has pinned the line. -/
def pinned (s : State) (line : Nat) : Bool := s.clusters.any fun k => k.2.settings.any fun x => x.pins.contains line

/-- A number for a place of a merge key. -/
def keyNum : Option (Loc × Nat) → Nat
  | none => 0
  | some (l, nib) => 1 + nib + 2 * (if l.cls = .spad then 1 else 0) + 4 * l.key

/-- R307: the merge key. -/
def mergeKey (c : Cmd) (l : CmdLocs) : List Nat :=
  let t := recOf c.tb
  [c.op, fieldOf c.w2 34 14, fieldOf c.w2 48 15, c.ks, trFmt t, t[1].toNat, t[2].toNat, t[3].toNat, t[4].toNat] ++
    (if fmtScaled (trFmt t) then [t[6].toNat] else []) ++
    (match c.table with | some (n, g) => [n, g] | none => []) ++ l.b.map keyNum ++ l.sb.map keyNum

/-- A setting still holds a place of the buffer: it has not been dispatched. -/
def Setting.inBuffer (x : Setting) : Bool :=
  match x.at_ with
  | .opened | .fired _ => true
  | _ => false

/-- R307: MERGE = 1 in a domain that merges. -/
def Cmd.shareable (c : Cmd) : Bool := bitOf c.w0 17 && c.dom != 0

/-- R309: a command joins the earliest-opened setting that it fits, or opens one; none when all 16 are in use. Which slot a new setting takes the manual does
not say: here the lowest free one (log entry 108). -/
def acceptCmd (s : State) (cl : Nat) (c : Cmd) (l : CmdLocs) : Option State :=
  let k := getCluster s cl
  let key := mergeKey c l
  let fits (x : Setting) : Bool :=
    x.at_ == .opened && x.key == key && x.dom == c.dom && x.share && decide (x.m + c.m ≤ 128) && decide (x.members.length < 16) &&
    (decide (s.clock < x.deadline) || tableWaits k x)
  match if c.shareable then leastBy (·.opened) (k.settings.filter fits) else none with
  | some x =>
    let x' := { x with
      m := x.m + c.m
      members := x.members ++ [c.id]
      deadline := min x.deadline c.deadline
      cls := min x.cls c.prio }
    let s := modCluster s cl fun k => { k with settings := k.settings.map fun y => if y.opened = x.opened then x' else y }
    some (putCmd s cl { c with at_ := .setting x.opened, tags := l.tags })
  | none =>
    let used := (k.settings.filter (·.inBuffer)).map (·.slot)
    match (List.range Config.settings).find? fun n => !used.contains n with
    | none => none
    | some slot =>
      let (n, s) := takeId s
      let x : Setting :=
        { slot, key, table := c.table, pins := [], stream := [], dom := c.dom, share := c.shareable, m := c.m, members := [c.id],
          deadline := c.deadline, cls := c.prio, opened := n, at_ := .opened }
      let s := modCluster s cl fun k => { k with settings := k.settings ++ [x] }
      some (putCmd s cl { c with at_ := .setting n, tags := l.tags })

/-- R309: commands that wait at the buffer to enter it again. -/
def reentries (k : Cluster) : List Cmd := k.cmds.filter fun c => c.at_ == .reentry

/-- R309, R316, R319: a command is re-checked from check 9 and enters the buffer as an arrival, or waits at it: for a place, or behind a command that
was sent before it. -/
def reenter (s : State) (cl : Nat) (c : Cmd) : State :=
  let behind := (reentries (getCluster s cl)).any fun x => decide (x.id < c.id)
  let c := { c with gen := (tget {} (getCluster s cl).glaze (c.tidM % 4)).gen }
  let waits := putCmd s cl { c with at_ := .reentry }
  match transSend s c with
  | .error (.wait q) => applyReqs waits q
  | .error (.code n s) => endCmd s cl c n
  | .error (.page ps s) => cmdPage s cl c ps
  | .ok (s', l) => if behind then waits else (acceptCmd s' cl c l).getD waits

/-! Checks at send (R296) -/

/-- R299: the formats of B, A and C pair. -/
def formatsPair (fb fa fc : Nat) : Bool :=
  let fp := decide (fc ≤ 2)
  match fb with
  | 0x01 => fa == 0x01 && fp
  | 0x02 => fa == 0x02 && fp
  | 0x03 | 0x04 => (fa == 0x03 || fa == 0x04) && fp
  | 0x05 => fa == 0x05 && fp
  | 0x06 => fa == 0x06 && fc == 0x09
  | 0x08 => fa == 0x08 && fc == 0x09
  | 0x0B | 0x0C => (fa == 0x0B || fa == 0x0C) && fp
  | 0x0D => fa == 0x0D && fp
  | 0x0E => fa == 0x0E && fp
  | 0x0F => fa == 0x0F && fp
  | 0x10 => fa == 0x0D && fp
  | _ => false

/-- R302: whether an operation uses A, B, C and M. -/
def usesRecords (op : Nat) : Bool × Bool × Bool × Bool :=
  match op with
  | 0x01 => (true, true, true, false)
  | 0x02 => (true, true, true, true)
  | 0x10 | 0x11 => (true, false, true, false)
  | 0x12 => (false, false, true, false)
  | 0x20 => (true, false, false, false)
  | _ => (false, false, false, false)

/-- R150, R151: a reserved OP, a non-zero reserved field, or RND = 110. -/
def badCommand (c : Cmd) : Bool :=
  !([0x01, 0x02, 0x10, 0x11, 0x12, 0x20].contains c.op) || fieldOf c.w0 25 7 != 0 || fieldOf c.w0 59 5 != 0 || fieldOf c.w1 52 12 != 0 ||
  bitOf c.w2 63 || fieldOf c.w0 20 3 == 6

/-- A record that an operation uses is not as R296 asks. -/
def recordBad (t : TRec) : Bool := trBad t || trMisaligned t

/-- R296, check 6, with R299, R301 to R306. -/
def formatsBad (c : Cmd) : Bool :=
  let ta := recOf c.ta
  let tb := recOf c.tb
  let tc := recOf c.tc
  let tm := recOf c.tm
  let plain (f : Nat) : Bool := !fmtScaled f && f != 0x11
  match c.op with
  | 0x01 => recordBad ta || recordBad tb || recordBad tc || !formatsPair (trFmt tb) (trFmt ta) (trFmt tc) ||
      (trFmt tb == 0x10 && c.tidM / 4 != 0)
  | 0x02 => recordBad ta || recordBad tb || recordBad tc || recordBad tm || !formatsPair (trFmt tb) (trFmt ta) (trFmt tc) ||
      trFmt tb == 0x10 || trFmt tm != 0x11
  | 0x10 => recordBad ta || recordBad tc || trFmt ta != trFmt tc || trFmt ta == 0x11
  | 0x11 => recordBad ta || recordBad tc || !plain (trFmt tc) || (trFmt ta == 0x10 && c.tidM / 4 != 0)
  | 0x12 => recordBad tc || !plain (trFmt tc)
  | _ => ta[0].toNat % 4 != 0 || c.tidM / 4 != 0

/-- R296, check 8. -/
def boundsBad (c : Cmd) : Bool :=
  let ta := recOf c.ta
  let tb := recOf c.tb
  let tc := recOf c.tc
  match c.op with
  | 0x01 => !c.regA.ok ta false || !c.regB.ok tb false || !c.regC.ok tc true
  | 0x02 => !c.regA.ok ta false || !c.regB.ok tb false || !c.regC.ok tc true || !c.regM.ok (recOf c.tm) false
  | 0x10 | 0x11 => !c.regSrc.ok ta false || !c.regDst.ok tc true
  | 0x12 => !c.regDst.ok tc true
  | _ => false

/-- R306, R296, check 7: the glaze table a command needs has been loaded, or is being loaded, for its space. -/
def tableBad (k : Cluster) (c : Cmd) : Bool :=
  match c.table with
  | none => false
  | some (t, _) => match tfind k.glaze t with
    | none => true
    | some x => x.space != c.space || ((x.rows.isEmpty || x.loader != c.space) && !loadPending k t x.gen)

/-- R297: the byte of the cluster's scratchpads where a command's status word lies. -/
def statOff (c : Cmd) : Nat := coreOf c.agent % 256 * 65536 + c.stat * 8

/-- R75, R296: the command's instance owns its status slot. -/
def statOwned (s : State) (c : Cmd) : Bool := ownsBytes s (clusterOf c.agent) (statOff c) 8 (c.space, c.inst)

/-- R228, R231: the entry that an identifier names. -/
def tensorOf (s : State) (a tid : Nat) : Option Tensor := tfind (getCluster s (clusterOf a)).tensors tid

/-- The identifiers that a command uses. -/
def usedTids (c : Cmd) : List Nat :=
  let (ua, ub, uc, um) := usesRecords c.op
  (if ua then [fieldOf c.w1 12 10] else []) ++ (if ub then [fieldOf c.w1 22 10] else []) ++
  (if uc then [fieldOf c.w1 32 10] else []) ++ (if um then [c.tidM] else [])

/-- R296: checks 1 to 8, in order. -/
def sendCheck (s : State) (rev : Nat) (c : Cmd) : Option (BitVec 8) :=
  let used := (usedTids c).map (tensorOf s c.agent)
  if fieldOf c.w0 8 6 ≠ rev ∨ rev ≠ 1 then some 4
  else if badCommand c then some 9
  else if c.stat ≠ 0x1FFF ∧ !statOwned s c then some 2
  else if used.any (·.isNone) then some 9
  else if used.any (fun t => match t with | some x => x.space != c.space | none => false) then some 2
  else if formatsBad c then some 9
  else if tableBad (getCluster s (clusterOf c.agent)) c then some 2
  else if boundsBad c then some 5
  else none

/-! Sending -/

/-- The command that a window entry becomes when it is sent. -/
def cmdOf (s : State) (a id : Nat) (e : WinEntry) : Cmd :=
  let x := getCtx s a
  let part := partOf s a
  let cl := clusterOf a
  let record (used : Bool) (tid : Nat) : Option TRec := if used then (tensorOf s a tid).map (·.w) else none
  let (ua, ub, uc, um) := usesRecords (fieldOf e.w0 0 8)
  let tm := fieldOf e.w1 42 10
  { id, agent := a, ctxBorn := x.born, space := x.space, inst := (instOf x).2, sup := x.sup, group := groupOf s a, part,
    w0 := e.w0, w1 := e.w1, w2 := e.w2, w3 := e.w3, seed := e.seed,
    ta := record ua (fieldOf e.w1 12 10), tb := record ub (fieldOf e.w1 22 10), tc := record uc (fieldOf e.w1 32 10), tm := record um tm,
    phase := (getCone s (cl * 4096 + fieldOf e.w1 0 12)).phase,
    sentAt := s.clock, deadline := s.clock + holdOf s cl (fieldOf e.w0 14 3),
    dom := fieldOf (spaceWord s part x.space) 20 8,
    gen := (tget {} (getCluster s cl).glaze (tm % 4)).gen,
    at_ := .data, code := 0, flags := 0, out := [], tags := [] }

/-- R55: an entry is eligible. -/
def eligible (c : Ctx) (e : WinEntry) : Bool :=
  e.sent.isNone && (!bitOf e.w0 40 || c.ev.getLsbD (fieldOf e.w0 32 8)) && (!bitOf e.w0 49 || c.ev.getLsbD (fieldOf e.w0 41 8))

/-- How an attempt to send ends. -/
inductive Send where
  | sent (s : State)
  /-- the engine cannot accept the command now -/
  | refused
  | wait (reqs : List Req)
  deriving DecidableEq, Repr

/-- R306: a `glaze` takes its table when it is sent. -/
def takeTable (s : State) (cl : Nat) (c : Cmd) : State :=
  let t := c.tidM % 4
  let old := tget {} (getCluster s cl).glaze t
  let s := modCluster s cl fun k => { k with glaze := tset k.glaze t { old with space := c.space, gen := old.gen + 1 } }
  putCmd s cl { c with gen := old.gen + 1, at_ := .data }

/-- R55, R296, R298, R302, R309: an attempt to send entry `i` of a window. -/
def trySend (s0 : State) (a i : Nat) (e : WinEntry) : Send :=
  let cl := clusterOf a
  let (id, s) := takeId s0
  let c := cmdOf s a id e
  let mark (s : State) : State := modCtx s a fun x => { x with win := x.win.set i { e with sent := some id } }
  match sendCheck s (getCtx s a).winRev c with
  | some code => .sent (mark (endCmd s cl c code))
  | none =>
    if c.isMatrix then
      match transSend s c with
      | .error (.wait q) => .wait q
      | .error (.code n s) => .sent (mark (endCmd s cl c n))
      | .error (.page ps s) => .sent (mark (cmdPage s cl c ps))
      | .ok (s', l) =>
        if (reentries (getCluster s' cl)).isEmpty then match acceptCmd s' cl c l with
          | some s'' => .sent (mark s'')
          | none => .refused
        else .refused
    else if c.op = 0x20 then .sent (mark (takeTable s cl c))
    else .sent (mark (putCmd s cl c))

/-- R55: the entry that the window sends next, by its place: the oldest eligible one that its engine accepts. -/
def nextSend (s : State) (a : Nat) : List (Nat × WinEntry) → Option (Nat × Send)
  | [] => none
  | (i, e) :: t =>
    if eligible (getCtx s a) e then match trySend s a i e with
      | .refused => nextSend s a t
      | r => some (i, r)
    else nextSend s a t

/-- R55, R319, R397: a window sends while its context is not FREE and its instance is not being pre-empted. -/
def windowNext (s : State) (a : Nat) : Option (Nat × Send) :=
  let c := getCtx s a
  if c.status = .free ∨ heldInst s (partOf s a) (instOf c).1 (instOf c).2 then none
  else nextSend s a ((List.range c.win.length).zip c.win)

/-- The state after a send. -/
def sendResult (s : State) : Send → State
  | .sent s' => s'
  | .refused => s
  | .wait q => applyReqs s q

/-- R55: `window send`. -/
def execWindowSend (agent : Nat) (s : State) : Out :=
  if Config.contexts ≤ agent then .fault .noSuchAgent
  else match windowNext s agent with
    | some (_, r) => .next (sendResult s r)
    | none => .next s

/-- A window sends the entry at a place, when that is the entry it sends next and its OP is the one named. -/
def sendOp (s : State) (agent entry op : Nat) : Out :=
  if Config.contexts ≤ agent then .fault .noSuchAgent
  else match windowNext s agent with
    | some (i, r) =>
      if i = entry ∧ fieldOf ((getCtx s agent).win.getD i ⟨0, 0, 0, 0, 0, none⟩).w0 0 8 = op then .next (sendResult s r) else .next s
    | none => .next s

/-- R298: an `mma` command enters the setting buffer. -/
def execMma (agent entry : Nat) (s : State) : Out := sendOp s agent entry 0x01

/-- R298, R301: an `mma.sp` command enters the setting buffer. -/
def execMmaSp (agent entry : Nat) (s : State) : Out := sendOp s agent entry 0x02

/-- R306: a `glaze` command is sent: its table takes the loader's space and a new generation. -/
def execGlaze (agent entry : Nat) (s : State) : Out := sendOp s agent entry 0x20

/-! Completion -/

/-- R297: the status word. -/
def statusWord (c : Cmd) : Word :=
  word ((if c.nf || c.code != 0 then 0 else c.flags.toNat) + c.code.toNat * 2 ^ 8 + 2 ^ 16)

/-- R317, steps 2 to 5. What becomes of the status word of a command that fails check 1 or 2, or whose block is given to another instance after the send,
the manual does not say: here no word is written into another instance's block, as under check 3 (log entry 107). -/
def finishCmd (s : State) (cl : Nat) (c : Cmd) : State :=
  let a := c.agent
  let s := if c.stat ≠ 0x1FFF ∧ statOwned s c then
      spadWrite s engineAgent (cellsAt (cl * 2 ^ 24 + statOff c) (leBytes 8 (statusWord c).toNat))
    else s
  let s := if c.coneNo = 0xFFF then s else engineArrival s a (cl * 4096 + c.coneNo) c.phase c.code
  let x := getCtx s a
  let s := if x.status ≠ .free ∧ x.born = c.ctxBorn then
      setCtx s a { (if bitOf c.w0 58 then engineEvent x (fieldOf c.w0 50 8) s.clock else x) with
        win := x.win.filter fun e => e.sent != some c.id }
    else s
  modCluster s cl fun k => { k with cmds := k.cmds.filter fun y => y.id != c.id }

/-- R315: a byte of a command's output is homed on an offline die, or behind a host link that is down. -/
def outOffline (s : State) (c : Cmd) : Bool :=
  c.out.any fun b => !b.1 && (match (locOfKey s b.2.1).cls with
    | .hbm d => (getDie s d).off
    | .host => (getPart s c.part).linkDown
    | _ => false)

/-- R317: a command that has its result completes, when its writes can be performed and have been. -/
def completeCmd (s : State) (cl : Nat) (c : Cmd) : State :=
  let (c, s) :=
    if c.out.isEmpty then (c, s)
    else if outOffline s c then ({ c with out := [], flags := 0, code := 6 }, s)
    else
      let bytes := c.out.map fun b => ((b.1, b.2.1), b.2.2)
      match engCanWrite s c.agent bytes with
      | .ok _ => ({ c with out := [] }, engWrite s engineAgent bytes c.tags (some cl) (c.group.map (c.part, ·)))
      | .error q => (c, applyReqs s q)
  let s := putCmd s cl c
  if c.out.isEmpty && enginesSettled s (commandScope s c.agent c.coneNo) then finishCmd s cl c else s

/-- R317: `command complete`. -/
def execCommandComplete (cluster id : Nat) (s : State) : Out :=
  if Config.clusters ≤ cluster then .fault .noSuchObject
  else match (getCluster s cluster).cmds.find? fun c => c.id == id && c.at_ == .done with
    | none => .next s
    | some c => .next (completeCmd s cluster c)

end Sys2Proof.Machine
end

