-- ==== Sys2Proof/Machine/Kiln.lean ====
section
/-! DEFINITION. Machine/Kiln.lean: settings and firings (R309 to R315), the tile data path (R302 to R306), and page service (R316). -/

namespace Sys2Proof.Machine

/-! Reading operands -/

/-- Elements at translated places, as an engine of an agent's cluster reads them; none out of range. -/
def readPlaces (s : State) (a n bits : Nat) : List (Option (Loc × Nat)) → Except (List Req) (List (Option Nat))
  | [] => .ok []
  | none :: t => (readPlaces s a n bits t).map (none :: ·)
  | some (l, nib) :: t =>
    match engRead s a l n with
    | .error (.wait q) => .error q
    | .error _ => .error []
    | .ok b =>
      let v := leNat b
      (readPlaces s a n bits t).map (some (if bits = 4 then nbits v (4 * nib) 4 else v) :: ·)

/-- Elements of a record's format. -/
def readFmt (s : State) (a f : Nat) (l : List (Option (Loc × Nat))) : Except (List Req) (List (Option Nat)) :=
  readPlaces s a (fmtBytes f) (fmtBits f) l

/-- R113, R300: scales; 1.0 out of range. -/
def readScales (s : State) (a : Nat) (l : List (Option (Loc × Nat))) : Except (List Req) (List Val) :=
  (readPlaces s a 4 32 l).map fun r => r.map fun x => match x with | some n => sc24V n | none => oneV

/-- R300, R301: what the kiln reads for a member; none when its metadata is invalid. -/
def memberPanel (s : State) (c : Cmd) (l : CmdLocs) : Except (List Req) (Option Panel) := do
  let b ← readFmt s c.agent (trFmt (recOf c.tb)) l.b
  let sb ← readScales s c.agent l.sb
  let a ← readFmt s c.agent (trFmt (recOf c.ta)) l.a
  let sa ← readScales s c.agent l.sa
  let md ← readPlaces s c.agent 1 4 l.md
  let x ← readFmt s c.agent (trFmt (recOf c.tc)) (if c.acc then l.c else [])
  let vals := a.map fun v => v.getD 0
  let rows := if c.sparse then expandSparse (md.map fun v => v.getD 0) vals else some (vals.map some)
  pure (rows.map fun r =>
    { m := c.m, k := c.k, a := r.toArray, b := b.toArray, sa := sa.toArray, sb := sb.toArray, c := (x.map fun v => v.getD 0).toArray })

/-- R300: how a member computes. -/
def memberOf (s : State) (c : Cmd) : Member :=
  { fa := trFmt (recOf c.ta), fb := trFmt (recOf c.tb), fc := trFmt (recOf c.tc),
    rows := (tget {} (getCluster s (clusterOf c.agent)).glaze (c.tidM % 4)).rows,
    acc := c.acc, mode := c.rnd, sat := c.sat }

/-- The bytes that elements of at least a byte write to their places. -/
def elemBytes (n : Nat) : List (Option (Loc × Nat)) → List Nat → List (Bool × Nat × Byte)
  | some (l, _) :: t, v :: vs => ((placesOf l n).zip (leBytes n v)).map (fun p => (p.1.1, p.1.2, p.2)) ++ elemBytes n t vs
  | none :: t, _ :: vs => elemBytes n t vs
  | _, _ => []

/-! Staging (R312, R315, R319) -/

/-- How the staging of a member ends. -/
inductive Staged where
  | ok (s : State) (tags : List Nat) (l : CmdLocs)
  | wait (reqs : List Req)
  | drop (code : BitVec 8) (s : State)
  | page (pages : List (Nat × Bool)) (s : State)
  /-- R319: its merge key has changed -/
  | leave (s : State)
  deriving DecidableEq, Repr

/-- The lines of memory in which elements lie. -/
def memLines (l : List (Option (Loc × Nat))) : List Nat :=
  dedup (l.filterMap fun x => x.bind fun p => if p.1.cls = .spad then none else some (lineOf p.1.key))

/-- R312: the lines that a member pins. -/
def pinLines (l : CmdLocs) : List Nat := memLines (l.b ++ l.sb ++ l.a ++ l.sa ++ l.md)

/-- R312: those of them whose record has STREAM = 1. -/
def streamLines (c : Cmd) (l : CmdLocs) : List Nat :=
  let streams (t : Option TRec) : Bool := bitOf (recOf t)[7] 8
  memLines ((if streams c.tb then l.b ++ l.sb else []) ++ (if streams c.ta then l.a ++ l.sa else []) ++ if streams c.tm then l.md else [])

/-- R306, R296: the table of a member holds rows that its space has loaded. -/
def tableLoaded (s : State) (c : Cmd) : Bool :=
  match c.table with
  | some (t, _) => match tfind (getCluster s (clusterOf c.agent)).glaze t with
    | some x => !x.rows.isEmpty && x.loader == c.space
    | none => false
  | none => true

/-- R312, R315, R319: the staging of one member of a setting. -/
def stageMember (s : State) (x : Setting) (c : Cmd) : Staged :=
  match transStage s c with
  | .error (.wait q) => .wait q
  | .error (.code n s) => .drop n s
  | .error (.page ps s) => .page ps s
  | .ok (s', l) =>
    if mergeKey c l ≠ x.key then .leave s'
    else if !tableLoaded s' c then .drop 2 s'
    else match memberPanel s' c l with
      | .error q => .wait q
      | .ok none => .drop 3 s'
      | .ok (some _) => .ok s' l.tags l

/-- A setting of a cluster is replaced. -/
def putSetting (s : State) (cl : Nat) (x : Setting) : State :=
  modCluster s cl fun k => { k with settings := k.settings.map fun y => if y.opened = x.opened then x else y }

/-- A setting of a cluster is gone. -/
def dropSetting (s : State) (cl : Nat) (x : Setting) : State :=
  modCluster s cl fun k => { k with settings := k.settings.filter fun y => y.opened != x.opened }

/-- R319: what remains of a setting: its rows, deadline and class follow its members. -/
def recompute (k : Cluster) (x : Setting) (members : List Nat) : Setting :=
  let cs := members.filterMap fun i => k.cmds.find? fun c => c.id == i
  { x with
    members
    m := cs.foldl (fun n c => n + c.m) 0
    deadline := cs.foldl (fun n c => min n c.deadline) ((cs.head?.map (·.deadline)).getD x.deadline)
    cls := cs.foldl (fun n c => min n c.prio) 7 }

/-- A command of a cluster by number. -/
def findCmd (s : State) (cl id : Nat) : Option Cmd := (getCluster s cl).cmds.find? fun c => c.id == id

/-- What the staging of a setting's members leaves: the members that remain, the lines they pin, the lines of C that they read too, and the pinned
lines that leave L2 when they are consumed. -/
structure Stage where
  s : State
  members : List Nat
  pins : List Nat
  sums : List Nat
  stream : List Nat

/-- A staged member in front of those after it. -/
def Stage.add (x : Stage) (c : Cmd) (l : CmdLocs) : Stage :=
  { x with
    members := c.id :: x.members
    pins := dedup (pinLines l ++ x.pins)
    sums := dedup ((if c.acc then memLines l.c else []) ++ x.sums)
    stream := dedup (streamLines c l ++ x.stream) }

/-- R315, R316, R319: the members are staged in order. -/
def stageMembers (cl : Nat) (x : Setting) : List Nat → State → Except (List Req) Stage
  | [], s => .ok ⟨s, [], [], [], []⟩
  | i :: t, s => match findCmd s cl i with
    | none => stageMembers cl x t s
    | some c => match stageMember s x c with
      | .wait q => .error q
      | .drop n s => stageMembers cl x t (endCmd s cl c n)
      | .page ps s => stageMembers cl x t (cmdPage s cl c ps)
      | .leave s => stageMembers cl x t (reenter s cl c)
      | .ok s' tags l => (stageMembers cl x t (putCmd s' cl { c with tags })).map (·.add c l)

/-- R80, R312: lines come into the L2 of a die: those homed elsewhere that may be cached into its remote-cache region, as far as there is room. No copy is
made of a line while a write of it is on its way to its home or waits there. -/
def bringLines (s : State) (d : Nat) (lines : List Nat) : State :=
  lines.foldl (fun s line => match (locOfKey s (line * 128)).cls with
    | .hbm _ | .priv =>
      if homeDie line = some d ∨ (tfind (getDie s d).copies line).isSome ∨ !copyRoom (getDie s d) ∨ writeWaits s line then s
      else modDie s d fun x => { x with copies := tset x.copies line (readLine s.mem line) }
    | _ => s) s

/-- R312, R421: lines leave the L2 of a die: a copy is dropped, and a line that it holds modified is written back; halves of host memory go by DirtyEvict or
CleanEvict. -/
def dropLines (s : State) (d : Nat) (lines : List Nat) : State :=
  lines.foldl (fun s line =>
    if homeDie line = some d then { s with stale := terase s.stale line }
    else match (locOfKey s (line * 128)).cls with
      | .host => (halvesOf line).foldl (fun s h => match tfind s.held h, tfind s.cxl h with
        | some true, none => { s with cxl := tset s.cxl h .dirtyEvict }
        | some false, none => { s with held := terase s.held h, cxl := tset s.cxl h .cleanEvict }
        | _, _ => s) s
      | _ => modDie s d fun x => { x with copies := terase x.copies line }) s

/-! Firing (R309 to R313) -/

/-- A kiln is idle. -/
def kilnIdle (k : Cluster) (n : Nat) : Bool :=
  k.settings.all fun x => match x.at_ with
    | .staging i | .firing i _ => i != n
    | _ => true

/-- R309: an idle kiln takes a setting that has not fired when no fired one waits. -/
def fireEarly (k : Cluster) (x : Setting) : Bool :=
  ((List.range Config.kilns).any (kilnIdle k)) &&
  !(k.settings.any fun y => match y.at_ with | .fired _ => true | _ => false) &&
  k.settings.all fun y => y.at_ != .opened || tableWaits k y || decide (x.deadline < y.deadline) ||
    (y.deadline == x.deadline && decide (x.opened ≤ y.opened))

/-- R309: a setting takes no further member, or its deadline has come. -/
def fullOrDue (now : Nat) (x : Setting) : Bool :=
  decide (128 ≤ x.m) || decide (16 ≤ x.members.length) || decide (x.deadline ≤ now) || !x.share

/-- R309: a setting fires. -/
def fires (k : Cluster) (now : Nat) (x : Setting) : Bool :=
  x.at_ == .opened && !tableWaits k x && (fullOrDue now x || fireEarly k x)

/-- The engines of a cluster take new work: its die is not being reset (R451). -/
def enginesOn (s : State) (cl : Nat) : Bool := acceptsPosts s cl

/-- R451, step 1: the kilns of a cluster also go on with what has fired while their die stops. -/
def kilnsOn (s : State) (cl : Nat) : Bool := enginesOn s cl || s.resets.any fun r => r.die == dieOfCluster cl && r.stepDone == 0

/-- R309: `setting fire`. -/
def execSettingFire (cluster slot : Nat) (s : State) : Out :=
  if Config.clusters ≤ cluster ∨ Config.settings ≤ slot then .fault .noSuchObject
  else
    let k := getCluster s cluster
    match k.settings.find? fun x => x.at_ == .opened && x.slot == slot with
    | none => .next s
    | some x => if enginesOn s cluster && fires k s.clock x then .next (putSetting s cluster { x with at_ := .fired s.clock }) else .next s

/-- R309: the settings of a cluster that are full, unshared or at their deadline fire, and, when cycles have passed since `before`, the one that an idle
kiln takes early. A setting fires at its deadline, or as soon as it could. -/
def fireDue (before : Nat) (s : State) (cl : Nat) : State :=
  let fire (s : State) (x : Setting) (t : Nat) : State := putSetting s cl { x with at_ := .fired t }
  if !enginesOn s cl then s else
  let k := getCluster s cl
  let due := k.settings.filter fun x => x.at_ == .opened && !tableWaits k x && fullOrDue s.clock x
  let s := due.foldl (fun s x => fire s x (if fullOrDue before x then before else x.deadline)) s
  let k := getCluster s cl
  match k.settings.find? fun x => decide (before < s.clock) && fires k s.clock x with
  | some x => fire s x before
  | none => s

/-- R309: `buffer reentry accept`: the command that was sent first. -/
def execBufferReentryAccept (cluster : Nat) (s : State) : Out :=
  if Config.clusters ≤ cluster then .fault .noSuchObject
  else
    let l := reentries (getCluster s cluster)
    let first := (l.map (·.sentAt)).foldl min ((l.head?.map (·.sentAt)).getD 0)
    match leastBy (·.id) (l.filter fun c => c.sentAt == first) with
    | none => .next s
    | some c => .next (reenter s cluster c)

/-- R64, R310: the effective class of a fired setting. -/
def effClass (now : Nat) (x : Setting) : Nat := match x.at_ with | .fired tf => x.cls - (now - tf) / 4096 | _ => 7

/-- When a setting fired. -/
def firedAt (x : Setting) : Nat := match x.at_ with | .fired tf => tf | _ => 0

/-- The elements of a list with the least key. -/
def leastAll {α : Type} (key : α → Nat) (l : List α) : List α :=
  let m := (l.map key).foldl min ((l.head?.map key).getD 0)
  l.filter fun x => key x == m

/-- R310: the fired setting that ranks first. -/
def firstFired (k : Cluster) (now : Nat) : Option Setting :=
  let l := k.settings.filter fun x => match x.at_ with | .fired _ => true | _ => false
  (leastAll (·.slot) (leastAll firedAt (leastAll (effClass now) l))).head?

/-- R312: the lines that a setting would pin, with those that the others of its cluster hold, are more than 64 MiB. -/
def pinsOver (k : Cluster) (x : Setting) (pins : List Nat) : Bool :=
  decide (Config.pinBytes < 128 * (dedup (pins ++ (k.settings.filter fun y => y.opened != x.opened).flatMap (·.pins))).length)

/-- R310, R312, R466: `setting dispatch`: an idle kiln takes the setting that ranks first when its pins fit, and stages its members; one whose lines are
held at a home keeps the kiln. -/
def execSettingDispatch (cluster kiln : Nat) (s : State) : Out :=
  if Config.clusters ≤ cluster ∨ Config.kilns ≤ kiln then .fault .noSuchObject
  else
    let k := getCluster s cluster
    match firstFired k s.clock with
    | none => .next s
    | some x =>
      if !kilnIdle k kiln || !kilnsOn s cluster then .next s
      else match stageMembers cluster x x.members s with
        | .error q => .next (applyReqs (putSetting s cluster { x with at_ := .staging kiln }) q)
        | .ok g =>
          if pinsOver k x g.pins then .next s
          else if g.members.isEmpty then .next (dropSetting g.s cluster x)
          else .next (bringLines (putSetting g.s cluster { recompute (getCluster g.s cluster) x g.members with
            pins := g.pins
            stream := g.stream
            at_ := .staging kiln }) (dieOfCluster cluster) g.pins)

/-- R313: the array cycles of a firing. -/
def arrayCycles (c : Cmd) (m : Nat) : Nat := (if c.sparse then (c.ks + 1) / 2 else c.ks) * max m 16

/-- R459: the idle cycles that throttling inserts into array work that starts now. -/
def throttleExtra (s : State) (d cycles : Nat) : Nat := min cycles (((getDie s d).throttle - s.clock) / 2)

/-- R314: two of the operand lines lie in one L2 slice. -/
def shareSlice (s : State) (lines : List Nat) : Bool :=
  let slices := lines.filterMap (homeSlice s)
  (dedup slices).length != slices.length

/-- R314: the bank conflicts of a firing with some operand lines: none where no two of them lie in one slice, else at most one a cycle; the manual fixes
no number (log entry 70). -/
def addConflicts (s : State) (cl kiln cycles : Nat) (lines : List Nat) : State :=
  let (v, s) := takeFree s
  let n := if shareSlice s lines then v.toNat % (cycles + 1) else 0
  countCluster (modCluster s cl fun k => { k with conflicts := tset k.conflicts kiln (tget 0 k.conflicts kiln + BitVec.ofNat 32 n) }) cl 0x11 n

/-- R312, R313: `firing start`: every line of the remaining members is pinned. -/
def execFiringStart (cluster kiln : Nat) (s : State) : Out :=
  if Config.clusters ≤ cluster ∨ Config.kilns ≤ kiln then .fault .noSuchObject
  else match (getCluster s cluster).settings.find? fun x => x.at_ == .staging kiln with
    | none => .next s
    | some x => match stageMembers cluster x x.members s with
      | .error q => .next (applyReqs s q)
      | .ok g => match (g.members.head?.bind (findCmd g.s cluster)) with
        | none => .next (dropSetting g.s cluster x)
        | some c =>
          if pinsOver (getCluster s cluster) x g.pins then .next s else
          let y := recompute (getCluster g.s cluster) x g.members
          let n := arrayCycles c y.m
          let len := n + throttleExtra g.s (dieOfCluster cluster) n + 64
          let t := bringLines (putSetting g.s cluster { y with pins := g.pins, stream := g.stream, at_ := .firing kiln (s.clock + len) })
            (dieOfCluster cluster) g.pins
          let t := countCluster (countCluster (countCluster t cluster 0x10 len) cluster 0x12 1) cluster 0x13 g.members.length
          .next (addConflicts t cluster kiln len (dedup (g.pins ++ g.sums)))

/-- R312, R313: what a firing sees of the machine: its lines are pinned, so that no reset, no host and no reversion holds a read of them up, and its places are
those of its staging: no sweep of their source lines completes, and so no write of those lines is performed, before the firing has ended (R416, R319). -/
def pinnedView (s : State) : State :=
  { s with sweeps := [], resets := [], lostLines := [], filter := [], dies := s.dies.map fun e => (e.1, { e.2 with off := false }) }

/-- R311, R315: the result of one member of a firing that ends. -/
def memberResult (s : State) (c : Cmd) : Except (List Req) (BitVec 8 × BitVec 5 × List (Bool × Nat × Byte)) :=
  match transStage (pinnedView s) c with
  | .error (.wait q) => .error q
  | .error (.code n _) => .ok (n, 0, [])
  | .error (.page _ _) => .ok (1, 0, [])
  | .ok (s', l) =>
    if l.c.any (·.isNone) then .ok (6, 0, [])
    else match memberPanel s' c l with
      | .error q => .error q
      | .ok none => .ok (3, 0, [])
      | .ok (some p) =>
        let (vals, f) := kilnRun (memberOf s' c) p ((List.range c.m).flatMap fun m => (List.range 32).map fun n => (m, n)) c.seed
        .ok (0, f, elemBytes (fmtBytes (trFmt (recOf c.tc))) l.c vals)

/-- The results of the members of a firing. -/
def memberResults (s : State) : List Cmd → Except (List Req) (List (Cmd × BitVec 8 × BitVec 5 × List (Bool × Nat × Byte)))
  | [] => .ok []
  | c :: t => match memberResult s c, memberResults s t with
    | .ok r, .ok rs => .ok ((c, r) :: rs)
    | .error q, _ | _, .error q => .error q

/-- The lines of a list of output bytes. -/
def outLines (l : List (Bool × Nat × Byte)) : List (Bool × Nat) := dedup (l.map fun b => (b.1, b.2.1 / 128))

/-- R318: of the members that write one line, a free value chooses the one that does; the others keep what they write elsewhere. -/
def shareLines (s : State) (outs : List (List (Bool × Nat × Byte))) : State × List (List (Bool × Nat × Byte)) :=
  let touched := outs.map outLines
  let step (acc : State × List (List (Bool × Nat × Byte))) (line : Bool × Nat) : State × List (List (Bool × Nat × Byte)) :=
    let who := (List.range outs.length).filter fun i => (touched.getD i []).contains line
    if who.length < 2 then acc
    else
      let (v, s) := takeFree acc.1
      let win := who.getD (v.toNat % who.length) 0
      (s, ((List.range outs.length).zip acc.2).map fun p => if p.1 = win then p.2 else p.2.filter fun b => (b.1, b.2.1 / 128) != line)
  (dedup touched.flatten).foldl step (s, outs)

/-- R313, R315: `firing end`: every member has its result; the kiln is idle. -/
def execFiringEnd (cluster kiln : Nat) (s : State) : Out :=
  if Config.clusters ≤ cluster ∨ Config.kilns ≤ kiln then .fault .noSuchObject
  else match (getCluster s cluster).settings.find? fun x => match x.at_ with | .firing i _ => i == kiln | _ => false with
    | none => .next s
    | some x =>
      let due := match x.at_ with | .firing _ t => t | _ => 0
      if s.clock < due then .next s
      else match memberResults s (x.members.filterMap (findCmd s cluster)) with
        | .error q => .next (applyReqs s q)
        | .ok rs =>
          let (s, outs) := shareLines s (rs.map fun r => r.2.2.2)
          let s := dropSetting s cluster x
          let s := dropLines s (dieOfCluster cluster) (x.stream.filter fun l => !pinned s l)
          .next ((rs.zip outs).foldl (fun s p =>
            putCmd s cluster { p.1.1 with code := p.1.2.1, flags := p.1.2.2.1, out := p.2, at_ := .done }) s)

/-! The tile data path (R302) -/

/-- A data command. -/
def Cmd.isData (c : Cmd) : Bool := decide (0x10 ≤ c.op)

/-- R306: a glaze load waits for settings that name the table with an earlier generation; `conv` waits for the load of its table. -/
def dataHeld (k : Cluster) (c : Cmd) : Bool :=
  if c.op = 0x20 then k.settings.any fun x => match x.table with | some (t, g) => t == c.tidM % 4 && decide (g < c.gen) | none => false
  else match c.table with
    | some (t, g) => loadPending k t g
    | none => false

/-- R302: the data command that the path performs next: by class, then oldest first; one at a time. -/
def dataNext (s : State) (cl : Nat) : Option Cmd :=
  let k := getCluster s cl
  if !enginesOn s cl || k.cmds.any (fun c => c.isData && c.at_ == .done && !c.out.isEmpty) then none
  else (leastAll (·.id) (leastAll (·.sentAt) (leastAll (·.prio) (k.cmds.filter fun c => c.isData && c.at_ == .data && !dataHeld k c)))).head?

/-- R315: the operands of a data command, translated: source, scale slots, destination, and the source lines of the destination. -/
def transData (s : State) (c : Cmd) (src slots : List Place) (n : Nat) (dst : List Place) :
    Except CmdFail (State × List (Option (Loc × Nat)) × List (Option (Loc × Nat)) × List (Option (Loc × Nat)) × List Nat) :=
  if let some f := spaceCheck s c then .error f else
  let w := c.actor
  let a := transPlaces w .read n src s
  let b := transPlaces w .read 4 slots a.s
  let d := transPlaces w .write (fmtBytes (trFmt (recOf c.tc))) dst b.s
  match judge c.retry [a, b, d] d.s with
  | some f => .error f
  | none => .ok (d.s, a.locs, b.locs, d.locs, d.tags)

/-- A byte with a nibble replaced. -/
def setNibble (b : Byte) (nib v : Nat) : Byte :=
  if nib = 0 then BitVec.ofNat 8 (b.toNat / 16 * 16 + v % 16) else BitVec.ofNat 8 (b.toNat % 16 + v % 16 * 16)

/-- The bytes that 4-bit elements write: the other nibble of a byte is kept. -/
def nibbleBytes (s : State) (a : Nat) (ws : List ((Loc × Nat) × Nat)) : Except (List Req) (List (Bool × Nat × Byte)) :=
  (dedup (ws.map (·.1.1))).mapM fun l => match engRead s a l 1 with
    | .error (.wait q) => .error q
    | .error _ => .error []
    | .ok b => .ok (l.cls == .spad, l.key, (ws.filter fun w => w.1.1 == l).foldl (fun x w => setNibble x w.1.2 w.2) (b.headD 0))

/-- The bytes that a data command writes. -/
def dataBytes (s : State) (c : Cmd) (dst : List (Option (Loc × Nat))) (vals : List Nat) : Except (List Req) (List (Bool × Nat × Byte)) :=
  let f := trFmt (recOf c.tc)
  if fmtBits f = 4 then nibbleBytes s c.agent ((dst.zip vals).filterMap fun p => p.1.map fun l => (l, p.2))
  else .ok (elemBytes (fmtBytes f) dst vals)

/-- A data command ends its work: a failure, a wait, or its bytes and flags. -/
def dataEnd (s : State) (cl : Nat) (c : Cmd) (r : Except CmdFail (State × List (Bool × Nat × Byte) × BitVec 5 × List Nat)) : State :=
  match r with
  | .error (.wait q) => applyReqs s q
  | .error (.code n s) => endCmd s cl c n
  | .error (.page ps s) => cmdPage s cl c ps
  | .ok (s', out, f, tags) => putCmd s' cl { c with out, flags := f, code := 0, tags, at_ := .done }

/-- A wait as a failure of a data command. -/
def waits {α : Type} (r : Except (List Req) α) : Except CmdFail α := r.mapError .wait

/-- R303: the result of `copy`. -/
def copyResult (s : State) (c : Cmd) : Except CmdFail (State × List (Bool × Nat × Byte) × BitVec 5 × List Nat) := do
  let ta := recOf c.ta
  let (s', src, _, dst, tags) ← transData s c (c.regSrc.places ta) [] (fmtBytes (trFmt ta)) (c.regDst.places (recOf c.tc))
  let v ← waits (readFmt s' c.agent (trFmt ta) src)
  let out ← waits (dataBytes s' c dst (v.map fun x => x.getD 0))
  pure (s', out, 0, tags)

/-- R304: the source values of `conv`, with the flags of the scaling. -/
def convSource (w : Member) (fa : Nat) (coords : List (Nat × Nat)) (v : List (Option Nat)) (sc : List Val) : List (Val × BitVec 5) :=
  (coords.zip v).zip (if fmtScaled fa then sc else v.map fun _ => oneV) |>.map fun p =>
    let x := match p.1.2 with
      | none => .fin false 0 0 false
      | some n => if fa = 0x10 then cb2Weight w.rows n (p.1.1.1 % 8) else fmtVal fa n
    if fmtScaled fa then mulV x p.2 else (x, 0)

/-- R304: the result of `conv`. -/
def convResult (s : State) (c : Cmd) : Except CmdFail (State × List (Bool × Nat × Byte) × BitVec 5 × List Nat) := do
  let ta := recOf c.ta
  let fc := trFmt (recOf c.tc)
  let (s', src, slots, dst, tags) ← transData s c (c.regSrc.places ta) c.slotsSrc (fmtBytes (trFmt ta)) (c.regDst.places (recOf c.tc))
  let v ← waits (readFmt s' c.agent (trFmt ta) src)
  let sc ← waits (readScales s' c.agent slots)
  let (vals, f) := convRun fc c.rnd c.sat (convSource (memberOf s' c) (trFmt ta) c.regSrc.coords v sc) c.seed
  let out ← waits (dataBytes s' c dst vals)
  pure (s', out, f, tags)

/-- R305: the result of `fill`. -/
def fillResult (s : State) (c : Cmd) : Except CmdFail (State × List (Bool × Nat × Byte) × BitVec 5 × List Nat) := do
  let fc := trFmt (recOf c.tc)
  let places := c.regDst.places (recOf c.tc)
  let (s', _, _, dst, tags) ← transData s c [] [] 1 places
  let out ← waits (dataBytes s' c dst (places.map fun _ => fieldOf c.w2 0 32 % 2 ^ fmtBits fc))
  pure (s', out, 0, tags)

/-- The tile data path performs its next command, when that has the OP named. -/
def dataOp (s : State) (cl op : Nat) 
    (result : State → Cmd → Except CmdFail (State × List (Bool × Nat × Byte) × BitVec 5 × List Nat)) : Out :=
  if Config.clusters ≤ cl then .fault .noSuchObject
  else match dataNext s cl with
    | none => .next s
    | some c =>
      if c.op ≠ op then .next s
      else if !tableLoaded s c then .next (endCmd s cl c 2)
      else .next (dataEnd s cl c (result s c))

/-- R303: `copy` on the tile data path. -/
def execCopy (cluster : Nat) (s : State) : Out := dataOp s cluster 0x10 copyResult

/-- R304: `conv` on the tile data path. -/
def execConv (cluster : Nat) (s : State) : Out := dataOp s cluster 0x11 convResult

/-- R305: `fill` on the tile data path. -/
def execFill (cluster : Nat) (s : State) : Out := dataOp s cluster 0x12 fillResult

/-- R116, R306: the rows of a glaze table as a load reads them. -/
def glazeRows (s : State) (c : Cmd) : Except CmdFail (State × List (BitVec 32)) := do
  let base := (recOf c.ta)[0]
  let (s', src, _, _, _) ← transData s c ((List.range 256).map fun i => some ((base + word (4 * i)).toNat, 0)) [] 4 []
  let v ← waits (readPlaces s' c.agent 4 32 src)
  pure (s', v.map fun x => BitVec.ofNat 32 (x.getD 0 % 2 ^ 24))

/-- R306: `glaze load performed`: the table takes its new rows. -/
def execGlazeLoadPerformed (cluster table : Nat) (s : State) : Out :=
  if Config.clusters ≤ cluster ∨ 4 ≤ table then .fault .noSuchObject
  else match dataNext s cluster with
    | none => .next s
    | some c =>
      if c.op ≠ 0x20 ∨ c.tidM % 4 ≠ table then .next s
      else match glazeRows s c with
        | .error f => .next (dataEnd s cluster c (.error f))
        | .ok (s', rows) =>
          let s' := modCluster s' cluster fun k => { k with glaze := match tfind k.glaze table with
            | some x => tset k.glaze table { x with rows, loader := c.space }
            | none => k.glaze }
          .next (dataEnd s' cluster c (.ok (s', [], 0, [])))

/-! Page service and withdrawal -/

/-- R316: `command page response`. -/
def execCommandPageResponse (id : Nat) (code : BitVec 8) (s : State) : Out :=
  match s.pages.find? fun p => p.id == id && p.sent with
  | none => .next s
  | some g => match g.who with
    | .cmd cl n =>
      let s := takeAnswer s g code
      match findCmd s cl n with
      | some c =>
        if c.at_ ≠ .page id then .next s
        else if code ≠ 0 then .next (endCmd s cl c 1)
        else if c.isMatrix then .next (reenter s cl c)
        else .next (putCmd s cl { c with at_ := .data })
      | none => .next s
    | _ => .next s

/-- R319: the commands of an instance that have not begun complete with PREEMPT; the members that remain keep their settings. -/
def withdrawCmds (s : State) (cl space inst : Nat) : State :=
  let k := getCluster s cl
  let firing (c : Cmd) : Bool := match c.at_ with
    | .setting n => k.settings.any fun x => x.opened == n && (match x.at_ with | .firing _ _ => true | _ => false)
    | .done => true
    | _ => false
  let out := k.cmds.filter fun c => c.space == space && c.inst == inst && !firing c
  let gone := out.map (·.id)
  let s := out.foldl (fun s c => endCmd s cl c 8) { s with pages := s.pages.filter fun p => match p.who with
    | .cmd c n => !(c == cl && gone.contains n)
    | _ => true }
  modCluster s cl fun k => { k with settings := (k.settings.map fun x =>
    if x.members.any gone.contains then recompute k x (x.members.filter fun i => !gone.contains i) else x).filter fun x => !x.members.isEmpty }

end Sys2Proof.Machine
end

