-- ==== Sys2Proof/Machine/Vector.lean ====
section
/-! DEFINITION. Machine/Vector.lean: vector and mask instructions (R131, R132, R257 to R285). -/

namespace Sys2Proof.Machine

/-! Shared operations -/

/-- What an element function gives: the element, its flags, and the generator after it. -/
abbrev Elem := Nat × BitVec 5 × BitVec 32

/-- R262: a vector instruction: the pace check, its effect, the next instruction. -/
def vecOp (i : Instr) (m : Act Unit) (s : State) : Host.Outcome State Fault Refusal :=
  perform i (do
    paceGate i
    m
    advance) s

/-- R262: one row: the sources are read before the row of vd is written; the active elements are taken in lane order. -/
def rowMap (vd : VReg) (act : List Nat) (dsize : Nat) (nf : Bool) (r : Nat)
    (f : Nat → BitVec 32 → Elem) (c : Ctx) : Ctx :=
  let step (acc : Row × Ctx) (e : Nat) : Row × Ctx :=
    let (x, fl, g) := f e acc.2.ucsr.vseed
    (setElem acc.1 dsize e x, setSeed (raiseLane acc.2 nf (e * dsize / 4) fl) g)
  let (row, c') := act.foldl step (vrow c vd r, c)
  setVrow c' vd r row

/-- R262: an instruction that works element by element on sources of `ssize` bytes: `f` receives the source elements. -/
def vecMap (vd : VReg) (srcs : List VReg) (m : MReg) (len ssize dsize : Nat) (nf : Bool)
    (f : List Nat → BitVec 32 → Elem) : Act Unit :=
  modMe fun c => (List.range c.vec.rows).foldl (fun c r =>
    let rows := srcs.map fun v => vrow c v r
    rowMap vd (activeIn c m len r) dsize nf r (fun e g => f (rows.map fun x => elemOf x ssize e) g) c) c

/-- R262: an instruction whose sources and destination have one format. -/
def vecSame (vd : VReg) (srcs : List VReg) (m : MReg) (ty : VFmt) (nf : Bool) (f : List Nat → BitVec 32 → Elem) : Act Unit := do
  let c ← me
  vecMap vd srcs m (rowLen c ty.size) ty.size ty.size nf f

/-- R262: a floating result rounded under `vrm`. -/
def vRound (ty : VFmt) (mode : RMode) (g : BitVec 32) (r : Val × BitVec 5) : Elem :=
  let (x, f, g) := roundF (fmtOf ty) mode false g r.1
  (x, r.2 ||| f, g)

/-- An element function of two sources. -/
def bin (f : Nat → Nat → BitVec 32 → Elem) (l : List Nat) (g : BitVec 32) : Elem := f (l.getD 0 0) (l.getD 1 0) g
/-- An element function of one source. -/
def una (f : Nat → BitVec 32 → Elem) (l : List Nat) (g : BitVec 32) : Elem := f (l.getD 0 0) g
/-- An element without flags or draws. -/
def plainE (x : Nat) (g : BitVec 32) : Elem := (x, 0, g)

/-- R271: a two-source arithmetic instruction: a rounded exact result, or a wrapped integer. -/
def vArith (vd vs1 vs2 : VReg) (m : MReg) (ty : VFmt) (nf : Bool) (ff : Bool → Val → Val → Val × BitVec 5)
    (fi : Int → Int → Int) : Act Unit := do
  let c ← me
  let mode := vectorMode c
  vecSame vd [vs1, vs2] m ty nf (bin fun a b g =>
    if ty.isInt then plainE (ofIval ty (fi (ival ty a) (ival ty b))) g
    else vRound ty mode g (ff (isRdn mode) (decodeF (fmtOf ty) a) (decodeF (fmtOf ty) b)))

/-- R271: minimum or maximum. -/
def vMinMax (vd vs1 vs2 : VReg) (m : MReg) (ty : VFmt) (nf : Bool) (isMax : Bool) : Act Unit :=
  vecSame vd [vs1, vs2] m ty nf (bin fun a b g =>
    if ty.isInt then
      let less := decide (ival ty a < ival ty b)
      plainE (if less != isMax then a else b) g
    else
      let (x, f) := minMaxF (fmtOf ty) isMax a b
      (x, f, g))

/-- R272: a fused instruction; vd is the accumulator. -/
def vFused (vd vs1 vs2 : VReg) (m : MReg) (ty : VFmt) (nf : Bool) (negProd negAdd : Bool) : Act Unit := do
  let c ← me
  let mode := vectorMode c
  let fm := fmtOf ty
  vecSame vd [vs1, vs2, vd] m ty nf fun l g =>
    vRound ty mode g (fmaV (isRdn mode) negProd negAdd (decodeF fm (l.getD 0 0)) (decodeF fm (l.getD 1 0)) (decodeF fm (l.getD 2 0)))

/-- R273: a bitwise instruction. -/
def vBits (vd vs1 vs2 : VReg) (m : MReg) (ty : VFmt) (f : Nat → Nat → Nat) : Act Unit :=
  vecSame vd [vs1, vs2] m ty true (bin fun a b g => plainE (f a b) g)

/-- R273: a shift by the low bits of b. -/
def vShift (vd vs1 vs2 : VReg) (m : MReg) (ty : VFmt) (f : Nat → Nat → Nat) : Act Unit :=
  vecSame vd [vs1, vs2] m ty true (bin fun a b g => plainE (f a (b % (8 * ty.size))) g)

/-- R275: a rounded function of one source. -/
def vFunc (vd vs1 : VReg) (m : MReg) (ty : VFmt) (nf : Bool) (f : Val → Val × BitVec 5) : Act Unit := do
  let c ← me
  let mode := vectorMode c
  vecSame vd [vs1] m ty nf (una fun a g => vRound ty mode g (f (decodeF (fmtOf ty) a)))

/-- R274: the exact value of a pair of products and an accumulator. -/
def dot2 (rdn : Bool) (l : List Val) (acc : Val) : Val × BitVec 5 :=
  let (p, f1) := mulV (l.getD 0 (.nan false)) (l.getD 1 (.nan false))
  let (q, f2) := mulV (l.getD 2 (.nan false)) (l.getD 3 (.nan false))
  let (x, f3) := addV rdn p q
  let (y, f4) := addV rdn x acc
  (y, f1 ||| f2 ||| f3 ||| f4)

/-- R276: a comparison: every bit of every row of md is written. -/
def vCompare (md : MReg) (vs1 vs2 : VReg) (m : MReg) (ty : VFmt) (nf quiet : Bool) (fi : Int → Int → Bool) (ff : Val → Val → Bool) :
    Act Unit :=
  modMe fun c =>
    let len := rowLen c ty.size
    let one (acc : Nat × Ctx) (p : Nat × Nat) : Nat × Ctx :=
      let a := elemOf (vrow c vs1 p.1) ty.size p.2
      let b := elemOf (vrow c vs2 p.1) ty.size p.2
      let x := decodeF (fmtOf ty) a
      let y := decodeF (fmtOf ty) b
      let res := if ty.isInt then fi (ival ty a) (ival ty b) else ff x y
      let fl := if ty.isInt then 0 else flagIf (if quiet then x.isSnan || y.isSnan else x.isNan || y.isNan) fNV
      (acc.1 + (if res then 2 ^ (64 * p.1 + p.2) else 0), raiseLane acc.2 nf (p.2 * ty.size / 4) fl)
    let (bits, c') := (activeElems c m len).foldl one (0, c)
    setMask c' md (BitVec.ofNat 512 bits)

/-- R281: one converted element. -/
def convert (ty sty : VFmt) (sat : Bool) (mode : RMode) (a : Nat) (g : BitVec 32) : Elem :=
  let (lo, hi) := intRange ty
  if sty.isInt then
    let i := ival sty a
    if ty.isInt then
      (if i < lo then (ofIval ty lo, fNV, g) else if hi < i then (ofIval ty hi, fNV, g) else plainE (ofIval ty i) g)
    else roundF (fmtOf ty) mode sat g (Val.ofInt i)
  else
    let x := decodeF (fmtOf sty) a
    if ty.isInt then
      let (i, f, g) := roundInt lo hi mode g x
      (ofIval ty i, f, g)
    else
      let (e, f, g) := roundF (fmtOf ty) mode sat g x
      (e, f ||| flagIf x.isSnan fNV, g)

/-! Reductions (R131, R132, R282) -/

/-- The generator and the flags of lane 0. -/
abbrev RedSt := BitVec 32 × BitVec 5

/-- R131: combining with ABSENT gives the other operand. -/
def combine {α : Type} (f : α → α → RedSt → α × RedSt) (a b : Option α) (st : RedSt) : Option α × RedSt :=
  match a, b with
  | some x, some y => let (z, st) := f x y st; (some z, st)
  | some x, none => (some x, st)
  | none, y => (y, st)

/-- R131: one level of the tree of a row. -/
def redLevel {α : Type} (f : α → α → RedSt → α × RedSt) : List (Option α) → RedSt → List (Option α) × RedSt
  | a :: b :: t, st =>
    let (x, st) := combine f a b st
    let (l, st) := redLevel f t st
    (x :: l, st)
  | l, st => (l, st)

/-- R131: the result of a row. -/
def redRow {α : Type} (f : α → α → RedSt → α × RedSt) : Nat → List (Option α) → RedSt → Option α × RedSt
  | 0, l, st => (l.headD none, st)
  | n + 1, l, st => let (l, st) := redLevel f l st; redRow f n l st

/-- R131: the results of all rows, each by its tree. -/
def redRows {α : Type} (f : α → α → RedSt → α × RedSt) : List (List (Option α)) → RedSt → List (Option α) × RedSt
  | [], st => ([], st)
  | row :: t, st =>
    let (x, st) := redRow f 6 row st
    let (l, st) := redRows f t st
    (x :: l, st)

/-- R131: row results combined in increasing order. -/
def redAll {α : Type} (f : α → α → RedSt → α × RedSt) (rows : List (List (Option α))) (st : RedSt) : Option α × RedSt :=
  match redRows f rows st with
  | ([], st) => (none, st)
  | (x :: t, st) => t.foldl (fun acc y => combine f acc.1 y acc.2) (x, st)

/-- R132: the operation of a reduction. -/
inductive RedOp where
  | sum
  | max
  | min
  deriving DecidableEq, Repr

/-- R131: the positions of each granted row: the active elements, and ABSENT. -/
def redLeaves (c : Ctx) (vs1 : VReg) (m : MReg) (ty : VFmt) : List (List (Option Nat)) :=
  (List.range c.vec.rows).map fun r => (List.range (64 / ty.size)).map fun e =>
    if e < rowLen c ty.size ∧ maskBit c m r e then some (elemOf (vrow c vs1 r) ty.size e) else none

/-- R132: a floating leaf widened to fp32. -/
def redLeaf (ty : VFmt) (n : Nat) : Nat := (roundF fp32 .rne false 0 (decodeF (fmtOf ty) n)).1

/-- R132: a floating combine. -/
def redFloat (op : RedOp) (mode : RMode) (a b : Nat) (st : RedSt) : Nat × RedSt :=
  match op with
  | .sum =>
    let (v, f1) := addV (isRdn mode) (decodeF fp32 a) (decodeF fp32 b)
    let (x, f2, g) := roundF fp32 mode false st.1 v
    (x, (g, st.2 ||| f1 ||| f2))
  | .max => let (x, f) := minMaxF fp32 true a b; (x, (st.1, st.2 ||| f))
  | .min => let (x, f) := minMaxF fp32 false a b; (x, (st.1, st.2 ||| f))

/-- R132: an integer combine; sums are exact. -/
def redInt (op : RedOp) (a b : Int) (st : RedSt) : Int × RedSt :=
  (match op with
    | .sum => a + b
    | .max => if a < b then b else a
    | .min => if b < a then b else a, st)

/-- R282: a value saturated to int32, with OF when it saturates. -/
def sat32 (v : Int) : Int × BitVec 5 :=
  if v < -2 ^ 31 then (-2 ^ 31, fOF) else if 2 ^ 31 - 1 < v then (2 ^ 31 - 1, fOF) else (v, 0)

/-- R282: the 32-bit result of a reduction, with the generator and flags after it. -/
def reduce (op : RedOp) (c : Ctx) (vs1 : VReg) (m : MReg) (ty : VFmt) : Nat × RedSt :=
  let leaves := redLeaves c vs1 m ty
  let g := c.ucsr.vseed
  if ty.isInt then
    let (r, st) := redAll (redInt op) (leaves.map fun l => l.map fun o => o.map (ival ty)) (g, 0)
    let v := r.getD (match op with | .sum => 0 | .max => (intRange ty).1 | .min => (intRange ty).2)
    let (x, f) := sat32 v
    ((BitVec.ofInt 32 x).toNat, (st.1, st.2 ||| f))
  else
    let sn := leaves.any fun l => l.any fun o => match o with | some n => (decodeF (fmtOf ty) n).isSnan | none => false
    let (r, st) := redAll (redFloat op (vectorMode c)) (leaves.map fun l => l.map fun o => o.map (redLeaf ty)) (g, flagIf sn fNV)
    (r.getD (match op with | .sum => 0 | .max => 0xFF800000 | .min => 0x7F800000), st)

/-- R282: the result is written to bytes [3:0] of row 0. -/
def vReduce (op : RedOp) (vd vs1 : VReg) (m : MReg) (ty : VFmt) (nf : Bool) : Act Unit :=
  modMe fun c =>
    if c.vec.rows = 0 then c
    else
      let (x, g, f) := reduce op c vs1 m ty
      setVrow (setSeed (raiseLane c nf 0 f) g) vd 0 (setElem (vrow c vd 0) 4 0 x)

/-! Block add and requantise (R283) -/

/-- R283: the maximum magnitude of a format. -/
def bqMax (ty : VFmt) : Nat := match ty with | .e4m3 => 448 | .e5m2 => 57344 | _ => 127

/-- R283: the greatest magnitude of a list. -/
def maxAbs (l : List Val) : Val := l.foldl (fun a v => if ltV a v.abs then v.abs else a) (.fin false 0 0 false)

/-- R283: one row: 32 elements and a scale. -/
def bqRow (ty : VFmt) (mode : RMode) (nf : Bool) (x y : Row) (c : Ctx) : Row × Ctx :=
  let sx := sc24V (elemOf x 4 8 % 2 ^ 24)
  let sy := sc24V (elemOf y 4 8 % 2 ^ 24)
  let term (i : Nat) : Val × BitVec 5 :=
    let p := mulV (elemVal ty (elemOf x 1 i)) sx
    let q := mulV (elemVal ty (elemOf y 1 i)) sy
    let t := addV (isRdn mode) p.1 q.1
    let inv (e s : Val) : Bool := e.isInf && s.isZero
    (t.1, flagIf (inv (elemVal ty (elemOf x 1 i)) sx || inv (elemVal ty (elemOf y 1 i)) sy ||
      (p.1.isInf && q.1.isInf && p.1.neg != q.1.neg)) fNV)
  let ts := (List.range 32).map term
  let row (els : List Nat) (scale : Nat) : Row :=
    setElem ((List.range 32).foldl (fun r i => setElem r 1 i (els.getD i 0)) 0) 4 8 scale
  if sx.isNan || sy.isNan || ts.any fun t => t.1.isNan || t.1.isInf then
    let nv := flagIf (sx.isNan || sy.isNan) fNV ||| ts.foldl (fun f t => f ||| t.2) 0
    (row [] 0xFF0000, raiseLane c nf 8 nv)
  else
    let a := maxAbs (ts.map (·.1))
    if a.isZero then (row [] 0, c)
    else
      let up := sc24Up (divV a (Val.ofInt (bqMax ty))).1
      let scale := up.getD 0xFEFFFF
      let c := raiseLane c nf 8 (flagIf up.isNone fOF)
      let one (acc : List Nat × Ctx) (i : Nat) : List Nat × Ctx :=
        let v := (divV (ts.getD i (.nan false, 0)).1 (sc24V scale)).1
        let (e, f, g) : Elem :=
          if ty.isInt then
            let (k, f, g) := roundInt (-128) 127 mode acc.2.ucsr.vseed v
            (ofIval ty k, f, g)
          else roundF (fmtOf ty) mode true acc.2.ucsr.vseed v
        (acc.1 ++ [e], setSeed (raiseLane acc.2 nf (i / 4) f) g)
      let (els, c) := (List.range 32).foldl one ([], c)
      (row els scale, c)

/-! Masks (R285) -/

/-- R285: a mask of two masks. -/
def maskBin (md ma mb : MReg) (f : Row → Row → Row) : Act Unit := modMe fun c => setMask c md (f (maskVal c ma) (maskVal c mb))

/-- R285: the granted positions whose bit is 1, in row order then bit order. -/
def maskBits (c : Ctx) (ma : MReg) : List (Nat × Nat) := activeElems c ma c.vec.len

/-- R261: the grant as `vshape` returns it. -/
def grantWord (v : Vec) : Word := word (v.rows * 2 ^ 16 + v.len)

/-! Instructions -/

/-- R271: `vadd`. -/
def execVadd (vd vs1 vs2 : VReg) (m : MReg) (ty : VFmt) (pace : BitVec 2) (nf : Bool) (s : State) :
    Host.Outcome State Fault Refusal :=
  vecOp (.vadd vd vs1 vs2 m ty pace nf) (vArith vd vs1 vs2 m ty nf addV (· + ·)) s

/-- R271: `vsub`. -/
def execVsub (vd vs1 vs2 : VReg) (m : MReg) (ty : VFmt) (pace : BitVec 2) (nf : Bool) (s : State) :
    Host.Outcome State Fault Refusal :=
  vecOp (.vsub vd vs1 vs2 m ty pace nf) (vArith vd vs1 vs2 m ty nf (fun z a b => addV z a b.negate) (· - ·)) s

/-- R271: `vmul`. -/
def execVmul (vd vs1 vs2 : VReg) (m : MReg) (ty : VFmt) (pace : BitVec 2) (nf : Bool) (s : State) :
    Host.Outcome State Fault Refusal :=
  vecOp (.vmul vd vs1 vs2 m ty pace nf) (vArith vd vs1 vs2 m ty nf (fun _ a b => mulV a b) (· * ·)) s

/-- R272: `vfma`. -/
def execVfma (vd vs1 vs2 : VReg) (m : MReg) (ty : VFmt) (pace : BitVec 2) (nf : Bool) (s : State) :
    Host.Outcome State Fault Refusal :=
  vecOp (.vfma vd vs1 vs2 m ty pace nf) (vFused vd vs1 vs2 m ty nf false false) s

/-- R272: `vfms`. -/
def execVfms (vd vs1 vs2 : VReg) (m : MReg) (ty : VFmt) (pace : BitVec 2) (nf : Bool) (s : State) :
    Host.Outcome State Fault Refusal :=
  vecOp (.vfms vd vs1 vs2 m ty pace nf) (vFused vd vs1 vs2 m ty nf false true) s

/-- R272: `vfnma`. -/
def execVfnma (vd vs1 vs2 : VReg) (m : MReg) (ty : VFmt) (pace : BitVec 2) (nf : Bool) (s : State) :
    Host.Outcome State Fault Refusal :=
  vecOp (.vfnma vd vs1 vs2 m ty pace nf) (vFused vd vs1 vs2 m ty nf true false) s

/-- R271: `vmin`. -/
def execVmin (vd vs1 vs2 : VReg) (m : MReg) (ty : VFmt) (pace : BitVec 2) (nf : Bool) (s : State) :
    Host.Outcome State Fault Refusal :=
  vecOp (.vmin vd vs1 vs2 m ty pace nf) (vMinMax vd vs1 vs2 m ty nf false) s

/-- R271: `vmax`. -/
def execVmax (vd vs1 vs2 : VReg) (m : MReg) (ty : VFmt) (pace : BitVec 2) (nf : Bool) (s : State) :
    Host.Outcome State Fault Refusal :=
  vecOp (.vmax vd vs1 vs2 m ty pace nf) (vMinMax vd vs1 vs2 m ty nf true) s

/-- R273: `vand`. -/
def execVand (vd vs1 vs2 : VReg) (m : MReg) (ty : VFmt) (pace : BitVec 2) (nf : Bool) (s : State) :
    Host.Outcome State Fault Refusal :=
  vecOp (.vand vd vs1 vs2 m ty pace nf) (vBits vd vs1 vs2 m ty (· &&& ·)) s

/-- R273: `vor`. -/
def execVor (vd vs1 vs2 : VReg) (m : MReg) (ty : VFmt) (pace : BitVec 2) (nf : Bool) (s : State) :
    Host.Outcome State Fault Refusal :=
  vecOp (.vor vd vs1 vs2 m ty pace nf) (vBits vd vs1 vs2 m ty (· ||| ·)) s

/-- R273: `vxor`. -/
def execVxor (vd vs1 vs2 : VReg) (m : MReg) (ty : VFmt) (pace : BitVec 2) (nf : Bool) (s : State) :
    Host.Outcome State Fault Refusal :=
  vecOp (.vxor vd vs1 vs2 m ty pace nf) (vBits vd vs1 vs2 m ty (· ^^^ ·)) s

/-- R273: `vshl`. -/
def execVshl (vd vs1 vs2 : VReg) (m : MReg) (ty : VFmt) (pace : BitVec 2) (nf : Bool) (s : State) :
    Host.Outcome State Fault Refusal :=
  vecOp (.vshl vd vs1 vs2 m ty pace nf) (vShift vd vs1 vs2 m ty fun a n => a * 2 ^ n) s

/-- R273: `vshr`. -/
def execVshr (vd vs1 vs2 : VReg) (m : MReg) (ty : VFmt) (pace : BitVec 2) (nf : Bool) (s : State) :
    Host.Outcome State Fault Refusal :=
  vecOp (.vshr vd vs1 vs2 m ty pace nf) (vShift vd vs1 vs2 m ty fun a n => a / 2 ^ n) s

/-- R273: `vsra`. -/
def execVsra (vd vs1 vs2 : VReg) (m : MReg) (ty : VFmt) (pace : BitVec 2) (nf : Bool) (s : State) :
    Host.Outcome State Fault Refusal :=
  vecOp (.vsra vd vs1 vs2 m ty pace nf) (vShift vd vs1 vs2 m ty fun a n => ofIval ty (ival ty a / 2 ^ n)) s

/-- R274: `vdot2`. -/
def execVdot2 (vd vs1 vs2 : VReg) (m : MReg) (ty : VFmt) (pace : BitVec 2) (nf : Bool) (s : State) :
    Host.Outcome State Fault Refusal :=
  vecOp (.vdot2 vd vs1 vs2 m ty pace nf) (modMe fun c =>
    let mode := vectorMode c
    let len := rowLen c 2
    (List.range c.vec.rows).foldl (fun c r =>
      let x := vrow c vs1 r
      let y := vrow c vs2 r
      let z := vrow c vd r
      let act := (List.range 16).filter fun l => decide (2 * l + 1 < len) && maskBit c m r l
      rowMap vd act 4 nf r (fun l g =>
        if ty.isInt then
          let p (k : Nat) : Int := ival ty (elemOf x 2 (2 * l + k)) * ival ty (elemOf y 2 (2 * l + k))
          plainE (ofIval .i32 (p 0 + p 1 + ival .i32 (elemOf z 4 l))) g
        else
          let v (w : Row) (k : Nat) : Val := decodeF (fmtOf ty) (elemOf w 2 (2 * l + k))
          vRound .f32 mode g (dot2 (isRdn mode) [v x 0, v y 0, v x 1, v y 1] (decodeF fp32 (elemOf z 4 l)))) c) c) s

/-- R275: `vabs`. -/
def execVabs (vd vs1 : VReg) (m : MReg) (ty : VFmt) (pace : BitVec 2) (nf : Bool) (s : State) :
    Host.Outcome State Fault Refusal :=
  vecOp (.vabs vd vs1 m ty pace nf) (vecSame vd [vs1] m ty true (una fun a g =>
    plainE (if ty.isInt then ofIval ty (Int.natAbs (ival ty a)) else a % 2 ^ (8 * ty.size - 1)) g)) s

/-- R275: `vneg`. -/
def execVneg (vd vs1 : VReg) (m : MReg) (ty : VFmt) (pace : BitVec 2) (nf : Bool) (s : State) :
    Host.Outcome State Fault Refusal :=
  vecOp (.vneg vd vs1 m ty pace nf) (vecSame vd [vs1] m ty true (una fun a g =>
    plainE (if ty.isInt then ofIval ty (-(ival ty a)) else a ^^^ 2 ^ (8 * ty.size - 1)) g)) s

/-- R275: `vrcp`. -/
def execVrcp (vd vs1 : VReg) (m : MReg) (ty : VFmt) (pace : BitVec 2) (nf : Bool) (s : State) :
    Host.Outcome State Fault Refusal :=
  vecOp (.vrcp vd vs1 m ty pace nf) (vFunc vd vs1 m ty nf rcpV) s

/-- R275: `vrsq`. -/
def execVrsq (vd vs1 : VReg) (m : MReg) (ty : VFmt) (pace : BitVec 2) (nf : Bool) (s : State) :
    Host.Outcome State Fault Refusal :=
  vecOp (.vrsq vd vs1 m ty pace nf) (vFunc vd vs1 m ty nf rsqV) s

/-- R275: `vexp2`. -/
def execVexp2 (vd vs1 : VReg) (m : MReg) (ty : VFmt) (pace : BitVec 2) (nf : Bool) (s : State) :
    Host.Outcome State Fault Refusal :=
  vecOp (.vexp2 vd vs1 m ty pace nf) (vFunc vd vs1 m ty nf exp2V) s

/-- R275: `vlog2`. -/
def execVlog2 (vd vs1 : VReg) (m : MReg) (ty : VFmt) (pace : BitVec 2) (nf : Bool) (s : State) :
    Host.Outcome State Fault Refusal :=
  vecOp (.vlog2 vd vs1 m ty pace nf) (vFunc vd vs1 m ty nf log2V) s

/-- R276: `vcmp.eq`. -/
def execVcmpEq (md : MReg) (vs1 vs2 : VReg) (m : MReg) (ty : VFmt) (pace : BitVec 2) (nf : Bool) (s : State) :
    Host.Outcome State Fault Refusal :=
  vecOp (.vcmpEq md vs1 vs2 m ty pace nf) (vCompare md vs1 vs2 m ty nf true (fun a b => a == b) eqV) s

/-- R276: `vcmp.lt`. -/
def execVcmpLt (md : MReg) (vs1 vs2 : VReg) (m : MReg) (ty : VFmt) (pace : BitVec 2) (nf : Bool) (s : State) :
    Host.Outcome State Fault Refusal :=
  vecOp (.vcmpLt md vs1 vs2 m ty pace nf) (vCompare md vs1 vs2 m ty nf false (fun a b => decide (a < b)) ltV) s

/-- R276: `vcmp.ne`. -/
def execVcmpNe (md : MReg) (vs1 vs2 : VReg) (m : MReg) (ty : VFmt) (pace : BitVec 2) (nf : Bool) (s : State) :
    Host.Outcome State Fault Refusal :=
  vecOp (.vcmpNe md vs1 vs2 m ty pace nf) (vCompare md vs1 vs2 m ty nf true (fun a b => a != b) (fun a b => !eqV a b)) s

/-- R276: `vcmp.le`. -/
def execVcmpLe (md : MReg) (vs1 vs2 : VReg) (m : MReg) (ty : VFmt) (pace : BitVec 2) (nf : Bool) (s : State) :
    Host.Outcome State Fault Refusal :=
  vecOp (.vcmpLe md vs1 vs2 m ty pace nf) (vCompare md vs1 vs2 m ty nf false (fun a b => decide (a ≤ b)) (fun a b => ltV a b || eqV a b)) s

/-- R277: `vsel`: the mask selects. -/
def execVsel (vd vs1 vs2 : VReg) (m : MReg) (ty : VFmt) (pace : BitVec 2) (nf : Bool) (s : State) :
    Host.Outcome State Fault Refusal :=
  vecOp (.vsel vd vs1 vs2 m ty pace nf) (modMe fun c =>
    (List.range c.vec.rows).foldl (fun c r =>
      let x := vrow c vs1 r
      let y := vrow c vs2 r
      let bits := maskVal c m
      rowMap vd (List.range (rowLen c ty.size)) ty.size true r (fun e g =>
        plainE (elemOf (if bits.getLsbD (64 * r + e) then x else y) ty.size e) g) c) c) s

/-- R281: `vcvt`. -/
def execVcvt (vd vs1 : VReg) (m : MReg) (ty sty : VFmt) (sat : Bool) (pace : BitVec 2) (nf : Bool) (s : State) :
    Host.Outcome State Fault Refusal :=
  vecOp (.vcvt vd vs1 m ty sty sat pace nf) (do
    let c ← me
    let mode := vectorMode c
    vecMap vd [vs1] m (min (rowLen c ty.size) (rowLen c sty.size)) sty.size ty.size nf
      (una fun a g => convert ty sty sat mode a g)) s

/-- R279: `vbcast`. -/
def execVbcast (vd : VReg) (rs1 : Reg) (ty : VFmt) (pace : BitVec 2) (s : State) : Host.Outcome State Fault Refusal :=
  perform (.vbcast vd rs1 ty pace) (do
    let a ← operand1 rs1 none
    let c ← me
    vecMap vd [] 0 (rowLen c ty.size) ty.size ty.size true (fun _ g => plainE a.toNat g)
    advance) s

/-- R280: `vmvx` to an x register. -/
def execVmvxToX (rd : Reg) (vs : VReg) (rs2 : Reg) (ty : VFmt) (pace : BitVec 2) (s : State) :
    Host.Outcome State Fault Refusal :=
  perform (.vmvxToX rd vs rs2 ty pace) (do
    let i ← operand1 rs2 rd
    paceGate (.vmvxToX rd vs rs2 ty pace)
    let c ← me
    let r := fieldOf i 6 3
    let e := fieldOf i 0 6
    finishRd rd (if r < c.vec.rows ∧ e < rowLen c ty.size then sextN (8 * ty.size) (elemOf (vrow c vs r) ty.size e) else 0)) s

/-- R280: `vmvx` to a vector register. -/
def execVmvxToV (vd : VReg) (rs1 rs2 : Reg) (ty : VFmt) (pace : BitVec 2) (s : State) : Host.Outcome State Fault Refusal :=
  perform (.vmvxToV vd rs1 rs2 ty pace) (do
    let (a, i) ← operand2 rs1 rs2 none
    let r := fieldOf i 6 3
    let e := fieldOf i 0 6
    modMe fun c =>
      if r < c.vec.rows ∧ e < rowLen c ty.size then setVrow c vd r (setElem (vrow c vd r) ty.size e a.toNat) else c
    advance) s

/-- R261: `vshape`. -/
def execVshape (rd rs1 : Reg) (ty : VFmt) (pace : BitVec 2) (s : State) : Host.Outcome State Fault Refusal :=
  perform (.vshape rd rs1 ty pace) (do
    let a ← operand1 rs1 rd
    modMe fun c =>
      if bitOf a 63 then c
      else { c with vec := { c.vec with
        rows := min (fieldOf a 16 16) (min 8 (c.vec.vrows / 16))
        len := min (fieldOf a 0 16) (64 / ty.size) } }
    let c ← me
    finishRd rd (grantWord c.vec)) s

/-- R278: `vmvv`. -/
def execVmvv (vd vs1 : VReg) (m : MReg) (ty : VFmt) (pace : BitVec 2) (nf : Bool) (s : State) :
    Host.Outcome State Fault Refusal :=
  vecOp (.vmvv vd vs1 m ty pace nf) (vecSame vd [vs1] m ty true (una fun a g => plainE a g)) s

/-- R278: `vperm`. -/
def execVperm (vd vs1 vs2 : VReg) (m : MReg) (ty : VFmt) (pace : BitVec 2) (nf : Bool) (s : State) :
    Host.Outcome State Fault Refusal :=
  vecOp (.vperm vd vs1 vs2 m ty pace nf) (modMe fun c =>
    let len := rowLen c ty.size
    (List.range c.vec.rows).foldl (fun c r =>
      let x := vrow c vs1 r
      let y := vrow c vs2 r
      rowMap vd (activeIn c m len r) ty.size true r (fun e g =>
        let i := elemOf y ty.size e
        plainE (if i < len then elemOf x ty.size i else 0) g) c) c) s

/-- R282: `vred.sum`. -/
def execVredSum (vd vs1 : VReg) (m : MReg) (ty : VFmt) (pace : BitVec 2) (nf : Bool) (s : State) :
    Host.Outcome State Fault Refusal :=
  vecOp (.vredSum vd vs1 m ty pace nf) (vReduce .sum vd vs1 m ty nf) s

/-- R282: `vred.max`. -/
def execVredMax (vd vs1 : VReg) (m : MReg) (ty : VFmt) (pace : BitVec 2) (nf : Bool) (s : State) :
    Host.Outcome State Fault Refusal :=
  vecOp (.vredMax vd vs1 m ty pace nf) (vReduce .max vd vs1 m ty nf) s

/-- R282: `vred.min`. -/
def execVredMin (vd vs1 : VReg) (m : MReg) (ty : VFmt) (pace : BitVec 2) (nf : Bool) (s : State) :
    Host.Outcome State Fault Refusal :=
  vecOp (.vredMin vd vs1 m ty pace nf) (vReduce .min vd vs1 m ty nf) s

/-- R285: `mand`. -/
def execMand (md ma mb : MReg) (s : State) : Host.Outcome State Fault Refusal :=
  vecOp (.mand md ma mb) (maskBin md ma mb (· &&& ·)) s

/-- R285: `mor`. -/
def execMor (md ma mb : MReg) (s : State) : Host.Outcome State Fault Refusal :=
  vecOp (.mor md ma mb) (maskBin md ma mb (· ||| ·)) s

/-- R285: `mxor`. -/
def execMxor (md ma mb : MReg) (s : State) : Host.Outcome State Fault Refusal :=
  vecOp (.mxor md ma mb) (maskBin md ma mb (· ^^^ ·)) s

/-- R285: `mnot`. -/
def execMnot (md ma : MReg) (s : State) : Host.Outcome State Fault Refusal :=
  vecOp (.mnot md ma) (maskBin md ma ma fun a _ => ~~~a) s

/-- R285: `mpop`. -/
def execMpop (rd : Reg) (ma : MReg) (s : State) : Host.Outcome State Fault Refusal :=
  perform (.mpop rd ma) (do
    let _ ← operands [] rd
    paceGate (.mpop rd ma)
    let c ← me
    finishRd rd (word (maskBits c ma).length)) s

/-- R285: `mfirst`. -/
def execMfirst (rd : Reg) (ma : MReg) (s : State) : Host.Outcome State Fault Refusal :=
  perform (.mfirst rd ma) (do
    let _ ← operands [] rd
    paceGate (.mfirst rd ma)
    let c ← me
    finishRd rd (match maskBits c ma with
      | [] => BitVec.allOnes 64
      | p :: _ => word (p.1 * c.vec.len + p.2))) s

/-- R285: `mset`. -/
def execMset (md : MReg) (rs1 : Reg) (s : State) : Host.Outcome State Fault Refusal :=
  perform (.mset md rs1) (do
    let a ← operand1 rs1 none
    modMe fun c => setMask c md (BitVec.ofNat 512 ((List.range 8).foldl (fun n r => n + a.toNat * 2 ^ (64 * r)) 0))
    advance) s

/-- R283: `vbq.addrq`. -/
def execVbqAddrq (vd vs1 vs2 : VReg) (ty : VFmt) (pace : BitVec 2) (nf : Bool) (s : State) : Host.Outcome State Fault Refusal :=
  vecOp (.vbqAddrq vd vs1 vs2 ty pace nf) (modMe fun c =>
    let mode := vectorMode c
    (List.range c.vec.rows).foldl (fun c r =>
      let (row, c) := bqRow ty mode nf (vrow c vs1 r) (vrow c vs2 r) c
      setVrow c vd r row) c) s

end Sys2Proof.Machine
end

