-- ==== Sys2Proof/Machine/Preempt.lean ====
section
/-! DEFINITION. Machine/Preempt.lean: pre-emption (R396 to R402): `pm.req`, `pm.load`, the save of a core's contexts and its end. -/

namespace Sys2Proof.Machine

/-! The instance -/

/-- The contexts of an instance in a partition. -/
def ctxsOf (s : State) (part space inst : Nat) : List (Nat × Ctx) :=
  s.ctxs.filter fun e => !isHub e.1 && ctxNo e.1 != 0 && partOf s e.1 == part && e.2.status != .free && instOf e.2 == (space, inst)

/-- The record belongs to the instance. -/
def LRec.isOf (r : LRec) (space inst : Nat) : Bool := r.space == space && r.inst == inst

/-- The records of an instance that wait in the partition: in launch queues and in replay buffers. -/
def recordsOf (s : State) (part space inst : Nat) : List LRec :=
  (clustersOf s part).flatMap fun cl =>
    let k := getCluster s cl
    ((k.launch.map (·.record)) ++ (k.replay.map (·.record))).filter fun r => r.isOf space inst

/-- The pre-emption of an instance, if there is one. -/
def findPreempt (s : State) (part space inst : Nat) : Option Preempt :=
  s.preempts.find? fun p => p.part == part && p.space == space && p.inst == inst

/-- State with a pre-emption replaced. -/
def setPreempt (s : State) (p : Preempt) : State :=
  { s with preempts := s.preempts.map fun x => if x.id = p.id then p else x }

/-- R397: for whom a save is made. -/
def Preempt.actor (p : Preempt) (core : Nat) : Actor :=
  { agent := agentOf core 0, space := p.space, sup := false, inst := (p.space, p.inst) }

/-- The cores that hold contexts of a list, in increasing order. -/
def coresOf (l : List (Nat × Ctx)) : List Nat := dedup (l.map fun e => coreOf e.1)

/-! Requesting (R396, R397 steps 1 to 3) -/

/-- R397, step 2: a context of the instance is to stop; a record that it has posted and that is not accepted is withdrawn; `ln.quiet` needs a draw
that is sampled after the restore, and `cn.wait` is re-executed (R232). -/
def stopCtx (s : State) (a : Nat) : State :=
  let c := getCtx s a
  let open_ := match c.sent with | some id => s.posts.any fun p => p.id == id | none => false
  let waits := match c.status with | .parked (.draw _ _) | .parked (.cone _ _) => true | _ => false
  let s := { s with posts := if open_ then s.posts.filter fun p => some p.id != c.sent else s.posts }
  let s := if open_ || waits then returnTaken s a else s
  modCtx s a fun c => { c with
    stopping := some 8
    sent := if open_ || waits then none else c.sent
    reply := if waits then none else c.reply
    status := if open_ || waits then .ready else c.status }

/-- R396: SAVE of the instance's descriptor. -/
def saveArea (s : State) (core : Nat) (space inst : Nat) (pdesc : Word) : Fetched Word :=
  match readHdr s { agent := agentOf core 0, space, sup := false, inst := (space, inst) } pdesc with
  | .ok h s' => .ok h.save s'
  | .fail => .fail
  | .wait q => .wait q

/-- R397, steps 1 to 3: an instance begins to stop. -/
def startPreempt (s : State) (part space inst : Nat) (area pdesc : Word) : State :=
  let cs := ctxsOf s part space inst
  let rs := recordsOf s part space inst
  let (id, s) := takeId s
  let p : Preempt :=
    { id, part, space, inst, area, pdesc, cores := coresOf cs, saved := [], nextOff := 128, state := 0, code := 0, flush := false,
      groups := dedup (cs.filterMap (fun e => groupOf s e.1) ++ rs.map (·.draw)) }
  let s := { s with preempts := s.preempts ++ [p] }
  let s := cs.foldl (fun s e => stopCtx s e.1) s
  (clustersOf s part).foldl (fun s cl => withdrawCmds s cl space inst) s

/-- R396, operation 0 on an instance that is not being pre-empted. -/
def preempt (part space inst : Nat) (v : Word) : Act Unit := do
  let s ← get
  let cs := ctxsOf s part space inst
  let pdesc := ((cs.filterMap fun e => e.2.record.map (·.w0)) ++ (recordsOf s part space inst).map (·.w0)).headD 0
  if v ≠ 0 ∨ pdesc = 0 then modify fun s => startPreempt s part space inst v pdesc
  else
    let core := ((cs.head?.map fun e => coreOf e.1)).getD (part * 2048)
    match saveArea s core space inst pdesc with
    | .ok area s' => set (startPreempt (dropUio s') part space inst area pdesc)
    | .fail => modify fun s => startPreempt s part space inst 0 pdesc
    | .wait q => stop (.hold q)

/-- R397: operation 0 after a failed save begins again at step 4, with the new save area. -/
def restart (p : Preempt) (area : Word) : Preempt :=
  { p with
    area
    flush := false
    cores := p.saved.map (·.1) ++ p.cores
    saved := []
    nextOff := 128
    state := 0
    code := 0 }

/-- R396, R397: operation 0 on an instance whose save has failed; rs2 = 0 selects SAVE of its descriptor. -/
def preemptAgain (p : Preempt) (v : Word) : Act Unit := do
  let s ← get
  if v ≠ 0 ∨ p.pdesc = 0 then modify fun s => setPreempt s (restart p v)
  else
    let core := (((ctxsOf s p.part p.space p.inst).head?.map fun e => coreOf e.1)).getD (p.part * 2048)
    match saveArea s core p.space p.inst p.pdesc with
    | .ok area s' => set (setPreempt (dropUio s') (restart p area))
    | .fail => modify fun s => setPreempt s (restart p 0)
    | .wait q => stop (.hold q)

/-- R399: dispatch of the instance resumes; its coils cease to be live when no context of it is left. -/
def releaseInst (s : State) (p : Preempt) : State :=
  let s := { s with preempts := s.preempts.filter fun x => x.id != p.id }
  (s.queues.filter fun q => q.coil && q.part == p.part && q.space == p.space && q.inst == p.inst).foldl (fun s q => retireQueue s q.id) s

/-- R396: `pm.req`. -/
def execPmReq (rd rs1 rs2 : Reg) (s : State) : Host.Outcome State Fault Refusal :=
  perform (.pmReq rd rs1 rs2) (do
    supervisorOnly (.pmReq rd rs1 rs2)
    let (a, v) ← operand2 rs1 rs2 rd
    let s ← get
    let part := partOf s s.cur
    let space := fieldOf a 0 16
    let inst := fieldOf a 16 16
    let cur := findPreempt s part space inst
    if fieldOf a 32 2 = 3 then finishRd rd 4
    else if v.toNat % 128 ≠ 0 then finishRd rd 3
    else match fieldOf a 32 2 with
    | 2 => finishRd rd (match cur with
      | none => 1
      | some p => if p.state = 1 then 5 else 2)
    | 1 => match cur with
      | some p =>
        if p.state = 1 then
          modify fun s => releaseInst s p
          finishRd rd 0
        else finishRd rd (if p.state = 0 then 2 else 1)
      | none => finishRd rd 1
    | _ => match cur with
      | none =>
        preempt part space inst v
        finishRd rd 0
      | some p =>
        if p.state = 0 then finishRd rd 2
        else if p.state = 1 then finishRd rd 5
        else
          preemptAgain p v
          finishRd rd 0) s

/-! The save area (R398) -/

/-- A doubleword of the save area. -/
def dword (n : Nat) : List Byte := leBytes 8 n

/-- Bytes filled up with zeros to a multiple of 128. -/
def pad128 (l : List Byte) : List Byte := l ++ List.replicate ((128 - l.length % 128) % 128) 0

/-- The part of a core's scratchpad of `n` bytes from byte `off` on. -/
def spadPart (s : State) (core off n : Nat) : List Byte := readBytes s.spad (core / 256 * 2 ^ 24 + core % 256 * 65536 + off) n

/-- The scratchpad of a core with bytes written from byte `off` on. -/
def setSpadPart (s : State) (core off : Nat) (b : List Byte) : State :=
  if b.isEmpty then s else spadWrite s engineAgent (cellsAt (core / 256 * 2 ^ 24 + core % 256 * 65536 + off) b)

/-- R389, R456: a context as a save takes it: a scout rolled back, a halted context TRAPPED with cause 3. -/
def saveView (a : Nat) (c : Ctx) : Ctx :=
  let c := match c.scout with
    | some sc => { c with scout := none, pc := sc.pc, x := sc.x, vec := sc.vec, ucsr := sc.ucsr, status := .ready }
    | none => c
  if c.halted.isSome then
    { c with halted := none, status := .trapped, trapRec := some (trapRecord c (ctxNo a) 3 c.pc c.pc 0 0) }
  else c

/-- R398: the state field of a context record. -/
def saveState (c : Ctx) : Nat := match c.status with | .trapped => 2 | .parked .self => 1 | _ => 0

/-- R398: the user CSRs of a context record. -/
def saveCsrs (u : UCsr) : List Byte :=
  ([u.fflags.toNat + 32 * u.frm.toNat, u.spovf.toNat, u.vseed.toNat, u.vrm.toNat, u.vflg0.toNat, u.vflg1.toNat] ++
    u.tkvec.toList.map (·.toNat) ++ [u.tklvl.toNat, u.tkq.toNat, u.tkepc.toNat, u.instret.toNat]).flatMap dword

/-- R398: the index of the queue that an end is bound to; 255 when it is unbound. -/
def endIndex (s : State) (e : QEnd) : Nat := match e.queue.bind (findQueue s) with | some q => q.index | none => 255

/-- The bits of the ends for which a test holds. -/
def endMask (l : List QEnd) (p : QEnd → Bool) : Nat :=
  ((List.range 8).filter fun k => p (l.getD k {})).foldl (fun n k => n + 2 ^ k) 0

/-- R398: a window entry: command, seed, valid bit; nothing for an entry that has been sent. -/
def saveEntry (e : WinEntry) : List Byte :=
  [e.w0.toNat, e.w1.toNat, e.w2.toNat, e.w3.toNat, e.seed.toNat + 2 ^ 32].flatMap dword

/-- R398: the streams of a context; the first has its place in the record, further ones follow the carve-out (log entry 17). -/
def streamsOf (s : State) (a : Nat) : List Pug := ((getCluster s (clusterOf a)).pugs.filter fun p => p.2.agent == a).map (·.2)

/-- The 64 bytes of a stream, with the number of further streams. -/
def saveStream (x : Pug) (more : Nat) : List Byte :=
  [x.desc, x.bag, x.n, x.flags.toNat + x.code.toNat * 2 ^ 8 + 2 ^ 16 + x.errs * 2 ^ 32, x.k, x.j,
    1 + (if modeOf x.d = 2 then lenOf x.d else 0) * 2 ^ 32 + x.out.length * 2 ^ 16, more].flatMap dword

/-- R398: the pooled partial sums of an open bag-sum stream, 4 × LEN bytes; zeros while its bag holds no row. -/
def saveSums (x : Pug) : List Byte :=
  if modeOf x.d = 2 then (List.range (lenOf x.d)).flatMap fun i => leBytes 4 (x.acc.getD i 0).toNat else []

/-- The entries that a stream has still to push, for want of room in its value queue (log entry 17). -/
def saveOut (x : Pug) : List Byte := x.out.flatMap fun e => dword e.payload.toNat ++ dword e.tag.toNat

/-- R398: the words of a trap record. -/
def saveTrap (r : Option TrapRec) : List Byte :=
  match r with
  | some r => [r.w0.toNat, r.w1.toNat, r.w2.toNat, r.w3.toNat].flatMap dword
  | none => List.replicate 32 0

/-- R398: a context record. CBASE stands in bits [31:16] of the doubleword at offset 328 (log entry 17). -/
def ctxBytes (s : State) (a : Nat) : List Byte :=
  let c := saveView a (getCtx s a)
  let r := c.record.getD ⟨0, 0, 0, 0, 0, 0, 0, 0⟩
  let ends := c.ends.toList
  let xs := (List.range 32).map fun i => if i = 0 ∨ xBound s a i then 0 else (c.x.toList.getD i 0).toNat
  let win := c.win.filter fun e => e.sent.isNone
  let ps := streamsOf s a
  pad128 ((
    [r.w0, r.w1, r.w2, r.w3, r.w4, r.w5, r.w6, r.w7].flatMap (fun w => dword w.toNat)) ++
    xs.flatMap dword ++ dword c.pc.toNat ++
    dword (saveState c + (if c.wake then 4 else 0) + ctxNo a * 8 + c.cbase * 2 ^ 16) ++
    dword (grantWord c.vec).toNat ++
    (if saveState c = 2 then saveTrap c.trapRec else saveTrap none) ++
    saveCsrs c.ucsr ++ dword 0 ++ leBytes 32 c.ev.toNat ++
    ends.map (fun e => BitVec.ofNat 8 (endIndex s e)) ++
    leBytes 1 (endMask ends (·.write)) ++ leBytes 1 (endMask ends (·.closed)) ++ List.replicate 6 0 ++
    (List.range 8).flatMap (fun i => if i = 0 then List.replicate 64 0 else leBytes 64 (c.vec.masks.toList.getD i 0).toNat) ++
    win.flatMap saveEntry ++ List.replicate (40 * (32 - win.length)) 0 ++
    (match ps with | x :: t => saveStream x t.length | [] => List.replicate 64 0) ++
    (List.range c.vec.vrows).flatMap (fun i => leBytes 64 (tget 0 c.vec.vrf i).toNat) ++
    (match ps with | x :: _ => saveSums x | [] => []) ++
    spadPart s (coreOf a) (c.cbase * 256) ((c.ctop - c.cbase) * 256) ++
    (match ps with | x :: _ => saveOut x | [] => []) ++
    (ps.drop 1).flatMap fun x => saveStream x 0 ++ saveSums x ++ saveOut x)

/-- Contexts in the order in which they started. -/
def insertAge (x : Nat × Ctx) : List (Nat × Ctx) → List (Nat × Ctx)
  | [] => [x]
  | y :: t => if x.2.born < y.2.born then x :: y :: t else y :: insertAge x t

/-- The contexts of a list, the one that started first in front. -/
def byAge (l : List (Nat × Ctx)) : List Nat := (l.foldl (fun acc x => insertAge x acc) []).map (·.1)

/-- R398: a near queue. -/
def queueBytes (q : Queue) : List Byte :=
  dword q.index ++ dword q.items.length ++
  q.items.flatMap fun i => dword i.entry.payload.toNat ++ leBytes 4 i.entry.tag.toNat ++ leBytes 4 (i.pos % 2 ^ 32)

/-- The number under which a queue keeps what a saved context holds of it. -/
def savedAgent (a : Nat) : Nat := 2 ^ 20 + a

/-- The contexts of a core for which a test holds, as a mask. -/
def ctxMask (core : Nat) (p : Nat → Bool) : Nat :=
  ((List.range 16).filter fun n => p (agentOf core n)).foldl (fun m n => m + 2 ^ n) 0

/-- R398: a coil state: index, head and tail SEQ, and for each consumer and producer of the core whether it holds a bag or the append
position. -/
def coilBytes (q : Queue) (core : Nat) : List Byte :=
  let head := match q.items with | i :: _ => i.pos | [] => q.tail
  dword q.index ++ leBytes 4 head ++ leBytes 4 q.tail ++
  dword (ctxMask core fun a => q.claims.contains a) ++ dword (ctxMask core fun a => q.append == some a)

/-- The near queues of an instance on a core. -/
def nearOf (s : State) (p : Preempt) (core : Nat) : List Queue :=
  s.queues.filter fun q => !q.coil && q.core == core && q.space == p.space && q.inst == p.inst
/-- The coils of an instance that have an end on a core. -/
def coilsOf (s : State) (p : Preempt) (core : Nat) : List Queue :=
  s.queues.filter fun q => q.coil && q.part == p.part && q.space == p.space && q.inst == p.inst &&
    (boundTo s q.id).any fun a => coreOf a == core
/-- The blocks of a core's scratchpad that an instance owns. -/
def blocksOf (s : State) (p : Preempt) (core : Nat) : List Nat :=
  (List.range 16).filter fun b => tagInst (ownerTag (getCore s core) b) == some (p.space, p.inst)
/-- The patch slots of a core that an instance owns. -/
def patchOf (s : State) (p : Preempt) (core : Nat) : List (Nat × Slot) :=
  (List.range 4).filterMap fun n => ((getCore s core).slots.toList.getD n none).bind fun x =>
    if x.space = p.space ∧ x.inst = p.inst then some (n, x) else none

/-- R398: a core section. -/
def sectionBytes (s : State) (p : Preempt) (core : Nat) : List Byte :=
  let cs := byAge ((ctxsOf s p.part p.space p.inst).filter fun e => coreOf e.1 == core)
  let near := nearOf s p core
  let coils := coilsOf s p core
  let blocks := blocksOf s p core
  let slots := patchOf s p core
  let body := cs.flatMap (ctxBytes s) ++ near.flatMap queueBytes ++ coils.flatMap (coilBytes · core) ++
    blocks.flatMap (fun b => dword b ++ dword 0 ++ spadPart s core (b * 4096) 4096) ++
    slots.flatMap fun x => bytesOfWords x.2.cells
  let total := 128 + (pad128 body).length
  let mask := slots.foldl (fun m x => m + 2 ^ x.1) 0
  dword (core + cs.length * 2 ^ 13 + blocks.length * 2 ^ 17 + mask * 2 ^ 22 + total * 2 ^ 32) ++
    dword (near.length + coils.length * 2 ^ 8) ++ List.replicate 112 0 ++ pad128 body

/-- R398: the header. -/
def headerBytes (p : Preempt) (state : Nat) (code : BitVec 8) : List Byte :=
  dword (state + code.toNat * 2 ^ 8 + p.saved.length * 2 ^ 16 + p.nextOff * 2 ^ 32) ++ dword (p.space + p.inst * 2 ^ 16) ++
    dword p.pdesc.toNat ++ List.replicate 104 0

/-! Saving -/

/-- R412, R237: the places of bytes that an engine writes from `va` on, page by page, with the source lines of their translations. -/
def placeBytes (w : Actor) : Nat → Nat → List Byte → State → Except (EFail × Nat) (List ((Bool × Nat) × Byte) × List Nat × State)
  | 0, _, _, s => .ok ([], [], s)
  | fuel + 1, va, b, s =>
    if b.isEmpty then .ok ([], [], s)
    else
      let k := min b.length (4096 - va % 4096)
      match engLoc s w va k .write with
      | .error e => .error (e, va)
      | .ok (l, t, s') => match placeBytes w fuel (va + k) (b.drop k) s' with
        | .error e => .error e
        | .ok (r, ts, s'') => .ok ((placesOf l k).zip (b.take k) ++ r, dedup (t ++ ts), s'')

/-- R427: a save's bytes in memory that is never cached go there by unordered I/O, line by line. -/
def sendFar (s : State) (p : Preempt) (core : Nat) (bytes : List (Nat × Byte)) (tags : List Nat) : State :=
  (byLine bytes).foldl (fun s g =>
    let (id, s) := takeId s
    { s with writes := s.writes ++ [
      { id, agent := engineAgent, kind := .store, addr := g.1 * 128, bytes := g.2, order := .rlx, scope := .sys, tags, ea := word p.id,
        atHome := false, home := false, inv := [], acks := [], src := some (core / 256) }] }) s

/-- R427: an earlier write of a save to one of the lines has not completed. -/
def farBusy (s : State) (lines : List Nat) : Bool := s.writes.any fun w => w.agent == engineAgent && !w.home && lines.contains (w.addr / 128)

/-- R397: a save's writes to memory outside the device have not all completed. -/
def farWaits (s : State) (p : Preempt) : Bool := s.writes.any fun w => w.agent == engineAgent && !w.home && w.ea == word p.id

/-- R380: PMT is raised to context 0 of a core. -/
def raisePmt (s : State) (core : Nat) (area : Word) : State :=
  modCtx s (agentOf core 0) fun c => { c with scsr := { c.scsr with sip := setField c.scsr.sip 17 1 1, pmtAddr := area } }

/-- How an attempt to write part of the save area ends. -/
inductive Saved where
  | ok (s : State)
  | wait (s : State)
  | fail (code : BitVec 8)

/-- R397: bytes are written to the save area; a page that is not present is requested and waited for. -/
def saveWrite (s : State) (p : Preempt) (core : Nat) (va : Nat) (b : List Byte) : Saved :=
  match placeBytes (p.actor core) (b.length / 4096 + 2) va b s with
  | .error (.wait q, _) => .wait (applyReqs s q)
  | .error (.notPresent lines, at_) =>
    let s := holdLines s (p.actor core).agent lines
    if s.pages.any fun g => g.who == .preempt p.id then .wait s
    else
      let w1 := spaceWord s p.part p.space
      if bitOf w1 28 || (getPart s p.part).prFailed then .fail 1
      else .wait (sendGroup s p.part (fieldOf w1 0 20) (.preempt p.id) [(at_ / 4096 * 4096, true)]).2
  | .error (e, _) => .fail ((e.code).getD 2)
  | .ok (bytes, tags, s') =>
    let isFar (b : (Bool × Nat) × Byte) : Bool := !b.1.1 && uncached s' (lineOf b.1.2)
    let far := (bytes.filter isFar).map fun b => (b.1.2, b.2)
    let near := bytes.filter fun b => !isFar b
    if farBusy s' (far.map fun b => lineOf b.1) then .wait s'
    else match engCanWrite s' (p.actor core).agent near with
    | .error q => .wait (applyReqs s' q)
    | .ok _ => .ok (sendFar (engWrite s' engineAgent near tags (some (core / 256))) p core far tags)

/-- R397: the header of a failed save is written, when it can be; a header that cannot be written at all is given up. -/
def writeFailed (s : State) (p : Preempt) : State :=
  match saveWrite s p (((p.saved.map (·.1) ++ p.cores).head?).getD (p.part * 2048)) p.area.toNat (headerBytes p 2 p.code) with
  | .ok s' => setPreempt s' { p with flush := false }
  | .wait s' => s'
  | .fail _ => setPreempt s { p with flush := false }

/-- R397: the save has failed: STATE becomes 2 with a code, and PMT is raised on the instance's cores; the contexts stay taken. -/
def failSave (s : State) (p : Preempt) (code : BitVec 8) : State :=
  let p := { p with state := 2, code, flush := true }
  (p.saved.map (·.1) ++ p.cores).foldl (fun s c => raisePmt s c p.area) (writeFailed (setPreempt s p) p)

/-- R397, steps 2 and 4: a context is taken: its stores and pushes are performed, and no reply is awaited. -/
def savable (s : State) (a : Nat) (c : Ctx) : Bool :=
  settled s a .sys && !(s.coilMsgs.any fun m => m.producer == a) && c.sent.isNone && c.reply.isNone && c.out.isEmpty &&
  !(s.uio.any fun u => u.agent == a)

/-- R331: the instance's streams have stopped at a lookup boundary, or before outputs for which their value queues have no room. -/
def pugsQuiet (s : State) (p : Preempt) : Bool :=
  (clustersOf s p.part).all fun cl => (getCluster s cl).pugs.all fun x =>
    !(x.2.space == p.space && x.2.inst == p.inst) || (match x.2.out with
      | [] => true
      | e :: _ => match (endOf s x.2.agent x.2.j).queue.bind (findQueue s) with
        | some q => !canPush s q x.2.agent e
        | none => true)

/-- R397, step 4: every context of the instance is taken and every command it has sent has completed. -/
def instQuiet (s : State) (p : Preempt) : Bool :=
  pugsQuiet s p && ((ctxsOf s p.part p.space p.inst).all fun e => savable s e.1 e.2) &&
  (clustersOf s p.part).all fun cl => !(getCluster s cl).cmds.any fun c => c.space == p.space && c.inst == p.inst

/-- R397, R418: the lines of memory that a save is to write next. -/
def savePlaces (s : State) (p : Preempt) : List Nat :=
  let chunk (core va : Nat) (b : List Byte) : List Nat := match placeBytes (p.actor core) (b.length / 4096 + 2) va b s with
    | .ok (l, _, _) => dedup (l.filterMap fun x => if x.1.1 then none else some (lineOf x.1.2))
    | .error _ => []
  let first := ((p.saved.map (·.1) ++ p.cores).head?).getD (p.part * 2048)
  if p.flush then chunk first p.area.toNat (headerBytes p 2 p.code)
  else if p.state ≠ 0 || !instQuiet s p then []
  else match p.cores with
    | core :: _ => (if p.saved.isEmpty then chunk core p.area.toNat (headerBytes p 0 0) else []) ++
        chunk core (p.area.toNat + p.nextOff) (sectionBytes s p core)
    | [] => if p.area = 0 ∧ p.pdesc = 0 then [] else chunk first p.area.toNat (headerBytes p 1 0)

/-- R397, step 4: `preempt save`: a core writes its section; the cores write in the order of their indexes. -/
def execPreemptSave (id core : Nat) (s : State) : Out :=
  match s.preempts.find? fun p => p.id == id with
  | none => .next s
  | some p =>
    if p.flush then .next (writeFailed s p)
    else if p.state ≠ 0 ∨ p.cores.head? ≠ some core then .next s
    else if !instQuiet s p then .next (applyReqs s (visibleReqs s))
    else
      let b := sectionBytes s p core
      let first := if p.saved.isEmpty then saveWrite s p core p.area.toNat (headerBytes p 0 0) else .ok s
      match first with
      | .wait s' => .next s'
      | .fail n => .next (failSave s p n)
      | .ok s1 => match saveWrite s1 p core (p.area.toNat + p.nextOff) b with
        | .wait s' => .next s'
        | .fail n => .next (failSave s p n)
        | .ok s' => .next (setPreempt s' { p with
            cores := p.cores.drop 1
            saved := p.saved ++ [(core, p.nextOff)]
            nextOff := p.nextOff + b.length })

/-- What a queue holds for agent `a` is held for agent `b`. -/
def renameHolder (q : Queue) (a b : Nat) : Queue :=
  let f (o : Option Nat) : Option Nat := if o = some a then some b else o
  { q with
    items := q.items.map fun i => { i with owner := f i.owner }
    append := f q.append
    holder := f q.holder
    openBag := q.openBag.map f
    claims := q.claims.map fun x => if x = a then b else x
    copies := q.copies.map fun c => (c.1, c.2.1, c.2.2.1.map fun x => if x = a then b else x, c.2.2.2) }

/-- R232, R397: an end of a saved context leaves its coil: entries sent to it go back, and what it claims stays claimed. -/
def parkEnd (s : State) (a : Nat) (e : QEnd) : State :=
  match e.queue.bind (findQueue s) with
  | none => s
  | some q =>
    let back := (e.got.filter fun it => !q.bag || it.owner.isSome).foldl (fun l it => insertItem { it with owner := if q.bag then it.owner else none } l) q.items
    let copies := (e.got.filter fun it => q.bag && it.owner.isNone).map fun it => (it.entry, it.pos, [a], false)
    setQueue s (renameHolder { q with items := back, copies := copies ++ q.copies } a (savedAgent a))

/-- R397: where a whole unpopped record lies in the trap queue, from entry `at_` on: records have four entries each. -/
def recordAt (r : TrapRec) : Nat → Nat → List Entry → Option Nat
  | 0, _, _ => none
  | fuel + 1, at_, l =>
    if l.length < 4 then none
    else if (l.take 4).map (·.payload) = [r.w0, r.w1, r.w2, r.w3] then some at_
    else recordAt r fuel (at_ + 4) (l.drop 4)

/-- R397: a saved trap record leaves its core. R384: entries of a queued interrupt record that lie behind it come sooner to the head. -/
def takeRecord (k : Core) (r : TrapRec) : Core :=
  let rest := k.trapQ.length % 4
  let k := { k with waiting := k.waiting.filter fun x => x != r }
  match recordAt r 16 rest (k.trapQ.drop rest) with
  | none => k
  | some n => { k with
      trapQ := k.trapQ.take n ++ k.trapQ.drop (n + 4)
      intr := if n < k.intr then k.intr - 4 else k.intr }

/-- R397, step 5: a saved context becomes FREE, with no completion arrival. -/
def freeSaved (s : State) (a : Nat) : State :=
  let c := getCtx s a
  let s := c.ends.toList.foldl (fun s e => parkEnd s a e) s
  let s := modCluster s (clusterOf a) fun k => { k with pugs := k.pugs.filter fun p => p.2.agent != a }
  let s := match c.trapRec with
    | some r => modCore s (coreOf a) fun k => takeRecord k r
    | none => s
  { s with ctxs := terase s.ctxs a, uio := s.uio.filter fun u => uioOwner u != a }

/-- R397, step 5: the contexts of the instance on a core, with its blocks, near queues and patch slots. -/
def freeCore (s : State) (p : Preempt) (core : Nat) : State :=
  let near := (nearOf s p core).map (·.id)
  let s := ((ctxsOf s p.part p.space p.inst).filter fun e => coreOf e.1 == core).foldl (fun s e => freeSaved s e.1) s
  let s := { s with queues := s.queues.filter fun q => !near.contains q.id }
  let s := (blocksOf s p core).foldl (fun s b => setOwner s core b noOwner) s
  raisePmt (freePatch s core (p.space, p.inst)) core p.area

/-- R397, steps 5 and 6: `preempt complete`. -/
def execPreemptComplete (id : Nat) (s : State) : Out :=
  match s.preempts.find? fun p => p.id == id with
  | none => .next s
  | some p =>
    if p.flush then .next (writeFailed s p)
    else if p.state ≠ 0 ∨ !p.cores.isEmpty ∨ farWaits s p then .next s
    else if !instQuiet s p then .next (applyReqs s (visibleReqs s))
    else
      let done (s : State) : State := p.saved.foldl (fun s c => freeCore s p c.1) (setPreempt s { p with state := 1 })
      if p.area = 0 ∧ p.pdesc = 0 then .next (done s)
      else match saveWrite s p (((p.saved.map (·.1)).head?).getD (p.part * 2048)) p.area.toNat (headerBytes p 1 0) with
        | .wait s' => .next s'
        | .fail n => .next (failSave s p n)
        | .ok s' => .next (done s')

/-! Restoring (R399) -/

/-- The doubleword at an offset of a list of bytes. -/
def dwAt (b : List Byte) (off : Nat) : Nat := leNat ((b.drop off).take 8)

/-- A stream as a section holds it. -/
structure SavedStream where
  desc : Nat
  bag : Nat
  n : Nat
  status : Word
  k : Nat
  j : Nat
  acc : List (BitVec 32)
  out : List Entry
  deriving DecidableEq, Repr

/-- A context as a section holds it. -/
structure SavedCtx where
  record : LRec
  x : List Word
  pc : Word
  state : Nat
  wake : Bool
  number : Nat
  cbase : Nat
  grant : Word
  trap : TrapRec
  ucsr : UCsr
  ev : BitVec 256
  ends : List (Nat × Nat × Bool × Bool)
  masks : Vector Row 8
  win : List WinEntry
  rows : List Row
  carve : List Byte
  streams : List SavedStream
  deriving DecidableEq, Repr

/-- R398: the user CSRs of a context record. The manual does not say what a mode code 110 or 111 or a zero generator that software has put into the
save area becomes: here the bits are taken as they stand (log entry 103). -/
def loadCsrs (b : List Byte) : UCsr :=
  let d (i : Nat) : Word := word (dwAt b (8 * i))
  { fflags := (d 0).setWidth 5
    frm := BitVec.ofNat 3 (fieldOf (d 0) 5 3)
    spovf := d 1
    vseed := (d 2).setWidth 32
    vrm := (d 3).setWidth 3
    vflg0 := d 4
    vflg1 := d 5
    tkvec := Vector.ofFn fun i => d (6 + i.val)
    tklvl := (d 14).setWidth 3
    tkq := (d 15).setWidth 3
    tkepc := d 16
    instret := d 17 }

/-- A stream from its 64 bytes, its sums, and the entries it has still to push. -/
def loadStream (b sums out : List Byte) : SavedStream :=
  let v := dwAt b 48
  { desc := dwAt b 0, bag := dwAt b 8, n := dwAt b 16, status := word (dwAt b 24), k := dwAt b 32 % 8, j := dwAt b 40 % 8
    acc := if dwAt b 16 = 0 then [] else (List.range (nbits v 32 16)).map fun i => BitVec.ofNat 32 (leNat ((sums.drop (4 * i)).take 4))
    out := (List.range (nbits v 16 16)).map fun i => ⟨word (dwAt out (16 * i)), BitVec.ofNat 4 (dwAt out (16 * i + 8))⟩ }

/-- The bytes of a stream's sums. -/
def sumsLen (b : List Byte) : Nat := 4 * nbits (dwAt b 48) 32 16
/-- The bytes of the entries that a stream has still to push. -/
def outLen (b : List Byte) : Nat := 16 * nbits (dwAt b 48) 16 16

/-- The further streams of a record. -/
def loadMore : Nat → List Byte → List SavedStream × Nat
  | 0, _ => ([], 0)
  | n + 1, b =>
    let x := loadStream b (b.drop 64) (b.drop (64 + sumsLen b))
    let k := 64 + sumsLen b + outLen b
    let (l, m) := loadMore n (b.drop k)
    (x :: l, k + m)

/-- R398: a context record, and its length. -/
def loadCtx (b : List Byte) : SavedCtx × Nat :=
  let d (off : Nat) : Word := word (dwAt b off)
  let r := recordOf ((List.range 8).map fun i => d (8 * i))
  let st := d 328
  let ps := b.drop 2368
  let has := dwAt ps 48 % 2 == 1
  let rowsEnd := 2432 + 64 * r.vrows
  let sums := if has then sumsLen ps else 0
  let carveAt := rowsEnd + sums
  let outAt := carveAt + 256 * r.spill
  let moreAt := outAt + (if has then outLen ps else 0)
  let (more, len) := loadMore (if has then dwAt ps 56 else 0) (b.drop moreAt)
  let wins := (List.range 32).filterMap fun i =>
    let e := b.drop (1088 + 40 * i)
    if bitOf (word (dwAt e 32)) 32 then
      some (⟨word (dwAt e 0), word (dwAt e 8), word (dwAt e 16), word (dwAt e 24), BitVec.ofNat 32 (dwAt e 32), none⟩ : WinEntry)
    else none
  let byte (off : Nat) : Nat := (b.getD off 0).toNat
  ({ record := r
     x := (List.range 32).map fun i => d (64 + 8 * i)
     pc := d 320
     state := fieldOf st 0 2
     wake := bitOf st 2
     number := fieldOf st 3 4
     cbase := fieldOf st 16 16
     grant := d 336
     trap := ⟨fieldOf st 3 4, d 344, d 352, d 360, d 368⟩
     ucsr := loadCsrs (b.drop 376)
     ev := BitVec.ofNat 256 (leNat ((b.drop 528).take 32))
     ends := (List.range 8).filterMap fun k =>
       if byte (560 + k) = 255 then none
       else some (k, byte (560 + k), (byte 568 / 2 ^ k % 2 == 1), (byte 569 / 2 ^ k % 2 == 1))
     masks := Vector.ofFn fun i => BitVec.ofNat 512 (leNat ((b.drop (576 + 64 * i.val)).take 64))
     win := wins
     rows := (List.range r.vrows).map fun i => BitVec.ofNat 512 (leNat ((b.drop (2432 + 64 * i)).take 64))
     carve := (b.drop carveAt).take (256 * r.spill)
     streams := if has then loadStream ps (b.drop rowsEnd) (b.drop outAt) :: more else [] },
   (moreAt + len + 127) / 128 * 128)

/-- The context records of a section, and the bytes that follow them. -/
def loadCtxs : Nat → List Byte → List SavedCtx × List Byte
  | 0, b => ([], b)
  | n + 1, b =>
    let (c, k) := loadCtx b
    let (l, rest) := loadCtxs n (b.drop k)
    (c :: l, rest)

/-- The near queues of a section: index and entries. -/
def loadNear : Nat → List Byte → List (Nat × List Entry) × List Byte
  | 0, b => ([], b)
  | n + 1, b =>
    let k := dwAt b 8
    let es := (List.range k).map fun i => (⟨word (dwAt b (16 + 16 * i)), BitVec.ofNat 4 (dwAt b (24 + 16 * i))⟩ : Entry)
    let (l, rest) := loadNear n (b.drop (16 + 16 * k))
    ((dwAt b 0 % 256, es) :: l, rest)

/-- R398: the state of a coil as a section holds it: its index, its pointers, and the contexts of the core, as masks of their numbers, that hold a bag
and that holds the append position. -/
structure SavedCoil where
  idx : Nat
  head : Nat
  tail : Nat
  claims : Nat
  append : Nat
  deriving DecidableEq, Repr

/-- R398: the coil states of a section. -/
def loadCoils (n : Nat) (b : List Byte) : List SavedCoil :=
  (List.range n).map fun i =>
    let d (off : Nat) : Nat := dwAt b (32 * i + off)
    ⟨d 0 % 256, d 8 % 2 ^ 32, d 8 / 2 ^ 32, d 16, d 24⟩

/-- A core section. -/
structure SavedCore where
  core : Nat
  ctxs : List SavedCtx
  near : List (Nat × List Entry)
  coils : List SavedCoil
  blocks : List (Nat × List Byte)
  slots : List (Nat × List Word)
  deriving DecidableEq, Repr

/-- R398: a core section from its bytes. -/
def loadSection (b : List Byte) : SavedCore :=
  let h := word (dwAt b 0)
  let (cs, rest) := loadCtxs (fieldOf h 13 4) (b.drop 128)
  let (near, rest) := loadNear (dwAt b 8 % 256) rest
  let nc := nbits (dwAt b 8) 8 8
  let coils := loadCoils nc rest
  let rest := rest.drop (32 * nc)
  let nb := fieldOf h 17 5
  let blocks := (List.range nb).map fun i => (dwAt rest (4112 * i) % 16, (rest.drop (4112 * i + 16)).take 4096)
  let rest := rest.drop (4112 * nb)
  let ns := (List.range 4).filter fun n => bitOf h (22 + n)
  { core := fieldOf h 0 13
    ctxs := cs
    near := near
    coils := coils
    blocks := blocks
    slots := (List.range ns.length).map fun i => (ns.getD i 0, wordsOf ((rest.drop (128 * i)).take 128)) }

/-- What a restore needs of a saved context: its descriptor, its ends with their queue table entries, and its streams' descriptors. -/
structure Restore where
  c : SavedCtx
  hdr : PDescHdr
  ends : List (EndPlan × Bool)
  descs : List (SavedStream × Vector Word 8)
  deriving DecidableEq, Repr

/-- The queue table entries of a saved context's ends. -/
def restoreEnds (w : Actor) (h : PDescHdr) : List (Nat × Nat × Bool × Bool) → State → Fetched (List (EndPlan × Bool))
  | [], s => .ok [] s
  | (k, idx, wr, closed) :: t, s => match readQDesc s w h idx with
    | .fail => .fail
    | .wait q => .wait q
    | .ok d s1 => match restoreEnds w h t s1 with
      | .ok l s' => .ok ((⟨k, idx, wr, some d⟩, closed) :: l) s'
      | .fail => .fail
      | .wait q => .wait q

/-- The descriptors of a saved context's streams. -/
def restoreDescs (w : Actor) : List SavedStream → State → Fetched (List (SavedStream × Vector Word 8))
  | [], s => .ok [] s
  | x :: t, s => match descWords s w (word x.desc) 64 with
    | .fail => .fail
    | .wait q => .wait q
    | .ok l s1 => match restoreDescs w t s1 with
      | .ok r s' => .ok ((x, Vector.ofFn fun i => l.getD i.val 0) :: r) s'
      | .fail => .fail
      | .wait q => .wait q

/-- All that the contexts of a section need from memory. -/
def restoreAll (core : Nat) : List SavedCtx → State → Fetched (List Restore)
  | [], s => .ok [] s
  | c :: t, s =>
    let w : Actor := { agent := agentOf core 0, space := c.record.space, sup := false, inst := (c.record.space, c.record.inst) }
    match readHdr s w c.record.w0 with
    | .fail => .fail
    | .wait q => .wait q
    | .ok h s1 => match restoreEnds w h c.ends s1 with
      | .fail => .fail
      | .wait q => .wait q
      | .ok es s2 => match restoreDescs w c.streams s2 with
        | .fail => .fail
        | .wait q => .wait q
        | .ok ds s3 => match restoreAll core t s3 with
          | .ok l s' => .ok (⟨c, h, es, ds⟩ :: l) s'
          | .fail => .fail
          | .wait q => .wait q

/-- R40, R399: the entries of a coil from position `pos` on, read from its ring; what a ring in a scratchpad holds is known when the blocks are back. -/
def ringItems (w : Actor) (d : QDesc) : Nat → Nat → State → Fetched (List Item)
  | 0, _, s => .ok [] s
  | n + 1, pos, s =>
    if inWindow s w.agent d.ring.toNat then .ok ((List.range (n + 1)).map fun i => ⟨pos + i, ⟨0, 0⟩, none⟩) s
    else match descWords s w (d.ring + word (16 * (pos % 2 ^ d.lgd))) 16 with
    | .fail => .fail
    | .wait q => .wait q
    | .ok l s1 => match ringItems w d n (pos + 1) s1 with
      | .fail => .fail
      | .wait q => .wait q
      | .ok r s' => .ok (⟨pos, ⟨l.getD 0 0, BitVec.ofNat 4 (l.getD 1 0).toNat⟩, none⟩ :: r) s'

/-- R399: the saved coils of a section, with what the rings of those that are no longer live hold between their pointers (log entry 17). -/
def ringsOf (core : Nat) (rs : List Restore) : List SavedCoil → State → Fetched (List (SavedCoil × Option (List Item)))
  | [], s => .ok [] s
  | c :: t, s =>
    let found := rs.findSome? fun r => (r.ends.findSome? fun e => e.1.desc.bind fun d => if d.coil && e.1.idx == c.idx then some d else none).map (r.c.record, ·)
    let here : Fetched (Option (List Item)) := match found with
      | none => .ok none s
      | some (r, d) =>
        if (liveQueue s (agentOf core 1) r.space r.w0 r.inst c.idx true).isSome then .ok none s
        else match ringItems { agent := agentOf core 0, space := r.space, sup := false, inst := (r.space, r.inst) } d
            (min (2 ^ d.lgd) ((c.tail + 2 ^ 32 - c.head) % 2 ^ 32)) c.head s with
          | .ok l s1 => .ok (some l) s1
          | .fail => .fail
          | .wait q => .wait q
    match here with
    | .fail => .fail
    | .wait q => .wait q
    | .ok l s1 => match ringsOf core rs t s1 with
      | .fail => .fail
      | .wait q => .wait q
      | .ok r s' => .ok ((c, l) :: r) s'

/-- R399, check 4: the saved carve-outs and blocks are free on the core. -/
def rangesFree (s : State) (core : Nat) (x : SavedCore) : Bool :=
  let live := carveOuts s core
  (x.ctxs.all fun c => c.record.spill == 0 || live.all fun l => decide (l.2 ≤ c.cbase) || decide (c.cbase + c.record.spill ≤ l.1)) &&
  x.blocks.all fun b => bitOf (ownerTag (getCore s core) b.1) 32

/-- R399, check 5: the saved patch slots and enough pugs are free. -/
def unitsFree (s : State) (core : Nat) (x : SavedCore) : Bool :=
  (x.slots.all fun n => ((getCore s core).slots.toList.getD n.1 none).isNone) &&
  decide ((x.ctxs.foldl (fun n c => n + c.streams.length) 0) + (getCluster s (core / 256)).pugs.length ≤ Config.pugs)

/-- R399, check 6: the queue RAM holds the near queues to be made live. -/
def nearFits (s : State) (core : Nat) (rs : List Restore) : Bool :=
  let fresh := dedup (rs.flatMap fun r => r.ends.filterMap fun e => match e.1.desc with
    | some d => if d.coil then none else some (r.c.record.space, r.c.record.w0, r.c.record.inst, e.1.idx, 2 ^ d.lgd)
    | none => none)
  decide (ramUsed s core + fresh.foldl (fun n q => n + q.2.2.2.2) 0 ≤ Config.queueRam)

/-- R399, check 7: the section can go to another cluster. -/
def movable (s : State) (core : Nat) (rs : List Restore) : Bool :=
  rs.all fun r =>
    (r.ends.all fun e => match e.1.desc with
      | some d => !d.coil || (!inWindow s (agentOf core 0) d.ring.toNat &&
          (match liveQueue s (agentOf core 1) r.c.record.space r.c.record.w0 r.c.record.inst e.1.idx true with
            | some q => coilAdmits q (agentOf core 1)
            | none => true))
      | none => true) &&
    r.c.win.isEmpty && !(r.c.record.cone != noCone && (getCone s r.c.record.cone).scope == 0)

/-- R399, check 8: the header of the save of the section's instance does not say that it is complete. The section does not name its header: the hub
knows it from the request while the instance is stopped (log entry 54). -/
def unfinished (s : State) (core : Nat) (x : SavedCore) : Bool :=
  match x.ctxs with
  | [] => false
  | c :: _ => match findPreempt s (partOf s (agentOf core 0)) c.record.space c.record.inst with
    | none => false
    | some p => p.state != 1 || (match engFetch s (p.actor core) p.area.toNat 8 with
      | .ok (b, _, _) => leNat b % 4 != 1
      | .error _ => false)

/-- R399: the checks 1 to 5, which need the section alone, in order. -/
def sectionCheck (s : State) (core : Nat) (x : SavedCore) : Nat :=
  if core % 256 ≠ x.core % 256 then 1
  else if 15 - (liveCtxs s core).length < x.ctxs.length then 2
  else if freeRows s core < x.ctxs.foldl (fun n c => n + c.record.vrows) 0 then 3
  else if !rangesFree s core x then 4
  else if !unitsFree s core x then 5
  else 0

/-- R399: the checks 6 to 8, which need the descriptors and the header, in order. -/
def loadCheck (s : State) (core va : Nat) (x : SavedCore) (rs : List Restore) : Nat :=
  if !nearFits s core rs then 6
  else if core / 256 ≠ x.core / 256 ∧ !movable s core rs then 7
  else if va % 128 ≠ 0 ∨ unfinished s core x then 8
  else 0

/-- R48: the stage instance that a restored context belongs to. -/
def stageFor (s : State) (part : Nat) (r : LRec) : Option (Nat × Nat) :=
  ((clustersOf s part).flatMap fun cl => (getCluster s cl).stages.filterMap fun e =>
    if e.2.record.w0 = r.w0 ∧ e.2.record.isOf r.space r.inst ∧ e.2.record.stageNo = r.stageNo then some (cl, e.1) else none).head?

/-- A stream is bound to a free pug of the cluster. -/
def restoreStream (s : State) (a : Nat) (x : SavedStream) (d : Vector Word 8) : State :=
  let c := getCtx s a
  let cl := clusterOf a
  match choosePug s cl false 0 with
  | none => s
  | some p =>
    let y : Pug :=
      { agent := a, space := c.space, inst := (instOf c).2, group := groupOf s a, k := x.k, j := x.j, desc := x.desc, d, bag := x.bag,
        n := x.n, acc := x.acc, out := x.out, flags := BitVec.ofNat 5 (fieldOf x.status 0 5), code := BitVec.ofNat 8 (fieldOf x.status 8 8),
        errs := fieldOf x.status 32 32, hot := [], unused := [], page := none, badRow := none,
        held := false, closing := 0 }
    lendEnds (setPug s cl p y) a x.k x.j (some p)

/-- R399: one context resumes in its saved state in context `a`; `from_`: the agent it was. -/
def restoreCtx (s : State) (a from_ : Nat) (r : Restore) : State :=
  let c := r.c
  let rec' := c.record
  let (born, s) := takeId s
  let vrf : Tbl Row := ((List.range c.rows.length).zip c.rows).filter fun e => e.2 != 0
  let ctx : Ctx :=
    { status := if c.state = 2 then .trapped else if c.state = 1 then .parked .self else .ready
      space := rec'.space
      pc := c.pc
      x := Vector.ofFn fun i => c.x.getD i.val 0
      ucsr := c.ucsr
      vec := { vrows := rec'.vrows, rows := fieldOf c.grant 16 16, len := fieldOf c.grant 0 16, vrf, masks := c.masks }
      ev := c.ev
      wake := c.wake
      winRev := r.hdr.lrev
      win := c.win
      record := some rec'
      stage := stageFor s (partOf s a) rec'
      born
      cbase := c.cbase
      ctop := c.cbase + rec'.spill
      trapRec := if c.state = 2 then some { c.trap with ctx := ctxNo a, w0 := setField c.trap.w0 8 4 (ctxNo a) } else none }
  let s := setCtx s a ctx
  let s := r.ends.foldl (fun s e => match e.1.desc with
    | some d =>
      let s := bindEnd s a e.1.k e.1.write rec'.space rec'.w0 rec'.inst e.1.idx d
      setEnd s a e.1.k { endOf s a e.1.k with closed := e.2 }
    | none => s) s
  let s := { s with queues := s.queues.map fun q =>
      if q.part = partOf s a ∧ q.space = rec'.space ∧ q.pdesc = rec'.w0 ∧ q.inst = rec'.inst then renameHolder q (savedAgent from_) a else q }
  let s := setSpadPart s (coreOf a) (c.cbase * 256) c.carve
  let s := r.descs.foldl (fun s d => restoreStream s a d.1 d.2) s
  match ctx.trapRec with
  | some t => modCore s (coreOf a) fun k => { k with waiting := k.waiting ++ [t] }
  | none => s

/-- R399: the entries of a near queue return to it. -/
def restoreNear (s : State) (core : Nat) (r : LRec) (n : Nat × List Entry) : State :=
  match liveQueue s (agentOf core 1) r.space r.w0 r.inst n.1 false with
  | none => s
  | some q => setQueue s { q with
      items := ((List.range n.2.length).zip n.2).map fun e => ⟨e.1, e.2, none⟩
      tail := n.2.length }

/-- R47, R399: a restored consumer holds a bag again: the first unclaimed one, unless the coil has kept its claim. -/
def restoreClaim (q : Queue) (a : Nat) : Queue :=
  if !q.bag || q.claims.contains a then q
  else
    let r := claimBag q a
    if r.claims.contains a then r else { q with claims := q.claims ++ [a], openBag := some (some a) }

/-- R399: a coil returns to its saved state: one that was live has kept its pointers and entries; what the restored contexts hold of it is theirs.
`nums`: the restored contexts, with the numbers they had. -/
def restoreCoil (s : State) (core : Nat) (r : LRec) (nums : List (Nat × Nat)) (c : SavedCoil × Option (List Item)) : State :=
  match liveQueue s (agentOf core 1) r.space r.w0 r.inst c.1.idx true with
  | none => s
  | some q =>
    let q := match c.2 with
      | none => q
      | some items =>
        let items := items.map fun i => { i with entry := itemEntry s q i }
        { q with
          items
          tail := c.1.head + items.length
          openBag := if (items.getLast?.map fun i => !i.entry.isToken).getD false then some none else none }
    let who (mask : Nat) : List Nat := (nums.filter fun n => bitOf (word mask) n.1).map (·.2)
    let q := match who c.1.append with
      | a :: _ => if q.append.isSome then q else { q with append := some a, openBag := some (q.openBag.getD none) }
      | [] => q
    setQueue s ((who c.1.claims).foldl restoreClaim q)

/-- R399: the contexts of a section take the lowest free numbers of a core, in order: the agents that they become. -/
def restoreCtxs (core from_ : Nat) : List Restore → State → List (Nat × Nat) × State
  | [], s => ([], s)
  | r :: t, s => match freeCtx s core with
    | none => restoreCtxs core from_ t s
    | some n =>
      let (l, s') := restoreCtxs core from_ t (restoreCtx s (agentOf core n) (agentOf from_ r.c.number) r)
      ((r.c.number, agentOf core n) :: l, s')

/-- R399: a section is restored onto a core. -/
def restoreCore (s : State) (core : Nat) (x : SavedCore) (rs : List Restore) (coils : List (SavedCoil × Option (List Item))) : State :=
  let (nums, s) := restoreCtxs core x.core rs s
  match x.ctxs with
  | [] => s
  | c :: _ =>
    let s := x.near.foldl (fun s n => restoreNear s core c.record n) s
    let s := x.blocks.foldl (fun s b => setOwner (setSpadPart s core (b.1 * 4096) b.2) core b.1 (instTag c.record.space c.record.inst)) s
    let s := coils.foldl (fun s n => restoreCoil s core c.record nums n) s
    modCore s core fun k => { k with slots := x.slots.foldl (fun v n => v.setIfInBounds n.1 (some ⟨c.record.space, c.record.inst, n.2⟩)) k.slots }

/-- R399: the section at an address, read by hardware for context 0: its bytes. -/
def sectionAt (s : State) (w : Actor) (va : Nat) : Except EFail (List Byte × State) :=
  match engFetch s w va 128 with
  | .error e => .error e
  | .ok (b, _, s1) =>
    let n := dwAt b 0 / 2 ^ 32
    if n < 128 ∨ 2 ^ 21 < n then .error .format
    else match engFetch s1 w va n with
      | .error e => .error e
      | .ok (b, _, s2) => .ok (b, s2)

/-- R399: `pm.load`. -/
def execPmLoad (rd rs1 : Reg) (s : State) : Host.Outcome State Fault Refusal :=
  perform (.pmLoad rd rs1) (do
    barrelOnly (.pmLoad rd rs1)
    supervisorOnly (.pmLoad rd rs1)
    let v ← operand1 rs1 rd
    let c ← me
    holdUnless c.sb.isEmpty
    let s ← get
    let core := coreOf s.cur
    match sectionAt s (actorOf s s.cur) v.toNat with
      | .error (.wait q) => stop (.hold q)
      | .error _ => finishRd rd 8
      | .ok (b, s1) =>
        let x := loadSection b
        match sectionCheck s1 core x with
        | 0 => match restoreAll core x.ctxs s1 with
          | .wait q => stop (.hold q)
          | .fail => finishRd rd 8
          | .ok rs s2 => match loadCheck s2 core v.toNat x rs with
            | 0 => match ringsOf core rs x.coils s2 with
              | .wait q => stop (.hold q)
              | .fail => finishRd rd 8
              | .ok coils s3 =>
                set (restoreCore (dropUio s3) core x rs coils)
                finishRd rd 0
            | n => finishRd rd (word n)
        | n => finishRd rd (word n)) s

end Sys2Proof.Machine
end

