-- ==== Sys2Proof/Machine/Resets.lean ====
section
/-! DEFINITION. Machine/Resets.lean: bring-up (R433, R446, R447), core reset (R450), the warm reset of a die (R451, R452, R462) and
errors (R453 to R455). -/

namespace Sys2Proof.Machine

/-! Bring-up -/

/-- R446: no partition's GO bit has been set since the cold reset. -/
def beforeGo (s : State) : Bool := s.parts.all fun p => !p.2.go

/-- R433: `ptcfg write`; ignored once LOCK is 1. What firmware writes during package cold reset is in effect when that completes, before any
partition is set going; a later write changes the register only. -/
def execPtcfgWrite (v : Word) (s : State) : Out :=
  .next (if bitOf s.ptcfgReg 4 then s
    else if beforeGo s then { s with ptcfgReg := v &&& 0x1F, ptcfg := v &&& 0x1F }
    else { s with ptcfgReg := v &&& 0x1F })

/-- R446, steps 1 to 3: the package after cold reset; memory outside the device, and the windows through which it is reached, are
what they were. -/
def coldReset (s : State) : State :=
  { State.reset with
    turns := s.turns
    fresh := s.fresh
    mem := s.mem.filter fun c => decide (4 * Config.dieBytes ≤ c.1)
    parts := s.parts.map fun p => (p.1, { windows := p.2.windows }) }

/-- R446: `cold reset`. -/
def execColdReset (s : State) : Out := .next (coldReset s)

/-- R447: the contexts 0 and hub cores for which a test holds begin at an address, also those that State lists already. -/
def beginAt (s : State) (p : Nat → Bool) (entry : Word) : State :=
  { s with ctxs := s.ctxs.map fun e => if (isHub e.1 || ctxNo e.1 == 0) && p e.1 then (e.1, { e.2 with pc := entry }) else e }

/-- R446, step 6: every core of a partition begins at RTENTRY. -/
def go (s : State) (part : Nat) : State :=
  let entry := (getPart s part).rtentry
  let s := modPart (beginAt s (fun a => partOf s a == part) entry) part fun p => { p with go := true, started := some entry }
  (diesOf s part).foldl (fun s d => modDie s d fun x => { x with started := some entry, coreSince := s.clock }) s

/-- R446: `runtime go`: the GO bit of a partition is set. -/
def execRuntimeGo (part : Nat) (s : State) : Out :=
  if Config.dies ≤ part ∨ partOfDie s part ≠ part then .fault .noSuchObject
  else .next (if (getPart s part).go then s else go s part)

/-! Reaping for a reset -/

/-- R450, R451: contexts 1 to 15 for which a test holds are to be reaped with code OFFLINE. -/
def stopCtxs (s : State) (p : Nat → Bool) : State :=
  { s with ctxs := s.ctxs.map fun e =>
      if !isHub e.1 && ctxNo e.1 != 0 && e.2.status != .free && p e.1 then (e.1, { e.2 with stopping := some 6 }) else e }

/-- R29, R204: every context 1 to 15 for which a test holds and that can end now ends, with code OFFLINE. -/
def reapReady (s : State) (p : Nat → Bool) : State :=
  (s.ctxs.filter fun e => !isHub e.1 && ctxNo e.1 != 0 && e.2.status != .free && p e.1).foldl (fun s e =>
    if !endable s e.1 then applyReqs s (visibleReqs s)
    else match pugNeeds s e.1 with
      | [] => endContext s e.1 6
      | q => applyReqs s q) s

/-! Core reset -/

/-- R447: context 0 of a core as it begins. -/
def freshZero (s : State) (core : Nat) : Ctx :=
  { status := .ready, sup := true, pc := (getPart s (partOf s (agentOf core 0))).rtentry, winRev := 1 }

/-- R450, R447, step 3: context 0 restarts; what the reset clears. q6 is empty; the records whose handles it held are dispatched again (log entry
18). -/
def restartCore (s : State) (core : Nat) : State :=
  let k := getCore s core
  let s := setCore s core { since := some s.clock, l1 := k.l1, tlb := k.tlb }
  let s := modCluster s (core / 256) fun c => { c with launch := c.launch.map fun x => if x.core = some core then { x with core := none } else x }
  let a := agentOf core 0
  setCtx { s with uio := s.uio.filter fun u => uioOwner u != a } a (freshZero s core)

/-- R450: a core reset is asked for. -/
def requestReset (s : State) (core : Nat) : State :=
  stopCtxs (modCore s core fun k => { k with resetting := true }) fun a => coreOf a == core

/-- R450: what a core reset can do now: its contexts are reaped as they can end; then context 0 restarts. -/
def resetStep (s : State) (core : Nat) : State :=
  let s := reapReady s fun a => coreOf a == core
  if (liveCtxs s core).isEmpty && endable s (agentOf core 0) then restartCore s core else applyReqs s (visibleReqs s)

/-- R450: `core reset`. -/
def execCoreReset (core : Nat) (s : State) : Out :=
  if Config.cores ≤ core then .fault .noSuchObject
  else .next (resetStep (if (getCore s core).resetting then s else requestReset s core) core)

/-! Die warm reset -/

/-- The clusters of a die. -/
def clustersOfDie (d : Nat) : List Nat := (List.range 8).map (8 * d + ·)

/-- R451, step 1: a record of the die that has not started is withdrawn: its completion arrival, unless its cone lies on the die. -/
def withdrawRecord (s : State) (d cl : Nat) (r : LRec) : State :=
  if r.cone = noCone ∨ dieOfCluster (coneCluster r.cone) = d then s
  else completeArrival s (agentOf (cl * 256) 0) r.cone 6 (some r.draw)

/-- R451, step 1: the records of a cluster that have not started. -/
def withdrawCluster (s : State) (d cl : Nat) : State :=
  let k := getCluster s cl
  let s := modCluster s cl fun k => { k with launch := [], replay := [] }
  let s := k.launch.foldl (fun s x =>
    let s := withdrawRecord s d cl x.record
    match x.stage with | some st => endReplica s st | none => s) s
  k.replay.foldl (fun s x => withdrawRecord s d cl x.record) s

/-- R451, step 1, as RST is accepted: STATE is QUIESCING; contexts are to be reaped, records are withdrawn, q6, q7 and unsent window
entries are discarded. -/
def startWarm (s : State) (d : Nat) : State :=
  let s := modDie s d fun x => { x with state := .quiescing }
  let s := { s with resets := s.resets ++ [{ die := d, stepDone := 0, mark := 0 }] }
  let s := stopCtxs s fun a => dieOf a == d
  let s := { s with
    cores := s.cores.map fun e =>
      if e.1 / 2048 = d then (e.1, { e.2 with handles := [], trapQ := [], waiting := [], intr := 0 }) else e
    ctxs := s.ctxs.map fun e =>
      if dieOf e.1 = d then (e.1, { e.2 with win := e.2.win.filter fun w => w.sent.isSome }) else e }
  (clustersOfDie d).foldl (fun s cl => withdrawCluster s d cl) s

/-- R452: RST of `dstat` is written 1; ignored unless STATE = READY. -/
def requestWarm (s : State) (d : Nat) : State := if (getDie s d).state = .ready then startWarm s d else s

/-- R451: `die warm reset`. -/
def execDieWarmReset (die : Nat) (s : State) : Out :=
  if Config.dies ≤ die then .fault .noSuchObject else .next (requestWarm s die)

/-- The step of a die's warm reset. -/
def warmOf (s : State) (d : Nat) : Option WarmReset := s.resets.find? fun r => r.die == d

/-- State with a warm reset's step done. -/
def warmDone (s : State) (d n mark : Nat) : State :=
  { s with resets := s.resets.map fun r => if r.die = d then { r with stepDone := n, mark } else r }

/-- R451: the line is homed on the die. -/
def homedOn (d line : Nat) : Bool := homeDie line == some d

/-- R451, step 1: no context 1 to 15 is left on the die, what has fired on it has ended, and what has been computed is written and has arrived. -/
def step1Done (s : State) (d : Nat) : Bool :=
  (s.ctxs.all fun e => isHub e.1 || ctxNo e.1 == 0 || dieOf e.1 != d || e.2.status == .free) &&
  (clustersOfDie d).all fun cl =>
    ((getCluster s cl).settings.all fun x => x.at_ == .opened) &&
    (getCluster s cl).cmds.all fun c => c.at_ != .done

/-- R451, step 2: requests that were in flight when the links stopped have completed. -/
def step2Done (s : State) (d mark : Nat) : Bool :=
  let touches (id agent line : Nat) : Bool := decide (id < mark) && (dieOf agent == d || homedOn d line)
  (s.writes.all fun w => !touches w.id w.agent (match w.bytes with | b :: _ => lineOf b.1 | [] => lineOf w.addr)) &&
  (s.atomics.all fun m => !touches m.id m.agent (lineOf m.pa)) &&
  s.ctxs.all fun e => dieOf e.1 != d || e.2.sb.isEmpty

/-- R451, steps 1 to 4: what the warm reset of a die can do now. -/
def warmStep (s : State) (d : Nat) (r : WarmReset) : State :=
  match r.stepDone with
  | 0 =>
    let s := reapReady s fun a => dieOf a == d
    if step1Done s d then warmDone s d 1 s.nextId else s
  | 1 => if step2Done s d r.mark then warmDone s d 2 r.mark else applyReqs s (visibleReqs s)
  | 2 =>
    match s.filter.filter fun e => homedOn d (e.1 / 2) with
    | [] => warmDone s d 3 r.mark
    | l => applyReqs s (l.map fun e => .bisnp e.1)
  | 3 => warmDone { s with stale := s.stale.filter fun e => !homedOn d e.1 } d 4 r.mark
  | _ => s

/-- R415, R451: the source lines homed on a die. -/
def sourceLines (s : State) (d : Nat) : List Nat :=
  let tags := (s.cores.flatMap fun e => e.2.tlb.flatMap (·.tags)) ++ (s.clusters.flatMap fun e => e.2.tlb.flatMap (·.tags)) ++
    (s.hubs.flatMap fun e => e.2.tlb.flatMap (·.tags)) ++ (s.dies.flatMap fun e => e.2.walk) ++ s.hubWalk.map (·.2)
  dedup (tags.filter (homedOn d))

/-- R451, step 6: the die after its reset. What the hub keeps of it (OFF, OFFDROP, `dierr`) stays. -/
def clearDie (s : State) (d : Nat) : State :=
  let x := getDie s d
  let s := { s with
    ctxs := s.ctxs.filter fun e => dieOf e.1 != d
    cores := s.cores.filter fun e => e.1 / 2048 != d
    clusters := s.clusters.filter fun e => e.1 / 8 != d
    queues := s.queues.filter fun q => q.coil || q.core / 2048 != d
    uio := s.uio.filter fun u => dieOf (uioOwner u) != d
    writes := (s.writes.map fun w => { w with inv := w.inv.filter (· != d), acks := w.acks.filter (· != d) }).filter fun w =>
      !(w.home && w.acks.isEmpty) }
  let y : Die :=
    { state := .admitting, off := x.off, offdrop := x.offdrop, corr := x.corr, uncorr := x.uncorr, lost := x.lost, since := s.clock,
      started := x.started }
  setDie s d y

/-- R451: `die retrained`: step 6 ends and admission begins. -/
def execDieRetrained (die : Nat) (s : State) : Out :=
  match warmOf s die with
  | none => .next s
  | some r =>
    if r.stepDone = 5 && !(s.sweeps.any fun x => homedOn die x.line) then .next (warmDone (clearDie s die) die 6 0) else .next s

/-- R451, step 7: the die is online again and its cores start under R447. -/
def goReady (s : State) (d : Nat) : State :=
  let p := getPart s (partOfDie s d)
  let s := { s with resets := s.resets.filter fun r => r.die != d }
  let s := if p.go then beginAt s (fun a => !isHub a && dieOf a == d) p.rtentry else s
  modDie s d fun x => { x with
    off := false
    state := .ready
    coreSince := s.clock
    started := if p.go then some p.rtentry else none }

/-- R451: `die ready`. -/
def execDieReady (die : Nat) (s : State) : Out :=
  match warmOf s die with
  | none => .next s
  | some r => if r.stepDone = 6 then .next (goReady s die) else .next s

/-! Errors -/

/-- R453: a corrected error of a die. -/
def countCorrected (s : State) (d : Nat) : State := countDie (modDie s d fun x => { x with corr := capped x.corr }) d 0x23 1
/-- R453: an uncorrectable error of a die. -/
def countUncorrected (s : State) (d : Nat) : State := modDie s d fun x => { x with uncorr := capped x.uncorr }

/-- R453: `ecc corrected`. -/
def execEccCorrected (die : Nat) (s : State) : Out :=
  if Config.dies ≤ die then .fault .noSuchObject else .next (countCorrected s die)

/-- R454: the physical address of a line: of device memory, of private tier-two memory or of host memory. -/
def lineAddr (s : State) (line : Nat) : Nat := if (homeDie line).isSome then physLine s line else line * 128 % 2 ^ 52

/-- R453, R454: the die whose counters take a lost line, and to which LOSS goes: its home die. For a line of the hub's directories the manual names none:
here the first die of the partition whose private tier-two memory it is, for host memory of the first partition that runs (log entry 111). -/
def lossDie (s : State) (line : Nat) : Nat :=
  match homeDie line with
  | some d => d
  | none => match (locOfKey s (line * 128)).cls with
    | .host => ((List.range Config.dies).find? fun d => (getPart s d).go).getD 0
    | _ => line * 128 / 2 ^ 52 - 1

/-- R454, R380: LOSS is raised to core 0 of cluster 0 of a die. -/
def raiseLoss (s : State) (d line : Nat) : State :=
  modCtx s (agentOf (d * 2048) 0) fun c =>
    { c with scsr := { c.scsr with sip := setField c.scsr.sip 16 1 1, lossAddr := word (lineAddr s line) } }

/-- R454: a lost line is reverted to its memory copy, when its sweep is complete and no lease on it is live; the host is told through CXL.io. -/
def revertLine (s : State) (line : Nat) (v : BitVec 1024) : State :=
  let s := { s with lossgen := s.lossgen + 1 }
  let s := directWrite s engineAgent line (cellsAt (line * 128) (leBytes 128 v.toNat))
  let s := { s with stale := terase s.stale line, errorMsgs := s.errorMsgs ++ [word (lineAddr s line)] }
  let d := lossDie s line
  raiseLoss (countDie (modDie s d fun x => { x with lost := capped x.lost }) d 0x24 1) d line

/-- R453, R454: the lost lines that can be reverted now are; the others ask for what they wait for. -/
def revertLines (s : State) : State :=
  s.lostLines.foldl (fun s e =>
    let t := { s with lostLines := s.lostLines.filter fun x => x.1 != e.1 }
    if canWrite t e.1 (halvesOf e.1) then revertLine t e.1 e.2 else applyReqs s (writeNeeds t e.1 (halvesOf e.1))) s

/-- R453: the only good copy of a line is gone: it is counted, and reverted as soon as it can be. -/
def loseLine (s : State) (line : Nat) (v : BitVec 1024) : State :=
  let s := countUncorrected s (lossDie s line)
  revertLines (if s.lostLines.any fun e => e.1 == line then s else { s with lostLines := s.lostLines ++ [(line, v)] })

/-- R453: the error lies in a kiln: the commands of its firing fail with OFFLINE. -/
def failKiln (s : State) (cl kiln : Nat) : State :=
  match (getCluster s cl).settings.find? fun x => match x.at_ with | .staging i | .firing i _ => i == kiln | _ => false with
  | none => s
  | some x =>
    let s := x.members.foldl (fun s i => match findCmd s cl i with | some c => endCmd s cl c 6 | none => s) s
    dropSetting s cl x

/-- R453: the error lies in a pug: the lookup of the next index fails with OFFLINE. -/
def failPug (s : State) (cl p : Nat) : State :=
  match getPug s cl p with
  | none => s
  | some x =>
    if !x.out.isEmpty then s
    else match pugPop s x with
      | none => s
      | some (e, s1) => if e.isToken then s else setPug s1 cl p (faultLookup x (lookupOf x.d e.payload.toNat).2 6)

/-- R453: the 8-byte word of a queue entry or coil slot is rewritten as zero. -/
def zeroEntry (s : State) (q : Queue) (pos : Nat) : State :=
  match q.items[pos]? with
  | none => s
  | some it =>
    let e : Entry := { it.entry with payload := 0 }
    let s := if q.coil then writeSlot s q Config.agents it.pos e else s
    setQueue s { q with items := q.items.map fun i => if i.pos = it.pos then { i with entry := e } else i }

/-- R453: a context is reaped with code OFFLINE, at once or as soon as it can end. Context 0 and hub cores are never reaped: for them
the error is counted only (log entry 19). -/
def reapForError (s : State) (a : Nat) : State :=
  if isHub a ∨ ctxNo a = 0 then s
  else reapReady (stopCtxs s fun b => b == a) fun b => b == a

/-- A list without its element i. -/
def without {α : Type} (l : List α) (i : Nat) : List α := l.take i ++ l.drop (i + 1)

/-- R453: entry `pos` of q6 or q7 of a core is rewritten as zero. -/
def zeroAt (l : List Entry) (pos : Nat) : List Entry := l.mapIdx fun i e => if i = pos then { e with payload := 0 } else e

/-- R453: `ecc uncorrectable`: a clean copy is dropped and counted as corrected; the other arrays as the table says. The error of a hub core's context
is counted with the die beside which its partition numbers it (log entry 19), that of the hub's walk cache with the first die of its partition (log entry
111). -/
def execEccUncorrectable (site : EccSite) (s : State) : Out :=
  match site with
  | .cleanCopy d => if Config.dies ≤ d then .fault .noSuchObject else .next (countCorrected s d)
  | .l1Copy core half =>
    if Config.cores ≤ core then .fault .noSuchObject
    else .next (countCorrected (modCore s core fun k => { k with l1 := terase k.l1 half }) (core / 2048))
  | .icacheCopy core line =>
    if Config.cores ≤ core then .fault .noSuchObject
    else .next (countCorrected (modCore s core fun k => { k with icache := k.icache.filter fun e => e.1 / 2 != line }) (core / 2048))
  | .remoteCopy d line =>
    if Config.dies ≤ d then .fault .noSuchObject
    else .next (countCorrected (modDie s d fun x => { x with copies := terase x.copies line }) d)
  | .walkCopy d line =>
    if d < Config.dies then
      .next (if (getDie s d).walk.contains line then countCorrected (sweepNow s line) d else s)
    else match s.hubWalk.find? fun e => e.2 == line with
      | some e => .next (countCorrected (sweepNow s line) e.1)
      | none => .next s
  | .coreTlb core i =>
    if Config.cores ≤ core then .fault .noSuchObject
    else .next (countCorrected (modCore s core fun k => { k with tlb := without k.tlb i }) (core / 2048))
  | .clusterTlb cl i =>
    if Config.clusters ≤ cl then .fault .noSuchObject
    else .next (countCorrected (modCluster s cl fun k => { k with tlb := without k.tlb i }) (dieOfCluster cl))
  | .hubTlb h i =>
    if Config.hubs ≤ h then .fault .noSuchAgent
    else .next (countCorrected (modHub s h fun k => { k with tlb := without k.tlb i }) (h / 16))
  | .modifiedLine line => match tfind s.stale line with
    | some v => .next (loseLine s line v)
    | none => .next s
  | .hbmLine line =>
    if (homeDie line).isNone then .fault .noSuchObject
    else match tfind s.stale line with
      | some _ => .next s
      | none => .next (loseLine s line 0)
  | .scratchpad addr =>
    if 32 * 2 ^ 24 ≤ addr then .fault .noSuchObject
    else
      let s := countUncorrected s (addr / 2 ^ 24 / 8)
      .next { s with spad := writeCells s.spad (cellsAt (addr / 8 * 8) (List.replicate 8 0)) }
  | .queueEntry q pos => match findQueue s q with
    | none => .fault .noSuchObject
    | some x => .next (zeroEntry (countUncorrected s (x.core / 2048)) x pos)
  | .handle core pos =>
    if Config.cores ≤ core then .fault .noSuchObject
    else .next (modCore (countUncorrected s (core / 2048)) core fun k => { k with handles := zeroAt k.handles pos })
  | .trapEntry core pos =>
    if Config.cores ≤ core then .fault .noSuchObject
    else .next (modCore (countUncorrected s (core / 2048)) core fun k => { k with trapQ := zeroAt k.trapQ pos })
  | .context a =>
    if Config.agents ≤ a then .fault .noSuchAgent
    else .next (reapForError (countUncorrected s (if isHub a then (a - Config.contexts) / 16 else dieOf a)) a)
  | .kiln cl k => if Config.clusters ≤ cl then .fault .noSuchObject else .next (failKiln (countUncorrected s (dieOfCluster cl)) cl k)
  | .pug cl p => if Config.clusters ≤ cl then .fault .noSuchObject else .next (failPug (countUncorrected s (dieOfCluster cl)) cl p)

end Sys2Proof.Machine
end

