-- ==== Sys2Proof/Machine/Mgmt.lean ====
section
/-! DEFINITION. Machine/Mgmt.lean: writes of the management window (R449, R461): `dstat`, `dierr`, the host launch port, event counters,
core reset words, and the debug controller (R456, R457). -/

namespace Sys2Proof.Machine

/-! Host launch port (R449) -/

/-- R449: the cluster that a record posted through the port goes to. -/
def portTarget (part : Nat) (r : LRec) : Nat := if bitOf r.w4 38 then fieldOf r.w4 33 5 else part * 8

/-- R449: the code with which the port refuses a record; none when it is posted. -/
def portRefusal (s : State) (part : Nat) (r : LRec) : Option (BitVec 8) :=
  let cl := portTarget part r
  if r.bad || !(clustersOf s part).contains cl then some 2 else if !clusterOnline s cl then some 6 else none

/-- A change of a partition's port. -/
def modPort (s : State) (part : Nat) (f : Port → Port) : State := modPart s part fun p => { p with port := f p.port }

/-- R436, R449: the staged record is refused, travels to its launch queue, or waits for credit. -/
def sendPort (s : State) (part : Nat) : State :=
  let r := recordOf (getPart s part).port.staged.toList
  match portRefusal s part r with
  | some n => modPort s part fun p => { p with status := 2, code := n }
  | none =>
    if !hasCredit s (portTarget part r) then modPort s part fun p => { p with status := 1, code := 0, post := none }
    else
      let (id, s) := takeId s
      let m : Post := { id, record := r, poster := .port part, target := portTarget part r, part, stage := none, rep := false }
      modPort { s with posts := s.posts ++ [m] } part fun p => { p with status := 1, code := 0, post := some id }

/-- R449: a write of HLPOST. While STATUS is 1 it is ignored; a record that waits for credit is sent when there is some. -/
def postPort (s : State) (part : Nat) (v : Word) : State :=
  let p := (getPart s part).port
  if p.status = 1 then (if p.post.isNone then sendPort s part else s)
  else if v = 1 then sendPort s part else s

/-- R449: `hlpost`. -/
def execHlpost (part : Nat) (v : Word) (s : State) : Out :=
  if Config.dies ≤ part ∨ partOfDie s part ≠ part then .fault .noSuchObject else .next (postPort s part v)

/-! The capability list (R162, R448) -/

/-- R448: the records of a partition's capability list: ID and body. -/
def capRecords (s : State) (part : Nat) : List (Nat × List Word) :=
  let p := getPart s part
  [(1, []), (2, []), (3, []), (4, []), (5, []),
    (0x100, [word (part + (diesOf s part).length * 2 ^ 8 + (hostPorts s part).length * 2 ^ 16 + (clustersOf s part).length * 2 ^ 24)]),
    (0x101, [p.rtentry, wordOfBool p.go]),
    (0x102, [word p.mgBase]),
    (0x103, (diesOf s part).map (fun d => dstatOf (getDie s d)) ++ [word Config.rtrain])]

/-- R448: the chain of records that begins at an offset. The manual gives VER of the profile records only; here it is 1 in all (log entry 88). -/
def capChain (base : Nat) : List (Nat × List Word) → List Word
  | [] => []
  | (id, body) :: t =>
    let next := base + 8 + 8 * body.length
    word (id + 2 ^ 16 + 8 * body.length * 2 ^ 32 + (if t.isEmpty then 0 else next) * 2 ^ 48) :: body ++ capChain next t

/-- R448: the capability list of a partition, in its configuration space from the offset on that the DVSEC names. -/
def capList (s : State) (part base : Nat) : List Word := capChain base (capRecords s part)

/-! Debug controller (R456, R457) -/

/-- R457: the context that `dbgsel` names, of this partition. -/
def dbgTarget (s : State) (part : Nat) : Nat := dbgAgent (getPart s part)

/-- R457: a reply that R232 or R256 waits for is on its way to a context, or has come and is not used yet. -/
def awaitsReply (s : State) (c : Ctx) : Bool :=
  c.reply.isSome || !c.out.isEmpty || (match c.sent with
    | some id => (s.coneMsgs.any fun m => m.id == id) || s.atomics.any fun m => m.id == id
    | none => false)

/-- R457: HALT: at once between instructions, else when the instruction that awaits a reply has completed. -/
def haltCtx (s : State) (a : Nat) : State :=
  let c := getCtx s a
  if c.status = .free ∨ c.halted.isSome then s
  else if awaitsReply s c then setCtx s a { c with stepping := true }
  else setCtx s a { c with halted := some c.status, dbgEntry := false }

/-- R457: RESUME. -/
def resumeHalted (s : State) (a : Nat) : State :=
  if (getCtx s a).halted.isSome then modCtx s a fun c => { c with halted := none } else s

/-- R457: STEP. -/
def stepHalted (s : State) (a : Nat) : State :=
  if (getCtx s a).halted.isSome then modCtx s a fun c => { c with halted := none, stepping := true } else s

/-- R457: a write of `dbgctl`. -/
def writeDbgctl (s : State) (part : Nat) (v : Word) : State :=
  let a := dbgTarget s part
  let s := modCore s (coreOf a) fun k => { k with armbrk := bitOf v 3 }
  let s := if bitOf v 0 then haltCtx s a else s
  let s := if bitOf v 1 then resumeHalted s a else s
  if bitOf v 2 then stepHalted s a else s

/-- R457: a write of `dbgdata`, while the context is halted. -/
def writeDbgdata (s : State) (part : Nat) (v : Word) : State :=
  let a := dbgTarget s part
  let item := (getPart s part).dbgitem
  if (getCtx s a).halted.isSome then writeItem s a (fieldOf item 4 1) (fieldOf item 5 12) v else s

/-- An event of the debug controller of a partition. -/
def debugEvent (part : Nat) (s : State) (f : State → State) : Out :=
  if Config.dies ≤ part ∨ partOfDie s part ≠ part then .fault .noSuchObject else .next (f s)

/-- R457: `halt`. -/
def execHalt (part : Nat) (s : State) : Out := debugEvent part s fun s => haltCtx s (dbgTarget s part)
/-- R457: `resume`. -/
def execResume (part : Nat) (s : State) : Out := debugEvent part s fun s => resumeHalted s (dbgTarget s part)
/-- R457: `step`. -/
def execStep (part : Nat) (s : State) : Out := debugEvent part s fun s => stepHalted s (dbgTarget s part)
/-- R457: `dbgdata write`. -/
def execDbgdataWrite (part : Nat) (v : Word) (s : State) : Out := debugEvent part s fun s => writeDbgdata s part v

/-! The window (R449, R461) -/

/-- R452: a write of `dstat`: RST and OFFDROP. -/
def writeDstat (s : State) (d : Nat) (v : Word) : State :=
  let s := modDie s d fun x => { x with offdrop := fieldOf v 16 16 }
  if bitOf v 0 then requestWarm s d else s

/-- R455: a write of `dierr`. -/
def writeDierr (s : State) (d : Nat) (v : Word) : State :=
  modDie s d fun x => { x with corr := fieldOf v 0 16, uncorr := fieldOf v 16 16, lost := fieldOf v 32 16 }

/-- R458: a write of counter `c` or its select word. -/
def writeCounter (t : Tbl Counter) (level c : Nat) (sel : Bool) (v : Word) : Tbl Counter :=
  let e := tget {} t c
  tset t c (if sel then { e with sel := selWrite level e.sel v } else { e with val := v })

/-- R449, R461: an aligned doubleword write at an offset of a partition's management window. -/
def mgWrite (s : State) (part off : Nat) (v : Word) : State :=
  let inside (d : Nat) : Bool := (diesOf s part).contains d
  if 0x100 ≤ off ∧ off < 0x120 then
    let d := part + (off - 0x100) / 8
    if inside d then writeDstat s d v else s
  else if 0x200 ≤ off ∧ off < 0x220 then
    let d := part + (off - 0x200) / 8
    if inside d then writeDierr s d v else s
  else if 0x1000 ≤ off ∧ off < 0x1040 then
    modPort s part fun p => if p.status = 1 then p else { p with staged := p.staged.setIfInBounds ((off - 0x1000) / 8) v }
  else if off = 0x1040 then postPort s part v
  else if 0x10000 ≤ off ∧ off < 0x12000 then
    let cl := part * 8 + (off - 0x10000) / 0x100
    let r := (off - 0x10000) % 0x100
    if (clustersOf s part).contains cl then
      modCluster s cl fun k => { k with ctr := writeCounter k.ctr 1 (r % 0x80 / 8) (decide (0x80 ≤ r)) v }
    else s
  else if 0x20000 ≤ off ∧ off < 0x20800 then
    let d := part + (off - 0x20000) / 0x200
    let r := (off - 0x20000) % 0x200
    if inside d then modDie s d fun x => { x with ctr := writeCounter x.ctr 2 (r % 0x100 / 8) (decide (0x100 ≤ r)) v } else s
  else if 0x40000 ≤ off ∧ off < 0x50000 then
    let core := part * 2048 + (off - 0x40000) / 8
    if bitOf v 0 && inside (core / 2048) then
      resetStep (if (getCore s core).resetting then s else requestReset s core) core
    else s
  else match off with
    | 0x60000 => if partOf s (fieldOf v 0 17) = part then modPart s part fun p => { p with dbgsel := v &&& 0x1FFFF } else s
    | 0x60008 => writeDbgctl s part v
    | 0x60010 => modPart s part fun p => { p with dbgitem := v &&& 0x1FFF0 }
    | 0x60018 => writeDbgdata s part v
    | _ => s

end Sys2Proof.Machine
end

