-- ==== Sys2Proof/Machine/MemEvents.lean ====
section
/-! DEFINITION. Machine/MemEvents.lean: the events of memory: stores leave their buffers (R470), writes and atomics are performed at
their homes (R80, R104, R107), remote copies are invalidated (R83), reservations end (R173, R175), replies of the route table (R237)
and of memory outside the device (R427, R428). -/

namespace Sys2Proof.Machine

/-! Store buffers -/

/-- R89, R91, R93, R427, R470: the oldest entry of agent `a` may leave: a release waits for what comes before it, an entry to the context's die for the
earlier accesses there, and any entry for an earlier access to one of its lines. -/
def mayLeave (s : State) (a : Nat) (e : SbEntry) : Bool :=
  let mine := s.writes.filter fun w => w.agent == a
  let before := (waiting (getCtx s a)).filter fun o => decide (o.id < e.seq)
  (match e.order with
    | .rl | .ar => before.isEmpty && s.writes.all fun w => !(w.agent == a || w.home) || performedFor e.scope w
    | _ => true) &&
  (!ownEntry a e || (mine.all (performedFor .pkg) && !before.any fun o => ownDie a o.elems)) &&
  !(before.any fun o => (linesOfElems o.elems).any fun l => l.1 != .spad && (entryLines e).contains l.2) &&
  (entryLines e).all fun l => !uncached s l || !(mine.any fun w => w.addr / 128 == l)

/-- A fault of a store that has issued is taken at the context's next instruction boundary (R237); `none`: not at one now. -/
def lateFault (s : State) (a cause : Nat) (ea : Word) : Option State :=
  let c := getCtx s a
  if atBoundary c then
    let (iw, s') := takeFree s
    some (takeTrap s' a cause c.pc ea iw 0)
  else none

/-- R458: the cycles that a store to a line waits for a lease. -/
def countLease (s : State) (a line : Nat) : State :=
  match homeDie line with
  | some d =>
    let n := tget 0 (getDie s d).leases line - s.clock
    if n = 0 ∨ isHub a then s else countCluster (countCore s (coreOf a) 5 n) (clusterOf a) 5 n
  | none => s

/-- R80: a write of one line, or a `cl.*` entry, goes to its home. One to an offline die is discarded at the route table. -/
def sendWrite (s : State) (a : Nat) (e : SbEntry) (line : Nat) (bytes : List (Nat × Byte)) : State :=
  if unreachable s a (line * 128) && (homeDie line).isSome then countDrop s (line * 128)
  else
    let (id, s) := takeId s
    let w : Write :=
      { id, agent := a, kind := e.kind, addr := line * 128, bytes, order := e.order, scope := e.scope, tags := e.tags,
        ea := e.ea, atHome := false, home := false, inv := [], acks := [] }
    countLease { s with writes := s.writes ++ [w] } a line

/-- R470: an entry leaves the store buffer: bytes of the scratchpads are written at once, the others go to their homes. An element of a vector store is
narrower than the doublewords of the management window (R461). -/
def leave (s : State) (a : Nat) (e : SbEntry) : State :=
  let sp := e.bytes.filterMap fun b => if b.1.1 then some (b.1.2, b.2) else none
  let acts (k : Nat) : Bool := !(e.narrow && (locOfKey s k).cls == .mgmt)
  let mem := e.bytes.filterMap fun b => if b.1.1 || !acts b.1.2 then none else some (b.1.2, b.2)
  match e.kind with
  | .store => (byLine mem).foldl (fun s g => sendWrite s a e g.1 g.2) (if sp.isEmpty then s else spadWrite s a sp)
  | .zero => (byLine mem).foldl (fun s g => sendWrite s a e g.1 g.2) (if sp.isEmpty then s else spadWrite s Config.agents sp)
  | _ => sendWrite s a e (lineOf e.addr) []

/-- R388, R402: the instance of agent `a` may write the scratchpad bytes of an entry under the tags in force. -/
def ownsEntry (s : State) (a : Nat) (e : SbEntry) : Bool :=
  e.bytes.all fun b => !b.1.1 || ownsByte s (clusterOf a) (b.1.2 % 2 ^ 24) (instOf (getCtx s a))

/-- R470: `store buffer leave`. -/
def execStoreBufferLeave (agent : Nat) (s : State) : Out :=
  if Config.agents ≤ agent then .fault .noSuchAgent
  else match (getCtx s agent).sb with
    | [] => .next s
    | e :: t =>
      let gone := modCtx s agent fun c => { c with sb := t }
      if !mayLeave s agent e then
        .next (if e.scope = .sys ∧ (e.order = .rl ∨ e.order = .ar) then applyReqs s (visibleReqs s) else s)
      else if ownsEntry s agent e then .next (leave gone agent e)
      else .next ((lateFault gone agent 7 e.ea).getD s)

/-! Reads -/

/-- R80: `read fill`: a line is made readable for an agent under a new lease. -/
def execReadFill (agent line : Nat) (s : State) : Out :=
  if Config.agents ≤ agent then .fault .noSuchAgent
  else if unreachable s agent (line * 128) then .next s
  else match (locOfKey s (line * 128)).cls with
    | .hbm _ | .priv | .host => match fill s agent line (halvesOf line) with
      | .ok s' => .next s'
      | .error q => .next (applyReqs s q)
    | _ => .next s

/-! Writes at their homes -/

/-- R462: an item that arrived during steps 2 to 4 of the warm reset of its home die is held. -/
def heldByReset (s : State) (id key : Nat) : Bool :=
  match (locOfKey s key).cls with
  | .hbm d => s.resets.any fun r => r.die == d && decide (1 ≤ r.stepDone) && decide (r.stepDone < 5) && decide (r.mark ≤ id)
  | _ => false

/-- R89, R249, R424: an earlier write that must be performed first: one of the line from the same station, or one of the agent where either is a
`cl.*` entry. -/
def behindOwn (s : State) (w : Write) : Bool :=
  let plain (k : SbKind) : Bool := k == .store || k == .zero
  match s.writes.find? fun x => !x.home && ((x.addr == w.addr && stationOf x.agent == stationOf w.agent) ||
      (x.agent == w.agent && (!plain w.kind || !plain x.kind))) with
  | some x => x.id != w.id
  | none => false

/-- R250, R253, R421: the device gives up what it holds of a line: halves of host memory by CleanEvict, and the hub's tier-two entry. -/
def giveUpLine (s : State) (line : Nat) : State :=
  match (locOfKey s (line * 128)).cls with
  | .host => (halvesOf line).foldl (fun s h =>
      if (tfind s.held h).isSome then { s with held := terase s.held h, cxl := tset s.cxl h .cleanEvict } else s) s
  | .priv => { s with tier2 := s.tier2.filter (· != line) }
  | _ => s

/-- What must still be asked before a write or cache operation is performed at its home (R80, R84, R250, R253, R416). -/
def performNeeds (s : State) (w : Write) : List Req :=
  let line := w.addr / 128
  let s := { s with resets := [] }
  let sweep := if isSource s line then [.sweep line] else []
  let backs := s.backs.any fun b => b.line == line
  let back := match (locOfKey s w.addr).cls with
    | .host => if (tfind s.stale line).isSome then [.evict line] else []
    | .priv => if (tfind s.stale line).isSome || backs then [.writeBack line] else []
    | _ => []
  match w.kind with
  | .store | .zero => writeNeeds s line (halvesTouched w.bytes) (wholeHalves w.bytes)
  | .clean => back
  | .flush => (match (locOfKey s w.addr).cls with
      | .hbm _ => ((halvesOf line).filter (hostHolds s)).map .bisnp
      | _ => back) ++ sweep
  | .inval => (if backs then [.later line] else []) ++ sweep

/-- R254, R80: the write or cache operation waits for a lease or a pin. -/
def performWaits (s : State) (w : Write) : Bool :=
  let line := w.addr / 128
  match w.kind with
  | .clean => false
  | .inval => !leaseOver s line || pinned s line
  | _ => !leaseOver s line

/-- R108: what has been written of a line of host memory is visible to the host, or has been discarded. -/
def hostSees (s : State) (line : Nat) : State :=
  { s with writes := (s.writes.map fun w =>
      if w.home && w.addr / 128 == line then { w with acks := w.acks.filter (· != hostSide) } else w).filter fun w => !(w.home && w.acks.isEmpty) }

/-- R80, R250, R253: a write or cache operation takes effect at its home. -/
def performWrite (s : State) (w : Write) : State :=
  let line := w.addr / 128
  match w.kind with
  | .store => homeWrite s w.agent line w.bytes w
  | .zero => homeWrite s Config.agents line w.bytes w
  | .clean => { s with stale := terase s.stale line, writes := s.writes.filter fun x => x.id != w.id }
  | .flush => giveUpLine (trackWrite { s with stale := terase s.stale line } w) line
  | .inval =>
    let s := match tfind s.stale line with
      | some v => { s with mem := writeLine s.mem line v, stale := terase s.stale line }
      | none => s
    giveUpLine (trackWrite (killResv (hostSees s line) line Config.agents) w) line

/-- R107: a write reaches its home: the sharing dies are told to drop their copies. -/
def arriveHome (s : State) (w : Write) : State :=
  if w.atHome then s
  else
    let l := if w.kind = .clean then [] else sharers s (w.addr / 128)
    { s with writes := s.writes.map fun x => if x.id = w.id then { x with atHome := true, inv := l, acks := l } else x }

/-- R449: a store of HLPOST waits, as a release at sys scope, for the earlier writes of its hub core and those that it may have observed. -/
def postWaits (s : State) (w : Write) : Bool :=
  let part := w.addr / 2 ^ 52 - 1
  (w.bytes.any fun b => b.1 % 2 ^ 52 / 8 * 8 == (getPart s part).mgBase + 0x1040) &&
  s.writes.any fun x => decide (x.id < w.id) && (x.agent == w.agent || x.home) && !performedFor .sys x

/-- R461: a store to the management window: only an aligned doubleword acts. -/
def performMg (s : State) (w : Write) : State :=
  let s := { s with writes := s.writes.filter fun x => x.id != w.id }
  match w.bytes with
  | (k, _) :: _ =>
    let part := k / 2 ^ 52 - 1
    if w.bytes.length = 8 ∧ k % 8 = 0 then mgWrite s part (k % 2 ^ 52 - (getPart s part).mgBase) (word (leNat (w.bytes.map (·.2))))
    else s
  | [] => s

/-- R80, R107: `home write performed`: the write reaches its home, and takes effect when it can. -/
def execHomeWritePerformed (id : Nat) (s : State) : Out :=
  match s.writes.find? fun w => w.id == id && !w.home with
  | none => .next s
  | some w =>
    if unreachable s w.agent w.addr || heldByReset s id w.addr || behindOwn s w || laneBusyFrom s id (w.src.getD (stationOf w.agent)) (w.addr / 128) then .next s
    else match (locOfKey s (match w.bytes with | b :: _ => b.1 | [] => w.addr)).cls with
      | .shared | .peer | .spad | .foreign => .next s
      | .mgmt => .next (if postWaits s w then applyReqs s (visibleReqs s) else performMg s w)
      | _ =>
        let s := arriveHome s w
        let w := (s.writes.find? fun x => x.id == id).getD w
        if performWaits s w then .next s
        else match performNeeds s w with
          | [] => .next (performWrite s w)
          | q => .next (applyReqs s q)

/-- R83, R107: `remote invalidation`: a sharing die drops its copy when every lease of its L1 copies has expired. -/
def execRemoteInvalidation (id die : Nat) (s : State) : Out :=
  match s.writes.find? fun w => w.id == id && w.inv.contains die with
  | none => .next s
  | some w =>
    let line := w.addr / 128
    if s.clock < tget 0 (getDie s die).leases line then .next s
    else
      let s := modDie s die fun x => { x with copies := terase x.copies line }
      .next { s with writes := s.writes.map fun x => if x.id = id then { x with inv := x.inv.filter (· != die) } else x }

/-- R107: `invalidation ack`: the home hears from a sharer; the write is performed when the last has answered. -/
def execInvalidationAck (id die : Nat) (s : State) : Out :=
  match s.writes.find? fun w => w.id == id && decide (die < hostSide) && w.acks.contains die && !w.inv.contains die with
  | none => .next s
  | some w =>
    let acks := w.acks.filter (· != die)
    .next { s with writes := if w.home && acks.isEmpty then s.writes.filter fun x => x.id != id
      else s.writes.map fun x => if x.id = id then { x with acks } else x }

/-! Atomics -/

/-- R461: an atomic of a hub core to the management window, performed there as one unit; a narrow one writes nothing. The manual gives no site of atomics
for the window: here it acts on a register as a read and a write of it do (log entry 109). -/
def mgAtomic (s : State) (m : Atomic) : Nat × State :=
  let part := m.pa / 2 ^ 52 - 1
  let b := lineOf m.pa
  let old := leNat (readMgBytes s part (m.pa % 2 ^ 52) m.size)
  let put (s : State) (v : Nat) : State := if m.size = 8 then mgWrite s part (m.pa % 2 ^ 52 - (getPart s part).mgBase) (word v) else s
  match m.op with
  | .lr => (old, takeResv s m.agent b)
  | .sc => if resvValid s m.agent b then (0, endResv (put s m.opnd.toNat) m.agent b) else (1, endResv s m.agent b)
  | _ => match atomResult m.op m.size old (m.opnd.toNat % 2 ^ (8 * m.size)) (m.expv.toNat % 2 ^ (8 * m.size)) with
    | some v => (old, put s v)
    | none => (old, s)

/-- R89: an earlier load of the agent from the line has not been performed; the atomic waits for it at the site. -/
def behindLoad (s : State) (m : Atomic) : Bool :=
  (waiting (getCtx s m.agent)).any fun o => !o.atomic && decide (o.id < m.id) && (linesOfElems o.elems).any fun l => l.1 != .spad && l.2 == lineOf m.pa

/-- R62, R416: the writes numbered from `n` on are made with a cluster's translation, for a draw group. -/
def stamp (n : Nat) (src : Option Nat) (group : Option (Nat × Nat)) (s : State) : State :=
  { s with writes := s.writes.map fun w => if n ≤ w.id then { w with src, group } else w }

/-- R104, R105: an atomic at its site, when that can act: its reply goes back. -/
def performAtomic (s : State) (m : Atomic) : State :=
  let l := locOfKey s m.pa
  let o := m.opnd.toNat % 2 ^ (8 * m.size)
  let e := m.expv.toNat % 2 ^ (8 * m.size)
  let done (r : Nat × State) : State := answer { r.2 with atomics := r.2.atomics.filter fun x => x.id != m.id } m.agent m.id (.value (word r.1))
  if behindLoad s m then s
  else if l.cls = .mgmt then done (mgAtomic s m)
  else match siteNeeds { s with resets := [] } m.agent m.op l m.size o e (some m.id) with
    | some q => applyReqs s q
    | none =>
      let r := atSite s m.agent m.op m.amo l m.size o e m.order m.scope m.tags
      done (r.1, stamp s.nextId m.src m.group r.2)

/-- R104: `home atomic`. -/
def execHomeAtomic (id : Nat) (s : State) : Out :=
  match s.atomics.find? fun m => m.id == id && !m.packet with
  | none => .next s
  | some m =>
    if unreachable s m.agent m.pa || heldByReset s id m.pa || laneBusyFrom s id (m.src.getD (stationOf m.agent)) (lineOf m.pa) then .next s
    else .next (performAtomic { s with atomics := s.atomics.map fun x => if x.id = id then { x with atHome := true } else x } m)

/-- R141, R428: AOP of an operation. -/
def AOp.code : AOp → Nat
  | .add => 0
  | .and => 1
  | .or => 2
  | .xor => 3
  | .min => 4
  | .max => 5
  | .minu => 6
  | .maxu => 7
  | .swap => 8
  | .cas => 9
  | .fadd => 10
  | .bfadd2 => 11
  | .lr | .sc => 12

/-- R428: the 32 bytes of an atomic's operation packet. -/
def opPacket (m : Atomic) : List Byte :=
  leBytes 8 (m.pa % 2 ^ 52) ++ leBytes 8 (m.opnd.toNat % 2 ^ (8 * m.size)) ++ leBytes 8 (if m.op = .cas then m.expv.toNat % 2 ^ (8 * m.size) else 0) ++
    [BitVec.ofNat 8 m.op.code, if m.size = 8 then 1 else 0, 1] ++ List.replicate 5 0

/-- R428: a completer takes the packet; else it answers Unsupported Request. -/
def packetTaken (b : List Byte) : Bool :=
  let aop := (b.getD 24 0).toNat
  let d := (b.getD 25 0) == 1
  b.getD 26 0 == 1 && (decide (aop < 10) || (!d && decide (aop < 12))) && leNat (b.take 8) % (if d then 8 else 4) == 0

/-- R428, R247: `operation packet completion`: `ok`: the completer has performed the operation. -/
def execOperationPacketCompletion (id : Nat) (ok : Bool) (old : Word) (s : State) : Out :=
  match s.atomics.find? fun m => m.id == id && m.packet with
  | none => .next s
  | some m =>
    .next (answer { s with atomics := s.atomics.filter fun x => x.id != id } m.agent id
      (if ok && packetTaken (opPacket m) then .value old else .trap 7 0))

/-! Reservations -/

/-- R173: `reservation expiry`. -/
def execReservationExpiry (agent : Nat) (s : State) : Out :=
  if Config.agents ≤ agent then .fault .noSuchAgent
  else match (getCtx s agent).resv with
    | some r => .next (if r.valid && decide (r.since + Config.resvCycles ≤ s.clock) then modCtx s agent dropResv else s)
    | none => .next s

/-- R175: `priority reservation end`: the 64 cycles are over. Contexts that wait for it count their 256 cycles from that end already (`takeResv`). -/
def execPriorityReservationEnd (block : Nat) (s : State) : Out :=
  let ended (r : Resv) : Bool := r.block == block && (match r.prio with | some t => decide (t ≤ s.clock) | none => false)
  if s.ctxs.any fun e => match e.2.resv with | some r => ended r | none => false then
    .next { s with ctxs := s.ctxs.map fun e => match e.2.resv with
      | some r => if ended r then (e.1, { e.2 with resv := some { r with prio := none } }) else e
      | none => e }
  else .next s

/-- R175: `qualification lapse`. -/
def execQualificationLapse (agent : Nat) (s : State) : Out :=
  if Config.agents ≤ agent then .fault .noSuchAgent
  else match (getCtx s agent).qual with
    | some q => .next (if q.until_ < s.clock then modCtx s agent fun c => { c with qual := none } else s)
    | none => .next s

/-! Replies of the route table (R237) -/

/-- R221, R223, R449, R451: a post to a cluster of an offline die is refused. -/
def refusePost (s : State) (p : Post) : State :=
  let s := { s with posts := s.posts.filter fun x => x.id != p.id }
  match p.poster with
  | .agent a => answer s a p.id (if p.stage.isSome then .value 3 else .offline)
  | .port part => modPort s part fun x => { x with status := 2, code := 6, post := none }
  | _ => match p.stage with
    | some st => gcStage s st
    | none => s

/-- The cluster that a post waits at: the balancer's for a request not judged yet. -/
def postCluster (p : Post) : Nat := match p.rep, p.stage with | true, some st => st.1 | _, _ => p.target

/-- R247, R436: a store that has left its buffer has failed: cause 7 for uncached memory, cause 30 for host memory behind a link that is down, at
the context's next instruction boundary. `none`: not at one now. A save whose write fails ends with PERM (log entry 48). -/
def failStore (s : State) (w : Write) (cause : Nat) : Option State :=
  let gone := { s with writes := s.writes.filter fun x => x.id != w.id }
  if w.agent = engineAgent then
    match s.preempts.find? fun p => word p.id == w.ea && p.state == 0 with
    | some p => some (failSave gone p 2)
    | none => some gone
  else if Config.agents ≤ w.agent ∨ (getCtx s w.agent).status = .free ∨ (getCtx s w.agent).sent = some w.id then some gone
  else lateFault gone w.agent cause w.ea

/-- R237: a pending access, message or post whose destination is offline is answered. -/
def offlineReply (s : State) (id : Nat) : State :=
  match s.atomics.find? (fun m => m.id == id && !m.packet && unreachable s m.agent m.pa),
    s.writes.find? (fun w => w.id == id && !w.home && unreachable s w.agent w.addr),
    s.posts.find? (fun p => p.id == id && !clusterOnline s (postCluster p)), s.coneMsgs.find? (fun m => m.id == id && !clusterOnline s (coneCluster m.cone)) with
  | some m, _, _, _ =>
    let s := { s with atomics := s.atomics.filter fun x => x.id != id }
    let s := if (m.op = .lr ∨ m.op = .sc) ∧ m.agent < Config.agents then modCtx s m.agent dropResv else s
    answer s m.agent id .offline
  | none, some w, _, _ =>
    if (homeDie (w.addr / 128)).isSome then countDrop { s with writes := s.writes.filter fun x => x.id != id } w.addr else (failStore s w 30).getD s
  | none, none, some p, _ => refusePost s p
  | none, none, none, some m => answer { s with coneMsgs := s.coneMsgs.filter fun x => x.id != id } m.agent id .offline
  | none, none, none, none => s

/-- R237: `offline reply`. -/
def execOfflineReply (id : Nat) (s : State) : Out := .next (offlineReply s id)

/-! The end of a warm reset's write-back (R451, R462) -/

/-- R315, R462: what the engines of a cluster have held at the route table fails: staging members, the outputs and the operands of commands, and the rows
that its pugs wait for. -/
def engineReplies (s : State) (cl : Nat) : State :=
  let k := getCluster s cl
  let s := (k.settings.filter fun x => match x.at_ with | .staging _ => true | _ => false).foldl (fun s x =>
    match stageMembers cl x x.members s with
    | .ok g => if g.members.length = x.members.length then s
      else if g.members.isEmpty then dropSetting g.s cl x
      else putSetting g.s cl (recompute (getCluster g.s cl) x g.members)
    | .error _ => s) s
  let s := (k.cmds.filter fun c => c.at_ == .done && outOffline s c).foldl (fun s c => completeCmd s cl c) s
  let s := match dataNext s cl with
    | some c => (match (if c.op = 0x10 then execCopy cl s else if c.op = 0x11 then execConv cl s else if c.op = 0x12 then execFill cl s
        else execGlazeLoadPerformed cl (c.tidM % 4) s) with
      | .next t => t
      | _ => s)
    | none => s
  k.pugs.foldl (fun s p => match rowWanted s p.2 with
    | some r => (match execPugRowFetch cl p.1 r s with | .next t => t | _ => s)
    | none => s) s

/-- R237, R451, R462: everything that is held for a die which is offline now receives its reply: atomics, writes, cone messages and records, loads, and
what engines wait for. -/
def offlineReplies (s : State) (d : Nat) : State :=
  let ids := ((s.atomics.filter fun m => !m.packet && homedOn d (lineOf m.pa)).map (·.id)) ++
    ((s.writes.filter fun w => !w.home && homedOn d (w.addr / 128)).map (·.id)) ++
    ((s.coneMsgs.filter fun m => dieOfCluster (coneCluster m.cone) == d).map (·.id)) ++
    ((s.posts.filter fun p => dieOfCluster (postCluster p) == d).map (·.id))
  settleAll ((List.range Config.clusters).foldl engineReplies (ids.foldl offlineReply s))

/-- R451, R462, step 5: OFF becomes 1; copies of the die's lines elsewhere go; what is held for the die is answered; source lines homed on it are
swept. -/
def goOffline (s : State) (d : Nat) : State :=
  let s := { s with dies := s.dies.map fun e => (e.1, { e.2 with copies := e.2.copies.filter fun c => !homedOn d c.1 }) }
  let s := modDie s d fun x => { x with off := true, state := .offline }
  warmDone ((sourceLines s d).foldl startSweep (offlineReplies s d)) d 5 0

/-- R451: `die offline`: a step of the write-back, or step 5 when steps 1 to 4 are done. -/
def execDieOffline (die : Nat) (s : State) : Out :=
  match warmOf s die with
  | none => .next s
  | some r => if r.stepDone < 4 then .next (warmStep s die r) else if r.stepDone = 4 then .next (goOffline s die) else .next s

/-! Memory outside the device (R427, R436) -/

/-- R427: the data of a read come back, or the read fails. -/
def completeRead (s : State) (u : UioRead) (ok : Bool) (data : BitVec 1024) : State :=
  if u.agent = Config.agents then
    let s := { s with uio := s.uio.filter fun x => x.id != u.id }
    if ok then { s with mem := writeLine s.mem (u.pa / 128) data, tier2 := s.tier2 ++ [u.pa / 128] } else s
  else
    let v := if ok then { u with data := some data } else { u with failed := true }
    { s with uio := s.uio.map fun x => if x.id = u.id then v else x }

/-- R427: a write-back of a private tier-two line completes: its memory has the value. The manual does not say what a failed one does: here the oldest cache
operation that waits for it fails as a store does, and the directory keeps the line (log entry 60). -/
def endBack (s : State) (b : WriteBack) (ok : Bool) : State :=
  let s1 := { s with backs := s.backs.filter fun x => x.id != b.id }
  if ok then { s1 with stale := if readLine s.mem b.line = b.data then terase s.stale b.line else tset s.stale b.line b.data }
  else match s.writes.find? fun w => !w.home && w.addr == b.line * 128 && (w.kind == .clean || w.kind == .flush) with
    | some w => (failStore s1 w 7).getD s
    | none => s1

/-- R427, R428, R436: a transaction of unordered I/O ends. -/
def endUio (id : Nat) (ok : Bool) (data : BitVec 1024) (s : State) : State :=
  match s.uio.find? (fun u => u.id == id && u.data.isNone && !u.failed), s.writes.find? (fun w => w.id == id && !w.home && uncached s (w.addr / 128)),
    s.backs.find? (fun b => b.id == id) with
  | some u, _, _ => completeRead s u ok data
  | none, some w, _ =>
    if ok then { s with writes := s.writes.filter fun x => x.id != id } else (failStore s w 7).getD s
  | none, none, some b => endBack s b ok
  | none, none, none => s

/-- R427: `uio completion`. -/
def execUioCompletion (id : Nat) (ok : Bool) (data : BitVec 1024) (s : State) : Out := .next (endUio id ok data s)

/-- R436: `uio completion timeout`. -/
def execUioCompletionTimeout (id : Nat) (s : State) : Out :=
  match s.atomics.find? fun m => m.id == id && m.packet with
  | some m => .next (answer { s with atomics := s.atomics.filter fun x => x.id != id } m.agent id (.trap 7 0))
  | none => .next (endUio id false 0 s)

end Sys2Proof.Machine
end

