-- ==== Sys2Proof/Machine/HostEvents.lean ====
section
/-! DEFINITION. Machine/HostEvents.lean: the events of translation and of the host: page requests (R389 to R393), sweeps (R415 to R417),
the coherence bridge (R422, R423) and the host link (R436). -/

namespace Sys2Proof.Machine

/-! Page requests -/

/-- R390, R391: `scout stop`: the 256th instruction has been scouted. -/
def execScoutStop (agent : Nat) (s : State) : Out :=
  if Config.agents ≤ agent then .fault .noSuchAgent
  else match (getCtx s agent).scout with
    | none => .next s
    | some sc =>
      if sc.count < 256 then .next s
      else
        let s' := endScout { s with cur := agent } sc
        .next { s' with cur := s.cur }

/-- R393, R389, R402: the answer to an agent's page request: on Success it executes the faulting instruction again, else it takes the page
fault; the answer for an agent that is being taken or reaped is discarded. -/
def answerAgent (s : State) (p : PageReq) (a : Nat) (code : BitVec 8) : State :=
  let s := takeAnswer s p code
  let c := getCtx s a
  if c.stopping.isSome ∨ c.status ≠ .parked (.page p.id) then s
  else match c.pageFault with
    | none => s
    | some (acc, va, iw) =>
      if code = 0 then setCtx s a { c with pageFault := none } else takeTrap s a (pageCause acc) c.pc va iw code.toNat

/-- R397: the answer to the page request of a save: a refused page fails the save with XLAT. -/
def answerSave (s : State) (p : PageReq) (id : Nat) (code : BitVec 8) : State :=
  let s := takeAnswer s p code
  if code = 0 then s
  else match s.preempts.find? fun x => x.id == id with
    | some x => if x.state = 0 then failSave s x 1 else setPreempt s { x with flush := false }
    | none => s

/-- R393, R316, R329: the answer to a page request group. -/
def answerGroup (s : State) (p : PageReq) (code : BitVec 8) : State :=
  match p.who with
  | .agent a => answerAgent s p a code
  | .preempt id => answerSave s p id code
  | .cmd _ _ => (match execCommandPageResponse p.id code s with | .next s' => s' | _ => s)
  | .pug _ _ => (match execPugPageResponse p.id code s with | .next s' => s' | _ => s)

/-- The die whose counters count a page request group: that of the requester (R458). -/
def groupDie (p : PageReq) : Nat :=
  match p.who with
  | .agent a => dieOf a
  | .cmd cl _ | .pug cl _ => dieOfCluster cl
  | .preempt _ => p.part

/-- R392, R436: a group goes to the host; while the host link is down it is answered at once as Response Failure. -/
def sendPages (s : State) (p : PageReq) : State :=
  let s := { s with pages := s.pages.map fun x => if x.id = p.id then { x with sent := true } else x }
  let s := countDie s (groupDie p) 0x20 1
  if (getPart s p.part).linkDown then answerGroup s { p with sent := true } 0x0F else s

/-- R392: the host's allocation for the partition takes the requests of a group; while its link is down nothing is asked of it (R436). -/
def pagesFit (s : State) (p : PageReq) : Bool :=
  let out := (s.pages.filter fun x => x.sent && x.part == p.part).foldl (fun n x => n + x.pages.length) 0
  (getPart s p.part).linkDown || decide (out + p.pages.length ≤ (getPart s p.part).pageAlloc)

/-- R392: `page request group`. -/
def execPageRequestGroup (id : Nat) (s : State) : Out :=
  match s.pages.find? fun p => p.id == id && !p.sent with
  | none => .next s
  | some p => .next (if pagesFit s p then sendPages s p else s)

/-- R393: `page response`, for a context, a hub core or a save. The answer for a halted context waits until it has been resumed. -/
def execPageResponse (id : Nat) (code : BitVec 8) (s : State) : Out :=
  match s.pages.find? fun p => p.id == id && p.sent with
  | none => .next s
  | some p => match p.who with
    | .agent a => .next (if (getCtx s a).halted.isSome then s else answerAgent s p a code)
    | .preempt i => .next (answerSave s p i code)
    | .cmd _ _ | .pug _ _ => .next s

/-- R393: `page request reenable`: the host driver re-enables page requests. -/
def execPageRequestReenable (part : Nat) (s : State) : Out :=
  if Config.dies ≤ part ∨ partOfDie s part ≠ part then .fault .noSuchObject
  else .next (modPart s part fun p => { p with prFailed := false })

/-! Sweeps -/

/-- R416, R417: `sweep ack`: a cluster (32: the hub) has cleared its TLBs, and its accesses through the line are performed. -/
def execSweepAck (id cluster : Nat) (s : State) : Out :=
  match s.sweeps.find? fun x => x.id == id && x.pending.contains cluster with
  | none => .next s
  | some x =>
    let s := dropTag s x.line cluster
    if inFlight s cluster x.line then .next (applyReqs s (visibleReqs s))
    else .next { s with sweeps := s.sweeps.map fun y => if y.id = id then { y with pending := y.pending.filter (· != cluster) } else y }

/-- R40, R418: the line of the slot that the next push on its way to a coil's owner is to write. -/
def pushLine (s : State) (m : CoilMsg) : Option Nat :=
  if !firstOfFlow s m then none
  else (findQueue s m.queue).bind fun q => match ringLoc s q q.tail .write with
    | .at_ l _ _ => if l.cls = .spad then none else some (lineOf l.key)
    | _ => none

/-- The line that a request from outside writes, or takes from the device. -/
def HostReq.takes (s : State) : HostReq → Option Nat
  | .back half _ => some (half / 2)
  | .mem (.cxl half hold data) => if data.isSome || hold == some true then some (half / 2) else none
  | .mem (.uioRead _ _ _) => none
  | .mem (.uioWrite part pa _) => some (lineOf (locate s part pa).key)
  | .mem (.packet part b) => some (lineOf (locate s part (leNat (b.take 8))).key)

/-- R416, R418: a write of the line that its home can reach is still to be performed; walks wait for it. One that waits for a snoop's answer is
waited for by none (R422). -/
def writeAwaited (s : State) (line : Nat) : Bool :=
  !(s.snoops.any fun e => e.1 / 2 == line) &&
  ((s.writes.any fun w => !w.home && w.kind != .clean && lineOf w.addr == line && !unreachable s w.agent (line * 128)) ||
   (s.atomics.any fun m => !m.packet && lineOf m.pa == line && !unreachable s m.agent (line * 128)) ||
   (s.clusters.any fun k => k.2.cmds.any fun c => c.at_ == .done && !unreachable s c.agent (line * 128) &&
     c.out.any fun b => !b.1 && lineOf b.2.1 == line) ||
   (s.coilMsgs.any fun m => pushLine s m == some line) ||
   (s.coneMsgs.any fun m => clusterOnline s (coneCluster m.cone) && !unreachable s m.agent (line * 128) && (match m.op with
     | .snap _ spad key _ => !spad && lineOf key == line
     | _ => false)) ||
   (s.preempts.any fun p => (savePlaces s p).contains line) ||
   s.hostReqs.any fun r => r.takes s == some line)

/-! Host memory held by the device (R422) -/

/-- The 64 bytes of a half. -/
def readHalf (m : List Host.Cell) (half : Nat) : Nat := leNat (readBytes m (half * 64) 64)
/-- The cells of a half. -/
def halfCells (half : Nat) (v : BitVec 512) : List (Nat × Byte) := cellsAt (half * 64) (leBytes 64 v.toNat)

/-- R422: one half of a line agrees with the memory's own value again; a line that does so whole is visible to the host. -/
def cleanHalf (s : State) (half : Nat) : State :=
  let line := half / 2
  match tfind s.stale line with
  | none => s
  | some v =>
    let sh := half % 2 * 512
    let old := v.toNat / 2 ^ sh % 2 ^ 512
    let v' : BitVec 1024 := v - BitVec.ofNat 1024 (old * 2 ^ sh) + BitVec.ofNat 1024 (readHalf s.mem half * 2 ^ sh)
    if v' = readLine s.mem line then hostSees { s with stale := terase s.stale line } line else { s with stale := tset s.stale line v' }

/-- The half lies in host memory. -/
def isHostHalf (s : State) (half : Nat) : Bool := (locOfKey s (half * 64)).cls == .host

/-- R422, R173: the bridge answers a snoop: a modified half is written back with the response, which makes it visible to the host; a snoop that takes
the half removes the device's copies and the reservations on the block, one that leaves it shared takes its ownership away. -/
def answerSnoop (s : State) (half : Nat) (kind : Snoop) : State :=
  let s := { cleanHalf s half with snoops := s.snoops.filter fun e => e.1 != half }
  match kind with
  | .inv => killResv { s with held := terase s.held half } (half / 2) engineAgent
  | .data => { s with held := if tfind s.held half = some true then tset s.held half false else s.held }
  | .cur => s

/-- R416: the snoop starts a sweep, which must complete first: one that takes a half of a source line. -/
def snoopSweeps (s : State) (half : Nat) (kind : Snoop) : Bool :=
  kind == .inv && (isSource s (half / 2) || s.sweeps.any fun x => x.line == half / 2)

/-- R422: `host snoop`: answered when the sweep that it starts is complete, and at once when there is none. -/
def execHostSnoop (half : Nat) (kind : Snoop) (s : State) : Out :=
  if !isHostHalf s half then .fault .noSuchObject
  else if snooped s half then .next s
  else if snoopSweeps s half kind then .next (startSweep { s with snoops := s.snoops ++ [(half, kind)] } (half / 2))
  else .next (answerSnoop s half kind)

/-- R422: the snoops whose sweep is complete are answered. -/
def answerSnoops (s : State) : State :=
  (s.snoops.filter fun e => !(s.sweeps.any fun x => x.line == e.1 / 2)).foldl (fun s e => answerSnoop s e.1 e.2) s

/-- R416, R418, R422: `sweep complete`: every cluster has answered, and the write that caused the sweep has been performed; a snoop that waits for it
is answered. -/
def execSweepComplete (id : Nat) (s : State) : Out :=
  .next (answerSnoops { s with sweeps := s.sweeps.filter fun x => !(x.id == id && x.pending.isEmpty && !writeAwaited s x.line) })

/-- R422, R421: `cxl cache response`: the host grants a half, with its data when the device did not hold it, or takes one that the device evicts. A
written-back half stays with the device as a shared copy. For RdOwnNoData the data stand for the value that the host gives up (log entry 82). -/
def execCxlCacheResponse (half : Nat) (data : BitVec 512) (s : State) : Out :=
  let granted (owned : Bool) : State :=
    let s := if (tfind s.held half).isSome then s else cleanHalf { s with mem := writeCells s.mem (halfCells half data) } half
    { s with held := tset s.held half (owned || tget false s.held half) }
  let ended (s : State) : Out := .next { s with cxl := terase s.cxl half }
  match tfind s.cxl half with
  | none => .next s
  | some .rdShared => ended (granted false)
  | some .rdOwn | some .rdOwnNoData => ended (granted true)
  | some .dirtyEvict =>
    let s := cleanHalf s half
    ended { s with held := if (tfind s.held half).isSome then tset s.held half false else s.held }
  | some .cleanEvict => ended s

/-! Device memory held by the host (R423) -/

/-- What a write of a half by the host still needs, and whether it waits for a lease (R80, R416, R462). -/
def hostNeeds (s : State) (half : Nat) : List Req × Bool :=
  let line := half / 2
  ((match homeDie line with | some d => quiet s d | none => []) ++ (if isSource s line then [.sweep line] else []), !leaseOver s line)

/-- A write of a half by the host, at its home. -/
def hostWrite (s : State) (half : Nat) (v : BitVec 512) : State := directWrite s engineAgent (half / 2) (halfCells half v)

/-- R423: entries of the snoop filter. -/
def filterSize : Nat := 4194304

/-- R19, R83, R414, R423: the host comes to hold a half, when no copy of its line is left under a lease or in a remote cache, and, where it takes the half
exclusively (`excl`), no translation is derived from it. -/
def hostHold (s : State) (half : Nat) (excl : Bool) : Except State State :=
  let line := half / 2
  if !leaseOver s line then .error s
  else if excl && isSource s line then .error (applyReqs s [.sweep line])
  else if !(sharers s line).isEmpty then
    if s.writes.any fun w => w.atHome && w.addr == line * 128 then .error s
    else
      let (id, s) := takeId s
      let l := sharers s line
      let w : Write :=
        { id, agent := engineAgent, kind := .flush, addr := line * 128, bytes := [], order := .rlx, scope := .sys, tags := [],
          ea := 0, atHome := true, home := true, inv := l, acks := l }
      .error { s with writes := s.writes ++ [w] }
  else
    let rest := s.filter.filter (·.1 != half)
    if filterSize ≤ rest.length then .error (applyReqs s ((rest.take 1).map fun e => .bisnp e.1)) else .ok { s with filter := rest ++ [(half, excl)] }

/-- How a request from outside ends: done, or to go on with another one in its place; the state has what it has asked for. -/
abbrev Tried := State × Option HostReq

/-- R423: a request of the host for a half of device memory that its home can perform: a write with data, then what the host holds. -/
def hostRequest (s : State) (half : Nat) (hold : Option Bool) (data : Option (BitVec 512)) : Tried :=
  let takes (s : State) : Tried := match hold with
    | some excl => match hostHold s half excl with
      | .ok s' => (s', none)
      | .error s' => (s', some (.mem (.cxl half hold none)))
    | none => (s, none)
  match data with
  | none => takes s
  | some v =>
    match hostNeeds s half with
    | ([], false) =>
      let s := hostWrite s half v
      if hold.isSome then takes s else ({ s with filter := s.filter.filter (·.1 != half) }, none)
    | (q, _) => (applyReqs s q, some (.mem (.cxl half hold data)))

/-- R423: a request of the host through CXL.mem. It is performed after a device write of the half that is on its way to its home or waits there. -/
def hostMem (s : State) (half : Nat) (hold : Option Bool) (data : Option (BitVec 512)) : Tried :=
  let d := half * 64 / Config.dieBytes
  let writing := s.writes.any fun w => !w.home && w.bytes.any fun b => b.1 / 64 == half
  if (getDie s d).off || (getPart s (partOfDie s d)).linkDown then (s, none)
  else if !(quiet s d).isEmpty || writing then (s, some (.mem (.cxl half hold data)))
  else hostRequest s half hold data

/-- R423: the host gives up a half that it has modified: a write at the home. -/
def hostBack (s : State) (half : Nat) (v : BitVec 512) : Tried :=
  match hostNeeds { s with resets := [] } half with
  | ([], false) =>
    let s := hostWrite s half v
    ({ s with bisnp := s.bisnp.filter (· != half), filter := s.filter.filter (·.1 != half) }, none)
  | (q, _) => (applyReqs s q, some (.back half v))

/-- A completion is sent to a peer. -/
def peerReply (s : State) (ok : Bool) (data : List Byte) : Tried := ({ s with peerReplies := s.peerReplies ++ [(ok, data)] }, none)

/-- R421: `n` bytes of one line of the device memory of a partition, on a die that is online, as a peer may name them. -/
def peerPlace (s : State) (part pa n : Nat) : Option Nat :=
  let l := locate s part pa
  match l.cls with
  | .hbm d => if !(getDie s d).off && decide (1 ≤ n) && lineOf l.key == lineOf (l.key + n - 1) then some l.key else none
  | _ => none

/-- R421, R427: a peer's read of bytes of a line. -/
def peerRead (s : State) (part pa n : Nat) : Tried :=
  match peerPlace s part pa n with
  | none => peerReply s false []
  | some key => match readNeeds s (lineOf key) (dedup [key / 64, (key + n - 1) / 64]) with
    | [] => if writeWaits s (lineOf key) then (s, some (.mem (.uioRead part pa n))) else peerReply s true (readBytes s.mem key n)
    | q => (applyReqs s q, some (.mem (.uioRead part pa n)))

/-- R421, R427: a peer's write of bytes of a line. -/
def peerWrite (s : State) (part pa : Nat) (b : List Byte) : Tried :=
  match peerPlace s part pa b.length with
  | none => peerReply s false []
  | some key =>
    let cells := cellsAt key b
    if canWrite s (lineOf key) (halvesTouched cells) then peerReply (directWrite s engineAgent (lineOf key) cells) true []
    else (applyReqs s (writeNeeds s (lineOf key) (halvesTouched cells)), some (.mem (.uioWrite part pa b)))

/-- R428: the operation that a packet's AOP names. -/
def packetOp (b : List Byte) : AOp :=
  ([.add, .and, .or, .xor, .min, .max, .minu, .maxu, .swap, .cas, .fadd, .bfadd2].getD ((b.getD 24 0).toNat % 16) .add)

/-- R421, R428: a peer's operation packet, performed at the home of its address as one action. -/
def peerAtomic (s : State) (part : Nat) (b : List Byte) : Tried :=
  let n := if (b.getD 25 0).getLsbD 0 then 8 else 4
  match peerPlace s part (leNat (b.take 8)) n with
  | none => peerReply s false []
  | some key =>
    let l := locOfKey s key
    let o := leNat ((b.drop 8).take 8) % 2 ^ (8 * n)
    let e := leNat ((b.drop 16).take 8) % 2 ^ (8 * n)
    if !packetTaken b then peerReply s false []
    else match siteNeeds s engineAgent (packetOp b) l n o e with
      | some q => (applyReqs s q, some (.mem (.packet part b)))
      | none =>
        let r := atSite s engineAgent (packetOp b) false l n o e .rlx .sys []
        peerReply r.2 true (leBytes 8 r.1)

/-- R421 to R423: a request from outside is performed, when it can be. -/
def tryHost (s : State) : HostReq → Tried
  | .back half v => hostBack s half v
  | .mem (.cxl half hold data) => hostMem s half hold data
  | .mem (.uioRead part pa n) => peerRead s part pa n
  | .mem (.uioWrite part pa b) => peerWrite s part pa b
  | .mem (.packet part b) => peerAtomic s part b

/-- A request is tried; what is left of it waits. -/
def retryHost (s : State) (r : HostReq) : State :=
  let t := tryHost s r
  { t.1 with hostReqs := t.1.hostReqs ++ t.2.toList }

/-- R421 to R423: the requests from outside that wait are tried again, in their order. -/
def hostDue (s : State) : State := s.hostReqs.foldl retryHost { s with hostReqs := [] }

/-- A new request from outside, behind those that wait. -/
def hostArrives (s : State) (r : HostReq) : State := hostDue { s with hostReqs := s.hostReqs ++ [r] }

/-- R423: `bisnp response`: the host gives up a half, with its data when it had modified it. -/
def execBisnpResponse (half : Nat) (dirty : Option (BitVec 512)) (s : State) : Out :=
  if !s.bisnp.contains half then .next s
  else match dirty with
    | none => .next { s with bisnp := s.bisnp.filter (· != half), filter := s.filter.filter (·.1 != half) }
    | some v => .next (if s.hostReqs.any fun r => match r with | .back h _ => h == half | _ => false then s else hostArrives s (.back half v))

/-- R421, R423: `host CXL.mem request`: the host, or a peer, reads or writes device memory; what cannot be performed yet waits. The table has no row of
its own for the requests of peers (log entry 112). `part`: the partition whose memory is asked for. -/
def execHostCxlMemRequest (part addr : Nat) (op : MemOp) (s : State) : Out :=
  if Config.dies ≤ part ∨ partOfDie s part ≠ part then .fault .noSuchObject
  else match op with
    | .cxl hold data =>
      if (homeDie (addr / 2)).map (partOfDie s) ≠ some part then .fault .noSuchObject else .next (hostArrives s (.mem (.cxl addr hold data)))
    | .uioRead n => .next (hostArrives s (.mem (.uioRead part addr n)))
    | .uioWrite bytes => .next (hostArrives s (.mem (.uioWrite part addr bytes)))
    | .packet rest => .next (hostArrives s (.mem (.packet part (leBytes 8 addr ++ rest))))

/-! The host link (R436) -/

/-- R436: the host link of a partition is down: requests under way to the host end, nothing more becomes visible to it, and page requests are
answered as Response Failure. -/
def linkGoesDown (s : State) (part : Nat) : State :=
  let s := modPart s part fun p => { p with linkDown := true }
  let drop (w : Write) : Write := if w.home && partOf s w.agent == part then { w with acks := w.acks.filter (· != hostSide) } else w
  let mine (r : HostReq) : Bool := match r with | .mem (.cxl half _ _) => partOfDie s (half * 64 / Config.dieBytes) == part | _ => false
  let s := { s with
    cxl := []
    hostReqs := s.hostReqs.filter (!mine ·)
    writes := (s.writes.map drop).filter fun w => !(w.home && w.acks.isEmpty) }
  (s.pages.filter fun p => p.part == part && p.sent).foldl (fun s p => answerGroup s p 0x0F) s

/-- R436: `host link down`. -/
def execHostLinkDown (part : Nat) (s : State) : Out :=
  if Config.dies ≤ part ∨ partOfDie s part ≠ part then .fault .noSuchObject else .next (linkGoesDown s part)

end Sys2Proof.Machine
end

