-- ==== Sys2Proof/Machine/TrapEvents.lean ====
section
/-! DEFINITION. Machine/TrapEvents.lean: the events of traps and interrupts (R373, R376, R377, R380 to R385), and of the reduce queue
(R430 to R432). -/

namespace Sys2Proof.Machine

/-! Records for context 0 -/

/-- R382: a record of four entries fits into the trap queue. -/
def trapRoom (k : Core) : Bool := decide (k.trapQ.length + 4 ≤ Config.trapQueue)

/-- R381, R382: the oldest waiting record of a core is pushed, as a release at core scope of the trapped context. -/
def pushTrapRecord (s : State) (core : Nat) : State :=
  let k := getCore s core
  match k.waiting with
  | [] => s
  | r :: t =>
    if trapRoom k && settled s (agentOf core r.ctx) .core then
      setCore s core { k with trapQ := k.trapQ ++ [r.w0, r.w1, r.w2, r.w3].map dataEntry, waiting := t }
    else s

/-- R382: `trap record push`. -/
def execTrapRecordPush (core : Nat) (s : State) : Out :=
  if Config.cores ≤ core then .fault .noSuchObject else .next (pushTrapRecord s core)

/-- R380: the pending and enabled interrupt with the highest code, of a list in falling order. -/
def pendingCode (c : SCsr) (codes : List Nat) : Option Nat := codes.find? fun n => bitOf (c.sip &&& c.sie) n

/-- R380: the trap value of an interrupt of agent `a`; `esc`: the oldest escalation not delivered. -/
def intTval (s : State) (a code : Nat) (c : SCsr) : Word :=
  match code with
  | 5 => word (timeOf s a)
  | 9 => c.door
  | 16 => c.lossAddr
  | 17 => c.pmtAddr
  | 18 => word ((getHub s (a - Config.contexts)).esc.headD 0)
  | _ => 0

/-- R376, R380: the delivery of an interrupt clears its pending bit. -/
def clearPending (c : SCsr) (code : Nat) : SCsr :=
  { c with sip := setField c.sip code 1 0, door := if code = 9 then 0 else c.door }

/-- R384: an interrupt record is pushed when no record waits, the queue holds no other interrupt record and has four free entries. -/
def pushIntRecord (s : State) (core : Nat) : State :=
  let a := agentOf core 0
  let k := getCore s core
  let c := (getCtx s a).scsr
  match pendingCode c [17, 16, 9, 5, 1] with
  | none => s
  | some code =>
    if k.waiting.isEmpty && k.intr == 0 && trapRoom k then
      let q := k.trapQ ++ [word (code + 64), 0, intTval s a code c, 0].map dataEntry
      modSCsr (setCore s core { k with trapQ := q, intr := q.length }) a fun c => clearPending c code
    else s

/-- R384: `interrupt record push`. -/
def execInterruptRecordPush (core : Nat) (s : State) : Out :=
  if Config.cores ≤ core then .fault .noSuchObject else .next (pushIntRecord s core)

/-! Interrupts of hub cores -/

/-- R373: a hub core is between instructions, or parked on a condition for which it has sent nothing. -/
def interruptible (s : State) (a : Nat) (c : Ctx) : Bool :=
  c.sent.isNone && c.reply.isNone && c.halted.isNone && !(s.uio.any fun u => u.agent == a || u.agent == fetchAgent a) &&
  (match c.status with
    | .ready => true
    | .parked (.page _) => false
    | .parked _ => true
    | _ => false)

/-- R375: interrupts are always taken in user mode, and in supervisor mode when SIE is 1. -/
def intEnabled (c : Ctx) : Bool := !c.sup || bitOf c.scsr.sstatus 1

/-- R385: the delivery of the oldest escalation. -/
def deliverEsc (s : State) (h : Nat) : State :=
  match (getHub s h).esc with
  | [] => s
  | core :: t =>
    let s := modHub s h fun x => { x with esc := t, taken := x.taken ++ [core] }
    modSCsr s (Config.contexts + h) fun c => { c with sip := setField c.sip 18 1 (bit !t.isEmpty) }

/-- R373, R376, R385: a hub core takes an interrupt. -/
def takeInterrupt (s : State) (h code : Nat) : State :=
  let a := Config.contexts + h
  let tval := intTval s a code (getCtx s a).scsr
  let s := if code = 18 then deliverEsc s h else modSCsr s a fun c => clearPending c code
  modCtx s a fun c => hubEnter c true code c.pc tval

/-- R373: `hub interrupt taken`. -/
def execHubInterruptTaken (hub : Nat) (s : State) : Out :=
  if Config.hubs ≤ hub then .fault .noSuchAgent
  else
    let a := Config.contexts + hub
    let c := getCtx s a
    match pendingCode c.scsr [18, 17, 16, 9, 5, 1] with
    | none => .next s
    | some code => .next (if intEnabled c && interruptible s a c then takeInterrupt s hub code else s)

/-! Sources of interrupts -/

/-- R374: the agent has supervisor CSRs. -/
def hasSup (a : Nat) : Bool := isHub a || ctxNo a == 0

/-- R377: `stimecmp` match: the first time value at or after the write of CMP that is at least CMP. -/
def execStimecmpMatch (agent : Nat) (s : State) : Out :=
  if Config.agents ≤ agent then .fault .noSuchAgent
  else
    let c := (getCtx s agent).scsr
    if hasSup agent && c.armed && decide (c.stimecmp.toNat ≤ timeOf s agent) then
      .next (modSCsr s agent fun c => { c with sip := setField c.sip 5 1 1, armed := false })
    else .next s

/-- R380: a doorbell; the words of those that arrive while SEIP is 1 are ORed. -/
def ringDoor (c : SCsr) (v : Word) : SCsr :=
  { c with sip := setField c.sip 9 1 1, door := if bitOf c.sip 9 then c.door ||| v else v }

/-- R380: `doorbell`. -/
def execDoorbell (agent : Nat) (word : Word) (s : State) : Out :=
  if Config.agents ≤ agent then .fault .noSuchAgent
  else .next (if hasSup agent then modSCsr s agent fun c => ringDoor c word else s)

/-! The reduce queue -/

/-- R430, R432: `rqjob` write: performed when every earlier access of the hub core is performed at pkg scope. -/
def execRqjobWrite (hub : Nat) (v : Word) (s : State) : Out :=
  if Config.hubs ≤ hub then .fault .noSuchAgent
  else
    let a := Config.contexts + hub
    .next (if settled s a .pkg then writeRqjob s a v else s)

/-- R431: `rqen` write. -/
def execRqenWrite (hub : Nat) (v : Word) (s : State) : Out :=
  if Config.hubs ≤ hub then .fault .noSuchAgent else .next (writeRqen s (Config.contexts + hub) v)

/-- R432: `reduce token delivery`: after every index has been popped, each core that was enabled at the start gets a level-7 token. -/
def execReduceTokenDelivery (hub : Nat) (s : State) : Out :=
  if Config.hubs ≤ hub then .fault .noSuchAgent
  else
    let p := getPart s (partOf s (Config.contexts + hub))
    if p.busy && p.nextBlk == p.nblk && p.backBlk.isEmpty && p.tokens.contains hub && (getHub s hub).got.isEmpty then
      .next (modHub s hub fun h => { h with got := [tokenEntry 7] })
    else .next s

end Sys2Proof.Machine
end

