-- ==== Sys2Proof/Machine/RegEvents.lean ====
section
/-! DEFINITION. Machine/RegEvents.lean: writes of registers as events (R5, R73, R81, R123, R308, R374 to R378, R406 to R410, R449), and
power (R459). -/

namespace Sys2Proof.Machine

/-- R374: a write of a supervisor CSR by an agent that has it; other agents have no such CSR. -/
def supWrite (agent num : Nat) (v : Word) (s : State) : Out :=
  if Config.agents ≤ agent then .fault .noSuchAgent
  else .next (if hasSup agent && hasSCsr agent num then writeSCsr s agent num v else s)

/-- R73: `sspwin` write. -/
def execSspwinWrite (agent : Nat) (v : Word) (s : State) : Out := supWrite agent 0x5C3 v s
/-- R81: `slscfg` write. -/
def execSlscfgWrite (agent : Nat) (v : Word) (s : State) : Out := supWrite agent 0x5C0 v s
/-- R378: `drawdly` write. -/
def execDrawdlyWrite (agent : Nat) (v : Word) (s : State) : Out := supWrite agent 0x5C1 v s
/-- R378: `scctl` write. -/
def execScctlWrite (agent : Nat) (v : Word) (s : State) : Out := supWrite agent 0x5C2 v s
/-- R308: a write of a hold register. -/
def execHoldWrite (agent : Nat) (p : BitVec 3) (v : Word) (s : State) : Out := supWrite agent (0x5C8 + p.toNat) v s
/-- R406 to R410: a write of `wfmt`, `wperm`, `wpamask`, `wleaf` or `astab`. -/
def execWalkFormatWrite (agent : Nat) (r : BitVec 3) (v : Word) (s : State) : Out :=
  if 5 ≤ r.toNat then .fault .noSuchObject else supWrite agent (0x5D0 + r.toNat) v s
/-- R377: `stimecmp` write. -/
def execStimecmpWrite (agent : Nat) (v : Word) (s : State) : Out := supWrite agent 0x14D v s
/-- R380: a write of `sip`: SSIP. -/
def execSsipWrite (agent : Nat) (v : Word) (s : State) : Out := supWrite agent 0x144 v s

/-- R179: a write of a user CSR of an agent that is not FREE. -/
def userWrite (s : State) (agent num : Nat) (v : Word) : State :=
  if (getCtx s agent).status = .free then s else modCtx s agent fun c => { c with ucsr := writeUCsr c.ucsr num v }

/-- R123: `vseed` write. -/
def execVseedWrite (agent : Nat) (v : Word) (s : State) : Out :=
  if Config.agents ≤ agent then .fault .noSuchAgent else .next (userWrite s agent 0x801 v)

/-- R5: a write of any CSR of an agent; R432 for `rqjob`. -/
def regCsrWrite (s : State) (agent num : Nat) (v : Word) : State :=
  if (readUCsr s agent num).isSome then userWrite s agent num v
  else if hasSup agent && hasSCsr agent num && (num != 0x5E0 || settled s agent .pkg) then writeSCsr s agent num v
  else s

/-- R68: a window of a partition's address decoder is switched on or off. -/
def setWindow (p : Part) (w : Window) (on : Bool) : Part :=
  let rest := p.windows.filter fun x => x.base != w.base
  { p with windows := if on then rest ++ [w] else rest }

/-- R68, R448: a change of a partition's address decoder, by host software or, once the partition runs, by its supervisor (log entry 52). -/
def decoderWrite (s : State) (part : Nat) (f : Part → Part) : Out :=
  if Config.dies ≤ part ∨ partOfDie s part ≠ part then .fault .noSuchObject else .next (modPart s part f)

/-- R5: `register write`: a write of a register that has no row of its own. -/
def execRegisterWrite (target : RegTarget) (v : Word) (s : State) : Out :=
  match target with
  | .csr agent num => if Config.agents ≤ agent then .fault .noSuchAgent else .next (regCsrWrite s agent num.toNat v)
  | .mgmt part off =>
    if Config.dies ≤ part ∨ partOfDie s part ≠ part then .fault .noSuchObject
    else .next (if off % 8 = 0 then mgWrite s part off v else s)
  | .rtentry part =>
    if Config.dies ≤ part ∨ partOfDie s part ≠ part then .fault .noSuchObject else .next (modPart s part fun p => { p with rtentry := v })
  | .hdmBase part => decoderWrite s part fun p => { p with hdmBase := v.toNat % 2 ^ 52 / 2 ^ 28 * 2 ^ 28 }
  | .window part base len kind port => decoderWrite s part fun p => setWindow p { base, len, kind, port } (bitOf v 0)
  | .mgBase part => decoderWrite s part fun p => { p with mgBase := v.toNat % 2 ^ 52 / 2 ^ 20 * 2 ^ 20 }
  | .hubSpace hub =>
    if Config.hubs ≤ hub then .fault .noSuchAgent
    else .next (modCtx s (Config.contexts + hub) fun c => { c with space := v.toNat % 2 ^ 16 })
  | .remoteRegion die =>
    if Config.dies ≤ die then .fault .noSuchObject
    else .next (if v.toNat ≤ 8 then modDie s die fun d => { d with region := v.toNat } else s)
  | .pageAlloc part =>
    if Config.dies ≤ part ∨ partOfDie s part ≠ part then .fault .noSuchObject
    else .next (modPart s part fun p => { p with pageAlloc := v.toNat % 2 ^ 32 })

/-! Power (R459) -/

/-- R313, R459: a firing of a throttled kiln, with one idle cycle after every granule of the `extra` granules that the throttled time still holds; the 64
cycles of filling and draining are none. -/
def slowFiring (now extra : Nat) (x : Setting) : Setting :=
  match x.at_ with
  | .firing k u => { x with at_ := .firing k (u + min (u - 64 - now) extra) }
  | _ => x

/-- R459: a die throttles for the next 1,024 cycles; its running firings take longer. -/
def throttleDie (s : State) (die : Nat) : State :=
  let till := s.clock + 1024
  let extra := (till - max s.clock (getDie s die).throttle) / 2
  let s := { s with clusters := s.clusters.map fun e =>
    if e.1 / 8 = die then (e.1, { e.2 with settings := e.2.settings.map (slowFiring s.clock extra) }) else e }
  modDie s die fun d => { d with throttle := till }

/-- R459: `power estimate`. -/
def execPowerEstimate (die : Nat) (exceeds : Bool) (s : State) : Out :=
  if Config.dies ≤ die then .fault .noSuchObject else .next (if exceeds then throttleDie s die else s)

/-- R459: `heat flux limit`. -/
def execHeatFluxLimit (die : Nat) (s : State) : Out :=
  if Config.dies ≤ die then .fault .noSuchObject else .next (throttleDie s die)

end Sys2Proof.Machine
end

