-- ==== Sys2Proof/Machine/System.lean ====
section
/-! DEFINITION. Machine/System.lean: instruction fetch (R133, R135), CSR instructions (R178), environment instructions (R186), trap
return (R373), and the two ways in which no instruction is decoded. -/

namespace Sys2Proof.Machine

/-! Fetch -/

/-- R94: a half of a line in the instruction cache may be older than memory. Whether a fetch finds it there still is open: a free value decides. A fetch that
does not find it reads the half (R70, R84), which enters the cache of a barrel core; a full cache holds 256 lines (R12). -/
def fetchHalf (s : State) (half : Nat) : Except (List Req) (BitVec 512 × State) :=
  let keep (l : Tbl (BitVec 512)) : Tbl (BitVec 512) :=
    let lines := (dedup ((l.filter fun e => e.1 / 2 != half / 2).map fun e => e.1 / 2)).take (Config.icacheLines - 1)
    l.filter fun e => e.1 / 2 == half / 2 || lines.contains (e.1 / 2)
  let read (s : State) : Except (List Req) (BitVec 512 × State) :=
    match (if laneHeld s s.cur (half / 2) then [.later (half / 2)] else []) ++ readNeeds s (half / 2) [half] with
    | [] =>
      let v := BitVec.ofNat 512 (leNat ((List.range 64).map fun i => visibleByte s s.cur (half * 64 + i)))
      .ok (v, if isHub s.cur then s else modCore s (coreOf s.cur) fun k => { k with icache := tset (keep k.icache) half v })
    | q => .error q
  match if isHub s.cur then none else tfind (getCore s (coreOf s.cur)).icache half with
  | none => read s
  | some v =>
    let (k, s) := takeFree s
    if bitOf k 0 then .ok (v, s) else read s

/-- The word at a location, as an instruction fetch reads it; needs of R422, R423 and R427 come first. -/
def fetchFrom (l : Loc) : Act Nat := fun s =>
  match l.cls with
  | .shared | .peer =>
    let line := lineOf l.key
    match uioData s (fetchAgent s.cur) line with
    | none => .error (.send (.uioRead line true) none)
    | some none => .error (.trap 1 (getCtx s s.cur).pc)
    | some (some v) =>
      .ok (leNat ((leBytes 128 v.toNat).drop (l.key % 128) |>.take 4), { s with uio := s.uio.filter fun u => u.agent != fetchAgent s.cur })
  | .mgmt => .ok (leNat (readMgBytes s (l.key / 2 ^ 52 - 1) (l.key % 2 ^ 52) 4), s)
  | _ => match fetchHalf s (l.key / 64) with
    | .ok (v, s') => .ok (v.toNat / 2 ^ (8 * (l.key % 64)) % 2 ^ 32, s')
    | .error q => .error (.hold q)

/-- R67, R74, R133: the word at the current agent's pc. -/
def fetchWord : Act Nat := do
  let c ← me
  let s ← get
  trapIf (c.pc.toNat % 4 != 0) 0 c.pc
  trapIf (!canonical c.pc) 1 c.pc
  trapIf (inWindow s s.cur c.pc.toNat) 1 c.pc
  let (pa, _) ← xlateA .fetch c.pc c.pc
  let l ← reach .fetch pa c.pc c.pc
  fetchFrom l

/-- R135: an instruction fetch that faults: cause 0, 1, 12 or 30, or a page request. -/
def execInstructionFetchFault (s : State) : Host.Outcome State Fault Refusal :=
  match fetchWord s with
  | .ok _ => .next s
  | .error e => match (getCtx s s.cur).scout, e with
    | some sc, .notPresent _ va _ =>
      .next (endScout s { sc with pages := (addPage sc.pages (pageOf va) false).getD sc.pages })
    | some sc, .trap _ _ => .next (endScout s sc)
    | _, e => .next (if waitsForOut e && !(getCtx s s.cur).out.isEmpty then s else settle .instructionFetchFault (pure ()) s e)

/-- R134: an illegal word: cause 2, tval and IW the word. -/
def execIllegalInstruction (w : BitVec 32) (s : State) : Host.Outcome State Fault Refusal :=
  match (getCtx s s.cur).scout with
  | some sc => .next (endScout s sc)
  | none => .next (if !(getCtx s s.cur).out.isEmpty then s else takeTrap (issued s) s.cur 2 (getCtx s s.cur).pc (w.setWidth 64) (w.setWidth 64) 0)

/-! CSR instructions -/

/-- R178: the CSR is implemented, the privilege suffices, and a read-only CSR is not written. -/
def csrLegal (s : State) (num : Nat) (writes : Bool) : Bool :=
  let a := s.cur
  let level := if (getCtx s a).sup then 1 else 0
  let need := num / 256 % 4
  (if need = 0 then (readUCsr s a num).isSome else need == 1 && hasSCsr a num) &&
  decide (need ≤ level) && !(num / 1024 == 3 && writes)

/-- R178: the value of a CSR. -/
def csrRead (s : State) (num : Nat) : Word :=
  if num / 256 % 4 = 0 then (readUCsr s s.cur num).getD 0 else readSCsr s s.cur num

/-- R178: a CSR is written; R432: `rqjob` waits for the earlier accesses at pkg scope. -/
def csrWrite (num : Nat) (v : Word) : Act Unit := do
  if num = 0x5E0 then release .pkg else pure ()
  modify fun s =>
    if num / 256 % 4 = 0 then modCtx s s.cur fun c => { c with ucsr := writeUCsr c.ucsr num v } else writeSCsr s s.cur num v

/-- R178: a CSR instruction; `src`: the operand. -/
def csrOp (i : Instr) (rd : Reg) (csr : BitVec 12) (writes : Bool) (src : Act Word) (f : Word → Word → Word) : Act Unit := do
  let s ← get
  trapIf (!csrLegal s csr.toNat writes) 2 (iword i)
  let v ← src
  let s ← get
  let old := csrRead s csr.toNat
  if writes then csrWrite csr.toNat (f old v) else pure ()
  finishRd rd old

/-- A 5-bit immediate as a word. -/
def immSrc (rd : Reg) (u : BitVec 5) : Act Word := do
  let _ ← operands [] rd
  pure (u.setWidth 64)

/-- R178: `csrrw`. -/
def execCsrrw (rd rs1 : Reg) (csr : BitVec 12) (s : State) : Host.Outcome State Fault Refusal :=
  perform (.csrrw rd rs1 csr) (csrOp (.csrrw rd rs1 csr) rd csr true (operand1 rs1 rd) fun _ v => v) s

/-- R178: `csrrs`. -/
def execCsrrs (rd rs1 : Reg) (csr : BitVec 12) (s : State) : Host.Outcome State Fault Refusal :=
  perform (.csrrs rd rs1 csr) (csrOp (.csrrs rd rs1 csr) rd csr (rs1 != 0) (operand1 rs1 rd) fun o v => o ||| v) s

/-- R178: `csrrc`. -/
def execCsrrc (rd rs1 : Reg) (csr : BitVec 12) (s : State) : Host.Outcome State Fault Refusal :=
  perform (.csrrc rd rs1 csr) (csrOp (.csrrc rd rs1 csr) rd csr (rs1 != 0) (operand1 rs1 rd) fun o v => o &&& ~~~v) s

/-- R178: `csrrwi`. -/
def execCsrrwi (rd : Reg) (uimm : BitVec 5) (csr : BitVec 12) (s : State) : Host.Outcome State Fault Refusal :=
  perform (.csrrwi rd uimm csr) (csrOp (.csrrwi rd uimm csr) rd csr true (immSrc rd uimm) fun _ v => v) s

/-- R178: `csrrsi`. -/
def execCsrrsi (rd : Reg) (uimm : BitVec 5) (csr : BitVec 12) (s : State) : Host.Outcome State Fault Refusal :=
  perform (.csrrsi rd uimm csr) (csrOp (.csrrsi rd uimm csr) rd csr (uimm != 0) (immSrc rd uimm) fun o v => o ||| v) s

/-- R178: `csrrci`. -/
def execCsrrci (rd : Reg) (uimm : BitVec 5) (csr : BitVec 12) (s : State) : Host.Outcome State Fault Refusal :=
  perform (.csrrci rd uimm csr) (csrOp (.csrrci rd uimm csr) rd csr (uimm != 0) (immSrc rd uimm) fun o v => o &&& ~~~v) s

/-! Environment -/

/-- R186: `ecall`. -/
def execEcall (s : State) : Host.Outcome State Fault Refusal :=
  perform .ecall (do
    let c ← me
    trap (if c.sup then 9 else 8) 0) s

/-- R186, R456: `ebreak`: a trap, or debug mode when the debug controller has armed it. -/
def execEbreak (s : State) : Host.Outcome State Fault Refusal :=
  perform .ebreak (do
    let s ← get
    let c ← me
    if !isHub s.cur && (getCore s (coreOf s.cur)).armbrk then stop .debug else trap 3 c.pc) s

/-- R373: `sret`; illegal in user mode. -/
def execSret (s : State) : Host.Outcome State Fault Refusal :=
  perform .sret (do
    supervisorOnly .sret
    let s ← get
    modMe (trapReturn (isHub s.cur))) s

/-- R186: `wfi` has no effect. -/
def execWfi (s : State) : Host.Outcome State Fault Refusal := perform .wfi advance s

end Sys2Proof.Machine
end

