-- ==== Sys2Proof/Machine/VectorMem.lean ====
section
/-! DEFINITION. Machine/VectorMem.lean: vector loads and stores (R266 to R269). -/

namespace Sys2Proof.Machine

/-- R267: the alignment of an element, then R67, R74, R75, R79 and R411. -/
def elemResolve (acc : Access) (ea : Word) (n : Nat) (sp : Bool) : Act (List Piece × List Nat) := do
  trapIf (ea.toNat % n != 0) (alignCause acc) ea
  resolve acc ea n sp

/-- R267: the active elements of a load, translated and checked in order. -/
def loadElems (n : Nat) (sp : Bool) : List (Nat × Nat × Word) → Act (List ReadElem)
  | [] => pure []
  | (r, e, ea) :: t => do
    let (ps, tags) ← elemResolve .read ea n sp
    let rest ← loadElems n sp t
    pure (⟨r, e, ea, ps, tags⟩ :: rest)

/-- R266, R268: a vector load; `s0`: the state before the instruction. -/
def vLoad (s0 : State) (i : Instr) (rs1 : Reg) (m : MReg) (e : Esz) (addr : Ctx → Nat → Nat → Nat → Word) : Act Unit := do
  paceGate i
  orderGate .rlx .sys
  let c ← me
  let els ← loadElems e.size (rs1 == 2) (elemAddrs c m e (addr c))
  issueLoad s0 i .rlx e.size false els

/-- R267: the elements of one row of a store, translated and checked: the places and bytes they write, and the source lines. -/
def writeElems (c : Ctx) (vs : VReg) (n : Nat) (sp : Bool) :
    List (Nat × Nat × Word) → Act (List (Nat × List ((Bool × Nat) × Byte) × List Nat))
  | [] => pure []
  | (r, e, ea) :: t => do
    let (ps, tags) ← elemResolve .write ea n sp
    let rest ← writeElems c vs n sp t
    pure ((r, (keysOf ps).zip (leBytes n (elemOf (vrow c vs r) n e)), tags) :: rest)

/-- R268: the entries of the granted rows of a store enter the store buffer together. -/
def pushRows (rows : List SbEntry) : Act Unit := do
  let c ← me
  let s ← get
  if c.sb.length + rows.length ≤ Config.storeBuffer then modMe fun c => { c with sb := c.sb ++ rows.map fun e => { e with seq := s.nextId } }
  else stop (.hold [])

/-- R266, R268: a vector store: one entry for each granted row that has an active element. -/
def vStore (i : Instr) (vs : VReg) (rs1 : Reg) (m : MReg) (e : Esz) (addr : Ctx → Nat → Nat → Nat → Word) : Act Unit := do
  paceGate i
  orderGate .rlx .sys
  let c ← me
  let els ← writeElems c vs e.size (rs1 == 2) (elemAddrs c m e (addr c))
  let eas := elemAddrs c m e (addr c)
  let rows := (List.range c.vec.rows).filterMap fun r =>
    let l := els.filter fun p => p.1 == r
    let ea := ((eas.find? fun p => p.1 == r).map (·.2.2)).getD 0
    if l.isEmpty then none
    else some { bytes := l.flatMap fun p => p.2.1, tags := dedup (l.flatMap fun p => p.2.2), ea, narrow := true : SbEntry }
  pushRows rows
  advance

/-- R266: `vld`. -/
def execVld (vd : VReg) (rs1 : Reg) (m : MReg) (e : Esz) (s : State) : Host.Outcome State Fault Refusal :=
  perform (.vld vd rs1 m e) (do
    let s ← get
    let a ← operand1 rs1 none
    vLoad s (.vld vd rs1 m e) rs1 m e fun _ => addrUnit a e.size) s

/-- R266: `vlds`. -/
def execVlds (vd : VReg) (rs1 rs2 : Reg) (m : MReg) (e : Esz) (s : State) : Host.Outcome State Fault Refusal :=
  perform (.vlds vd rs1 rs2 m e) (do
    let s ← get
    let (a, b) ← operand2 rs1 rs2 none
    vLoad s (.vlds vd rs1 rs2 m e) rs1 m e fun _ => addrStride a b e.size) s

/-- R266: `vldx`. -/
def execVldx (vd : VReg) (rs1 : Reg) (vi : VReg) (m : MReg) (e : Esz) (s : State) : Host.Outcome State Fault Refusal :=
  perform (.vldx vd rs1 vi m e) (do
    let s ← get
    let a ← operand1 rs1 none
    vLoad s (.vldx vd rs1 vi m e) rs1 m e fun c => addrIndex c vi a e.size) s

/-- R266: `vst`. -/
def execVst (vs : VReg) (rs1 : Reg) (m : MReg) (e : Esz) (s : State) : Host.Outcome State Fault Refusal :=
  perform (.vst vs rs1 m e) (do
    let a ← operand1 rs1 none
    vStore (.vst vs rs1 m e) vs rs1 m e fun _ => addrUnit a e.size) s

/-- R266: `vsts`. -/
def execVsts (vs : VReg) (rs1 rs2 : Reg) (m : MReg) (e : Esz) (s : State) : Host.Outcome State Fault Refusal :=
  perform (.vsts vs rs1 rs2 m e) (do
    let (a, b) ← operand2 rs1 rs2 none
    vStore (.vsts vs rs1 rs2 m e) vs rs1 m e fun _ => addrStride a b e.size) s

/-- R266: `vstx`. -/
def execVstx (vs : VReg) (rs1 : Reg) (vi : VReg) (m : MReg) (e : Esz) (s : State) : Host.Outcome State Fault Refusal :=
  perform (.vstx vs rs1 vi m e) (do
    let a ← operand1 rs1 none
    vStore (.vstx vs rs1 vi m e) vs rs1 m e fun c => addrIndex c vi a e.size) s

end Sys2Proof.Machine
end

