-- ==== Sys2Proof/Machine/Dispatch.lean ====
section
/-! DEFINITION. Machine/Dispatch.lean: the meaning of every instruction and event. -/

namespace Sys2Proof.Machine

/-- What an instruction, command or event of the opcode table does. -/
def exec (i : Instr) (s : State) : Host.Outcome State Fault Refusal :=
  match i with
  | .lb rd rs1 imm => Sys2Proof.Machine.execLb rd rs1 imm s
  | .lh rd rs1 imm => Sys2Proof.Machine.execLh rd rs1 imm s
  | .lw rd rs1 imm => Sys2Proof.Machine.execLw rd rs1 imm s
  | .ld rd rs1 imm => Sys2Proof.Machine.execLd rd rs1 imm s
  | .lbu rd rs1 imm => Sys2Proof.Machine.execLbu rd rs1 imm s
  | .lhu rd rs1 imm => Sys2Proof.Machine.execLhu rd rs1 imm s
  | .lwu rd rs1 imm => Sys2Proof.Machine.execLwu rd rs1 imm s
  | .sb rs2 rs1 imm => Sys2Proof.Machine.execSb rs2 rs1 imm s
  | .sh rs2 rs1 imm => Sys2Proof.Machine.execSh rs2 rs1 imm s
  | .sw rs2 rs1 imm => Sys2Proof.Machine.execSw rs2 rs1 imm s
  | .sd rs2 rs1 imm => Sys2Proof.Machine.execSd rs2 rs1 imm s
  | .beq rs1 rs2 off => Sys2Proof.Machine.execBeq rs1 rs2 off s
  | .bne rs1 rs2 off => Sys2Proof.Machine.execBne rs1 rs2 off s
  | .blt rs1 rs2 off => Sys2Proof.Machine.execBlt rs1 rs2 off s
  | .bge rs1 rs2 off => Sys2Proof.Machine.execBge rs1 rs2 off s
  | .bltu rs1 rs2 off => Sys2Proof.Machine.execBltu rs1 rs2 off s
  | .bgeu rs1 rs2 off => Sys2Proof.Machine.execBgeu rs1 rs2 off s
  | .jal rd off => Sys2Proof.Machine.execJal rd off s
  | .jalr rd rs1 imm => Sys2Proof.Machine.execJalr rd rs1 imm s
  | .lui rd imm => Sys2Proof.Machine.execLui rd imm s
  | .auipc rd imm => Sys2Proof.Machine.execAuipc rd imm s
  | .addi rd rs1 imm => Sys2Proof.Machine.execAddi rd rs1 imm s
  | .slti rd rs1 imm => Sys2Proof.Machine.execSlti rd rs1 imm s
  | .sltiu rd rs1 imm => Sys2Proof.Machine.execSltiu rd rs1 imm s
  | .xori rd rs1 imm => Sys2Proof.Machine.execXori rd rs1 imm s
  | .ori rd rs1 imm => Sys2Proof.Machine.execOri rd rs1 imm s
  | .andi rd rs1 imm => Sys2Proof.Machine.execAndi rd rs1 imm s
  | .slli rd rs1 sh => Sys2Proof.Machine.execSlli rd rs1 sh s
  | .srli rd rs1 sh => Sys2Proof.Machine.execSrli rd rs1 sh s
  | .srai rd rs1 sh => Sys2Proof.Machine.execSrai rd rs1 sh s
  | .addiw rd rs1 imm => Sys2Proof.Machine.execAddiw rd rs1 imm s
  | .slliw rd rs1 sh => Sys2Proof.Machine.execSlliw rd rs1 sh s
  | .srliw rd rs1 sh => Sys2Proof.Machine.execSrliw rd rs1 sh s
  | .sraiw rd rs1 sh => Sys2Proof.Machine.execSraiw rd rs1 sh s
  | .add rd rs1 rs2 => Sys2Proof.Machine.execAdd rd rs1 rs2 s
  | .sub rd rs1 rs2 => Sys2Proof.Machine.execSub rd rs1 rs2 s
  | .sll rd rs1 rs2 => Sys2Proof.Machine.execSll rd rs1 rs2 s
  | .slt rd rs1 rs2 => Sys2Proof.Machine.execSlt rd rs1 rs2 s
  | .sltu rd rs1 rs2 => Sys2Proof.Machine.execSltu rd rs1 rs2 s
  | .xor rd rs1 rs2 => Sys2Proof.Machine.execXor rd rs1 rs2 s
  | .srl rd rs1 rs2 => Sys2Proof.Machine.execSrl rd rs1 rs2 s
  | .sra rd rs1 rs2 => Sys2Proof.Machine.execSra rd rs1 rs2 s
  | .or rd rs1 rs2 => Sys2Proof.Machine.execOr rd rs1 rs2 s
  | .and rd rs1 rs2 => Sys2Proof.Machine.execAnd rd rs1 rs2 s
  | .mul rd rs1 rs2 => Sys2Proof.Machine.execMul rd rs1 rs2 s
  | .mulh rd rs1 rs2 => Sys2Proof.Machine.execMulh rd rs1 rs2 s
  | .mulhsu rd rs1 rs2 => Sys2Proof.Machine.execMulhsu rd rs1 rs2 s
  | .mulhu rd rs1 rs2 => Sys2Proof.Machine.execMulhu rd rs1 rs2 s
  | .div rd rs1 rs2 => Sys2Proof.Machine.execDiv rd rs1 rs2 s
  | .divu rd rs1 rs2 => Sys2Proof.Machine.execDivu rd rs1 rs2 s
  | .rem rd rs1 rs2 => Sys2Proof.Machine.execRem rd rs1 rs2 s
  | .remu rd rs1 rs2 => Sys2Proof.Machine.execRemu rd rs1 rs2 s
  | .addw rd rs1 rs2 => Sys2Proof.Machine.execAddw rd rs1 rs2 s
  | .subw rd rs1 rs2 => Sys2Proof.Machine.execSubw rd rs1 rs2 s
  | .sllw rd rs1 rs2 => Sys2Proof.Machine.execSllw rd rs1 rs2 s
  | .srlw rd rs1 rs2 => Sys2Proof.Machine.execSrlw rd rs1 rs2 s
  | .sraw rd rs1 rs2 => Sys2Proof.Machine.execSraw rd rs1 rs2 s
  | .mulw rd rs1 rs2 => Sys2Proof.Machine.execMulw rd rs1 rs2 s
  | .divw rd rs1 rs2 => Sys2Proof.Machine.execDivw rd rs1 rs2 s
  | .divuw rd rs1 rs2 => Sys2Proof.Machine.execDivuw rd rs1 rs2 s
  | .remw rd rs1 rs2 => Sys2Proof.Machine.execRemw rd rs1 rs2 s
  | .remuw rd rs1 rs2 => Sys2Proof.Machine.execRemuw rd rs1 rs2 s
  | .lr rd rs1 aq rl d => Sys2Proof.Machine.execLr rd rs1 aq rl d s
  | .sc rd rs2 rs1 aq rl d => Sys2Proof.Machine.execSc rd rs2 rs1 aq rl d s
  | .amoswap rd rs2 rs1 aq rl d => Sys2Proof.Machine.execAmoswap rd rs2 rs1 aq rl d s
  | .amoadd rd rs2 rs1 aq rl d => Sys2Proof.Machine.execAmoadd rd rs2 rs1 aq rl d s
  | .amoxor rd rs2 rs1 aq rl d => Sys2Proof.Machine.execAmoxor rd rs2 rs1 aq rl d s
  | .amoand rd rs2 rs1 aq rl d => Sys2Proof.Machine.execAmoand rd rs2 rs1 aq rl d s
  | .amoor rd rs2 rs1 aq rl d => Sys2Proof.Machine.execAmoor rd rs2 rs1 aq rl d s
  | .amomin rd rs2 rs1 aq rl d => Sys2Proof.Machine.execAmomin rd rs2 rs1 aq rl d s
  | .amomax rd rs2 rs1 aq rl d => Sys2Proof.Machine.execAmomax rd rs2 rs1 aq rl d s
  | .amominu rd rs2 rs1 aq rl d => Sys2Proof.Machine.execAmominu rd rs2 rs1 aq rl d s
  | .amomaxu rd rs2 rs1 aq rl d => Sys2Proof.Machine.execAmomaxu rd rs2 rs1 aq rl d s
  | .fmaddS rd rs1 rs2 rs3 rm => Sys2Proof.Machine.execFmaddS rd rs1 rs2 rs3 rm s
  | .fmsubS rd rs1 rs2 rs3 rm => Sys2Proof.Machine.execFmsubS rd rs1 rs2 rs3 rm s
  | .fnmsubS rd rs1 rs2 rs3 rm => Sys2Proof.Machine.execFnmsubS rd rs1 rs2 rs3 rm s
  | .fnmaddS rd rs1 rs2 rs3 rm => Sys2Proof.Machine.execFnmaddS rd rs1 rs2 rs3 rm s
  | .faddS rd rs1 rs2 rm => Sys2Proof.Machine.execFaddS rd rs1 rs2 rm s
  | .fsubS rd rs1 rs2 rm => Sys2Proof.Machine.execFsubS rd rs1 rs2 rm s
  | .fmulS rd rs1 rs2 rm => Sys2Proof.Machine.execFmulS rd rs1 rs2 rm s
  | .fdivS rd rs1 rs2 rm => Sys2Proof.Machine.execFdivS rd rs1 rs2 rm s
  | .fsqrtS rd rs1 rm => Sys2Proof.Machine.execFsqrtS rd rs1 rm s
  | .fsgnjS rd rs1 rs2 => Sys2Proof.Machine.execFsgnjS rd rs1 rs2 s
  | .fsgnjnS rd rs1 rs2 => Sys2Proof.Machine.execFsgnjnS rd rs1 rs2 s
  | .fsgnjxS rd rs1 rs2 => Sys2Proof.Machine.execFsgnjxS rd rs1 rs2 s
  | .fminS rd rs1 rs2 => Sys2Proof.Machine.execFminS rd rs1 rs2 s
  | .fmaxS rd rs1 rs2 => Sys2Proof.Machine.execFmaxS rd rs1 rs2 s
  | .feqS rd rs1 rs2 => Sys2Proof.Machine.execFeqS rd rs1 rs2 s
  | .fltS rd rs1 rs2 => Sys2Proof.Machine.execFltS rd rs1 rs2 s
  | .fleS rd rs1 rs2 => Sys2Proof.Machine.execFleS rd rs1 rs2 s
  | .fcvtWS rd rs1 rm => Sys2Proof.Machine.execFcvtWS rd rs1 rm s
  | .fcvtWuS rd rs1 rm => Sys2Proof.Machine.execFcvtWuS rd rs1 rm s
  | .fcvtLS rd rs1 rm => Sys2Proof.Machine.execFcvtLS rd rs1 rm s
  | .fcvtLuS rd rs1 rm => Sys2Proof.Machine.execFcvtLuS rd rs1 rm s
  | .fcvtSW rd rs1 rm => Sys2Proof.Machine.execFcvtSW rd rs1 rm s
  | .fcvtSWu rd rs1 rm => Sys2Proof.Machine.execFcvtSWu rd rs1 rm s
  | .fcvtSL rd rs1 rm => Sys2Proof.Machine.execFcvtSL rd rs1 rm s
  | .fcvtSLu rd rs1 rm => Sys2Proof.Machine.execFcvtSLu rd rs1 rm s
  | .fclassS rd rs1 => Sys2Proof.Machine.execFclassS rd rs1 s
  | .csrrw rd rs1 csr => Sys2Proof.Machine.execCsrrw rd rs1 csr s
  | .csrrs rd rs1 csr => Sys2Proof.Machine.execCsrrs rd rs1 csr s
  | .csrrc rd rs1 csr => Sys2Proof.Machine.execCsrrc rd rs1 csr s
  | .csrrwi rd uimm csr => Sys2Proof.Machine.execCsrrwi rd uimm csr s
  | .csrrsi rd uimm csr => Sys2Proof.Machine.execCsrrsi rd uimm csr s
  | .csrrci rd uimm csr => Sys2Proof.Machine.execCsrrci rd uimm csr s
  | .fence rd rs1 fm pred succ => Sys2Proof.Machine.execFence rd rs1 fm pred succ s
  | .fenceI rd rs1 imm => Sys2Proof.Machine.execFenceI rd rs1 imm s
  | .ecall => Sys2Proof.Machine.execEcall s
  | .ebreak => Sys2Proof.Machine.execEbreak s
  | .sret => Sys2Proof.Machine.execSret s
  | .wfi => Sys2Proof.Machine.execWfi s
  | .qTok k lvl => Sys2Proof.Machine.execQTok k lvl s
  | .qCnt rd k => Sys2Proof.Machine.execQCnt rd k s
  | .qPeek rd k => Sys2Proof.Machine.execQPeek rd k s
  | .qTag rd k => Sys2Proof.Machine.execQTag rd k s
  | .qClose k => Sys2Proof.Machine.execQClose k s
  | .qBind rd rs1 rs2 => Sys2Proof.Machine.execQBind rd rs1 rs2 s
  | .qUnbind rd rs1 => Sys2Proof.Machine.execQUnbind rd rs1 s
  | .qBt k lvl off => Sys2Proof.Machine.execQBt k lvl off s
  | .ctxStart rd rs1 => Sys2Proof.Machine.execCtxStart rd rs1 s
  | .ctxReap rs1 rs2 => Sys2Proof.Machine.execCtxReap rs1 rs2 s
  | .ctxResume rs1 => Sys2Proof.Machine.execCtxResume rs1 s
  | .ctxPark => Sys2Proof.Machine.execCtxPark s
  | .ctxExit => Sys2Proof.Machine.execCtxExit s
  | .ctxSelf rd => Sys2Proof.Machine.execCtxSelf rd s
  | .evSet rs1 rs2 => Sys2Proof.Machine.execEvSet rs1 rs2 s
  | .evClr rs1 rs2 => Sys2Proof.Machine.execEvClr rs1 rs2 s
  | .evWait rs1 => Sys2Proof.Machine.execEvWait rs1 s
  | .evWaitm rs1 rs2 => Sys2Proof.Machine.execEvWaitm rs1 rs2 s
  | .evRd rd rs1 rs2 => Sys2Proof.Machine.execEvRd rd rs1 rs2 s
  | .cnInit rs1 rs2 => Sys2Proof.Machine.execCnInit rs1 rs2 s
  | .cnArrive rs1 rs2 => Sys2Proof.Machine.execCnArrive rs1 rs2 s
  | .cnDrop rs1 rs2 => Sys2Proof.Machine.execCnDrop rs1 rs2 s
  | .cnJoin rd rs1 => Sys2Proof.Machine.execCnJoin rd rs1 s
  | .cnWait rd rs1 rs2 => Sys2Proof.Machine.execCnWait rd rs1 rs2 s
  | .cnTry rd rs1 rs2 => Sys2Proof.Machine.execCnTry rd rs1 rs2 s
  | .cnStat rd rs1 => Sys2Proof.Machine.execCnStat rd rs1 s
  | .lnPost rs1 => Sys2Proof.Machine.execLnPost rs1 s
  | .lnHash rs1 rs2 => Sys2Proof.Machine.execLnHash rs1 rs2 s
  | .lnRep rd rs1 => Sys2Proof.Machine.execLnRep rd rs1 s
  | .lnSnap rs1 rs2 => Sys2Proof.Machine.execLnSnap rs1 rs2 s
  | .lnReplay rs1 rs2 => Sys2Proof.Machine.execLnReplay rs1 rs2 s
  | .lnQuiet rs1 => Sys2Proof.Machine.execLnQuiet rs1 s
  | .tidSet rs1 rs2 => Sys2Proof.Machine.execTidSet rs1 rs2 s
  | .tidDrop rs1 => Sys2Proof.Machine.execTidDrop rs1 s
  | .tidGet rs1 rs2 => Sys2Proof.Machine.execTidGet rs1 rs2 s
  | .pgOpen rd rs1 rs2 => Sys2Proof.Machine.execPgOpen rd rs1 rs2 s
  | .pgClose rd rs1 => Sys2Proof.Machine.execPgClose rd rs1 s
  | .pgStat rd rs1 => Sys2Proof.Machine.execPgStat rd rs1 s
  | .pxRun rd rs1 rs2 rs3 slot => Sys2Proof.Machine.execPxRun rd rs1 rs2 rs3 slot s
  | .pxLoad slot rs1 => Sys2Proof.Machine.execPxLoad slot rs1 s
  | .mld rd rs1 off sz ord sc => Sys2Proof.Machine.execMld rd rs1 off sz ord sc s
  | .mst rs2 rs1 off sz ord sc => Sys2Proof.Machine.execMst rs2 rs1 off sz ord sc s
  | .mfence sc => Sys2Proof.Machine.execMfence sc s
  | .clFlush rs1 => Sys2Proof.Machine.execClFlush rs1 s
  | .clClean rs1 => Sys2Proof.Machine.execClClean rs1 s
  | .clZero rs1 => Sys2Proof.Machine.execClZero rs1 s
  | .clPref rs1 => Sys2Proof.Machine.execClPref rs1 s
  | .clInval rs1 => Sys2Proof.Machine.execClInval rs1 s
  | .tcIssue rs1 => Sys2Proof.Machine.execTcIssue rs1 s
  | .tcIssuev vs => Sys2Proof.Machine.execTcIssuev vs s
  | .xamAdd rd rs2 rs1 ord d sc => Sys2Proof.Machine.execXamAdd rd rs2 rs1 ord d sc s
  | .xamAnd rd rs2 rs1 ord d sc => Sys2Proof.Machine.execXamAnd rd rs2 rs1 ord d sc s
  | .xamOr rd rs2 rs1 ord d sc => Sys2Proof.Machine.execXamOr rd rs2 rs1 ord d sc s
  | .xamXor rd rs2 rs1 ord d sc => Sys2Proof.Machine.execXamXor rd rs2 rs1 ord d sc s
  | .xamMin rd rs2 rs1 ord d sc => Sys2Proof.Machine.execXamMin rd rs2 rs1 ord d sc s
  | .xamMax rd rs2 rs1 ord d sc => Sys2Proof.Machine.execXamMax rd rs2 rs1 ord d sc s
  | .xamMinu rd rs2 rs1 ord d sc => Sys2Proof.Machine.execXamMinu rd rs2 rs1 ord d sc s
  | .xamMaxu rd rs2 rs1 ord d sc => Sys2Proof.Machine.execXamMaxu rd rs2 rs1 ord d sc s
  | .xamSwap rd rs2 rs1 ord d sc => Sys2Proof.Machine.execXamSwap rd rs2 rs1 ord d sc s
  | .xamCas rd rs2 rs1 ord d sc => Sys2Proof.Machine.execXamCas rd rs2 rs1 ord d sc s
  | .xamFadd rd rs2 rs1 ord sc => Sys2Proof.Machine.execXamFadd rd rs2 rs1 ord sc s
  | .xamBfadd2 rd rs2 rs1 ord sc => Sys2Proof.Machine.execXamBfadd2 rd rs2 rs1 ord sc s
  | .vadd vd vs1 vs2 m ty pace nf => Sys2Proof.Machine.execVadd vd vs1 vs2 m ty pace nf s
  | .vsub vd vs1 vs2 m ty pace nf => Sys2Proof.Machine.execVsub vd vs1 vs2 m ty pace nf s
  | .vmul vd vs1 vs2 m ty pace nf => Sys2Proof.Machine.execVmul vd vs1 vs2 m ty pace nf s
  | .vfma vd vs1 vs2 m ty pace nf => Sys2Proof.Machine.execVfma vd vs1 vs2 m ty pace nf s
  | .vfms vd vs1 vs2 m ty pace nf => Sys2Proof.Machine.execVfms vd vs1 vs2 m ty pace nf s
  | .vfnma vd vs1 vs2 m ty pace nf => Sys2Proof.Machine.execVfnma vd vs1 vs2 m ty pace nf s
  | .vmin vd vs1 vs2 m ty pace nf => Sys2Proof.Machine.execVmin vd vs1 vs2 m ty pace nf s
  | .vmax vd vs1 vs2 m ty pace nf => Sys2Proof.Machine.execVmax vd vs1 vs2 m ty pace nf s
  | .vand vd vs1 vs2 m ty pace nf => Sys2Proof.Machine.execVand vd vs1 vs2 m ty pace nf s
  | .vor vd vs1 vs2 m ty pace nf => Sys2Proof.Machine.execVor vd vs1 vs2 m ty pace nf s
  | .vxor vd vs1 vs2 m ty pace nf => Sys2Proof.Machine.execVxor vd vs1 vs2 m ty pace nf s
  | .vshl vd vs1 vs2 m ty pace nf => Sys2Proof.Machine.execVshl vd vs1 vs2 m ty pace nf s
  | .vshr vd vs1 vs2 m ty pace nf => Sys2Proof.Machine.execVshr vd vs1 vs2 m ty pace nf s
  | .vsra vd vs1 vs2 m ty pace nf => Sys2Proof.Machine.execVsra vd vs1 vs2 m ty pace nf s
  | .vdot2 vd vs1 vs2 m ty pace nf => Sys2Proof.Machine.execVdot2 vd vs1 vs2 m ty pace nf s
  | .vabs vd vs1 m ty pace nf => Sys2Proof.Machine.execVabs vd vs1 m ty pace nf s
  | .vneg vd vs1 m ty pace nf => Sys2Proof.Machine.execVneg vd vs1 m ty pace nf s
  | .vrcp vd vs1 m ty pace nf => Sys2Proof.Machine.execVrcp vd vs1 m ty pace nf s
  | .vrsq vd vs1 m ty pace nf => Sys2Proof.Machine.execVrsq vd vs1 m ty pace nf s
  | .vexp2 vd vs1 m ty pace nf => Sys2Proof.Machine.execVexp2 vd vs1 m ty pace nf s
  | .vlog2 vd vs1 m ty pace nf => Sys2Proof.Machine.execVlog2 vd vs1 m ty pace nf s
  | .vld vd rs1 m e => Sys2Proof.Machine.execVld vd rs1 m e s
  | .vlds vd rs1 rs2 m e => Sys2Proof.Machine.execVlds vd rs1 rs2 m e s
  | .vldx vd rs1 vi m e => Sys2Proof.Machine.execVldx vd rs1 vi m e s
  | .vst vs rs1 m e => Sys2Proof.Machine.execVst vs rs1 m e s
  | .vsts vs rs1 rs2 m e => Sys2Proof.Machine.execVsts vs rs1 rs2 m e s
  | .vstx vs rs1 vi m e => Sys2Proof.Machine.execVstx vs rs1 vi m e s
  | .vcmpEq md vs1 vs2 m ty pace nf => Sys2Proof.Machine.execVcmpEq md vs1 vs2 m ty pace nf s
  | .vcmpLt md vs1 vs2 m ty pace nf => Sys2Proof.Machine.execVcmpLt md vs1 vs2 m ty pace nf s
  | .vcmpNe md vs1 vs2 m ty pace nf => Sys2Proof.Machine.execVcmpNe md vs1 vs2 m ty pace nf s
  | .vcmpLe md vs1 vs2 m ty pace nf => Sys2Proof.Machine.execVcmpLe md vs1 vs2 m ty pace nf s
  | .vsel vd vs1 vs2 m ty pace nf => Sys2Proof.Machine.execVsel vd vs1 vs2 m ty pace nf s
  | .vcvt vd vs1 m ty sty sat pace nf => Sys2Proof.Machine.execVcvt vd vs1 m ty sty sat pace nf s
  | .vbcast vd rs1 ty pace => Sys2Proof.Machine.execVbcast vd rs1 ty pace s
  | .vmvxToX rd vs rs2 ty pace => Sys2Proof.Machine.execVmvxToX rd vs rs2 ty pace s
  | .vmvxToV vd rs1 rs2 ty pace => Sys2Proof.Machine.execVmvxToV vd rs1 rs2 ty pace s
  | .vshape rd rs1 ty pace => Sys2Proof.Machine.execVshape rd rs1 ty pace s
  | .vmvv vd vs1 m ty pace nf => Sys2Proof.Machine.execVmvv vd vs1 m ty pace nf s
  | .vperm vd vs1 vs2 m ty pace nf => Sys2Proof.Machine.execVperm vd vs1 vs2 m ty pace nf s
  | .vredSum vd vs1 m ty pace nf => Sys2Proof.Machine.execVredSum vd vs1 m ty pace nf s
  | .vredMax vd vs1 m ty pace nf => Sys2Proof.Machine.execVredMax vd vs1 m ty pace nf s
  | .vredMin vd vs1 m ty pace nf => Sys2Proof.Machine.execVredMin vd vs1 m ty pace nf s
  | .mand md ma mb => Sys2Proof.Machine.execMand md ma mb s
  | .mor md ma mb => Sys2Proof.Machine.execMor md ma mb s
  | .mxor md ma mb => Sys2Proof.Machine.execMxor md ma mb s
  | .mnot md ma => Sys2Proof.Machine.execMnot md ma s
  | .mpop rd ma => Sys2Proof.Machine.execMpop rd ma s
  | .mfirst rd ma => Sys2Proof.Machine.execMfirst rd ma s
  | .mset md rs1 => Sys2Proof.Machine.execMset md rs1 s
  | .vbqAddrq vd vs1 vs2 ty pace nf => Sys2Proof.Machine.execVbqAddrq vd vs1 vs2 ty pace nf s
  | .cxRd rd rs1 => Sys2Proof.Machine.execCxRd rd rs1 s
  | .cxWr rs1 rs2 => Sys2Proof.Machine.execCxWr rs1 rs2 s
  | .ownSet rs1 rs2 => Sys2Proof.Machine.execOwnSet rs1 rs2 s
  | .ownGet rd rs1 => Sys2Proof.Machine.execOwnGet rd rs1 s
  | .pmReq rd rs1 rs2 => Sys2Proof.Machine.execPmReq rd rs1 rs2 s
  | .pmLoad rd rs1 => Sys2Proof.Machine.execPmLoad rd rs1 s
  | .escRes rs1 => Sys2Proof.Machine.execEscRes rs1 s
  | .hint rd rs1 h => Sys2Proof.Machine.execHint rd rs1 h s
  | .mma agent entry => Sys2Proof.Machine.execMma agent entry s
  | .mmaSp agent entry => Sys2Proof.Machine.execMmaSp agent entry s
  | .copy cluster => Sys2Proof.Machine.execCopy cluster s
  | .conv cluster => Sys2Proof.Machine.execConv cluster s
  | .fill cluster => Sys2Proof.Machine.execFill cluster s
  | .glaze agent entry => Sys2Proof.Machine.execGlaze agent entry s
  | .contextRejoin agent => Sys2Proof.Machine.execContextRejoin agent s
  | .coilPopRequest agent k => Sys2Proof.Machine.execCoilPopRequest agent k s
  | .coilPushArrival id => Sys2Proof.Machine.execCoilPushArrival id s
  | .tokenCopyDelivery queue => Sys2Proof.Machine.execTokenCopyDelivery queue s
  | .balancerReplicaPost cluster inst => Sys2Proof.Machine.execBalancerReplicaPost cluster inst s
  | .balancerRequest id => Sys2Proof.Machine.execBalancerRequest id s
  | .launchRecordAccept id => Sys2Proof.Machine.execLaunchRecordAccept id s
  | .launchDispatch cluster => Sys2Proof.Machine.execLaunchDispatch cluster s
  | .replayBufferPost cluster => Sys2Proof.Machine.execReplayBufferPost cluster s
  | .windowSend agent => Sys2Proof.Machine.execWindowSend agent s
  | .commandComplete cluster id => Sys2Proof.Machine.execCommandComplete cluster id s
  | .coneArrival id => Sys2Proof.Machine.execConeArrival id s
  | .coneJoin id => Sys2Proof.Machine.execConeJoin id s
  | .coneInit id => Sys2Proof.Machine.execConeInit id s
  | .coneTimeout cluster cone => Sys2Proof.Machine.execConeTimeout cluster cone s
  | .draw part group => Sys2Proof.Machine.execDraw part group s
  | .storeBufferLeave agent => Sys2Proof.Machine.execStoreBufferLeave agent s
  | .readFill agent line => Sys2Proof.Machine.execReadFill agent line s
  | .homeWritePerformed id => Sys2Proof.Machine.execHomeWritePerformed id s
  | .homeAtomic id => Sys2Proof.Machine.execHomeAtomic id s
  | .remoteInvalidation id die => Sys2Proof.Machine.execRemoteInvalidation id die s
  | .invalidationAck id die => Sys2Proof.Machine.execInvalidationAck id die s
  | .reservationExpiry agent => Sys2Proof.Machine.execReservationExpiry agent s
  | .priorityReservationEnd block => Sys2Proof.Machine.execPriorityReservationEnd block s
  | .qualificationLapse agent => Sys2Proof.Machine.execQualificationLapse agent s
  | .offlineReply id => Sys2Proof.Machine.execOfflineReply id s
  | .operationPacketCompletion id ok old => Sys2Proof.Machine.execOperationPacketCompletion id ok old s
  | .settingFire cluster slot => Sys2Proof.Machine.execSettingFire cluster slot s
  | .bufferReentryAccept cluster => Sys2Proof.Machine.execBufferReentryAccept cluster s
  | .settingDispatch cluster kiln => Sys2Proof.Machine.execSettingDispatch cluster kiln s
  | .firingStart cluster kiln => Sys2Proof.Machine.execFiringStart cluster kiln s
  | .firingEnd cluster kiln => Sys2Proof.Machine.execFiringEnd cluster kiln s
  | .commandPageResponse id code => Sys2Proof.Machine.execCommandPageResponse id code s
  | .glazeLoadPerformed cluster table => Sys2Proof.Machine.execGlazeLoadPerformed cluster table s
  | .pugLookup cluster pug => Sys2Proof.Machine.execPugLookup cluster pug s
  | .pugRowFetch cluster pug row => Sys2Proof.Machine.execPugRowFetch cluster pug row s
  | .pugBagClose cluster pug => Sys2Proof.Machine.execPugBagClose cluster pug s
  | .pugPageResponse id code => Sys2Proof.Machine.execPugPageResponse id code s
  | .scoutStop agent => Sys2Proof.Machine.execScoutStop agent s
  | .pageRequestGroup id => Sys2Proof.Machine.execPageRequestGroup id s
  | .pageResponse id code => Sys2Proof.Machine.execPageResponse id code s
  | .hostSnoop half own => Sys2Proof.Machine.execHostSnoop half own s
  | .sweepAck id cluster => Sys2Proof.Machine.execSweepAck id cluster s
  | .sweepComplete id => Sys2Proof.Machine.execSweepComplete id s
  | .cxlCacheResponse half data => Sys2Proof.Machine.execCxlCacheResponse half data s
  | .bisnpResponse half dirty => Sys2Proof.Machine.execBisnpResponse half dirty s
  | .hostCxlMemRequest part addr op => Sys2Proof.Machine.execHostCxlMemRequest part addr op s
  | .trapRecordPush core => Sys2Proof.Machine.execTrapRecordPush core s
  | .interruptRecordPush core => Sys2Proof.Machine.execInterruptRecordPush core s
  | .hubInterruptTaken hub => Sys2Proof.Machine.execHubInterruptTaken hub s
  | .stimecmpMatch agent => Sys2Proof.Machine.execStimecmpMatch agent s
  | .doorbell agent word => Sys2Proof.Machine.execDoorbell agent word s
  | .preemptSave id core => Sys2Proof.Machine.execPreemptSave id core s
  | .preemptComplete id => Sys2Proof.Machine.execPreemptComplete id s
  | .rqjobWrite hub v => Sys2Proof.Machine.execRqjobWrite hub v s
  | .rqenWrite hub v => Sys2Proof.Machine.execRqenWrite hub v s
  | .reduceTokenDelivery hub => Sys2Proof.Machine.execReduceTokenDelivery hub s
  | .ptcfgWrite v => Sys2Proof.Machine.execPtcfgWrite v s
  | .coldReset => Sys2Proof.Machine.execColdReset s
  | .runtimeGo part => Sys2Proof.Machine.execRuntimeGo part s
  | .hlpost part v => Sys2Proof.Machine.execHlpost part v s
  | .coreReset core => Sys2Proof.Machine.execCoreReset core s
  | .dieWarmReset die => Sys2Proof.Machine.execDieWarmReset die s
  | .dieOffline die => Sys2Proof.Machine.execDieOffline die s
  | .dieRetrained die => Sys2Proof.Machine.execDieRetrained die s
  | .dieReady die => Sys2Proof.Machine.execDieReady die s
  | .eccCorrected die => Sys2Proof.Machine.execEccCorrected die s
  | .eccUncorrectable site => Sys2Proof.Machine.execEccUncorrectable site s
  | .halt part => Sys2Proof.Machine.execHalt part s
  | .resume part => Sys2Proof.Machine.execResume part s
  | .step part => Sys2Proof.Machine.execStep part s
  | .dbgdataWrite part v => Sys2Proof.Machine.execDbgdataWrite part v s
  | .powerEstimate die exceeds => Sys2Proof.Machine.execPowerEstimate die exceeds s
  | .heatFluxLimit die => Sys2Proof.Machine.execHeatFluxLimit die s
  | .hostLinkDown part => Sys2Proof.Machine.execHostLinkDown part s
  | .uioCompletionTimeout id => Sys2Proof.Machine.execUioCompletionTimeout id s
  | .sspwinWrite agent v => Sys2Proof.Machine.execSspwinWrite agent v s
  | .slscfgWrite agent v => Sys2Proof.Machine.execSlscfgWrite agent v s
  | .drawdlyWrite agent v => Sys2Proof.Machine.execDrawdlyWrite agent v s
  | .scctlWrite agent v => Sys2Proof.Machine.execScctlWrite agent v s
  | .holdWrite agent p v => Sys2Proof.Machine.execHoldWrite agent p v s
  | .walkFormatWrite agent r v => Sys2Proof.Machine.execWalkFormatWrite agent r v s
  | .stimecmpWrite agent v => Sys2Proof.Machine.execStimecmpWrite agent v s
  | .ssipWrite agent v => Sys2Proof.Machine.execSsipWrite agent v s
  | .vseedWrite agent v => Sys2Proof.Machine.execVseedWrite agent v s
  | .registerWrite target v => Sys2Proof.Machine.execRegisterWrite target v s
  | .illegalInstruction w => Sys2Proof.Machine.execIllegalInstruction w s
  | .instructionFetchFault => Sys2Proof.Machine.execInstructionFetchFault s
  | .uioCompletion id ok data => Sys2Proof.Machine.execUioCompletion id ok data s
  | .pageRequestReenable part => Sys2Proof.Machine.execPageRequestReenable part s

end Sys2Proof.Machine
end

