-- ==== Sys2Proof/Machine/Turn.lean ====
section
/-! DEFINITION. Machine/Turn.lean: time (R182, R458), which agent may issue (R20, R21, R25, R450, R451), and what one turn does: an agent
fetches, decodes and carries out one instruction (R9, R133 to R135), or one event happens. The order of turns is data of State; where
State lists none, events that need nothing from outside happen as soon as they can, and the core of `cur` goes on under R21. -/

namespace Sys2Proof.Machine

/-! Issue -/

/-- R446, R447, R450, R451: the agent's core runs. -/
def running (s : State) (a : Nat) : Bool :=
  if isHub a then (getPart s (partOf s a)).started.isSome
  else
    let d := getDie s (dieOf a)
    d.started.isSome && (d.state == .ready || (d.state == .quiescing && ctxNo a != 0)) &&
    !(ctxNo a == 0 && (getCore s (coreOf a)).resetting)

/-- R20, R25, R232, R456: the agent may issue: READY, not halted, and not waiting for a reply. -/
def mayIssue (s : State) (a : Nat) : Bool :=
  let c := getCtx s a
  c.status == .ready && c.halted.isNone && (c.sent.isNone || c.reply.isSome) && !c.out.any (·.failed) && !(c.stepping && !c.out.isEmpty && c.sent.isNone) &&
  mayGo s a c && running s a

/-- R134, R135, R141: the instruction that a word encodes. -/
def decodeWord (w : Nat) : Option Instr :=
  match decode32 (w % 2 ^ 32) with
  | .ok i => some i
  | .error _ => none

/-- R9, R133 to R135: an agent fetches, decodes and carries out its next instruction, when nothing but the time of its last issue may hold it. -/
def attempt (s : State) (a : Nat) : Out :=
  if Config.agents ≤ a then .fault .noSuchAgent
  else if !mayIssue s a then .next s
  else
    let s := { s with cur := a }
    match fetchWord s with
    | .ok (w, s') => match decodeWord w with
      | some i => exec i s'
      | none => execIllegalInstruction (BitVec.ofNat 32 w) s'
    | .error (.hold q) => .next (applyReqs s q)
    | .error (.send m why) => .next (sendMsg s m why)
    | .error _ => execInstructionFetchFault s

/-- R20 to R22, R459: the rotation floor of the agent is over, and its core may issue in this cycle: no row of another instruction does, and, while its die is
throttled, not all of the three cycles before were issue cycles. -/
def slotOpen (s : State) (a : Nat) : Bool :=
  isHub a ||
    (let k := getCore s (coreOf a)
     decide ((getCtx s a).readyAt ≤ s.clock) && decide (k.slotAt ≤ s.clock) &&
      !(decide (s.clock < (getDie s (dieOf a)).throttle) && k.slotAt == s.clock && decide (3 ≤ k.run)))

/-- R20, R21: an agent issues its next instruction, when the cycle lets it. -/
def issueTurn (s : State) (a : Nat) : Out :=
  if Config.agents ≤ a then .fault .noSuchAgent
  else if slotOpen s a then attempt s a else .next s

/-- R20: the context is eligible as far as its state, its instruction and its scoreboard go: its instruction would issue. -/
def eligibleNow (s : State) (a : Nat) : Bool :=
  match attempt { s with slotUsed := false } a with
  | .next t => t.slotUsed
  | _ => false

/-! Time -/

/-- The barrel contexts for whose core a test holds. -/
def ctxsWhere (s : State) (p : Nat → Bool) : List Nat := (s.ctxs.filter fun e => !isHub e.1 && p (coreOf e.1)).map (·.1)

/-- R20, R458: of the next `dt` cycles, those in which none of a list of contexts is eligible. For a cluster's counter the manual does not say whether the
cycles of its cores add up: here a cycle counts when no context of the cluster is eligible in it (log entry 113). -/
def idleCycles (s : State) (dt : Nat) (l : List Nat) : Nat :=
  match (l.filter (eligibleNow s)).map fun a => (getCtx s a).readyAt with
  | [] => dt
  | t :: ts => min dt (ts.foldl min t - 1 - s.clock)

/-- R459: 1 when one of the next `dt` cycles is one in which throttling keeps an eligible context of a core from issuing. -/
def heldSlots (s : State) (dt core : Nat) : Nat :=
  let k := getCore s core
  if s.clock < k.slotAt ∧ k.slotAt ≤ s.clock + dt ∧ 3 ≤ k.run ∧ k.slotAt < (getDie s (core / 2048)).throttle ∧
      (ctxsWhere s (· == core)).any fun a => decide ((getCtx s a).readyAt ≤ k.slotAt) && eligibleNow s a then 1 else 0

/-- R458: the cycle sources of a counter over `dt` cycles: cycles, cycles without an eligible context of a list, and issue slots of a list of cores that are
lost to throttling. -/
def tickCounter (s : State) (dt : Nat) (ctxs cores : List Nat) (k : Counter) : Counter :=
  match fieldOf k.sel 0 9 with
  | 0x101 => { k with val := k.val + word dt }
  | 0x103 => { k with val := k.val + word (idleCycles s dt ctxs) }
  | 0x106 => { k with val := k.val + word ((cores.map (heldSlots s dt)).foldl (· + ·) 0) }
  | _ => k

/-- The counter is enabled (R458). -/
def counting (k : Counter) : Bool := bitOf k.sel 8

/-- R458: some counter of the package is enabled. -/
def anyCounting (s : State) : Bool :=
  (s.cores.any fun e => e.2.ctr.toList.any counting) || (s.clusters.any fun e => e.2.ctr.any fun k => counting k.2) ||
  (s.dies.any fun e => e.2.ctr.any fun k => counting k.2)

/-- R458: the counters of cycle sources. -/
def tickCounters (s : State) (dt : Nat) : State :=
  let cores (p : Nat → Bool) : List Nat := (s.cores.map (·.1)).filter p
  { s with
    cores := s.cores.map fun e => (e.1, { e.2 with ctr := e.2.ctr.map (tickCounter s dt (ctxsWhere s (· == e.1)) [e.1]) })
    clusters := s.clusters.map fun e => (e.1, { e.2 with ctr := e.2.ctr.map fun k =>
      (k.1, tickCounter s dt (ctxsWhere s (· / 256 == e.1)) (cores (· / 256 == e.1)) k.2) })
    dies := s.dies.map fun e => (e.1, { e.2 with ctr := e.2.ctr.map fun k => (k.1, tickCounter s dt [] (cores (· / 2048 == e.1)) k.2) }) }

/-- R182: `dt` core cycles pass. -/
def tick (s : State) (dt : Nat) : State :=
  let s := if anyCounting s then tickCounters s dt else s
  { s with clock := s.clock + dt }

/-! What time brings about -/

/-- A number put into an increasing list, once. -/
def insertNat (n : Nat) : List Nat → List Nat
  | [] => [n]
  | x :: t => if n < x then n :: x :: t else if n = x then x :: t else x :: insertNat n t

/-- R59: the cycles in which limits of cones expire, in order. -/
def expiries (s : State) : List Nat :=
  (s.clusters.flatMap fun e => (e.2.cones.filter fun c => coneExpired c.2 s.clock).map fun c => c.2.first + c.2.timeout * 1024 + 1).foldr insertNat []

/-- R59: the cones of a cluster whose limit has expired by cycle `t` trip. -/
def expireCones (t : Nat) (k : Cluster) : Cluster :=
  { k with cones := k.cones.map fun c => if coneExpired c.2 t then (c.1, tripCone c.2 7) else c }

/-- R63: every draw that has been made by cycle `now`. -/
def draws (s : State) (now : Nat) : State :=
  s.parts.foldl (fun s e => e.2.watches.foldl (fun s w => releaseDraw s e.1 w.group now) s) s

/-- R59, R63: at cycle `t` the draws due by then are made, the cones whose limit has then expired trip, and the groups are sampled. -/
def expireAt (s : State) (t : Nat) : State :=
  let s := draws s t
  { sampleWatches { s with clock := t, clusters := s.clusters.map fun e => (e.1, expireCones t e.2) } with clock := s.clock }

/-- R18, R59, R63, R309, R454: what the cycles since `before` have brought about: the expiries of cones in the order of their cycles, with the draws due by
each, then draws up to now; settings that fire; lost lines that can be reverted. -/
def due (before : Nat) (s : State) : State :=
  let s := (expiries s).foldl expireAt s
  let s := hostDue (settleAll (draws s s.clock))
  let s := (s.clusters.filter fun e => !e.2.settings.isEmpty).foldl (fun s e => fireDue before s e.1) s
  revertLines s

/-- R182: a turn begins after `dt` cycles. -/
def pass (s : State) (dt : Nat) : State := due s.clock (tick s dt)

/-- A row of the opcode table that a turn may name: a command at its engine or an event, neither an instruction nor an outcome of a fetch. -/
def isEvent (i : Instr) : Bool :=
  match i with
  | .illegalInstruction _ | .instructionFetchFault => false
  | i => (encode i).isNone

/-- One turn; a turn that names an instruction as an event names no event of the package. -/
def doTurn (s : State) (w : What) : Out :=
  match w with
  | .issue a => issueTurn s a
  | .event i => if isEvent i then exec i s else .fault .noSuchObject

/-! What happens when no turn is listed -/

/-- An event that may happen: its meaning. -/
abbrev Happening := State → Out

/-- Events of one context or hub core. -/
def agentEvents (a : Nat) (c : Ctx) : List Happening :=
  (if c.sb.isEmpty then [] else [execStoreBufferLeave a]) ++
  (match c.status with | .parked _ => [execContextRejoin a] | _ => []) ++
  (if c.scout.isSome then [execScoutStop a] else []) ++
  (if c.win.any fun w => w.sent.isNone then [execWindowSend a] else []) ++
  ((List.range 8).filterMap fun k =>
    if (c.ends.toList.getD k {}).asked || (c.ends.toList.getD k {}).waits.isSome then some (execCoilPopRequest a (BitVec.ofNat 3 k)) else none) ++
  (if c.scsr.armed && c.scsr.stimecmp != 0xFFFFFFFFFFFFFFFF then [execStimecmpMatch a] else []) ++
  (if c.scsr.sip == 0 then []
    else if isHub a then [execHubInterruptTaken (a - Config.contexts)] else [execInterruptRecordPush (coreOf a)])

/-- Events of writes, atomics and messages on their way. -/
def transitEvents (s : State) : List Happening :=
  (s.writes.flatMap fun w => w.inv.map (execRemoteInvalidation w.id) ++ w.acks.map (execInvalidationAck w.id) ++
    (if w.home then [] else [execHomeWritePerformed w.id, execOfflineReply w.id])) ++
  (s.atomics.flatMap fun m => if m.packet then [] else [execHomeAtomic m.id, execOfflineReply m.id]) ++
  (s.coneMsgs.flatMap fun m => [execConeArrival m.id, execConeJoin m.id, execConeInit m.id, execBalancerRequest m.id, execOfflineReply m.id]) ++
  (s.coilMsgs.map fun m => execCoilPushArrival m.id) ++
  (s.posts.flatMap fun p => [if p.rep then execBalancerRequest p.id else execLaunchRecordAccept p.id, execOfflineReply p.id]) ++
  (s.queues.flatMap fun q => if q.copies.isEmpty then [] else [execTokenCopyDelivery q.id]) ++
  (s.pages.flatMap fun p => if p.sent then [] else [execPageRequestGroup p.id]) ++
  (s.sweeps.flatMap fun x => x.pending.map (execSweepAck x.id) ++ [execSweepComplete x.id]) ++
  (s.preempts.flatMap fun p => if p.state = 0 || p.flush then p.cores.map (execPreemptSave p.id) ++ [execPreemptComplete p.id] else [])

/-- Events of the engines of a cluster. -/
def clusterEvents (s : State) (cl : Nat) (k : Cluster) : List Happening :=
  (if k.launch.isEmpty then [] else [execLaunchDispatch cl]) ++
  (if k.replay.isEmpty then [] else [execReplayBufferPost cl]) ++
  (k.stages.map fun x => execBalancerReplicaPost cl x.1) ++
  (k.cones.filterMap fun c => if c.2.timeout = 0 then none else some (execConeTimeout cl c.1)) ++
  (if k.cmds.isEmpty then [] else
    (k.cmds.map fun c => execCommandComplete cl c.id) ++ [execBufferReentryAccept cl, execCopy cl, execConv cl, execFill cl] ++
    ((List.range 4).map fun t => execGlazeLoadPerformed cl t) ++
    (k.settings.map fun x => execSettingFire cl x.slot) ++
    (if k.settings.isEmpty then [] else (List.range Config.kilns).flatMap fun i =>
      [execFiringEnd cl i, execFiringStart cl i, execSettingDispatch cl i])) ++
  (k.pugs.flatMap fun p => execPugLookup cl p.1 :: execPugBagClose cl p.1 :: ((rowWanted s p.2).toList.map (execPugRowFetch cl p.1)))

/-- Events of cores, hub cores, draw groups and resets. -/
def otherEvents (s : State) : List Happening :=
  (s.cores.flatMap fun e =>
    (if e.2.waiting.isEmpty then [] else [execTrapRecordPush e.1]) ++ (if e.2.resetting then [execCoreReset e.1] else [])) ++
  (s.parts.flatMap fun e => (e.2.watches.map fun w => execDraw e.1 w.group) ++ (e.2.tokens.map fun h => execReduceTokenDelivery h) ++
    (if e.2.port.status = 1 && e.2.port.post.isNone then [execHlpost e.1 0] else [])) ++
  (s.resets.map fun r => execDieOffline r.die)

/-- Everything that may happen in a state without anything coming from outside. -/
def internalEvents (s : State) : List Happening :=
  (s.ctxs.flatMap fun e => agentEvents e.1 e.2) ++ transitEvents s ++ (s.clusters.flatMap fun e => clusterEvents s e.1 e.2) ++ otherEvents s

/-- What the first event that changes the state makes of it. One that only counts (R458) lets the next one be tried; the state left is then the first result. -/
def firstEvent (s : State) : List Happening → State × Option Out
  | [] => (s, none)
  | f :: t => match f s with
    | .next s' => if { s' with dies := s.dies } = s then firstEvent s' t else (s, some (.next s'))
    | r => (s, some r)

/-- R21: the contexts of the core of `cur` in the order in which they are examined; a hub core is alone. -/
def issueOrder (s : State) : List Nat :=
  if isHub s.cur then [s.cur]
  else (List.range 16).map fun i => agentOf (coreOf s.cur) (((getCore s (coreOf s.cur)).last + 1 + i) % 16)

/-- R23: the park test of a READY context: where its next instruction would park, it parks, and takes no issue slot. -/
def parkTest (s : State) (a : Nat) : State :=
  match attempt s a with
  | .next t => match (getCtx t a).status with
    | .parked _ => if (getCtx s a).status = .ready ∧ (getCtx t a).sent.isNone ∧ (getCtx t a).pageFault.isNone then { t with cur := s.cur } else s
    | _ => s
  | _ => s

/-- R23: the park test of every context of the core of `cur`. -/
def parkTests (s : State) : State :=
  if isHub s.cur then s else (List.range 16).foldl (fun s n => if mayIssue s (agentOf (coreOf s.cur) n) then parkTest s (agentOf (coreOf s.cur) n) else s) s

/-- R21, R23: the contexts in their order, until one takes the issue slot: one that its scoreboard, a fetch or an order holds does not. -/
def issueFirst : List Nat → State → Out
  | [], s => .next s
  | a :: t, s => match issueTurn { s with slotUsed := false } a with
    | .next s' => if s'.slotUsed then .next s' else issueFirst t s'
    | r => r

/-- A turn that State does not fix (R20, log entry 2): an event that can happen, else the next instruction of the core of `cur`, whose contexts have
been tested for parking; else nothing. -/
def freeTurn (s : State) : Out :=
  match firstEvent s (internalEvents s) with
  | (_, some r) => r
  | (s, none) =>
    let s := parkTests s
    issueFirst (issueOrder s) s

/-- R48, R63, R175: what the detectors see after a turn: priority reservations that have ended early, the draw groups and the stage instances. -/
def observe (before s : State) : State :=
  sample (((prioBlocks before).filter fun b => !(prioBlocks s).contains b).foldl endPrio s)

/-- A turn with what the detectors make of its end. -/
def observed (before : State) : Out → Out
  | .next s => .next (observe before s)
  | r => r

/-- One turn of the machine: with none listed, the cycles that pass are the rotation floor and a free number (log entry 2). -/
def turn (s : State) : Out :=
  match s.turns with
  | [] =>
    let t := pass { s with fresh := s.fresh + 1 } (4 + Config.freeGap s.fresh)
    observed t (freeTurn t)
  | w :: rest =>
    let t := pass { s with turns := rest } w.dt
    observed t (doTurn t w.what)

/-! A program in memory -/

/-- Where `placeInstr` puts the instruction. -/
def placePc : Nat := 0x80000000

/-- What `placeInstr` puts into device memory: entry 0 of the address-space table at 0 (V, root at 0x1000), one level-5 leaf (V, R, W, X, U,
A, D) that maps the first 2^48 addresses to themselves, and the instruction. -/
def placeCells (w : Nat) : List (Nat × Byte) :=
  cellsAt 0 (leBytes 16 0x1001) ++ cellsAt 0x1000 (leBytes 8 0xDF) ++ cellsAt placePc (leBytes 4 w)

/-- The lines of those bytes. -/
def placeLines : List Nat := [0, lineOf 0x1000, lineOf placePc]

/-- The partition's translation registers: the walk format after reset, the table at 0 with one entry, device memory from 0 on, no
scratchpad window over the program. -/
def placePart (p : Part) : Part :=
  let r : Part := {}
  { p with
    wfmt := r.wfmt
    wperm := r.wperm
    wpamask := r.wpamask
    wleaf := r.wleaf
    astab := 0
    hdmBase := 0
    spwin := 0
    go := true
    started := some (word placePc) }

/-- R446, R447: the instruction `w` where context 0 of core 0 fetches next, as firmware, host driver and runtime leave the machine: tables and
program in device memory, GO set, context 0 READY at the program in supervisor mode; its next turn comes first. -/
def placeInstr (s : State) (w : Nat) : State :=
  let s := { s with
    turns := [⟨4, .issue 0⟩]
    mem := writeCells s.mem (placeCells w)
    sweeps := []
    resets := s.resets.filter fun r => r.die != 0
    lostLines := s.lostLines.filter fun e => !placeLines.contains e.1
    filter := s.filter.filter fun e => !placeLines.contains (e.1 / 2) }
  let s := modPart s 0 placePart
  let s := modDie s 0 fun d => { d with
    off := false
    state := .ready
    started := some (word placePc)
    copies := d.copies.filter fun e => !placeLines.contains e.1 }
  let s := modCore s 0 fun k => { k with resetting := false, slotAt := 0, tlb := [], icache := [] }
  let s := modCluster s 0 fun k => { k with tlb := [] }
  modCtx s 0 fun c => { c with
    status := .ready
    sup := true
    space := 0
    pc := word placePc
    readyAt := 0
    sent := none
    reply := none
    scout := none
    halted := none
    stopping := none }

end Sys2Proof.Machine
end

