-- ==== Sys2Proof/Machine/Step.lean ====
section
/-! DEFINITION. Machine/Step.lean: one step of the machine, and the state in which an instruction is fetched next. -/

namespace Sys2Proof.Machine

/-- One step: the next turn (Machine/Turn.lean). -/
def step (s : State) : Host.Outcome State Fault Refusal := turn s

/-- `s` with the instruction of `nbits` bits `w` where the next step fetches: the state that firmware, host driver and runtime leave
(R446, log entry 20). -/
def State.withFetchWord (s : State) (nbits w : Nat) : State := placeInstr s (w % 2 ^ nbits)

end Sys2Proof.Machine
end

