-- ==== Sys2Proof/Safety.lean ====
section
/-! DEFINITION. Safety.lean: the terms in which claims speak of a run: the invariant of memory, an instruction that completes, and registers
that are not queue ends. -/

namespace Sys2Proof.Machine

/-- The canonical form of both memories: addresses strictly rising, no byte listed that an unlisted address reads as. -/
def State.wf (s : State) : Bool := Memory.wf s.mem && Memory.wf s.spad

/-- The executing context is not scouting (R389), and none of its accesses is outstanding (R470). -/
def steady (s : State) : Prop := (getCtx s s.cur).scout = none ∧ (getCtx s s.cur).out = []

/-- The executing context is not scouting (R389), and its scoreboard lets instruction `i` issue (R20). -/
def unheld (i : Instr) (s : State) : Prop := (getCtx s s.cur).scout = none ∧ blocked i (getCtx s s.cur) = false

/-- R9: the state `t` after the effect of an instruction, with the pc at the next instruction. -/
def nextPc (t : State) : State := modCtx t t.cur fun c => { c with pc := c.pc + 4 }

/-- R9, R183: instruction `i` has completed in `s`; `t` is the state with its effect. -/
def doneIn (i : Instr) (s t : State) : State := completed i (getCtx s s.cur) t

/-- R34: register `r` of the executing agent is an ordinary register: no queue end is bound to it. -/
def ordinary (s : State) (r : Reg) : Prop := ∀ k, endNo r = some k → isBound s s.cur k = false

/-- The executing context. -/
def here (s : State) : Ctx := getCtx s s.cur

/-- A change of the executing context. -/
def withHere (s : State) (f : Ctx → Ctx) : State := modCtx s s.cur f

end Sys2Proof.Machine
end

