-- ==== Sys2Proof/Certificates/Slice0/Obligations.lean ====
section
/-! DEFINITION. Certificates/Slice0/Obligations.lean: the statements about the model. A completion statement says of each instruction that, when
its operands can be had (`operands` answers) and the conditions the manual names hold, `exec` answers the next state that the rules give;
what `operands`, `writeRd`, the accesses and the engines' operations answer is stated of them apart. The tables and terms that several
statements share stand in `Sys2Proof.Claims`. -/

namespace Sys2Proof.Claims

/-- The low 32 bits of an integer, sign-extended. -/
def sext32 (n : Int) : Word := (BitVec.ofInt 32 n).signExtend 64
/-- The signed value of the low 32 bits. -/
def lowInt (v : Word) : Int := (v.setWidth 32).toInt
/-- The unsigned value of the low 32 bits. -/
def lowNat (v : Word) : Nat := v.toNat % 2 ^ 32

end Sys2Proof.Claims

open Sys2Proof Sys2Proof.Machine Sys2Proof.Claims

/-! Integer arithmetic, branches and jumps -/

namespace Sys2Proof.Claims

/-- R167, R168: the two-operand integer instructions: destination, sources and result, by exact arithmetic. -/
def twoOperand : Instr → Option (Reg × Reg × Reg × (Word → Word → Word))
  | .add d a b => some (d, a, b, fun x y => BitVec.ofInt 64 (x.toInt + y.toInt))
  | .sub d a b => some (d, a, b, fun x y => BitVec.ofInt 64 (x.toInt - y.toInt))
  | .sll d a b => some (d, a, b, fun x y => BitVec.ofNat 64 (x.toNat * 2 ^ (y.toNat % 64)))
  | .slt d a b => some (d, a, b, fun x y => if x.toInt < y.toInt then 1 else 0)
  | .sltu d a b => some (d, a, b, fun x y => if x.toNat < y.toNat then 1 else 0)
  | .xor d a b => some (d, a, b, fun x y => x ^^^ y)
  | .srl d a b => some (d, a, b, fun x y => BitVec.ofNat 64 (x.toNat / 2 ^ (y.toNat % 64)))
  | .sra d a b => some (d, a, b, fun x y => BitVec.ofInt 64 (x.toInt / 2 ^ (y.toNat % 64)))
  | .or d a b => some (d, a, b, fun x y => x ||| y)
  | .and d a b => some (d, a, b, fun x y => x &&& y)
  | .mul d a b => some (d, a, b, fun x y => BitVec.ofInt 64 (x.toInt * y.toInt))
  | .mulh d a b => some (d, a, b, fun x y => BitVec.ofInt 64 (x.toInt * y.toInt / 2 ^ 64))
  | .mulhsu d a b => some (d, a, b, fun x y => BitVec.ofInt 64 (x.toInt * y.toNat / 2 ^ 64))
  | .mulhu d a b => some (d, a, b, fun x y => BitVec.ofInt 64 (x.toNat * y.toNat / 2 ^ 64))
  | .div d a b => some (d, a, b, fun x y => if y = 0 then BitVec.ofInt 64 (-1) else BitVec.ofInt 64 (x.toInt.tdiv y.toInt))
  | .divu d a b => some (d, a, b, fun x y => if y = 0 then BitVec.ofInt 64 (-1) else BitVec.ofNat 64 (x.toNat / y.toNat))
  | .rem d a b => some (d, a, b, fun x y => if y = 0 then x else BitVec.ofInt 64 (x.toInt.tmod y.toInt))
  | .remu d a b => some (d, a, b, fun x y => if y = 0 then x else BitVec.ofNat 64 (x.toNat % y.toNat))
  | .addw d a b => some (d, a, b, fun x y => sext32 (x.toInt + y.toInt))
  | .subw d a b => some (d, a, b, fun x y => sext32 (x.toInt - y.toInt))
  | .sllw d a b => some (d, a, b, fun x y => sext32 (lowNat x * 2 ^ (y.toNat % 32)))
  | .srlw d a b => some (d, a, b, fun x y => sext32 (lowNat x / 2 ^ (y.toNat % 32)))
  | .sraw d a b => some (d, a, b, fun x y => sext32 (lowInt x / 2 ^ (y.toNat % 32)))
  | .mulw d a b => some (d, a, b, fun x y => sext32 (x.toInt * y.toInt))
  | .divw d a b => some (d, a, b, fun x y => if lowNat y = 0 then sext32 (-1) else sext32 ((lowInt x).tdiv (lowInt y)))
  | .divuw d a b => some (d, a, b, fun x y => if lowNat y = 0 then sext32 (-1) else sext32 (lowNat x / lowNat y : Nat))
  | .remw d a b => some (d, a, b, fun x y => if lowNat y = 0 then sext32 (lowInt x) else sext32 ((lowInt x).tmod (lowInt y)))
  | .remuw d a b => some (d, a, b, fun x y => if lowNat y = 0 then sext32 (lowInt x) else sext32 (lowNat x % lowNat y : Nat))
  | _ => none

/-- R167, R149: the instructions of one register operand: destination, source and result. -/
def oneOperand : Instr → Option (Reg × Reg × (Word → Word))
  | .addi d a m => some (d, a, fun x => BitVec.ofInt 64 (x.toInt + m.toInt))
  | .slti d a m => some (d, a, fun x => if x.toInt < m.toInt then 1 else 0)
  | .sltiu d a m => some (d, a, fun x => if x.toNat < (m.signExtend 64).toNat then 1 else 0)
  | .xori d a m => some (d, a, fun x => x ^^^ m.signExtend 64)
  | .ori d a m => some (d, a, fun x => x ||| m.signExtend 64)
  | .andi d a m => some (d, a, fun x => x &&& m.signExtend 64)
  | .slli d a n => some (d, a, fun x => BitVec.ofNat 64 (x.toNat * 2 ^ n.toNat))
  | .srli d a n => some (d, a, fun x => BitVec.ofNat 64 (x.toNat / 2 ^ n.toNat))
  | .srai d a n => some (d, a, fun x => BitVec.ofInt 64 (x.toInt / 2 ^ n.toNat))
  | .addiw d a m => some (d, a, fun x => sext32 (x.toInt + m.toInt))
  | .slliw d a n => some (d, a, fun x => sext32 (lowNat x * 2 ^ n.toNat))
  | .srliw d a n => some (d, a, fun x => sext32 (lowNat x / 2 ^ n.toNat))
  | .sraiw d a n => some (d, a, fun x => sext32 (lowInt x / 2 ^ n.toNat))
  | .hint d a _ => some (d, a, fun x => x)
  | _ => none

/-- R167: the branches: sources, offset in units of two bytes, and when they are taken. -/
def branchOf : Instr → Option (Reg × Reg × BitVec 12 × (Word → Word → Bool))
  | .beq a b o => some (a, b, o, fun x y => decide (x.toNat = y.toNat))
  | .bne a b o => some (a, b, o, fun x y => decide (x.toNat ≠ y.toNat))
  | .blt a b o => some (a, b, o, fun x y => decide (x.toInt < y.toInt))
  | .bge a b o => some (a, b, o, fun x y => decide (y.toInt ≤ x.toInt))
  | .bltu a b o => some (a, b, o, fun x y => decide (x.toNat < y.toNat))
  | .bgeu a b o => some (a, b, o, fun x y => decide (y.toNat ≤ x.toNat))
  | _ => none

/-- The address `n` bytes from the executing context's pc. -/
def pcPlus (s : State) (n : Int) : Word := BitVec.ofInt 64 ((here s).pc.toInt + n)

/-- The executing context at another pc. -/
def atPc (s : State) (t : Word) : State := withHere s fun c => { c with pc := t }

end Sys2Proof.Claims

/-- R167, R168: a two-operand integer instruction writes its result to rd. R167, R149: an instruction of one register operand writes its result to
rd; `lui` and `auipc` write theirs. -/
def Obligations.IntegerResults : Prop :=
  (∀ (i : Instr) (rd rs1 rs2 : Reg) (f : Word → Word → Word), twoOperand i = some (rd, rs1, rs2, f) →
     ∀ (s s1 s2 : State) (a b : Word), unheld i s → operands [rs1, rs2] (some rd) s = .ok ([a, b], s1) →
       writeRd rd (f a b) s1 = .ok ((), s2) → exec i s = .next (doneIn i s (nextPc s2))) ∧
  ((∀ (i : Instr) (rd rs1 : Reg) (f : Word → Word), oneOperand i = some (rd, rs1, f) →
     ∀ (s s1 s2 : State) (a : Word), unheld i s → operands [rs1] (some rd) s = .ok ([a], s1) →
       writeRd rd (f a) s1 = .ok ((), s2) → exec i s = .next (doneIn i s (nextPc s2))) ∧
   (∀ (rd : Reg) (imm : BitVec 20) (s s1 s2 : State), unheld (.lui rd imm) s → unheld (.auipc rd imm) s →
     operands [] (some rd) s = .ok ([], s1) →
     (writeRd rd (sext32 (imm.toNat * 4096)) s1 = .ok ((), s2) → exec (.lui rd imm) s = .next (doneIn (.lui rd imm) s (nextPc s2))) ∧
     (writeRd rd (pcPlus s1 (sext32 (imm.toNat * 4096)).toInt) s1 = .ok ((), s2) →
       exec (.auipc rd imm) s = .next (doneIn (.auipc rd imm) s (nextPc s2)))))

/-- R167, R133: a branch continues at pc + offset when it is taken, at pc + 4 when it is not; a taken branch to a target that is not a multiple of
4 traps with cause 0 and the target as tval. R167, R133: `jal` and `jalr` write pc + 4 to rd and continue at the target; `jalr` clears bit 0 of
it. A target that is not a multiple of 4 traps at the jump, with cause 0. Rests also on the model's choices: log entry 21. -/
def Obligations.BranchesAndJumps : Prop :=
  (∀ (i : Instr) (rs1 rs2 : Reg) (off : BitVec 12) (taken : Word → Word → Bool), branchOf i = some (rs1, rs2, off, taken) →
     ∀ (s s1 : State) (a b : Word), unheld i s → operands [rs1, rs2] none s = .ok ([a, b], s1) →
       let target := pcPlus s1 (2 * off.toInt)
       (taken a b = false → exec i s = .next (doneIn i s (nextPc s1))) ∧
       (taken a b = true → target.toNat % 4 = 0 → exec i s = .next (doneIn i s (atPc s1 target))) ∧
       (taken a b = true → target.toNat % 4 ≠ 0 → (here s).out = [] → exec i s = .next (takeTrap (issued s) s.cur 0 (here s).pc target (iword i) 0))) ∧
  ((∀ (rd : Reg) (off : BitVec 20) (s s1 s2 : State), unheld (.jal rd off) s → operands [] (some rd) s = .ok ([], s1) →
     let target := pcPlus s1 (2 * off.toInt)
     (target.toNat % 4 = 0 → writeRd rd (pcPlus s1 4) s1 = .ok ((), s2) →
       exec (.jal rd off) s = .next (doneIn (.jal rd off) s (atPc s2 target))) ∧
     (target.toNat % 4 ≠ 0 → (here s).out = [] → exec (.jal rd off) s = .next (takeTrap (issued s) s.cur 0 (here s).pc target (iword (.jal rd off)) 0))) ∧
   (∀ (rd rs1 : Reg) (imm : BitVec 12) (s s1 s2 : State) (a : Word), unheld (.jalr rd rs1 imm) s →
     operands [rs1] (some rd) s = .ok ([a], s1) →
     let target := BitVec.ofNat 64 ((BitVec.ofInt 64 (a.toInt + imm.toInt)).toNat / 2 * 2)
     (target.toNat % 4 = 0 → writeRd rd (pcPlus s1 4) s1 = .ok ((), s2) →
       exec (.jalr rd rs1 imm) s = .next (doneIn (.jalr rd rs1 imm) s (atPc s2 target))) ∧
     (target.toNat % 4 ≠ 0 → (here s).out = [] →
       exec (.jalr rd rs1 imm) s = .next (takeTrap (issued s) s.cur 0 (here s).pc target (iword (.jalr rd rs1 imm)) 0))))

/-! Registers and queue ends as operands -/

namespace Sys2Proof.Claims

/-- The instructions that act on integer registers only: sources and destination. -/
def registerOnly : Instr → Option (List Reg × Reg)
  | .lui d _ => some ([], d)
  | .auipc d _ => some ([], d)
  | i => match twoOperand i with
    | some (d, a, b, _) => some ([a, b], d)
    | none => (oneOperand i).map fun x => ([x.2.1], x.1)

/-- Cores, clusters and dies of `t` are those of `s` but for the context that issued last, the issue slot and the event counters (R20, R21, R458,
R459). -/
def countersOnly (s t : State) : Prop :=
  (∀ c, { getCore t c with
    last := (getCore s c).last, slotAt := (getCore s c).slotAt, run := (getCore s c).run, ctr := (getCore s c).ctr } = getCore s c) ∧
  (∀ c, { getCluster t c with ctr := (getCluster s c).ctr } = getCluster s c) ∧
  (∀ d, { getDie t d with ctr := (getDie s d).ctr } = getDie s d)

/-- The executing context of `t` is that of `s` but for its pc, its count of instructions, its pace, its rotation floor, its claim of operands, the debug
controller's marks and the registers of `rds`. -/
def hereChanges (s t : State) (rds : List Reg) : Prop :=
  let c := getCtx t s.cur
  { c with
    pc := (here s).pc
    x := (here s).x
    ucsr := { c.ucsr with instret := (here s).ucsr.instret }
    vec := { c.vec with pace := (here s).vec.pace }
    readyAt := (here s).readyAt
    claim := (here s).claim
    stepping := (here s).stepping
    halted := (here s).halted
    dbgEntry := (here s).dbgEntry } = here s ∧
  c.ucsr.instret = (here s).ucsr.instret + 1 ∧ ∀ r : Reg, r ∉ rds → readX c r = readX (here s) r

/-- Between `s` and `t` an instruction has retired that changed nothing but registers of `rds` and what every instruction changes: every
byte of memory, every queue, every other agent and every other part of the machine is as it was. -/
def onlyChanges (s t : State) (rds : List Reg) : Prop :=
  (∀ a, readByte t.mem a = readByte s.mem a) ∧ (∀ a, readByte t.spad a = readByte s.spad a) ∧
  { t with ctxs := s.ctxs, cores := s.cores, clusters := s.clusters, dies := s.dies, slotUsed := s.slotUsed } = s ∧
  (∀ a, a ≠ s.cur → getCtx t a = getCtx s a) ∧ countersOnly s t ∧ hereChanges s t rds

/-- The end of the executing context: bound as a read end that an instruction may read (R34, R36, R193, R322). -/
def readable (s : State) (k : Nat) : Prop :=
  isReadEnd s s.cur k = true ∧ isLent s s.cur k = false ∧ otherBound s s.cur k = false

/-- The end of the executing context: bound as a write end to queue `q`, open, and not lent (R34, R36, R193, R322). -/
def writable (s : State) (k : Nat) (q : Queue) : Prop :=
  isWriteEnd s s.cur k = true ∧ isLent s s.cur k = false ∧ otherBound s s.cur k = false ∧ (endOf s s.cur k).closed = false ∧
  (endOf s s.cur k).queue.bind (findQueue s) = some q

/-- R97, R240, R425: nothing holds a push to queue `q` back that has room: earlier aq and ar stores and, where the owner of a coil is in another
cluster, the credit of its die; and the release at the queue's scope. -/
def pushReady (s : State) (q : Queue) : Prop :=
  (q.coil = true → acqClear s s.cur = true ∧ (clusterOf s.cur ≠ q.core / 256 → hasCredit s (q.core / 256) = true)) ∧
  settled s s.cur (queueScope q) = true

/-- The end is bound to a coil. -/
def coilEnd (s : State) (k : Nat) : Prop := ∃ q, (endOf s s.cur k).queue.bind (findQueue s) = some q ∧ q.coil = true

/-- R42: what a landing through end `k` for a token of level `n` leaves of context `c`: the pc at `tkvec[k]`, the level, the end and the pc before it in
`tklvl`, `tkq` and `tkepc`, and the reservation void (R173); nothing else changes. -/
def landed (c c' : Ctx) (k n : Nat) : Prop :=
  c'.pc = c.ucsr.tkvec.toList.getD k 0 ∧ c'.ucsr.tklvl.toNat = n % 8 ∧ c'.ucsr.tkq.toNat = k % 8 ∧
  c'.ucsr.tkepc = word (c.pc.toNat / 4 * 4) ∧ (∀ r, c'.resv = some r → r.valid = false) ∧
  { c' with pc := c.pc, resv := c.resv, ucsr := { c'.ucsr with tklvl := c.ucsr.tklvl, tkq := c.ucsr.tkq, tkepc := c.ucsr.tkepc } } = c

end Sys2Proof.Claims

/-- R34: registers to which no queue end is bound give their values and take results; x0 reads as zero and discards what is written; a
write changes no other register. -/
def Obligations.OrdinaryRegisters : Prop :=
  (∀ (srcs : List Reg) (rd : Option Reg) (s : State), (∀ r ∈ srcs, ordinary s r) → (∀ r, rd = some r → ordinary s r) →
    operands srcs rd s = .ok (srcs.map (readX (here s)), s)) ∧
  (∀ (rd : Reg) (v : Word) (s : State), ordinary s rd → writeRd rd v s = .ok ((), withHere s fun c => writeX c rd v)) ∧
  (∀ (c : Ctx) (rd r : Reg) (v : Word), readX c 0 = 0 ∧ writeX c 0 v = c ∧
    (rd ≠ 0 → readX (writeX c rd v) rd = v) ∧ (r ≠ rd → readX (writeX c rd v) r = readX c r))

/-- Frame of the instructions on integer registers, when no queue end is among their registers: nothing but rd, the pc and the count of
instructions changes. -/
def Obligations.RegisterOnlyFrame : Prop :=
  ∀ (i : Instr) (srcs : List Reg) (rd : Reg) (s t : State), registerOnly i = some (srcs, rd) → steady s → (here s).status = .ready →
    (∀ r ∈ srcs, ordinary s r) → ordinary s rd → exec i s = .next t → onlyChanges s t [rd] ∧ (getCtx t s.cur).pc = (here s).pc + 4

/-- R36, R37, R42: a source register that is a bound end: the wrong direction traps with cause 24; an empty end parks; a token at the head is
popped and lands through `tkvec`, with its level and its end in the token registers, or traps with cause 25 when there is no handler; a data entry
is popped and its payload is the operand. R34, R36, R41: a destination register that is a bound end: a read end, a lent or a closed end, and one
whose queue is bound in the other direction too, traps with cause 24; a queue without a free slot parks; otherwise the result is pushed as a data
entry. Rests also on the model's choices: log entries 8, 78, 98, 99. -/
def Obligations.QueueEndsAsOperands : Prop :=
  (∀ (i : Instr) (rd rs1 : Reg) (f : Word → Word) (k : Nat) (s : State), oneOperand i = some (rd, rs1, f) → endNo rs1 = some k →
     steady s → (here s).claim = none → ordinary s rd →
     (isWriteEnd s s.cur k = true → exec i s = .next (takeTrap (issued s) s.cur 24 (here s).pc (word k) (iword i) 0)) ∧
     (isBound s s.cur k = true → isLent s s.cur k = true ∨ otherBound s s.cur k = true →
       exec i s = .next (takeTrap (issued s) s.cur 24 (here s).pc (word k) (iword i) 0)) ∧
     (readable s k → offered s s.cur k = [] → exec i s = .next (parkCtx (dropReads s s.cur) (.pop k))) ∧
     (readable s k → (coilEnd s k → acqClear s s.cur = true) → popNeeds s s.cur k = none → ∀ e l, offered s s.cur k = e :: l →
       (e.isToken = true → (here s).ucsr.tkvec.toList.getD k 0 = 0 →
         exec i s = .next (takeTrap (issued s) s.cur 25 (here s).pc (word k) (iword i) 0)) ∧
       (e.isToken = true → (here s).ucsr.tkvec.toList.getD k 0 ≠ 0 → ∀ e' s', popEnd s s.cur k = some (e', s') →
         exec i s = .next (issued (modCtx s' s.cur fun c => stepEnds (landCtx c k (BitVec.ofNat 3 e'.level)))) ∧
         landed (getCtx s' s.cur) (landCtx (getCtx s' s.cur) k (BitVec.ofNat 3 e'.level)) k e'.level) ∧
       (e.isToken = false → ∀ e' s1 s2, popEnd s s.cur k = some (e', s1) → writeRd rd (f e'.payload) s1 = .ok ((), s2) →
         exec i s = .next (doneIn i s (nextPc s2))))) ∧
  (∀ (i : Instr) (rd rs1 : Reg) (f : Word → Word) (k : Nat) (s : State), oneOperand i = some (rd, rs1, f) → endNo rd = some k →
     steady s → (here s).claim = none → ordinary s rs1 →
     (isReadEnd s s.cur k = true → exec i s = .next (takeTrap (issued s) s.cur 24 (here s).pc (word k) (iword i) 0)) ∧
     (isBound s s.cur k = true → (endOf s s.cur k).closed = true ∨ isLent s s.cur k = true ∨ otherBound s s.cur k = true →
       exec i s = .next (takeTrap (issued s) s.cur 24 (here s).pc (word k) (iword i) 0)) ∧
     (∀ q, writable s k q →
       (canPush s q s.cur (dataEntry 0) = false → exec i s = .next (parkCtx (dropReads s s.cur) (.push k false))) ∧
       (canPush s q s.cur (dataEntry 0) = true → pushReady s q →
         exec i s = .next (doneIn i s (nextPc (pushQueue s q s.cur (dataEntry (f (readX (here s) rs1)))))))))

/-! Division at its limits, CSRs and the environment -/

namespace Sys2Proof.Claims

/-- R168: the signed quotient and remainder. -/
def quotRem (a b lo : Int) : Int × Int :=
  if b = 0 then (-1, a) else if a = lo ∧ b = -1 then (lo, 0) else (a.tdiv b, a - a.tdiv b * b)
/-- R168: the unsigned quotient and remainder; `top`: all ones. -/
def quotRemU (a b top : Nat) : Nat × Nat := if b = 0 then (top, a) else (a / b, a - a / b * b)

/-- R168: the eight division instructions: destination, dividend, divisor, and the result as an integer that is truncated to 64 bits. -/
def divisionOf : Instr → Option (Reg × Reg × Reg × (Word → Word → Word))
  | .div d a b => some (d, a, b, fun x y => BitVec.ofInt 64 (quotRem x.toInt y.toInt (-2 ^ 63)).1)
  | .rem d a b => some (d, a, b, fun x y => BitVec.ofInt 64 (quotRem x.toInt y.toInt (-2 ^ 63)).2)
  | .divu d a b => some (d, a, b, fun x y => BitVec.ofNat 64 (quotRemU x.toNat y.toNat (2 ^ 64 - 1)).1)
  | .remu d a b => some (d, a, b, fun x y => BitVec.ofNat 64 (quotRemU x.toNat y.toNat (2 ^ 64 - 1)).2)
  | .divw d a b => some (d, a, b, fun x y => sext32 (quotRem (lowInt x) (lowInt y) (-2 ^ 31)).1)
  | .remw d a b => some (d, a, b, fun x y => sext32 (quotRem (lowInt x) (lowInt y) (-2 ^ 31)).2)
  | .divuw d a b => some (d, a, b, fun x y => sext32 ((quotRemU (lowNat x) (lowNat y) (2 ^ 32 - 1)).1 : Nat))
  | .remuw d a b => some (d, a, b, fun x y => sext32 ((quotRemU (lowNat x) (lowNat y) (2 ^ 32 - 1)).2 : Nat))
  | _ => none

/-- R178: the CSR instructions: destination, source register if any, immediate, number, whether it writes, and the new value. -/
def csrOf : Instr → Option (Reg × List Reg × Word × BitVec 12 × Bool × (Word → Word → Word))
  | .csrrw d a n => some (d, [a], 0, n, true, fun _ v => v)
  | .csrrs d a n => some (d, [a], 0, n, decide (a ≠ 0), fun o v => o ||| v)
  | .csrrc d a n => some (d, [a], 0, n, decide (a ≠ 0), fun o v => o &&& ~~~v)
  | .csrrwi d u n => some (d, [], u.setWidth 64, n, true, fun _ v => v)
  | .csrrsi d u n => some (d, [], u.setWidth 64, n, decide (u ≠ 0), fun o v => o ||| v)
  | .csrrci d u n => some (d, [], u.setWidth 64, n, decide (u ≠ 0), fun o v => o &&& ~~~v)
  | _ => none

/-- R179: the user CSR numbers. -/
def userCsrs : List Nat :=
  [0x001, 0x002, 0x003, 0x800, 0x801, 0x802, 0x803, 0x804, 0x808, 0x809, 0x80A, 0x80B, 0x80C, 0x80D, 0x80E, 0x80F, 0xC00, 0xC01,
   0xC02, 0xC03, 0xC04, 0xC05, 0xC06, 0xCC0, 0xCC1, 0xCC2, 0xCC3, 0xCC4, 0xCC5, 0xCC6]
/-- R374: the supervisor CSR numbers of context 0 and of a hub core. -/
def supCsrs (hub : Bool) : List Nat :=
  [0x104, 0x144, 0x141, 0x142, 0x143, 0x14D, 0x5D0, 0x5D1, 0x5D2, 0x5D3, 0x5D4] ++
  (if hub then [0x100, 0x105, 0x5E0, 0x5E1]
   else [0x5C0, 0x5C1, 0x5C2, 0x5C3, 0x5C8, 0x5C9, 0x5CA, 0x5CB, 0x5CC, 0x5CD, 0x5CE, 0x5CF, 0x5F0, 0x5F1, 0x5F2, 0x5F3])

/-- R119: a rounding-mode field after a write of `v`: 110 and 111 leave it. -/
def modeAfter (old v : Nat) : Nat := if v % 8 < 6 then v % 8 else old

/-- R127, R119, R180, R78, R123, R120, R128, R43: the writable user CSRs: the value read after a write of `v` where `old` was read. -/
def userCsrAfter (n : Nat) (old v : Word) : Option Word :=
  match n with
  | 0x001 => some (word (v.toNat % 32))
  | 0x002 | 0x802 => some (word (modeAfter old.toNat v.toNat))
  | 0x003 => some (word (v.toNat % 32 + 32 * modeAfter (old.toNat / 32) (v.toNat / 32)))
  | 0x800 => some (word (v.toNat / 16 * 16))
  | 0x801 => some (if v.toNat % 2 ^ 32 = 0 then 1 else word (v.toNat % 2 ^ 32))
  | 0x803 | 0x804 => some (v &&& 0x1F1F1F1F1F1F1F1F)
  | 0x808 | 0x809 | 0x80A | 0x80B | 0x80C | 0x80D | 0x80E | 0x80F => some (word (v.toNat / 4 * 4))
  | _ => none

/-- R373: what a trap or interrupt leaves in a hub core: the saved pc and cause, SPP the prior mode, SPIE the prior SIE, SIE 0, supervisor
mode, the pc at BASE of `stvec`. -/
def hubEntered (c c' : Ctx) (int : Bool) (code : Nat) (epc tval : Word) : Prop :=
  c'.sup = true ∧ c'.status = .ready ∧ c'.pc = word (c.scsr.stvec.toNat / 4 * 4) ∧
  c'.scsr.sepc = word (epc.toNat / 4 * 4) ∧ c'.scsr.scause = word (code + if int then 2 ^ 63 else 0) ∧ c'.scsr.stval = tval ∧
  bitOf c'.scsr.sstatus 8 = c.sup ∧ bitOf c'.scsr.sstatus 5 = bitOf c.scsr.sstatus 1 ∧ bitOf c'.scsr.sstatus 1 = false ∧
  (∀ n, n ≠ 1 → n ≠ 5 → n ≠ 8 → bitOf c'.scsr.sstatus n = bitOf c.scsr.sstatus n) ∧
  c'.x = c.x ∧ c'.ucsr = c.ucsr ∧ c'.scsr.stvec = c.scsr.stvec

end Sys2Proof.Claims

/-- R168: division never traps; its results, at the limits and elsewhere, for every value of the operands; no flag changes. -/
def Obligations.DivisionResults : Prop :=
  ∀ (i : Instr) (rd rs1 rs2 : Reg) (f : Word → Word → Word), divisionOf i = some (rd, rs1, rs2, f) →
    (∀ (s s1 s2 : State) (a b : Word), unheld i s → operands [rs1, rs2] (some rd) s = .ok ([a, b], s1) →
      writeRd rd (f a b) s1 = .ok ((), s2) → exec i s = .next (doneIn i s (nextPc s2))) ∧
    (∀ (s t : State), unheld i s → (here s).claim = none → (here s).status = .ready → ordinary s rs1 → ordinary s rs2 → ordinary s rd → exec i s = .next t →
      (rd ≠ 0 → readX (getCtx t s.cur) rd = f (readX (here s) rs1) (readX (here s) rs2)) ∧
      (getCtx t s.cur).ucsr.fflags = (here s).ucsr.fflags ∧ (getCtx t s.cur).pc = (here s).pc + 4)

/-- R178: a CSR instruction: rd takes the old value and the CSR the new one; it is illegal where the CSR is not implemented, needs more privilege,
or is read-only and written. R178, R179, R374: which CSR accesses are legal. R5, R43, R78, R119, R120, R123, R127, R128, R180: what a user CSR reads
after it has been written; no other user CSR changes, but that `fcsr` and its two parts are one. -/
def Obligations.CsrAccesses : Prop :=
  (∀ (i : Instr) (rd : Reg) (srcs : List Reg) (imm : Word) (csr : BitVec 12) (writes : Bool) (f : Word → Word → Word),
     csrOf i = some (rd, srcs, imm, csr, writes, f) → ∀ (s : State), unheld i s →
     (csrLegal s csr.toNat writes = false → (here s).out = [] → exec i s = .next (takeTrap (issued s) s.cur 2 (here s).pc (iword i) (iword i) 0)) ∧
     (csrLegal s csr.toNat writes = true → ∀ (l : List Word) (s1 s2 s3 : State), operands srcs (some rd) s = .ok (l, s1) →
       (if writes then csrWrite csr.toNat (f (csrRead s1 csr.toNat) (if srcs = [] then imm else l.getD 0 0)) s1 = .ok ((), s2) else s2 = s1) →
       writeRd rd (csrRead s1 csr.toNat) s2 = .ok ((), s3) → exec i s = .next (doneIn i s (nextPc s3)))) ∧
  (∀ (s : State) (n : Nat) (writes : Bool), n < 4096 →
     (csrLegal s n writes = true ↔
       (n ∈ userCsrs ∨ ((here s).sup = true ∧ n ∈ supCsrs (isHub s.cur))) ∧ ¬ (n / 1024 = 3 ∧ writes = true))) ∧
  (∀ (s : State) (n : Nat) (v w : Word), userCsrAfter n (csrRead s n) v = some w → ∃ t, csrWrite n v s = .ok ((), t) ∧ csrRead t n = w ∧
     (∀ m ∈ userCsrs, m ≠ n → ¬ (n ≤ 3 ∧ m ≤ 3) → csrRead t m = csrRead s m) ∧
     csrRead t 3 = word ((csrRead t 1).toNat + 32 * (csrRead t 2).toNat))

/-- R186, R134, R148, R456: `ecall`, `ebreak`, `sret`, `wfi`, the fences, and words that encode nothing. R133, R67, R74: an instruction fetch that
cannot be made: cause 0 for an address that is not a multiple of 4, cause 1 for one outside the address space or in the scratchpad window. Rests
also on the model's choices: log entries 6, 22. -/
def Obligations.EnvironmentAndFetchFaults : Prop :=
  (∀ (s : State), steady s →
     exec .ecall s = .next (takeTrap (issued s) s.cur (if (here s).sup then 9 else 8) (here s).pc 0 0x73 0) ∧
     (isHub s.cur = true ∨ (getCore s (coreOf s.cur)).armbrk = false →
       exec .ebreak s = .next (takeTrap (issued s) s.cur 3 (here s).pc (here s).pc 0x100073 0)) ∧
     (isHub s.cur = false → (getCore s (coreOf s.cur)).armbrk = true → exec .ebreak s = .next (enterDebug s s.cur)) ∧
     ((here s).sup = false → exec .sret s = .next (takeTrap (issued s) s.cur 2 (here s).pc 0x10200073 0x10200073 0)) ∧
     ((here s).sup = true → exec .sret s = .next (doneIn .sret s (withHere s (trapReturn (isHub s.cur))))) ∧
     exec .wfi s = .next (doneIn .wfi s (nextPc s)) ∧
     (∀ rd rs1 imm, let own := (here s).sb = [] ∧ ∀ w ∈ s.writes, w.agent = s.cur → w.home = true
       (own → ∃ t, exec (.fenceI rd rs1 imm) s = .next (doneIn (.fenceI rd rs1 imm) s (nextPc t)) ∧
         (isHub s.cur = true → t = s) ∧
         (isHub s.cur = false → t = modCore s (coreOf s.cur) fun k => { k with icache := [] })) ∧
       (¬ own → exec (.fenceI rd rs1 imm) s = .next s)) ∧
     (∀ rd rs1 fm pred succ, (settled s s.cur .sys = true →
         exec (.fence rd rs1 fm pred succ) s = .next (doneIn (.fence rd rs1 fm pred succ) s (nextPc s))) ∧
       (settled s s.cur .sys = false → exec (.fence rd rs1 fm pred succ) s = .next (applyReqs s (visibleReqs s)))) ∧
     (∀ sc, (settled s s.cur sc = true → exec (.mfence sc) s = .next (doneIn (.mfence sc) s (nextPc s))) ∧
       (settled s s.cur sc = false → exec (.mfence sc) s = .next (if sc = .sys then applyReqs s (visibleReqs s) else s))) ∧
     (∀ w : BitVec 32, exec (.illegalInstruction w) s = .next (takeTrap (issued s) s.cur 2 (here s).pc (w.setWidth 64) (w.setWidth 64) 0))) ∧
  (∀ (s : State), steady s →
     ((here s).pc.toNat % 4 ≠ 0 →
       exec .instructionFetchFault s = .next (takeTrap (issued s) s.cur 0 (here s).pc (here s).pc 0 0)) ∧
     ((here s).pc.toNat % 4 = 0 → (canonical (here s).pc = false ∨ inWindow s s.cur (here s).pc.toNat = true) →
       exec .instructionFetchFault s = .next (takeTrap (issued s) s.cur 1 (here s).pc (here s).pc 0 0)))

/-- R373, R381, R382, R385: what taking a trap leaves: in a user context, in context 0, and in a hub core. R373: `sret`: on a hub core the pc, the
mode and SIE come back, SPIE becomes 1 and SPP 0; in context 0 only the pc changes. -/
def Obligations.TrapEntryAndReturn : Prop :=
  (∀ (s : State) (a cause : Nat) (epc tval iw : Word) (prstat : Nat),
     let t := takeTrap s a cause epc tval iw prstat
     let c := getCtx s a
     let c' := getCtx t a
     (isHub a = false → ctxNo a ≠ 0 →
       c'.status = .trapped ∧ c'.pc = epc ∧ c'.x = c.x ∧ c'.ucsr = c.ucsr ∧ c'.resv = c.resv.map (fun r => { r with valid := false }) ∧
       (∃ r, (getCore t (coreOf a)).waiting = (getCore s (coreOf a)).waiting ++ [r] ∧ c'.trapRec = some r ∧ r.ctx = ctxNo a ∧
         r.w0 = word (cause + ctxNo a * 2 ^ 8 + (instOf c).2 * 2 ^ 16 + c.space * 2 ^ 32) ∧ r.w1 = epc ∧ r.w2 = tval ∧
         r.w3 = word ((if cause = 0 ∨ cause = 1 ∨ cause = 12 then 0 else iw.toNat % 2 ^ 32) + prstat % 256 * 2 ^ 32))) ∧
     (isHub a = false → ctxNo a = 0 → a < Config.contexts →
       c'.status = .trapped ∧ c'.scsr.sepc = word (epc.toNat / 4 * 4) ∧ c'.scsr.scause = word cause ∧ c'.scsr.stval = tval ∧
       c'.x = c.x ∧ c'.ucsr = c.ucsr ∧ (getCore t (coreOf a)).waiting = (getCore s (coreOf a)).waiting ∧
       let h := fieldOf (getCore s (coreOf a)).scctl 8 6
       (getHub t h).esc = (getHub s h).esc ++ [coreOf a] ∧ bitOf (getCtx t (Config.contexts + h)).scsr.sip 18 = true) ∧
     (isHub a = true → hubEntered c c' false cause epc tval) ∧
     t.mem = s.mem ∧ t.spad = s.spad ∧ (getCtx t a).claim = none ∧ (c.claim = none → t.queues = s.queues) ∧
     (∀ u ∈ t.uio, u.agent ≠ a ∧ u.agent ≠ fetchAgent a) ∧
     (∀ n q, findQueue s n = some q → ∃ q', findQueue t n = some q' ∧
       { q' with items := q.items, claims := q.claims, openBag := q.openBag } = q ∧
       (∀ i ∈ q.items, (i.pos, i.entry) ∈ q'.items.map fun i => (i.pos, i.entry)) ∧
       (∀ k x, c.claim = some k → x ∈ k.taken → x.queue = some n →
         (x.item.pos, x.item.entry) ∈ q'.items.map fun i => (i.pos, i.entry)))) ∧
  (∀ (c : Ctx),
     (trapReturn false c = { c with pc := c.scsr.sepc }) ∧
     (let c' := trapReturn true c
      c'.pc = c.scsr.sepc ∧ c'.sup = bitOf c.scsr.sstatus 8 ∧ bitOf c'.scsr.sstatus 1 = bitOf c.scsr.sstatus 5 ∧
      bitOf c'.scsr.sstatus 5 = true ∧ bitOf c'.scsr.sstatus 8 = false ∧
      (∀ n, n ≠ 1 → n ≠ 5 → n ≠ 8 → bitOf c'.scsr.sstatus n = bitOf c.scsr.sstatus n) ∧
      { c' with pc := c.pc, sup := c.sup, scsr := { c'.scsr with sstatus := c.scsr.sstatus } } = c))

/-! Loads, stores and atomics -/

namespace Sys2Proof.Claims

/-- R169: base plus signed offset. -/
def baseOff (a : Word) (n : Int) : Word := BitVec.ofInt 64 (a.toInt + n)
/-- The signed or unsigned value of `n` little-endian bytes, as a 64-bit word. -/
def bytesWord (signed : Bool) (n : Nat) (b : List Byte) : Word :=
  if signed then BitVec.ofInt 64 (BitVec.ofNat (8 * n) (leNat b)).toInt else BitVec.ofNat 64 (leNat b)

/-- The signed or unsigned value of the low `n` bytes of a number, as a 64-bit word. -/
def valueWord (signed : Bool) (n v : Nat) : Word :=
  if signed then BitVec.ofInt 64 (BitVec.ofNat (8 * n) v).toInt else BitVec.ofNat 64 v

/-- R20, R37, R470: the access `o` that instruction `i` leaves outstanding in `s` under number `id`: where its value is to go, and the register that
waits for it; a slot is kept where its destination is a write end. -/
def openAccess (o : Outstanding) (i : Instr) (s : State) (id : Nat) (rd : Reg) (n : Nat) (signed atomic : Bool) (ord : Order) (els : List ReadElem) :
    Prop :=
  o.id = id ∧ o.pc = (here s).pc ∧ o.iw = iword i ∧ o.rd = rd ∧ o.vd = none ∧ o.size = n ∧ o.signed = signed ∧ o.atomic = atomic ∧
  o.order = ord ∧ o.elems = els ∧
  (ordinary s rd → o.slot = none ∧ o.marks = if rd = 0 then 0 else (1 : BitVec 56) <<< rd.toNat) ∧
  (∀ k, endNo rd = some k → isWriteEnd s s.cur k = true → o.slot = (endOf s s.cur k).queue ∧ o.marks = 0)

/-- State with a further access of the executing context outstanding, and its number used. -/
def withAccess (s : State) (o : Outstanding) : State := withHere s fun c => { c with out := c.out ++ [o] }

/-- R169, R170, R238, R240, R470: the load of instruction `i` issues in `s`, whose operands leave `s1`: of `n` bytes at `ea`. When it can be read now, its value
goes to `rd`; otherwise it is outstanding, and what it waits for has been asked. -/
def loadIssues (i : Instr) (s s1 : State) (rd : Reg) (ea : Word) (n : Nat) (signed sp : Bool) (ord : Order) (sc : Scope) : Prop :=
  acqClear s1 s1.cur = true → (ord = .rl ∨ ord = .ar → settled s1 s1.cur sc = true) →
  ∀ (ps : List Piece) (tags : List Nat) (s2 : State), resolve .read ea n sp s1 = .ok ((ps, tags), s2) → (here s2).scout = none →
    let e : ReadElem := ⟨0, 0, ea, ps, tags⟩
    let far := touches (waiting (here s2)) [e]
    let got := readElems s2.cur (readerOf s2.cur s2.nextId) (here s2).sb [e] s2
    mayAccess s2 s2.cur [e] = true →
    (∀ (v : Nat) (s3 s4 : State), far = false → got = .ok ([(e, v)], s3) → writeRd rd (valueWord signed n v) s3 = .ok ((), s4) →
      exec i s = .next (doneIn i s (nextPc s4))) ∧
    (∀ (w : ReadWait) (x : Word), (far = true ∧ w = .needs []) ∨ (far = false ∧ got = .error (w, x)) →
      ∃ o, openAccess o i s s2.nextId rd n signed false ord [e] ∧ o.reply = none ∧
        exec i s = .next (doneIn i s (nextPc (withAccess (applyReqs (takeId s2).2 (w.reqs (readerOf s2.cur s2.nextId))) o))))

/-- R169: the plain loads: destination, base, offset, size, and whether the value is sign-extended. -/
def loadOf : Instr → Option (Reg × Reg × BitVec 12 × Nat × Bool)
  | .lb d a m => some (d, a, m, 1, true)
  | .lh d a m => some (d, a, m, 2, true)
  | .lw d a m => some (d, a, m, 4, true)
  | .ld d a m => some (d, a, m, 8, true)
  | .lbu d a m => some (d, a, m, 1, false)
  | .lhu d a m => some (d, a, m, 2, false)
  | .lwu d a m => some (d, a, m, 4, false)
  | _ => none
/-- R169: the plain stores: source, base, offset and size. -/
def storeOf : Instr → Option (Reg × Reg × BitVec 12 × Nat)
  | .sb v a m => some (v, a, m, 1)
  | .sh v a m => some (v, a, m, 2)
  | .sw v a m => some (v, a, m, 4)
  | .sd v a m => some (v, a, m, 8)
  | _ => none

/-- R94, R171: the order of the aq and rl bits. -/
def aqrl (aq rl : Bool) : Order := match aq, rl with | true, true => .ar | true, false => .aq | false, true => .rl | false, false => .rlx

/-- R171 to R173, R243, R244: the atomics with a stored operand: destination, operand, address, operation, order, size and scope. -/
def atomicOf : Instr → Option (Reg × Reg × Reg × AOp × Order × Nat × Scope)
  | .sc d v a aq rl w => some (d, v, a, .sc, aqrl aq rl, if w then 8 else 4, .sys)
  | .amoswap d v a aq rl w => some (d, v, a, .swap, aqrl aq rl, if w then 8 else 4, .sys)
  | .amoadd d v a aq rl w => some (d, v, a, .add, aqrl aq rl, if w then 8 else 4, .sys)
  | .amoxor d v a aq rl w => some (d, v, a, .xor, aqrl aq rl, if w then 8 else 4, .sys)
  | .amoand d v a aq rl w => some (d, v, a, .and, aqrl aq rl, if w then 8 else 4, .sys)
  | .amoor d v a aq rl w => some (d, v, a, .or, aqrl aq rl, if w then 8 else 4, .sys)
  | .amomin d v a aq rl w => some (d, v, a, .min, aqrl aq rl, if w then 8 else 4, .sys)
  | .amomax d v a aq rl w => some (d, v, a, .max, aqrl aq rl, if w then 8 else 4, .sys)
  | .amominu d v a aq rl w => some (d, v, a, .minu, aqrl aq rl, if w then 8 else 4, .sys)
  | .amomaxu d v a aq rl w => some (d, v, a, .maxu, aqrl aq rl, if w then 8 else 4, .sys)
  | .xamAdd d v a o w sc => some (d, v, a, .add, o, if w then 8 else 4, sc)
  | .xamAnd d v a o w sc => some (d, v, a, .and, o, if w then 8 else 4, sc)
  | .xamOr d v a o w sc => some (d, v, a, .or, o, if w then 8 else 4, sc)
  | .xamXor d v a o w sc => some (d, v, a, .xor, o, if w then 8 else 4, sc)
  | .xamMin d v a o w sc => some (d, v, a, .min, o, if w then 8 else 4, sc)
  | .xamMax d v a o w sc => some (d, v, a, .max, o, if w then 8 else 4, sc)
  | .xamMinu d v a o w sc => some (d, v, a, .minu, o, if w then 8 else 4, sc)
  | .xamMaxu d v a o w sc => some (d, v, a, .maxu, o, if w then 8 else 4, sc)
  | .xamSwap d v a o w sc => some (d, v, a, .swap, o, if w then 8 else 4, sc)
  | .xamFadd d v a o sc => some (d, v, a, .fadd, o, 4, sc)
  | .xamBfadd2 d v a o sc => some (d, v, a, .bfadd2, o, 4, sc)
  | _ => none

/-- R244: the sum of two encodings of a format under rne, rounded once, subnormals kept. -/
def sumOf (f : FFmt) (a b : Nat) : Nat := (roundF f .rne false 0 (addV false (decodeF f a) (decodeF f b)).1).1

/-- R172, R244: what an atomic of `n` bytes stores: old value, operand, as integers. -/
def atomStores (op : AOp) (n m v : Nat) : Option Nat :=
  let s (x : Nat) : Int := (BitVec.ofNat (8 * n) x).toInt
  match op with
  | .add => some ((m + v) % 2 ^ (8 * n))
  | .and => some (m &&& v)
  | .or => some (m ||| v)
  | .xor => some (m ^^^ v)
  | .min => some (if s v < s m then v else m)
  | .max => some (if s m < s v then v else m)
  | .minu => some (if v < m then v else m)
  | .maxu => some (if m < v then v else m)
  | .swap => some v
  | .fadd => some (sumOf fp32 m v)
  | .bfadd2 => some (sumOf bf16 (m % 65536) (v % 65536) + 65536 * sumOf bf16 (m / 65536) (v / 65536))
  | _ => none

/-- R173: the instructions of the A extension, whose write leaves their own context's reservation valid. -/
def amoOf (i : Instr) : Bool :=
  match i with
  | .lr .. | .sc .. | .amoswap .. | .amoadd .. | .amoxor .. | .amoand .. | .amoor .. | .amomin .. | .amomax .. | .amominu .. | .amomaxu .. => true
  | _ => false

/-- State with the message of an atomic on its way under a new number. -/
def withAtomic (s : State) : Msg → State
  | .atomic op amo key size opnd expv order scope packet tags => { (takeId s).2 with
      atomics := s.atomics ++ [{ id := s.nextId, agent := s.cur, op, amo, pa := key, size, opnd, expv, order, scope, packet, tags }] }
  | _ => (takeId s).2

/-- R8, R37, R172, R243, R470: the atomic of instruction `i` issues in `s`, whose operands leave `s1`. The old value that its site gives at once goes to `rd`,
or is kept for the queue of a write end; a message on its way leaves the access outstanding. -/
def atomicIssues (i : Instr) (s s1 : State) (rd : Reg) (op : AOp) (ea : Word) (n : Nat) (v e : Word) (sp : Bool) (ord : Order) (sc : Scope) : Prop :=
  ∀ (b : Begun) (els : List ReadElem) (s2 : State), beginAtomic op (amoOf i) ea n v e sp ord sc s1 = .ok ((b, els), s2) →
    (∀ (m : Nat) (s3 : State), b = .done m → (∀ k, endNo rd = some k → isWriteEnd s s.cur k = false) →
      writeRd rd (valueWord true n m) s2 = .ok ((), s3) → exec i s = .next (doneIn i s (nextPc s3))) ∧
    (∀ (m k : Nat), b = .done m → endNo rd = some k → isWriteEnd s s.cur k = true →
      ∃ o, openAccess o i s s2.nextId rd n true true ord els ∧ o.reply = some (.value (word m)) ∧
        exec i s = .next (doneIn i s (nextPc (withAccess (takeId s2).2 o)))) ∧
    (∀ m, b = .sent m → ∃ o, openAccess o i s s2.nextId rd n true true ord els ∧ o.reply = none ∧
      exec i s = .next (doneIn i s (nextPc (withAccess (withAtomic s2 m) o))))

/-- R105, R240, R246: nothing holds the atomic of the executing context back: its address is aligned, no aq or ar access and no access of its own is still to be
performed, its store buffer is empty, and what a release waits for is done. -/
def atomicReady (s : State) (ea : Word) (n : Nat) (ord : Order) (sc : Scope) : Prop :=
  ea.toNat % n = 0 ∧ acqClear s s.cur = true ∧ (ord = .rl ∨ ord = .ar → settled s s.cur sc = true) ∧ (here s).sb = [] ∧ (here s).out = [] ∧
  ∀ w ∈ s.writes, w.agent = s.cur → w.home = true

/-- The bytes [a, a + n). -/
def within (a n k : Nat) : Prop := a ≤ k ∧ k < a + n

end Sys2Proof.Claims

/-- R169, R20, R470: a load of 1, 2, 4 or 8 bytes at base plus offset writes the value to rd, sign- or zero-extended, or is outstanding when its
value cannot be read yet. R169: a store of the low 1, 2, 4 or 8 bytes of its operand at base plus offset. R68, R166: what is read of memory of the
agent's own die, of which the die holds no copy, is what memory holds, little-endian; within one line it is read at once when nothing of the line
is on its way, held by the host, or still to be asked. Rests also on the model's choices: log entries 23, 24, 101, 102. -/
def Obligations.LoadsAndStores : Prop :=
  (∀ (i : Instr) (rd rs1 : Reg) (imm : BitVec 12) (n : Nat) (signed : Bool), loadOf i = some (rd, rs1, imm, n, signed) →
     ∀ (s s1 : State) (a : Word), unheld i s → operands [rs1] (some rd) s = .ok ([a], s1) →
       loadIssues i s s1 rd (baseOff a imm.toInt) n signed (rs1 == 2) .rlx .sys) ∧
  (∀ (s : State) (a r n key : Nat) (ea : Word) (tags : List Nat), 0 < n →
     let e : ReadElem := ⟨0, 0, ea, [(⟨.hbm (dieOf a), key⟩, n)], tags⟩
     let ks := keysOf e.pieces
     let own (l : Nat) : Prop := homeDie l = some (dieOf a) ∧ tfind (getDie s (dieOf a)).copies l = none
     isHub a = false → own (lineOf key) → own (lineOf (key + n - 1)) → n ≤ 128 →
     (∀ l s', readElems a r [] [e] s = .ok (l, s') → l = [(e, leNat (readBytes s.mem key n))] ∧ s'.mem = s.mem) ∧
     (lineOf key = lineOf (key + n - 1) → ownPending s a ks = false → writeWaits s (lineOf key) = false → laneHeld s a (lineOf key) = false →
       readNeeds s (lineOf key) (halvesIn (⟨.hbm (dieOf a), key⟩, n) (lineOf key)) = [] →
       ∃ s', readElems a r [] [e] s = .ok ([(e, leNat (readBytes s.mem key n))], s'))) ∧
  (∀ (i : Instr) (rs2 rs1 : Reg) (imm : BitVec 12) (n : Nat), storeOf i = some (rs2, rs1, imm, n) →
     ∀ (s s1 s2 : State) (a v : Word), unheld i s → operands [rs1, rs2] none s = .ok ([a, v], s1) →
       memWrite (baseOff a imm.toInt) (leBytes n v.toNat) (rs1 == 2) .rlx .sys s1 = .ok ((), s2) →
       exec i s = .next (doneIn i s (nextPc s2)))

/-- R238 to R240: scoped loads and stores of 1, 2, 4 or 8 bytes, at base plus offset times size; a misaligned address traps with cause 4 or 6. R73
to R76: a plain load whose bytes all lie in the scratchpad window reads the issuing cluster's scratchpad, little-endian, when the context's
instance owns every byte, and traps with cause 5 when it does not, or when the access leaves the window. R67: an address whose bits [63:57] differ
from bit 56 is an access fault of a load (5) or store (7). Rests also on the model's choices: log entries 23, 106, 110. -/
def Obligations.OtherAccesses : Prop :=
  ((∀ (rd rs1 : Reg) (off : BitVec 5) (sz : BitVec 2) (ord : Order) (sc : Scope) (s s1 : State) (a : Word),
     let i := Instr.mld rd rs1 off sz ord sc
     unheld i s → operands [rs1] (some rd) s = .ok ([a], s1) →
     let n : Nat := 2 ^ sz.toNat
     let ea := baseOff a (off.toInt * (n : Int))
     (canonical ea = true → ea.toNat % n ≠ 0 → (here s).out = [] →
       exec i s = .next (takeTrap (issued s) s.cur 4 (here s).pc ea (iword i) 0)) ∧
     (canonical ea = true → ea.toNat % n = 0 → loadIssues i s s1 rd ea n true (rs1 == 2) ord sc)) ∧
   (∀ (rs2 rs1 : Reg) (off : BitVec 5) (sz : BitVec 2) (ord : Order) (sc : Scope) (s s1 : State) (a v : Word),
     let i := Instr.mst rs2 rs1 off sz ord sc
     unheld i s → operands [rs1, rs2] none s = .ok ([a, v], s1) →
     let n : Nat := 2 ^ sz.toNat
     let ea := baseOff a (off.toInt * (n : Int))
     (canonical ea = true → ea.toNat % n ≠ 0 → (here s).out = [] → exec i s = .next (takeTrap (issued s) s.cur 6 (here s).pc ea (iword i) 0)) ∧
     (canonical ea = true → ea.toNat % n = 0 → ∀ (s2 : State), memWrite ea (leBytes n v.toNat) (rs1 == 2) ord sc s1 = .ok ((), s2) →
       exec i s = .next (doneIn i s (nextPc s2))))) ∧
  (∀ (i : Instr) (rd rs1 : Reg) (imm : BitVec 12) (n : Nat) (signed : Bool) (s : State), loadOf i = some (rd, rs1, imm, n, signed) →
     steady s → (here s).claim = none → ordinary s rs1 → ordinary s rd → rs1 ≠ 2 → acqClear s s.cur = true →
     let ea := baseOff (readX (here s) rs1) imm.toInt
     let off := ea.toNat - windowBase s s.cur
     canonical ea = true → inWindow s s.cur ea.toNat = true →
     let last := inWindow s s.cur (ea + word (n - 1)).toNat
     (last = true → ownsRange s s.cur off n = true → (here s).sb = [] →
       exec i s = .next (doneIn i s (nextPc (withHere s fun c =>
         writeX c rd (bytesWord signed n (readBytes s.spad (clusterOf s.cur * 2 ^ 24 + off) n)))))) ∧
     (last = true → ownsRange s s.cur off n = false →
       exec i s = .next (takeTrap (issued s) s.cur 5 (here s).pc ea (iword i) 0)) ∧
     (last = false → exec i s = .next (takeTrap (issued s) s.cur 5 (here s).pc ea (iword i) 0))) ∧
  ((∀ (i : Instr) (rd rs1 : Reg) (imm : BitVec 12) (n : Nat) (signed : Bool) (s : State), loadOf i = some (rd, rs1, imm, n, signed) →
     steady s → (here s).claim = none → ordinary s rs1 → ordinary s rd → acqClear s s.cur = true →
     let ea := baseOff (readX (here s) rs1) imm.toInt
     canonical ea = false → exec i s = .next (takeTrap (issued s) s.cur 5 (here s).pc ea (iword i) 0)) ∧
   (∀ (i : Instr) (rs2 rs1 : Reg) (imm : BitVec 12) (n : Nat) (s : State), storeOf i = some (rs2, rs1, imm, n) →
     steady s → (here s).claim = none → ordinary s rs1 → ordinary s rs2 → acqClear s s.cur = true →
     let ea := baseOff (readX (here s) rs1) imm.toInt
     canonical ea = false → exec i s = .next (takeTrap (issued s) s.cur 7 (here s).pc ea (iword i) 0)))

/-- R171 to R173, R234, R243, R470: an atomic writes the old value (of `sc`: 0 for success, 1 for failure), sign-extended, to rd, or pushes it, or
is outstanding when its site cannot act at once. `cas` expects the value of rd, which must not be a bound end. R104, R172, R244: at its site an
atomic returns the old value and stores the result, in one action; no other byte of memory or of the scratchpads changes. `fadd` and `bfadd2`
store sums rounded once under rne. `cas` stores when the old value is the one expected. R173, R245: a store invalidates the reservations on the
block, but that of an AMO not its own context's. Rests also on the model's choices: log entries 25, 83, 104, 106, 109. -/
def Obligations.AtomicOperations : Prop :=
  ((∀ (i : Instr) (rd rs2 rs1 : Reg) (op : AOp) (ord : Order) (n : Nat) (sc : Scope), atomicOf i = some (rd, rs2, rs1, op, ord, n, sc) →
     ∀ (s s1 : State) (a v : Word), unheld i s → operands [rs1, rs2] (some rd) s = .ok ([a, v], s1) →
       atomicIssues i s s1 rd op a n v 0 (rs1 == 2) ord sc) ∧
   (∀ (rd rs1 : Reg) (aq rl d : Bool) (s s1 : State) (a : Word), unheld (.lr rd rs1 aq rl d) s → operands [rs1] (some rd) s = .ok ([a], s1) →
     atomicIssues (.lr rd rs1 aq rl d) s s1 rd .lr a (if d then 8 else 4) 0 0 (rs1 == 2) (aqrl aq rl) .sys) ∧
   (∀ (rd rs2 rs1 : Reg) (ord : Order) (d : Bool) (sc : Scope) (s : State),
     let i := Instr.xamCas rd rs2 rs1 ord d sc
     unheld i s →
     (∀ k, endNo rd = some k → isBound s s.cur k = true → (here s).out = [] →
       exec i s = .next (takeTrap (issued s) s.cur 24 (here s).pc (word k) (iword i) 0)) ∧
     (ordinary s rd → ∀ (s1 : State) (a v : Word), operands [rs1, rs2] none s = .ok ([a, v], s1) →
       atomicIssues i s s1 rd .cas a (if d then 8 else 4) v (readX (here s1) rd) (rs1 == 2) ord sc))) ∧
  ((∀ (s s1 : State) (op : AOp) (amo sp : Bool) (ea v e : Word) (n : Nat) (ord : Order) (sc : Scope) (l : Loc) (tags : List Nat),
     resolve (if op = .lr then .read else .write) ea n sp s = .ok (([(l, n)], tags), s1) → s1.cur = s.cur →
     atomicReady s ea n ord sc → atomicReady s1 ea n ord sc →
     let opnd := v.toNat % 2 ^ (8 * n)
     let expv := e.toNat % 2 ^ (8 * n)
     (l.cls = .spad ∨ (l.cls = .hbm (dieOf s.cur) ∧ isHub s.cur = false ∧ siteNeeds s1 s.cur op l n opnd expv = none)) →
     let r := atSite s1 s.cur op amo l n opnd expv ord sc tags
     beginAtomic op amo ea n v e sp ord sc s = .ok ((.done r.1, [⟨0, 0, ea, [(l, n)], tags⟩]), r.2)) ∧
   (∀ (s : State) (a : Nat) (op : AOp) (amo : Bool) (l : Loc) (n v e : Nat) (ord : Order) (sc : Scope) (tags : List Nat), State.wf s = true →
     op ≠ .lr → op ≠ .sc →
     let old := leNat (readBytes (if l.cls = .spad then s.spad else s.mem) l.key n)
     let r := atSite s a op amo l n v e ord sc tags
     let here' := if l.cls = .spad then r.2.spad else r.2.mem
     let there := if l.cls = .spad then s.mem else s.spad
     let there' := if l.cls = .spad then r.2.mem else r.2.spad
     r.1 = old ∧ there' = there ∧
     (∀ k, ¬ within l.key n k → readByte here' k = readByte (if l.cls = .spad then s.spad else s.mem) k) ∧
     (∀ x, atomStores op n old v = some x → readBytes here' l.key n = leBytes n x) ∧
     (op = .cas → readBytes here' l.key n = leBytes n (if old = e then v else old)) ∧
     (atomStores op n old v ≠ none ∨ (op = .cas ∧ old = e) → ∀ b, b ≠ a ∨ amo = false → resvValid r.2 b (blockOf l) = false) ∧
     (amo = true → resvValid s a (blockOf l) = true → resvValid r.2 a (blockOf l) = true)))

/-! Cache instructions and the events of memory -/

namespace Sys2Proof.Claims

/-- R249, R250, R253: the cache operations that enter the store buffer: address register and kind. -/
def cacheOpOf : Instr → Option (Reg × SbKind)
  | .clFlush a => some (a, .flush)
  | .clClean a => some (a, .clean)
  | .clInval a => some (a, .inval)
  | _ => none

/-- The value that a list of written bytes leaves at address `k`: that of the last byte written there. -/
def lastAt (l : List (Nat × Byte)) (k : Nat) : Option Byte := l.reverse.findSome? fun b => if b.1 = k then some b.2 else none

/-- A memory `m'` is `m` with the bytes of `l` written in order, and differs from it nowhere else. -/
def wroteBytes (m m' : List Host.Cell) (l : List (Nat × Byte)) : Prop :=
  ∀ k, readByte m' k = (lastAt l k).getD (readByte m k)

/-- The bytes of a store buffer entry that lie in scratchpads, and those that lie in memory. -/
def spadPart (e : SbEntry) : List (Nat × Byte) := e.bytes.filterMap fun b => if b.1.1 then some (b.1.2, b.2) else none
def memPart (e : SbEntry) : List (Nat × Byte) := e.bytes.filterMap fun b => if b.1.1 then none else some (b.1.2, b.2)

/-- Memory that the device may cache (R68, R427). -/
def cachedMem (s : State) (key : Nat) : Prop :=
  (∃ d, (locOfKey s key).cls = .hbm d) ∨ (locOfKey s key).cls = .priv ∨ (locOfKey s key).cls = .host

end Sys2Proof.Claims

/-- R249 to R253, R148: the cache operations enter the store buffer with their line; in the scratchpad window, and on peer and shared memory,
`cl.flush`, `cl.clean` and `cl.inval` have no effect; `cl.inval` is illegal in user mode; `cl.zero` stores 128 zero bytes; `cl.pref` changes no
register, no queue and no scratchpad, and never traps. Rests also on the model's choices: log entries 23, 83. -/
def Obligations.CacheInstructions : Prop :=
  (∀ (i : Instr) (rs1 : Reg) (kind : SbKind) (s s1 : State) (a : Word), cacheOpOf i = some (rs1, kind) → unheld i s →
    (kind = .inval → (here s).sup = true) → operands [rs1] none s = .ok ([a], s1) → acqClear s1 s1.cur = true →
    (∀ (l : Loc) (tags : List Nat) (s2 : State), clResolve .read a s1 = .ok (some (l, tags), s2) →
      (l.cls ≠ .peer → l.cls ≠ .shared → (here s2).sb.length < 8 → exec i s = .next (doneIn i s (nextPc (withHere s2 fun c =>
        { c with sb := c.sb ++ [{ kind := kind, addr := l.key, bytes := [], tags := tags, ea := a, seq := s2.nextId }] })))) ∧
      (l.cls = .peer ∨ l.cls = .shared → exec i s = .next (doneIn i s (nextPc s2)))) ∧
    (canonical a = true → inWindow s1 s1.cur a.toNat = true → exec i s = .next (doneIn i s (nextPc s1)))) ∧
  (∀ (rs1 : Reg) (s : State), steady s → (here s).sup = false →
    exec (.clInval rs1) s = .next (takeTrap (issued s) s.cur 2 (here s).pc (iword (.clInval rs1)) (iword (.clInval rs1)) 0)) ∧
  (∀ (rs1 : Reg) (s s1 s2 : State) (a : Word) (l : Loc) (tags : List Nat), unheld (.clZero rs1) s → operands [rs1] none s = .ok ([a], s1) →
    acqClear s1 s1.cur = true → clResolve .write a s1 = .ok (some (l, tags), s2) → (here s2).sb.length < 8 →
    exec (.clZero rs1) s = .next (doneIn (.clZero rs1) s (nextPc (withHere s2 fun c => { c with sb := c.sb ++
      [{ kind := .zero, bytes := (List.range 128).map fun i => ((false, l.key + i), 0), tags := tags, ea := a, seq := s2.nextId }] })))) ∧
  (∀ (rs1 : Reg) (s s1 : State) (a : Word), unheld (.clZero rs1) s → operands [rs1] none s = .ok ([a], s1) → acqClear s1 s1.cur = true →
    canonical a = true → inWindow s1 s1.cur a.toNat = true →
    let off := (a.toNat - windowBase s1 s1.cur) / 128 * 128
    (ownsRange s1 s1.cur off 128 = true → (here s1).sb.length < 8 →
      exec (.clZero rs1) s = .next (doneIn (.clZero rs1) s (nextPc (withHere s1 fun c => { c with sb := c.sb ++
        [{ kind := .zero, bytes := (List.range 128).map fun i => ((true, clusterOf s1.cur * 2 ^ 24 + off + i), 0), ea := a, seq := s1.nextId }] })))) ∧
    (ownsRange s1 s1.cur off 128 = false → (here s).out = [] →
      exec (.clZero rs1) s = .next (takeTrap (issued s) s.cur 7 (here s).pc a (iword (.clZero rs1)) 0))) ∧
  (∀ (rs1 : Reg) (s s1 : State) (a : Word), unheld (.clPref rs1) s → operands [rs1] none s = .ok ([a], s1) → ∃ t,
    exec (.clPref rs1) s = .next (doneIn (.clPref rs1) s (nextPc t)) ∧ t.cur = s1.cur ∧ (here t).x = (here s1).x ∧
    t.queues = s1.queues ∧ t.spad = s1.spad ∧ (canonical a = false → t = s1))

/-- R80, R91, R470: a store enters the store buffer and changes no byte of memory; a load of the bytes of the youngest store reads them from
there, and one of a part of them waits; a register of the management window (R461) is read as it stands. R80, R89, R107, R470: an entry leaves its
store buffer in order: bytes of the scratchpads are written, bytes of memory go to their home; there a write is performed when no lease on its
line is live and nothing is still to be asked: exactly its bytes change. Rests also on the model's choices: log entries 23, 27. -/
def Obligations.StoreBuffers : Prop :=
  ((∀ (ea : Word) (b : List Byte) (sp : Bool) (ord : Order) (sc : Scope) (s s1 : State) (ps : List Piece) (tags : List Nat),
     acqClear s s.cur = true → resolve .write ea b.length sp s = .ok ((ps, tags), s1) → (here s1).sb.length < 8 →
     memWrite ea b sp ord sc s = .ok ((), withHere s1 fun c =>
       { c with sb := c.sb ++ [{ bytes := (keysOf ps).zip b, order := ord, scope := sc, tags := tags, ea := ea, seq := s1.nextId }] })) ∧
   (∀ (s : State) (a r : Nat) (old : List SbEntry) (e : SbEntry) (ps : List Piece) (b : List Byte), (∀ p ∈ ps, p.1.cls ≠ .mgmt) →
     e.bytes = (keysOf ps).zip b → (keysOf ps).length = b.length → (keysOf ps).Nodup → b ≠ [] →
     bytesOf s a r (old ++ [e]) ps = .ok (b, s)) ∧
   (∀ (s : State) (a r : Nat) (sb : List SbEntry) (ps : List Piece), (∀ p ∈ ps, p.1.cls ≠ .mgmt) →
     (∃ k ∈ keysOf ps, (sbByte sb k).isSome = true) → (∃ k ∈ keysOf ps, sbByte sb k = none) → ∃ w, bytesOf s a r sb ps = .error (.needs w)) ∧
   (∀ (s : State) (a r key n : Nat) (sb : List SbEntry),
     bytesOf s a r sb [(⟨.mgmt, key⟩, n)] = .ok (readMgBytes s (key / 2 ^ 52 - 1) (key % 2 ^ 52) n, s)) ∧
   (∀ (i : Instr) (rs2 rs1 : Reg) (imm : BitVec 12) (n : Nat) (s s1 : State) (v : Word) (ps : List Piece) (tags : List Nat),
     storeOf i = some (rs2, rs1, imm, n) → unheld i s → (here s).claim = none → ordinary s rs1 → ordinary s rs2 → acqClear s s.cur = true →
     v = readX (here s) rs2 → resolve .write (baseOff (readX (here s) rs1) imm.toInt) n (rs1 == 2) s = .ok ((ps, tags), s1) →
     s1.cur = s.cur → (here s1).sb.length < 8 → ∃ t, exec i s = .next t ∧
       (getCtx t s.cur).sb = (here s1).sb ++
         [{ bytes := (keysOf ps).zip (leBytes n v.toNat), order := .rlx, scope := .sys, tags := tags,
            ea := baseOff (readX (here s) rs1) imm.toInt, seq := s1.nextId }] ∧
       (∀ a, readByte t.mem a = readByte s1.mem a) ∧ (∀ a, readByte t.spad a = readByte s1.spad a) ∧
       (∀ r, readX (getCtx t s.cur) r = readX (here s1) r) ∧ (∀ a, a ≠ s.cur → getCtx t a = getCtx s1 a) ∧ t.queues = s1.queues)) ∧
  ((∀ (s : State) (a : Nat) (e : SbEntry) (rest : List SbEntry), a < Config.agents → (getCtx s a).sb = e :: rest →
     (mayLeave s a e = false → exec (.storeBufferLeave a) s =
       .next (if e.scope = .sys ∧ (e.order = .rl ∨ e.order = .ar) then applyReqs s (visibleReqs s) else s)) ∧
     (mayLeave s a e = true → ownsEntry s a e = true → State.wf s = true → ∃ t, exec (.storeBufferLeave a) s = .next t ∧
       (getCtx t a).sb = rest ∧
       t.mem = s.mem ∧ (e.kind = .store → wroteBytes s.spad t.spad (spadPart e)) ∧
       (e.kind = .store → ∀ b ∈ memPart e, unreachable s a (lineOf b.1 * 128) = false ∨ homeDie (lineOf b.1) = none →
         e.narrow = false ∨ (locOfKey s b.1).cls ≠ .mgmt →
         ∃ w ∈ t.writes, w.agent = a ∧ w.home = false ∧ w.kind = .store ∧ b ∈ w.bytes)) ∧
     (mayLeave s a e = true → ownsEntry s a e = false → atBoundary (getCtx s a) = true →
       ∃ t iw, exec (.storeBufferLeave a) s = .next (takeTrap t a 7 (getCtx s a).pc e.ea iw 0) ∧
         getCtx t a = { getCtx s a with sb := rest } ∧ t.mem = s.mem ∧ t.spad = s.spad ∧ t.writes = s.writes)) ∧
   (∀ (s : State) (id : Nat) (w : Write), s.writes.find? (fun x => x.id == id) = some w → w.home = false → w.kind = .store →
     unreachable s w.agent w.addr = false → heldByReset s id w.addr = false → behindOwn s w = false →
     laneBusyFrom s id (w.src.getD (stationOf w.agent)) (w.addr / 128) = false →
     (∃ b l, w.bytes = b :: l ∧ cachedMem s b.1) →
     (leaseOver s (w.addr / 128) = false → exec (.homeWritePerformed id) s = .next (arriveHome s w) ∧
       (w.atHome = false → ∀ x ∈ (arriveHome s w).writes, x.id = id → x.atHome = true ∧ x.inv = sharers s (w.addr / 128))) ∧
     (leaseOver s (w.addr / 128) = true → performNeeds (arriveHome s w) w = [] → State.wf s = true →
       ∃ t, exec (.homeWritePerformed id) s = .next t ∧ wroteBytes s.mem t.mem w.bytes ∧ t.spad = s.spad ∧
         (∀ x ∈ t.writes, x.id = id → x.home = true) ∧
         (∀ a b, a ≠ w.agent → b = w.addr / 128 → resvValid t a b = false) ∧ ∀ a, (getCtx t a).x = (getCtx s a).x)))

/-- R173: `lr` takes a reservation on the block; `sc` stores and gives 0 exactly when its context holds a valid one on the block, and gives 1 and
stores nothing when it does not; either way the reservation is gone. A write by another agent to the block, a trap, and 4,096 cycles end a
reservation. R173, R175: a reservation is void 4,096 cycles after its `lr`; a priority reservation ends at its time; a qualification lapses. Rests
also on the model's choices: log entries 83, 104. -/
def Obligations.Reservations : Prop :=
  (∀ (s : State) (a : Nat) (amo : Bool) (l : Loc) (n v : Nat) (ord : Order) (sc : Scope) (tags : List Nat), State.wf s = true →
     let b := blockOf l
     (let r := atSite s a .lr amo l n 0 0 ord sc tags
      r.1 = leNat (readBytes (if l.cls = .spad then s.spad else s.mem) l.key n) ∧ r.2.mem = s.mem ∧ r.2.spad = s.spad ∧
      ∃ x, (getCtx r.2 a).resv = some x ∧ x.block = b ∧ x.since = s.clock ∧ x.valid = true) ∧
     (resvValid s a b = true →
       let r := atSite s a .sc amo l n v 0 ord sc tags
       r.1 = 0 ∧ (getCtx r.2 a).resv = none ∧
       readBytes (if l.cls = .spad then r.2.spad else r.2.mem) l.key n = leBytes n v) ∧
     (resvValid s a b = false →
       let r := atSite s a .sc amo l n v 0 ord sc tags
       r.1 = 1 ∧ (getCtx r.2 a).resv = none ∧ r.2.mem = s.mem ∧ r.2.spad = s.spad) ∧
     (∀ x, (getCtx s a).resv = some x → x.block ≠ b ∨ x.valid = false ∨ x.since + 4096 ≤ s.clock → resvValid s a b = false) ∧
     (∀ by_, by_ ≠ a → resvValid (killResv s b by_) a b = false)) ∧
  ((∀ (s : State) (a : Nat) (r : Resv), a < Config.agents → (getCtx s a).resv = some r →
     (r.since + 4096 ≤ s.clock → ∃ t, exec (.reservationExpiry a) s = .next t ∧
       (getCtx t a).resv = some { r with valid := false } ∧ t.mem = s.mem ∧ ∀ b, b ≠ a → getCtx t b = getCtx s b) ∧
     (s.clock < r.since + 4096 → exec (.reservationExpiry a) s = .next s)) ∧
   (∀ (s : State) (a : Nat) (q : Qual), a < Config.agents → (getCtx s a).qual = some q →
     (q.until_ < s.clock → ∃ t, exec (.qualificationLapse a) s = .next t ∧ (getCtx t a).qual = none ∧ t.mem = s.mem) ∧
     (s.clock ≤ q.until_ → exec (.qualificationLapse a) s = .next s)) ∧
   (∀ (s : State) (a : Nat) (r : Resv) (p : Nat), (getCtx s a).resv = some r → r.prio = some p → p ≤ s.clock → a < Config.agents →
     tfind s.ctxs a ≠ none → ∃ t, exec (.priorityReservationEnd r.block) s = .next t ∧
       (getCtx t a).resv = some { r with prio := none } ∧ t.mem = s.mem))

namespace Sys2Proof.Claims

/-- R20, R37, R237, R470: what an access `o` that is the only one outstanding of context `a` comes to when a turn begins: its value is written to its register,
or to the rows of its vector, or is pushed; while it cannot be read nothing of the context changes; when it has failed its trap is taken. -/
def outstandingDone : Prop :=
  (∀ (s s' : State) (a : Nat) (o : Outstanding) (l : List (ReadElem × Nat)), (getCtx s a).out = [o] → o.reply = none → o.atomic = false →
     lostElem s a o = none →
     readElems a (readerOf a o.id) ((getCtx s a).sb.filter fun e => decide (e.seq ≤ o.id)) o.elems s = .ok (l, s') →
     (getCtx s' a).out = [o] → (getCtx s' a).stepping = false → (o.vd = none → o.slot = none) →
     let t := settleOut s a
     (getCtx t a).out = [] ∧ t.mem = s'.mem ∧ t.queues = s'.queues ∧
       (o.vd = none →
         getCtx t a = { writeX (getCtx s' a) o.rd (valueWord o.signed o.size ((l.map (·.2)).getD 0 0)) with out := [] }) ∧
       (∀ vd, o.vd = some vd → getCtx t a = { writeRows vd o.size l (getCtx s' a) with out := [] })) ∧
  (∀ (s : State) (a : Nat) (o : Outstanding) (w : ReadWait) (x : Word), (getCtx s a).out = [o] → o.reply = none → o.atomic = false →
     lostElem s a o = none → w ≠ .failed →
     readElems a (readerOf a o.id) ((getCtx s a).sb.filter fun e => decide (e.seq ≤ o.id)) o.elems s = .error (w, x) →
     tryLoad s a o = applyReqs s (w.reqs (readerOf a o.id))) ∧
  (∀ (s : State) (a : Nat) (o : Outstanding) (v : Word), o.reply = some (.value v) →
     let v' := if o.atomic then valueWord true o.size (v.toNat % 2 ^ (8 * o.size)) else v
     (o.slot = none → deliver s a o = modCtx (setOut s a o.id none) a fun c => writeX c o.rd v') ∧
     (∀ n q, o.slot = some n → findQueue s n = some q → (getCtx s a).out = [o] → canPush s q a (dataEntry 0) (some o.id) = true →
       settledBefore s a o.id (queueScope q) = true → (q.coil = true → clusterOf a = q.core / 256 ∨ hasCredit s (q.core / 256) = true) →
       deliver s a o = pushQueue (setOut s a o.id none) q a (dataEntry v'))) ∧
  (∀ (s : State) (a : Nat) (o : Outstanding) (cause : Nat) (tv : Word), isHub a = false → ctxNo a ≠ 0 → (getCtx s a).out = [o] →
     (o.reply = some (.trap cause tv) ∨ (o.reply = some .offline ∧ cause = 30 ∧ tv = 0)) → atBoundary (getCtx s a) = true →
     let c := getCtx (settleOut s a) a
     c.status = .trapped ∧ c.out = [] ∧ c.pc = (if o.order = .aq ∨ o.order = .ar then o.pc else (getCtx s a).pc) ∧ c.x = (getCtx s a).x ∧
       c.ucsr.instret = (getCtx s a).ucsr.instret - 1 ∧
       ∃ r, c.trapRec = some r ∧ r.w0.toNat % 256 = cause % 256 ∧ (tv ≠ 0 → r.w2 = tv) ∧ (∀ e l, tv = 0 → o.elems = e :: l → r.w2 = e.ea)) ∧
  (∀ (s : State) (a : Nat) (o : Outstanding), atBoundary (getCtx s a) = false → o ∈ (getCtx s a).out → faultOut s a = s) ∧
  (∀ (i : Instr) (srcs : List Reg) (rd : Reg) (s : State), registerOnly i = some (srcs, rd) → (here s).scout = none → (here s).claim = none →
     (∀ r ∈ srcs, ordinary s r) → ordinary s rd →
     (∃ o ∈ (here s).out, (∃ r ∈ srcs, r ≠ 0 ∧ o.marks.getLsbD r.toNat = true) ∨ o.order = .aq ∨ o.order = .ar) → exec i s = .next s) ∧
  (∀ s : State, (here s).scout = none → (here s).out ≠ [] → exec .ecall s = .next s)

end Sys2Proof.Claims

/-- R105, R243, R245: an atomic to memory of another die, of the host, or of tier two, or whose site cannot act at once, goes to its site as a
message; the reply completes it. R20, R237, R470: what an outstanding access comes to, and what waits for it: an instruction that reads its
register, every later one when it is of order aq or ar, and a trap. R428: the operation packet of an atomic on peer or shared memory, and what its
completer takes. R104, R105, R237, R247, R428: an atomic on its way is performed at its home as one action, and its reply goes back with the old
value; one to an offline die is answered OFFLINE; an operation packet brings the old value, or cause 7. R427, R436: data of unordered I/O come
back to the line that was read, or the read is marked failed; a private tier-two line is placed in the hub's directory. Rests also on the model's
choices: log entries 25, 60, 61, 77, 110. -/
def Obligations.MessagesAndReplies : Prop :=
  ((∀ (i : Instr) (rd rs2 rs1 : Reg) (op : AOp) (ord : Order) (n : Nat) (sc : Scope) (s : State),
     atomicOf i = some (rd, rs2, rs1, op, ord, n, sc) → steady s → (here s).claim = none → ordinary s rs1 → ordinary s rs2 → ordinary s rd →
     (readX (here s) rs1).toNat % n ≠ 0 → exec i s = .next (takeTrap (issued s) s.cur 6 (here s).pc (readX (here s) rs1) (iword i) 0)) ∧
   (∀ (s s1 : State) (op : AOp) (amo sp : Bool) (ea v e : Word) (n : Nat) (ord : Order) (sc : Scope) (l : Loc) (tags : List Nat),
     resolve (if op = .lr then .read else .write) ea n sp s = .ok (([(l, n)], tags), s1) → s1.cur = s.cur →
     atomicReady s ea n ord sc → atomicReady s1 ea n ord sc →
     (l.cls = .host ∨ l.cls = .priv ∨ l.cls = .mgmt ∨ (∃ d, l.cls = .hbm d ∧ (d ≠ dieOf s.cur ∨ isHub s.cur = true ∨
        siteNeeds s1 s.cur op l n (v.toNat % 2 ^ (8 * n)) (e.toNat % 2 ^ (8 * n)) ≠ none)) ∨
        ((l.cls = .shared ∨ l.cls = .peer) ∧ op ≠ .lr ∧ op ≠ .sc)) →
     beginAtomic op amo ea n v e sp ord sc s =
       .ok ((.sent (.atomic op amo l.key n v e ord sc (decide (l.cls = .shared ∨ l.cls = .peer)) tags), [⟨0, 0, ea, [(l, n)], tags⟩]), s1))) ∧
  ((∀ (s : State) (id : Nat) (m : Atomic), s.atomics.find? (fun x => x.id == id && !x.packet) = some m →
     (unreachable s m.agent m.pa = false → heldByReset s id m.pa = false →
       laneBusyFrom s id (m.src.getD (stationOf m.agent)) (lineOf m.pa) = false →
       let s0 := { s with atomics := s.atomics.map fun x => if x.id = id then { x with atHome := true } else x }
       let l := locOfKey s0 m.pa
       let o := m.opnd.toNat % 2 ^ (8 * m.size)
       let e := m.expv.toNat % 2 ^ (8 * m.size)
       behindLoad s0 m = false → l.cls ≠ .mgmt → siteNeeds { s0 with resets := [] } m.agent m.op l m.size o e (some id) = none →
       let r := atSite s0 m.agent m.op m.amo l m.size o e m.order m.scope m.tags
       exec (.homeAtomic id) s =
         .next (answer { stamp s0.nextId m.src m.group r.2 with atomics := r.2.atomics.filter fun x => x.id != id } m.agent id (.value (word r.1)))) ∧
     (unreachable s m.agent m.pa = true → m.op ≠ .lr → m.op ≠ .sc → exec (.offlineReply id) s =
       .next (answer { s with atomics := s.atomics.filter fun x => x.id != id } m.agent id .offline))) ∧
   (∀ (s : State) (id : Nat) (m : Atomic) (ok : Bool) (old : Word), s.atomics.find? (fun x => x.id == id && x.packet) = some m →
     exec (.operationPacketCompletion id ok old) s = .next (answer { s with atomics := s.atomics.filter fun x => x.id != id } m.agent id
       (if ok && packetTaken (opPacket m) then .value old else .trap 7 0)) ∧
     exec (.uioCompletionTimeout id) s =
       .next (answer { s with atomics := s.atomics.filter fun x => x.id != id } m.agent id (.trap 7 0))) ∧
   (∀ (m : Atomic) (i : Nat), 0 < m.size → m.size ≤ 8 →
     let b := opPacket m
     b.length = 32 ∧ leNat (b.take 8) = m.pa % 2 ^ 52 ∧ leNat ((b.drop 8).take 8) = m.opnd.toNat % 2 ^ (8 * m.size) ∧
     (m.op = .cas → leNat ((b.drop 16).take 8) = m.expv.toNat % 2 ^ (8 * m.size)) ∧ (m.op ≠ .cas → leNat ((b.drop 16).take 8) = 0) ∧
     b.getD 24 0 = BitVec.ofNat 8 m.op.code ∧ (b.getD 25 0).toNat = m.size / 8 ∧ b.getD 26 0 = 1 ∧ (27 ≤ i → b.getD i 0 = 0) ∧
     (m.op ≠ .lr → m.op ≠ .sc → m.size = 4 ∨ (m.size = 8 ∧ m.op ≠ .fadd ∧ m.op ≠ .bfadd2) → m.pa % m.size = 0 → packetTaken b = true)) ∧
   (∀ (s : State) (a id : Nat) (r : Reply), a < Config.agents → (getCtx s a).sent = some id →
     (getCtx (answer s a id r) a).reply = some r ∧ (getCtx (answer s a id r) a).x = (getCtx s a).x ∧
     (answer s a id r).mem = s.mem) ∧
   (∀ (s : State) (a id : Nat) (r : Reply), a < Config.agents → (getCtx s a).sent ≠ some id → (∃ o ∈ (getCtx s a).out, o.id = id ∧ o.atomic = true) →
     getCtx (answer s a id r) a = { getCtx s a with out := (getCtx s a).out.map fun o => if o.id = id then { o with reply := some r } else o } ∧
     (answer s a id r).mem = s.mem)) ∧
  outstandingDone ∧
  (∀ (s : State) (id : Nat) (u : UioRead) (data : BitVec 1024),
     s.uio.find? (fun x => x.id == id && x.data.isNone && !x.failed) = some u →
     (u.agent ≠ Config.agents →
       (∃ t, exec (.uioCompletion id true data) s = .next t ∧ t.mem = s.mem ∧ ∀ x ∈ t.uio, x.id = id → x.data = some data) ∧
       (∃ t, exec (.uioCompletion id false data) s = .next t ∧ t.mem = s.mem ∧ ∀ x ∈ t.uio, x.id = id → x.failed = true) ∧
       ((∀ m ∈ s.atomics, m.id ≠ id) → ∃ t, exec (.uioCompletionTimeout id) s = .next t ∧ ∀ x ∈ t.uio, x.id = id → x.failed = true)) ∧
     (u.agent = Config.agents → State.wf s = true → u.pa % 128 = 0 → ∃ t, exec (.uioCompletion id true data) s = .next t ∧
       readLine t.mem (u.pa / 128) = data ∧ u.pa / 128 ∈ t.tier2 ∧ (∀ k, lineOf k ≠ u.pa / 128 → readByte t.mem k = readByte s.mem k))) ∧
  (∀ (s : State) (id : Nat) (x : WriteBack) (data : BitVec 1024), (∀ u ∈ s.uio, u.id ≠ id) → (∀ w ∈ s.writes, w.id ≠ id) →
     s.backs.find? (fun b => b.id == id) = some x → ∃ t, exec (.uioCompletion id true data) s = .next t ∧ t.mem = s.mem ∧ (∀ b ∈ t.backs, b.id ≠ id) ∧
       tfind t.stale x.line = if readLine s.mem x.line = x.data then none else some x.data) ∧
  (∀ (s : State) (id : Nat) (w : Write) (data : BitVec 1024), (∀ u ∈ s.uio, u.id ≠ id) →
     s.writes.find? (fun x => x.id == id && !x.home && uncached s (x.addr / 128)) = some w →
     exec (.uioCompletion id true data) s = .next { s with writes := s.writes.filter fun x => x.id != id } ∧
     (w.agent < Config.agents → atBoundary (getCtx s w.agent) = true → (getCtx s w.agent).status = .ready →
       ∃ t iw, exec (.uioCompletion id false data) s = .next (takeTrap t w.agent 7 (getCtx s w.agent).pc w.ea iw 0) ∧
         t.writes = s.writes.filter (fun x => x.id != id) ∧ t.mem = s.mem ∧ getCtx t w.agent = getCtx s w.agent))

/-! Single precision -/

namespace Sys2Proof.Claims

/-- R176: the instructions that round one exact result to single precision: destination, sources, mode, and the exact result with the flags
raised before rounding, from the values of the sources; the first argument says that the mode is rdn. -/
def floatOf : Instr → Option (Reg × List Reg × RMode × (Bool → List Val → Val × BitVec 5))
  | .faddS d a b rm => some (d, [a, b], rm, fun z l => addV z (l.getD 0 (.nan false)) (l.getD 1 (.nan false)))
  | .fsubS d a b rm => some (d, [a, b], rm, fun z l => addV z (l.getD 0 (.nan false)) (l.getD 1 (.nan false)).negate)
  | .fmulS d a b rm => some (d, [a, b], rm, fun _ l => mulV (l.getD 0 (.nan false)) (l.getD 1 (.nan false)))
  | .fdivS d a b rm => some (d, [a, b], rm, fun _ l => divV (l.getD 0 (.nan false)) (l.getD 1 (.nan false)))
  | .fsqrtS d a rm => some (d, [a], rm, fun _ l => sqrtV (l.getD 0 (.nan false)))
  | .fmaddS d a b c rm =>
    some (d, [a, b, c], rm, fun z l => fmaV z false false (l.getD 0 (.nan false)) (l.getD 1 (.nan false)) (l.getD 2 (.nan false)))
  | .fmsubS d a b c rm =>
    some (d, [a, b, c], rm, fun z l => fmaV z false true (l.getD 0 (.nan false)) (l.getD 1 (.nan false)) (l.getD 2 (.nan false)))
  | .fnmsubS d a b c rm =>
    some (d, [a, b, c], rm, fun z l => fmaV z true false (l.getD 0 (.nan false)) (l.getD 1 (.nan false)) (l.getD 2 (.nan false)))
  | .fnmaddS d a b c rm =>
    some (d, [a, b, c], rm, fun z l => fmaV z true true (l.getD 0 (.nan false)) (l.getD 1 (.nan false)) (l.getD 2 (.nan false)))
  | _ => none

/-- The value of bits [31:0] of a register in single precision. -/
def single (w : Word) : Val := decodeF fp32 (lowNat w)

/-- R119: the mode in force: dynamic is `frm`; a reserved value there counts as rne. -/
def modeIn (s : State) (rm : RMode) : RMode := if rm = .dyn then (RMode.ofCode (here s).ucsr.frm.toNat).getD .rne else rm

/-- The executing context with flags raised in `fflags` and the generator put back. -/
def afterRound (s : State) (fl : BitVec 5) (g : BitVec 32) : State :=
  withHere s fun c => { c with ucsr := { c.ucsr with fflags := c.ucsr.fflags ||| fl, vseed := g } }

/-- The sign of an encoding; −0 and negative NaNs have it too. -/
def signOf (w : Word) : Nat := lowNat w / 2 ^ 31

/-- R176: the sign injections: destination, sources and the sign of the result. -/
def signInject : Instr → Option (Reg × Reg × Reg × (Nat → Nat → Nat))
  | .fsgnjS d a b => some (d, a, b, fun _ y => y)
  | .fsgnjnS d a b => some (d, a, b, fun _ y => 1 - y)
  | .fsgnjxS d a b => some (d, a, b, fun x y => (x + y) % 2)
  | _ => none

/-- R177: the comparisons: destination, sources, whether only a signaling NaN raises NV, and the result for numbers. -/
def floatCompare : Instr → Option (Reg × Reg × Reg × Bool × (Val → Val → Bool))
  | .feqS d a b => some (d, a, b, true, eqV)
  | .fltS d a b => some (d, a, b, false, ltV)
  | .fleS d a b => some (d, a, b, false, fun x y => ltV x y || eqV x y)
  | _ => none

/-- R125, R176: the conversions to integers: destination, source, mode, bits, and the range. -/
def floatToInt : Instr → Option (Reg × Reg × RMode × Nat × Int × Int)
  | .fcvtWS d a rm => some (d, a, rm, 32, -2 ^ 31, 2 ^ 31 - 1)
  | .fcvtWuS d a rm => some (d, a, rm, 32, 0, 2 ^ 32 - 1)
  | .fcvtLS d a rm => some (d, a, rm, 64, -2 ^ 63, 2 ^ 63 - 1)
  | .fcvtLuS d a rm => some (d, a, rm, 64, 0, 2 ^ 64 - 1)
  | _ => none

/-- R176: the conversions from integers: destination, source, mode, and the integer. -/
def intToFloat : Instr → Option (Reg × Reg × RMode × (Word → Int))
  | .fcvtSW d a rm => some (d, a, rm, lowInt)
  | .fcvtSWu d a rm => some (d, a, rm, fun x => lowNat x)
  | .fcvtSL d a rm => some (d, a, rm, fun x => x.toInt)
  | .fcvtSLu d a rm => some (d, a, rm, fun x => x.toNat)
  | _ => none

/-- R176: the class of an encoding, one of ten. -/
def classOf (n : Nat) : Nat :=
  match decodeF fp32 n with
  | .inf true => 0
  | .inf false => 7
  | .nan true => 8
  | .nan false => 9
  | .fin true m _ _ => if m = 0 then 3 else if m < 2 ^ 23 then 2 else 1
  | .fin false m _ _ => if m = 0 then 4 else if m < 2 ^ 23 then 5 else 6

/-- A finite value as a number of units 2^E; `E` is at most its exponent. -/
def units (E : Int) : Val → Option Int
  | .fin n m e _ => some ((if n then -1 else 1) * (m * 2 ^ (e - E).toNat : Nat))
  | _ => none

/-- R126, R177: the exact values and flags that addition, multiplication, division, the square root and the fused operation give before they are rounded.
Finite values are compared as numbers of units 2^E. A quotient and a root are given to more bits than a format holds, with a mark when the value lies above
what is given. -/
def exactArithmetic : Prop :=
  (∀ (a b : Val) (rdn : Bool), a.isNan = true ∨ b.isNan = true → let fl := if a.isSnan || b.isSnan then fNV else 0
    addV rdn a b = (.nan false, fl) ∧ mulV a b = (.nan false, fl) ∧ divV a b = (.nan false, fl)) ∧
  (∀ (n n' m : Bool) (k : Nat) (e : Int) (rdn : Bool),
    addV rdn (.inf n) (.inf n') = (if n = n' then (.inf n, 0) else (.nan false, fNV)) ∧
    addV rdn (.inf n) (.fin m k e false) = (.inf n, 0) ∧ addV rdn (.fin m k e false) (.inf n) = (.inf n, 0) ∧
    mulV (.inf n) (.inf n') = (.inf (n != n'), 0) ∧
    mulV (.inf n) (.fin m k e false) = (if k = 0 then (.nan false, fNV) else (.inf (n != m), 0)) ∧
    mulV (.fin m k e false) (.inf n) = (if k = 0 then (.nan false, fNV) else (.inf (m != n), 0)) ∧
    divV (.inf n) (.inf n') = (.nan false, fNV) ∧ divV (.inf n) (.fin m k e false) = (.inf (n != m), 0) ∧
    divV (.fin m k e false) (.inf n) = (.fin (m != n) 0 0 false, 0) ∧
    sqrtV (.inf n) = (if n then (.nan false, fNV) else (.inf false, 0)) ∧ sqrtV (.nan n) = (.nan false, if n then fNV else 0) ∧
    sqrtV (.fin m 0 e false) = (.fin m 0 0 false, 0) ∧ (k ≠ 0 → sqrtV (.fin true k e false) = (.nan false, fNV))) ∧
  (∀ (n1 n2 : Bool) (m1 m2 : Nat) (e1 e2 : Int) (rdn : Bool),
    let a : Val := .fin n1 m1 e1 false
    let b : Val := .fin n2 m2 e2 false
    (∃ n m e, addV rdn a b = (.fin n m e false, 0) ∧ ∀ E u v, E ≤ e1 → E ≤ e2 → E ≤ e → units E a = some u → units E b = some v →
      units E (.fin n m e false) = some (u + v) ∧ (u + v = 0 → n = if m1 = 0 ∧ m2 = 0 ∧ n1 = n2 then n1 else rdn)) ∧
    (∃ m e, mulV a b = (.fin (n1 != n2) m e false, 0) ∧ e = e1 + e2 ∧ ∀ E E' u v, E ≤ e1 → E' ≤ e2 → units E a = some u → units E' b = some v →
      units (E + E') (.fin (n1 != n2) m e false) = some (u * v)) ∧
    (m2 = 0 → divV a b = if m1 = 0 then (.nan false, fNV) else (.inf (n1 != n2), fDZ)) ∧
    (m2 ≠ 0 → m1 = 0 → divV a b = (.fin (n1 != n2) 0 0 false, 0)) ∧
    (m2 ≠ 0 → m1 ≠ 0 → ∃ (q k : Nat) (above : Bool), divV a b = (.fin (n1 != n2) q (e1 - e2 - k) above, 0) ∧ 2 ^ 100 ≤ q ∧
      q * m2 ≤ m1 * 2 ^ k ∧ m1 * 2 ^ k < (q + 1) * m2 ∧ (above = false ↔ q * m2 = m1 * 2 ^ k))) ∧
  (∀ (m : Nat) (e : Int), m ≠ 0 → ∃ (r j : Nat) (e' : Int) (above : Bool), sqrtV (.fin false m e false) = (.fin false r e' above, 0) ∧
    e = 2 * e' + j ∧ 2 ^ 100 ≤ r ∧ r * r ≤ m * 2 ^ j ∧ m * 2 ^ j < (r + 1) * (r + 1) ∧ (above = false ↔ r * r = m * 2 ^ j)) ∧
  (∀ (a b c : Val) (rdn np na : Bool), (a.isNan = true ∨ b.isNan = true ∨ c.isNan = true → (fmaV rdn np na a b c).1 = .nan false) ∧
    (a.isSnan = true ∨ b.isSnan = true ∨ c.isSnan = true ∨ (mulV a b).2 = fNV → (fmaV rdn np na a b c).2 = fNV) ∧
    (∀ n, (mulV a b).1 = .inf n → ∀ c', c = .inf c' → fmaV rdn np na a b c =
      if (n != np) = (c' != na) then (.inf (n != np), 0) else (.nan false, fNV)) ∧
    (∀ n m k e, (mulV a b).1 = .inf n → c = .fin m k e false → fmaV rdn np na a b c = (.inf (n != np), 0)) ∧
    (∀ n m k e, (mulV a b).1 = .fin m k e false → c = .inf n → fmaV rdn np na a b c = (.inf (n != na), 0)) ∧
    (∀ n1 m1 e1 n2 m2 e2 n3 m3 e3, a = .fin n1 m1 e1 false → b = .fin n2 m2 e2 false → c = .fin n3 m3 e3 false →
      ∃ n m e, fmaV rdn np na a b c = (.fin n m e false, 0) ∧ ∀ E E' u v w, E ≤ e1 → E' ≤ e2 → E + E' ≤ e3 → E + E' ≤ e →
        units E a = some u → units E' b = some v → units (E + E') c = some w →
        units (E + E') (.fin n m e false) = some ((if np then -1 else 1) * (u * v) + (if na then -1 else 1) * w)))

/-- R110: the floating formats. -/
def formats : List FFmt := [fp32, bf16, fp16, e5m2, e4m3, e2m1]

end Sys2Proof.Claims

/-- R126, R176, R177: sign injection, minimum and maximum, comparison and classification. R126: the lesser or the greater of two numbers, −0 below +0; a NaN
loses to a number, two give the canonical NaN, and a signaling one raises NV. -/
def Obligations.FloatSignsAndComparisons : Prop :=
  (∀ (i : Instr) (rd rs1 rs2 : Reg) (f : Nat → Nat → Nat), signInject i = some (rd, rs1, rs2, f) →
    ∀ (s s1 s2 : State) (a b : Word), unheld i s → operands [rs1, rs2] (some rd) s = .ok ([a, b], s1) →
      writeRd rd (sext32 (lowNat a % 2 ^ 31 + 2 ^ 31 * f (signOf a) (signOf b) : Nat)) s1 = .ok ((), s2) →
      exec i s = .next (doneIn i s (nextPc s2))) ∧
  (∀ (i : Instr) (rd rs1 rs2 : Reg) (quiet : Bool) (f : Val → Val → Bool), floatCompare i = some (rd, rs1, rs2, quiet, f) →
    ∀ (s s1 s2 : State) (a b : Word), unheld i s → operands [rs1, rs2] (some rd) s = .ok ([a, b], s1) →
      let nan := if quiet then (single a).isSnan || (single b).isSnan else (single a).isNan || (single b).isNan
      writeRd rd (if f (single a) (single b) then 1 else 0) (afterRound s1 (if nan then fNV else 0) (here s1).ucsr.vseed) = .ok ((), s2) →
      exec i s = .next (doneIn i s (nextPc s2))) ∧
  (∀ (rd rs1 rs2 : Reg) (max : Bool) (s s1 s2 : State) (a b : Word),
    let i := if max then Instr.fmaxS rd rs1 rs2 else Instr.fminS rd rs1 rs2
    unheld i s → operands [rs1, rs2] (some rd) s = .ok ([a, b], s1) →
    let r := minMaxF fp32 max (lowNat a) (lowNat b)
    writeRd rd (sext32 r.1) (afterRound s1 r.2 (here s1).ucsr.vseed) = .ok ((), s2) → exec i s = .next (doneIn i s (nextPc s2))) ∧
  (∀ (rd rs1 : Reg) (s s1 s2 : State) (a : Word), unheld (.fclassS rd rs1) s → operands [rs1] (some rd) s = .ok ([a], s1) →
    writeRd rd (word (2 ^ classOf (lowNat a))) s1 = .ok ((), s2) →
    exec (.fclassS rd rs1) s = .next (doneIn (.fclassS rd rs1) s (nextPc s2))) ∧
  (∀ (x y : Val), (x.isNan = true ∨ y.isNan = true → ltV x y = false ∧ eqV x y = false) ∧
    (∀ n m e n' m' e' a a', x = .fin n m e a → y = .fin n' m' e' a' → ∀ u v, units (min e e') x = some u → units (min e e') y = some v →
      (ltV x y = true ↔ u < v) ∧ (eqV x y = true ↔ u = v))) ∧
  (∀ (n : Bool) (x : Val), x.isNan = false → (ltV (.inf n) x = true ↔ n = true ∧ x ≠ .inf true) ∧ (ltV x (.inf n) = true ↔ n = false ∧ x ≠ .inf false)) ∧
  (∀ (f : FFmt) (max : Bool) (x y : Nat),
    let a := decodeF f x
    let b := decodeF f y
    let r := minMaxF f max x y
    r.2 = (if a.isSnan || b.isSnan then fNV else 0) ∧
    (a.isNan = true → b.isNan = true → r.1 = f.nan.getD 0) ∧ (a.isNan = true → b.isNan = false → r.1 = y) ∧
    (a.isNan = false → b.isNan = true → r.1 = x) ∧
    (a.isNan = false → b.isNan = false → (r.1 = x ∨ r.1 = y) ∧
      (ltV a b = true ∨ (eqV a b = true ∧ a.neg = true ∧ b.neg = false) → r.1 = if max then y else x) ∧
      (ltV b a = true ∨ (eqV a b = true ∧ a.neg = false ∧ b.neg = true) → r.1 = if max then x else y)))

/-- R176, R177: a single-precision operation rounds its exact result once, raises the flags, puts the generator back, and writes the encoding,
sign-extended, to rd. R125, R176, R177: conversions between single precision and integers. R126, R177: the exact results: of finite values the sum, the
product, the quotient and the root as they are in mathematics; the signs of zeros; and those of infinities, zeros by zero and NaNs, with NV and DZ. -/
def Obligations.FloatResults : Prop :=
  (∀ (i : Instr) (rd : Reg) (srcs : List Reg) (rm : RMode) (f : Bool → List Val → Val × BitVec 5), floatOf i = some (rd, srcs, rm, f) →
     ∀ (s s1 s2 : State) (l : List Word), unheld i s → operands srcs (some rd) s = .ok (l, s1) → l.length = srcs.length →
       let exact := f (decide (modeIn s1 rm = .rdn)) (l.map single)
       let r := roundF fp32 (modeIn s1 rm) false (here s1).ucsr.vseed exact.1
       writeRd rd (sext32 r.1) (afterRound s1 (exact.2 ||| r.2.1) r.2.2) = .ok ((), s2) → exec i s = .next (doneIn i s (nextPc s2))) ∧
  ((∀ (i : Instr) (rd rs1 : Reg) (rm : RMode) (n : Nat) (lo hi : Int), floatToInt i = some (rd, rs1, rm, n, lo, hi) →
     ∀ (s s1 s2 : State) (a : Word), unheld i s → operands [rs1] (some rd) s = .ok ([a], s1) →
       let r := roundInt lo hi (modeIn s1 rm) (here s1).ucsr.vseed (single a)
       writeRd rd (BitVec.ofInt 64 (BitVec.ofInt n r.1).toInt) (afterRound s1 r.2.1 r.2.2) = .ok ((), s2) →
       exec i s = .next (doneIn i s (nextPc s2))) ∧
   (∀ (i : Instr) (rd rs1 : Reg) (rm : RMode) (f : Word → Int), intToFloat i = some (rd, rs1, rm, f) →
     ∀ (s s1 s2 : State) (a : Word), unheld i s → operands [rs1] (some rd) s = .ok ([a], s1) →
       let r := roundF fp32 (modeIn s1 rm) false (here s1).ucsr.vseed (Val.ofInt (f a))
       writeRd rd (sext32 r.1) (afterRound s1 r.2.1 r.2.2) = .ok ((), s2) → exec i s = .next (doneIn i s (nextPc s2))) ∧
   (∀ (lo hi : Int) (mode : RMode) (g : BitVec 32), roundInt lo hi mode g (.nan false) = (hi, fNV, g) ∧
     roundInt lo hi mode g (.nan true) = (hi, fNV, g) ∧ roundInt lo hi mode g (.inf true) = (lo, fNV, g) ∧
     roundInt lo hi mode g (.inf false) = (hi, fNV, g)) ∧
   (∀ (lo hi : Int) (g : BitVec 32) (n : Bool) (m : Nat) (e u : Int), units (min e 0) (.fin n m e false) = some u →
     let q := u.tdiv (2 ^ (-e).toNat)
     roundInt lo hi .rtz g (.fin n m e false) =
       (if q < lo then (lo, fNV, g) else if hi < q then (hi, fNV, g) else (q, if q * 2 ^ (-e).toNat = u then 0 else fNX, g)))) ∧
  exactArithmetic

/-- R119, R121: rounding a finite value, where it does not overflow, gives an encoding of the format with no value of the format strictly
between; under rne no value of the format is nearer, and of two that are equally near the even one is taken; rdn gives no larger value, rup
no smaller one, rtz none of larger magnitude; NX is raised exactly when the value changes. -/
def Obligations.RoundingIsCorrect : Prop :=
  ∀ (f : FFmt) (mode : RMode) (sat : Bool) (g : BitVec 32) (n : Bool) (m : Nat) (e : Int), f ∈ formats →
    let E := min e (1 - (f.bias : Int) - f.frac)
    let out := roundF f mode sat g (.fin n m e false)
    out.2.1 &&& fOF = 0 → ∃ q r, units E (.fin n m e false) = some q ∧ units E (decodeF f out.1) = some r ∧ out.1 < 2 * f.signBit ∧
      (out.2.1 &&& fNX = 0 ↔ r = q) ∧
      (∀ k r', k < 2 * f.signBit → units E (decodeF f k) = some r' →
        ¬ (min q r < r' ∧ r' < max q r) ∧
        (mode = .rne → (q - r).natAbs ≤ (q - r').natAbs ∧ ((q - r).natAbs = (q - r').natAbs → r' = r ∨ out.1 % 2 = 0))) ∧
      (mode = .rdn → r ≤ q) ∧ (mode = .rup → q ≤ r) ∧ (mode = .rtz → r.natAbs ≤ q.natAbs)

/-! Which core and mode may execute an instruction -/

namespace Sys2Proof.Claims

/-- R26: the instructions that only context 0 executes. -/
def contextZero : Instr → Bool
  | .qBind .. | .qUnbind .. | .ctxStart .. | .ctxReap .. | .ctxResume .. => true
  | _ => false

/-- R429: further instructions that a hub core does not execute (the stage instructions but the cones and `ctx.self`, the tensor records,
pugs and the patch, and what acts on a barrel core's own memory). -/
def barrelCore : Instr → Bool
  | .qTok .. | .qCnt .. | .qPeek .. | .qTag .. | .qClose .. | .qBt .. | .ctxPark | .ctxExit | .evSet .. | .evClr .. | .evWait .. |
    .evWaitm .. | .evRd .. | .lnPost .. | .lnHash .. | .lnRep .. | .lnSnap .. | .lnReplay .. | .lnQuiet .. | .tidSet .. | .tidDrop .. |
    .tidGet .. | .pgOpen .. | .pgClose .. | .pgStat .. | .pxRun .. | .pxLoad .. | .tcIssue .. | .tcIssuev .. | .ownSet .. | .ownGet .. |
    .pmLoad .. => true
  | i => contextZero i

/-- R148, R162, R186: the instructions that are illegal in user mode. -/
def supervisorMode : Instr → Bool
  | .sret | .clInval .. | .cxRd .. | .cxWr .. | .ownSet .. | .ownGet .. | .pmReq .. | .pmLoad .. | .escRes .. => true
  | _ => false

/-- The illegal-instruction trap of an instruction (R134). -/
def illegal (i : Instr) (s : State) : State := takeTrap (issued s) s.cur 2 (here s).pc (iword i) (iword i) 0

end Sys2Proof.Claims

/-- R26, R134, R148, R372, R429: an instruction that the core or the mode may not execute traps and has no other effect: cause 26 for an
instruction of context 0 in another context, else cause 2. -/
def Obligations.CoreAndModeGates : Prop :=
  ∀ (i : Instr) (s : State), steady s →
    (isHub s.cur = true → barrelCore i = true → exec i s = .next (illegal i s)) ∧
    ((here s).sup = false → supervisorMode i = true → exec i s = .next (illegal i s)) ∧
    (isHub s.cur = false → ctxNo s.cur ≠ 0 → contextZero i = true →
      exec i s = .next (takeTrap (issued s) s.cur 26 (here s).pc (iword i) (iword i) 0))

/-! Queue instructions -/

namespace Sys2Proof.Claims

/-- R97, R240: what an acquire from end k waits for. -/
def acquired (s : State) (k : Nat) : Prop := coilEnd s k → acqClear s s.cur = true

/-- R40: the first entry that the coil of a read end holds for the executing context, which is at its owner. -/
def atOwner (s : State) (k : Nat) : Option (Queue × Item) :=
  ((endOf s s.cur k).queue.bind (findQueue s)).bind fun q => (localItems q s.cur).head?.map fun it => (q, it)

/-- R40, R194 to R196: the head of a read end, which a consumer of another core finds at the coil's owner. -/
def headEntry (s : State) (k : Nat) : Option Entry :=
  match offered s s.cur k, atOwner s k with
  | e :: _, _ => some e
  | [], some (q, it) => some (itemEntry s q it)
  | [], none => none

/-- R196: the state of the head of a read end, as `q.tag` returns it. -/
def headState (s : State) (k : Nat) : Word :=
  match headEntry s k with
  | some e => word e.tag.toNat
  | none => 16

/-- R40, R418: the slot of the head can be read now. -/
def headAtHand (s : State) (k : Nat) : Prop :=
  popNeeds s s.cur k = none ∧ (offered s s.cur k = [] → ∀ q it, atOwner s k = some (q, it) → slotNeeds s q it.pos .read = none)

/-- R199: what `q.bind` and `q.unbind` name: the target on the core of the executing context, and its end. -/
def bindTargetOf (s : State) (a : Word) : Nat := coreOf s.cur * 16 + a.toNat % 16
def bindEndOf (a : Word) : Nat := a.toNat / 16 % 8

/-- R199, R456: the target is TRAPPED, or PARKED on `ctx.park`, and not halted. -/
def bindable (s : State) (t : Nat) : Prop :=
  (getCtx s t).halted = none ∧ ((getCtx s t).status = .trapped ∨ (getCtx s t).status = .parked .self)

/-- R34, R39, R40: in `t` end `k` of context `a` is bound, in the direction asked, to the queue that was live, or to a new and empty one as its queue-table entry
describes it; every other end is as it was, and the end's register reads 0. -/
def endBound (s t : State) (a k idx : Nat) (write : Bool) (d : QDesc) (live : Option Queue) : Prop :=
  (∃ n, endOf t a k = { queue := some n, write := write } ∧ (∀ q, live = some q → n = q.id) ∧
    (live = none → (∀ q ∈ s.queues, q.id ≠ n) → ∃ q, findQueue t n = some q ∧ q.index = idx ∧ q.coil = d.coil ∧ q.depth = 2 ^ d.lgd ∧
      q.bag = (d.coil && d.bag) ∧ q.items = [] ∧ q.tail = 0)) ∧
  (getCtx t a).x.toList.getD (24 + k) 1 = 0 ∧ (∀ j, j ≠ k → endOf t a j = endOf s a j) ∧ (∀ b, b ≠ a → getCtx t b = getCtx s b) ∧ t.mem = s.mem

end Sys2Proof.Claims

/-- R196: `q.tag` returns the state of the head of a read end without parking, and without waiting for any earlier access. -/
def Obligations.QTagReturnsHeadState : Prop :=
  ∀ (rd : Reg) (k : BitVec 3) (s : State), unheld (.qTag rd k) s → isHub s.cur = false → ordinary s rd →
    isReadEnd s s.cur k.toNat = true → isLent s s.cur k.toNat = false → headAtHand s k.toNat →
    ∃ s1, exec (.qTag rd k) s = .next (doneIn (.qTag rd k) s (nextPc (withHere s1 fun c => writeX c rd (headState s k.toNat)))) ∧
      s1.mem = s.mem ∧ s1.spad = s.spad ∧ getCtx s1 s.cur = here s ∧ ((∀ q ∈ s.queues, q.bag = false) → ∀ n, findQueue s1 n = findQueue s n)

/-- R192, R193, R41: `q.tok` and `q.close` push a token through a write end, parking while it is full; `q.close` closes the end. R194, R195, R197,
R198, R201: `q.peek` returns the head's payload, parking while there is none; `q.cnt` returns the count of its table; `q.bt` pops a token of its
level or higher and branches, and falls through otherwise. Rests also on the model's choices: log entries 6, 98, 105. -/
def Obligations.QueueTokensAndHeads : Prop :=
  (∀ (k lvl : BitVec 3) (s : State), steady s → isHub s.cur = false →
     (isWriteEnd s s.cur k.toNat = false ∨ isLent s s.cur k.toNat = true ∨ (endOf s s.cur k.toNat).closed = true →
       exec (.qTok k lvl) s = .next (takeTrap (issued s) s.cur 24 (here s).pc (word k.toNat) (iword (.qTok k lvl)) 0) ∧
       exec (.qClose k) s = .next (takeTrap (issued s) s.cur 24 (here s).pc (word k.toNat) (iword (.qClose k)) 0)) ∧
     (∀ q, writable s k.toNat q →
       (canPush s q s.cur ⟨0, BitVec.ofNat 4 (8 + lvl.toNat)⟩ = false →
         exec (.qTok k lvl) s = .next (parkCtx (dropReads s s.cur) (.push k.toNat true)) ∧
         exec (.qClose k) s = .next (parkCtx (dropReads s s.cur) (.push k.toNat true))) ∧
       (canPush s q s.cur ⟨0, BitVec.ofNat 4 (8 + lvl.toNat)⟩ = true → pushReady s q →
         exec (.qTok k lvl) s =
           .next (doneIn (.qTok k lvl) s (nextPc (pushQueue s q s.cur ⟨0, BitVec.ofNat 4 (8 + lvl.toNat)⟩))) ∧
         let t := pushQueue s q s.cur ⟨0, 15⟩
         exec (.qClose k) s =
           .next (doneIn (.qClose k) s (nextPc (setEnd t t.cur k.toNat { endOf t t.cur k.toNat with closed := true })))))) ∧
  ((∀ (k : BitVec 3) (s : State), steady s → isHub s.cur = false →
     (isReadEnd s s.cur k.toNat = false ∨ isLent s s.cur k.toNat = true → ∀ rd lvl off,
       exec (.qPeek rd k) s = .next (takeTrap (issued s) s.cur 24 (here s).pc (word k.toNat) (iword (.qPeek rd k)) 0) ∧
       exec (.qTag rd k) s = .next (takeTrap (issued s) s.cur 24 (here s).pc (word k.toNat) (iword (.qTag rd k)) 0) ∧
       exec (.qBt k lvl off) s = .next (takeTrap (issued s) s.cur 24 (here s).pc (word k.toNat) (iword (.qBt k lvl off)) 0)) ∧
     (isReadEnd s s.cur k.toNat = true → isLent s s.cur k.toNat = false → popNeeds s s.cur k.toNat = none →
       headEntry s k.toNat = none → ∀ rd lvl off, ordinary s rd →
       exec (.qPeek rd k) s = .next (parkCtx (dropReads s s.cur) (.look k.toNat)) ∧
       exec (.qBt k lvl off) s = .next (parkCtx (dropReads s s.cur) (.look k.toNat))) ∧
     (isReadEnd s s.cur k.toNat = true → isLent s s.cur k.toNat = false → acquired s k.toNat → headAtHand s k.toNat →
       ∀ e, headEntry s k.toNat = some e →
       (∀ rd s1, ordinary s rd → inspect k s = .ok ((), s1) →
         exec (.qPeek rd k) s = .next (doneIn (.qPeek rd k) s (nextPc (withHere s1 fun c => writeX c rd e.payload)))) ∧
       (∀ lvl off, (e.isToken = true ∧ lvl.toNat ≤ e.level → ∀ e' s1, popHead s s.cur k.toNat = some (e', s1) →
           exec (.qBt k lvl off) s = .next (doneIn (.qBt k lvl off) s (atPc s1 (pcPlus s1 (4 * off.toInt))))) ∧
         (¬ (e.isToken = true ∧ lvl.toNat ≤ e.level) → ∀ s1, inspect k s = .ok ((), s1) →
           exec (.qBt k lvl off) s = .next (doneIn (.qBt k lvl off) s (nextPc s1)))))) ∧
   (∀ (rd : Reg) (k : BitVec 3) (s : State), steady s → isHub s.cur = false →
     (isBound s s.cur k.toNat = false →
       exec (.qCnt rd k) s = .next (takeTrap (issued s) s.cur 24 (here s).pc (word k.toNat) (iword (.qCnt rd k)) 0)) ∧
     (∀ n s1, isLent s s.cur k.toNat = false → countEnd s s.cur k.toNat = some n → operands [] (some rd) s = .ok ([], s) →
       writeRd rd (word n) s = .ok ((), s1) → exec (.qCnt rd k) s = .next (doneIn (.qCnt rd k) s (nextPc s1))) ∧
     (∀ q, isWriteEnd s s.cur k.toNat = true → (endOf s s.cur k.toNat).queue.bind (findQueue s) = some q →
       countEnd s s.cur k.toNat = some (freeSlots s q - if q.bag = true ∧ openAppend s q s.cur = true then 1 else 0)) ∧
     (∀ q, isWriteEnd s s.cur k.toNat = false → hwRead s s.cur k.toNat = false →
       (endOf s s.cur k.toNat).queue.bind (findQueue s) = some q →
       (q.bag = false → countEnd s s.cur k.toNat = some ((endOf s s.cur k.toNat).got.length + q.items.length)) ∧
       (q.bag = true → (∀ e ∈ present s s.cur k.toNat, e.isToken = false) →
         countEnd s s.cur k.toNat = some (present s s.cur k.toNat).length) ∧
       (q.bag = true → ∀ l e r, present s s.cur k.toNat = l ++ e :: r → (∀ x ∈ l, x.isToken = false) → e.isToken = true →
         countEnd s s.cur k.toNat = some (l.length + 1))) ∧
     (hwRead s s.cur k.toNat = true → countEnd s s.cur k.toNat = some (offered s s.cur k.toNat).length)))

/-- R199, R200: `q.bind` and `q.unbind` of context 0: the checks in their order, a status in rd, and no other change when it is not 0; a bind with
status 0 leaves the end bound in the direction asked, to the live queue or to a new one as its descriptor says, and an unbind leaves it unbound.
R39, R41, R47: on a near queue or a coil without bags, what is pushed last is appended last, at the owner at once or behind what is on its way
there, what is popped is the oldest entry, at the owner or by request, and a push and a pop leave every other entry. Rests also on the model's
choices: log entries 28, 30, 78, 79, 80, 93, 98, 99. -/
def Obligations.QueuesAreBoundAndFirstInFirstOut : Prop :=
  ((∀ (rd rs1 rs2 : Reg) (s s1 s2 : State) (a b : Word) (n : Nat), steady s → isCtx0 s.cur = true →
     operands [rs1, rs2] (some rd) s = .ok ([a, b], s1) → a.toNat % 16 ≠ 0 →
     let i := Instr.qBind rd rs1 rs2
     let t := bindTargetOf s1 a
     (¬ bindable s1 t → writeRd rd 1 s1 = .ok ((), s2) → exec i s = .next (doneIn i s (nextPc s2))) ∧
     (bindable s1 t → isBound s1 t (bindEndOf a) = true → writeRd rd 2 s1 = .ok ((), s2) → exec i s = .next (doneIn i s (nextPc s2))) ∧
     (bindable s1 t → isBound s1 t (bindEndOf a) = false → ∀ s3,
       bindTarget t (bindEndOf a) (b.toNat % 256) (bitOf a 7) s1 = .ok (n, s3) → (n ≠ 0 → s3 = s1) ∧
       (writeRd rd (word n) s3 = .ok ((), s2) → exec i s = .next (doneIn i s (nextPc s2))))) ∧
   (∀ (rd rs1 : Reg) (s s1 s2 : State) (a : Word), steady s → isCtx0 s.cur = true → operands [rs1] (some rd) s = .ok ([a], s1) →
     a.toNat % 16 ≠ 0 →
     let i := Instr.qUnbind rd rs1
     let t := bindTargetOf s1 a
     (¬ bindable s1 t → writeRd rd 1 s1 = .ok ((), s2) → exec i s = .next (doneIn i s (nextPc s2))) ∧
     (bindable s1 t → isBound s1 t (bindEndOf a) = false → writeRd rd 2 s1 = .ok ((), s2) → exec i s = .next (doneIn i s (nextPc s2))) ∧
     (bindable s1 t → isBound s1 t (bindEndOf a) = true → writeRd rd 0 (unbindEnd s1 t (bindEndOf a)) = .ok ((), s2) →
       exec i s = .next (doneIn i s (nextPc s2)))) ∧
   (∀ (rd rs1 rs2 : Reg) (s s1 : State) (a : Word), steady s → isCtx0 s.cur = true → a.toNat % 16 = 0 →
     (∀ b, operands [rs1, rs2] (some rd) s = .ok ([a, b], s1) →
       exec (.qBind rd rs1 rs2) s = .next (takeTrap (issued s) s.cur 26 (here s).pc a (iword (.qBind rd rs1 rs2)) 0)) ∧
     (operands [rs1] (some rd) s = .ok ([a], s1) →
       exec (.qUnbind rd rs1) s = .next (takeTrap (issued s) s.cur 26 (here s).pc a (iword (.qUnbind rd rs1)) 0)))) ∧
  ((∀ (s : State) (t k idx : Nat) (write : Bool) (r : LRec), k < 8 → (getCtx s t).record = some r →
     (readHdr s (actorOf s t) r.w0 = .fail → bindTarget t k idx write s = .ok (6, s)) ∧
     (∀ h s1, readHdr s (actorOf s t) r.w0 = .ok h s1 →
       (h.nqueue ≤ idx → bindTarget t k idx write s = .ok (3, s)) ∧
       (idx < h.nqueue → readQDesc s1 (actorOf s1 t) h idx = .fail → bindTarget t k idx write s = .ok (6, s)) ∧
       (idx < h.nqueue → ∀ d s2, readQDesc s1 (actorOf s1 t) h idx = .ok d s2 → (getCtx s2 t).space = (getCtx s t).space →
         let live := liveQueue s2 t (getCtx s t).space r.w0 r.inst idx d.coil
         let other := ∃ q, live = some q ∧ ∃ e ∈ (getCtx s2 t).ends.toList, e.queue = some q.id ∧ e.write ≠ write
         let outside := ∃ q, live = some q ∧ q.coil = true ∧ coilAdmits q t = false
         let full := d.coil = false ∧ live = none ∧ 2048 < ramUsed s2 (coreOf t) + 2 ^ d.lgd
         (other → bindTarget t k idx write s = .ok (5, s)) ∧ (¬ other → outside → bindTarget t k idx write s = .ok (7, s)) ∧
         (¬ other → ¬ outside → full → bindTarget t k idx write s = .ok (4, s)) ∧
         (¬ other → ¬ outside → ¬ full → ∃ s3, bindTarget t k idx write s = .ok (0, s3) ∧ endBound s2 s3 t k idx write d live)))) ∧
   (∀ (s : State) (a k n : Nat), k < 8 → (endOf s a k).queue = some n →
     let t := unbindEnd s a k
     endOf t a k = {} ∧ (getCtx t a).x.toList.getD (24 + k) 1 = 0 ∧ (∀ j, j ≠ k → endOf t a j = endOf s a j) ∧
     (∀ q, findQueue s n = some q → q.id = n → q.bag = false →
       t.mem = s.mem ∧
       (q.coil = false → boundTo (setEnd s a k {}) n = [] → findQueue t n = none) ∧
       (q.coil = false → boundTo (setEnd s a k {}) n ≠ [] → ∃ q', findQueue t n = some q' ∧ q'.tail = q.tail ∧
         (∀ i ∈ q.items, (i.pos, i.entry) ∈ q'.items.map fun i => (i.pos, i.entry)) ∧
         ((endOf s a k).write = false → ∀ i ∈ (endOf s a k).got, (i.pos, i.entry) ∈ q'.items.map fun i => (i.pos, i.entry)))))) ∧
  ((∀ (s : State) (q : Queue) (a : Nat) (e : Entry), findQueue s q.id = some q → q.bag = false →
     let here' := q.coil = false ∨ (clusterOf a = q.core / 256 ∧ (∀ m ∈ s.coilMsgs, ¬ (m.queue = q.id ∧ m.producer = a)) ∧ slotNeeds s q q.tail .write = none)
     (here' → ∃ q', findQueue (pushQueue s q a e) q.id = some q' ∧ q'.items = q.items ++ [⟨q.tail, e, none⟩] ∧ q'.tail = q.tail + 1) ∧
     (q.coil = false → (pushQueue s q a e).mem = s.mem ∧ (pushQueue s q a e).spad = s.spad ∧ (pushQueue s q a e).ctxs = s.ctxs) ∧
     (¬ here' → (pushQueue s q a e).queues = s.queues ∧ ∃ m, (pushQueue s q a e).coilMsgs = s.coilMsgs ++ [m] ∧ m.queue = q.id ∧ m.producer = a ∧
       m.entry = e)) ∧
   (∀ (s : State) (a k : Nat) (q : Queue) (it : Item) (l : List Item), hwRead s a k = false → (endOf s a k).got = [] →
     (endOf s a k).queue.bind (findQueue s) = some q → q.bag = false → q.items = it :: l → (∀ x ∈ l, x.pos ≠ it.pos) →
     (isRemote q a = false → ∃ s', popEnd s a k = some (itemEntry s q it, s') ∧ findQueue s' q.id = some { q with items := l } ∧
       (q.coil = false → itemEntry s q it = it.entry ∧ s'.mem = s.mem ∧ s'.ctxs = s.ctxs)) ∧
     (isRemote q a = true → popEnd s a k = none ∧ ∀ n, (endOf s a k).waits = some n → earlierPop s q n = false →
       slotNeeds s q it.pos .read = none → ∃ s' x, servePop s a k = s' ∧ findQueue s' q.id = some { q with items := l } ∧
         (endOf s' a k).got = [x] ∧ x.pos = it.pos ∧ x.entry = itemEntry s q it)) ∧
   (∀ (s : State) (a k : Nat) (it : Item) (l : List Item), hwRead s a k = false → (endOf s a k).got = it :: l →
     ∃ s', popEnd s a k = some (it.entry, s') ∧ s'.queues = s.queues ∧ (k < 8 → (endOf s' a k).got = l)))

/-! Contexts and event bits -/

namespace Sys2Proof.Claims

/-- R211: the context whose event bits an operand names, and whether the executing context may name it. -/
def evTarget (s : State) (v : Word) : Nat := if bitOf v 4 then coreOf s.cur * 16 + v.toNat % 16 else s.cur
def evAllowed (s : State) (v : Word) : Prop := bitOf v 4 = true → ctxNo s.cur = 0 ∨ v.toNat % 16 = ctxNo s.cur

/-- R213: the bits that engines have set in the context in the cycle that runs. -/
def setNow (s : State) (n : Nat) : BitVec 256 := if (getCtx s n).evCycle = some s.clock then (getCtx s n).evEngine else 0

/-- R213: the event bits of a context as an instruction of this cycle sees them: without what engines set in it. -/
def seenNow (s : State) (n : Nat) : BitVec 256 := if (getCtx s n).evCycle = some s.clock then (getCtx s n).evSeen else (getCtx s n).ev

/-- R54, R211, R213: `t` is `s` with one event bit of context `n` at `v`, but that what an engine sets in the same cycle comes after it; a FREE context is
left as it is, and nothing else changes. -/
def evBitSet (s t : State) (n bit : Nat) (v : Bool) : Prop :=
  ((getCtx s n).status = .free → t = s) ∧
  ((getCtx s n).status ≠ .free → (getCtx t n).ev.getLsbD bit = (v || (setNow s n).getLsbD bit) ∧ (getCtx t n).evSeen.getLsbD bit = v ∧
    (∀ j, j ≠ bit → (getCtx t n).ev.getLsbD j = ((getCtx s n).ev.getLsbD j || (setNow s n).getLsbD j) ∧
      (getCtx t n).evSeen.getLsbD j = (getCtx s n).evSeen.getLsbD j) ∧
    { getCtx t n with ev := (getCtx s n).ev, evSeen := (getCtx s n).evSeen } = getCtx s n ∧
    (∀ a, a ≠ n → getCtx t a = getCtx s a) ∧ { t with ctxs := s.ctxs } = s)

end Sys2Proof.Claims

namespace Sys2Proof.Claims

/-- R28, R30 to R33, R203: how the checks of a start that read the descriptor end, in their order: 0x14 what cannot be read, 0x13 a stage outside the table, 0x16
what is not well formed, 0x15 no queue RAM. -/
def descriptorChecks (s : State) (a : Nat) (x : LSlot) (n top : Nat) (r : Startable) : Prop :=
  let w : Actor := { agent := a, space := x.record.space, sup := false, inst := (x.record.space, x.record.inst) }
  (readHdr s w x.record.w0 = .fail → r = .status 0x14) ∧
  (∀ h s1, readHdr s w x.record.w0 = .ok h s1 →
    (h.nstage ≤ x.record.stageNo → r = .status 0x13) ∧
    (x.record.stageNo < h.nstage → h.stages.toNat % 32 ≠ 0 → r = .status 0x16) ∧
    (x.record.stageNo < h.nstage → h.stages.toNat % 32 = 0 →
      (descWords s1 w (h.stages + word (32 * x.record.stageNo)) 32 = .fail → r = .status 0x14) ∧
      (∀ e s2, descWords s1 w (h.stages + word (32 * x.record.stageNo)) 32 = .ok e s2 →
        (h.queues.toNat % 16 ≠ 0 → r = .status 0x16) ∧
        (h.queues.toNat % 16 = 0 → readEnds w h (boundEnds e) s2 = .fail → r = .status 0x14) ∧
        (h.queues.toNat % 16 = 0 → ∀ ends s3, readEnds w h (boundEnds e) s2 = .ok ends s3 →
          (h.reserved = true ∨ stageReserved e = true ∨ (∃ y ∈ ends, y.desc = none ∨ ∃ d, y.desc = some d ∧ (d.ok = false ∨
              (bitOf (e.getD 2 0) 8 = true ∧ (d.coil = false ∨ (y.write = false ∧ d.cscope ≠ 0))) ∨
              ∃ q, liveQueue s3 a x.record.space x.record.w0 x.record.inst y.idx d.coil = some q ∧ q.coil = true ∧ coilAdmits q a = false)) →
            r = .status 0x16) ∧
          (stageOk s3 a x.record h e ends = true → ramFits s3 a x.record ends = false → r = .status 0x15) ∧
          (stageOk s3 a x.record h e ends = true → ramFits s3 a x.record ends = true → r = .ok ⟨x, n, top, h, e, ends⟩ (dropUio s3))))))

end Sys2Proof.Claims

/-- R203: `ctx.start` of context 0: a status in rd when a check fails, the checks in their order, with nothing changed; else the number of the
context started. R27, R77, R123, R258: the state with which that context starts, with the ends of its stage bound; its record has left the launch
queue. Rests also on the model's choices: log entries 28, 64. -/
def Obligations.ContextStart : Prop :=
  (∀ (rd rs1 : Reg) (s s1 : State) (h : Word), steady s → isCtx0 s.cur = true → operands [rs1] (some rd) s = .ok ([h], s1) →
     let i := Instr.ctxStart rd rs1
     (∀ n s2, startCheck s1 h = .status n → writeRd rd (word n) s1 = .ok ((), s2) → exec i s = .next (doneIn i s (nextPc s2))) ∧
     (∀ p s2 s3, startCheck s1 h = .ok p s2 → writeRd rd (word p.ctx) (startCtx s2 p) = .ok ((), s3) →
       exec i s = .next (doneIn i s (nextPc s3))) ∧
     (∀ p s2, startCheck s1 h = .ok p s2 → p.ends.all (fun x => decide (x.k < 8)) = true ∧ (p.ends.map (·.k)).Nodup ∧ p.ends.all (·.desc.isSome) = true) ∧
     (handleSlot s1 (coreOf s1.cur) h = none → startCheck s1 h = .status 0x17) ∧
     (∀ x, handleSlot s1 (coreOf s1.cur) h = some x →
       (heldInst s1 (partOf s1 s1.cur) x.record.space x.record.inst = true → startCheck s1 h = .status 0x18) ∧
       (heldInst s1 (partOf s1 s1.cur) x.record.space x.record.inst = false →
         ((∀ n, 1 ≤ n → n ≤ 15 → (getCtx s1 (coreOf s1.cur * 16 + n)).status ≠ .free) → startCheck s1 h = .status 0x10) ∧
         (∀ n, 1 ≤ n → n ≤ 15 → (getCtx s1 (coreOf s1.cur * 16 + n)).status = .free →
           (∀ m, 1 ≤ m → m < n → (getCtx s1 (coreOf s1.cur * 16 + m)).status ≠ .free) →
           (freeRows s1 (coreOf s1.cur) < x.record.vrows → startCheck s1 h = .status 0x11) ∧
           (x.record.vrows ≤ freeRows s1 (coreOf s1.cur) →
             (carveTop s1 (coreOf s1.cur) x.record.spill = none → startCheck s1 h = .status 0x12) ∧
             (∀ top, carveTop s1 (coreOf s1.cur) x.record.spill = some top → descriptorChecks s1 (coreOf s1.cur * 16 + n) x n top (startCheck s1 h))))))) ∧
  (∀ (s : State) (p : StartPlan), p.ctx < 16 → (∀ x ∈ p.ends, x.k < 8) → (p.ends.map (·.k)).Nodup → isHub s.cur = false →
     let a := coreOf s.cur * 16 + p.ctx
     let t := startCtx s p
     (∃ born stage, { getCtx t a with ends := (startedCtx s a p born stage).ends } = startedCtx s a p born stage) ∧
     (∀ x ∈ p.ends, x.desc.isSome = true → (endOf t a x.k).queue.isSome = true ∧ (endOf t a x.k).write = x.write) ∧
     (∀ k, k < 8 → (∀ x ∈ p.ends, x.k ≠ k) → endOf t a k = {}) ∧
     (∀ b, b ≠ a → getCtx t b = getCtx s b) ∧ t.mem = s.mem ∧
     (∀ y ∈ (getCluster t (clusterOf a)).launch, y.slot ≠ p.slot.slot)) ∧
  (∀ (s : State) (a : Nat) (p : StartPlan) (born : Nat) (stage : Option (Nat × Nat)),
     let c := startedCtx s a p born stage
     let r := p.slot.record
     c.status = .ready ∧ c.sup = false ∧ c.space = r.w7.toNat % 2 ^ 16 ∧ c.pc = p.entry.getD 0 0 ∧
     readX c 10 = r.w1 ∧ readX c 11 = r.w2 ∧
     readX c 2 = word (windowBase s a + coreOf a % 256 * 65536 + p.ctop * 256) ∧
     (∀ x : Reg, x ≠ 2 → x ≠ 10 → x ≠ 11 → readX c x = 0) ∧
     c.ucsr.spovf = word (r.w3.toNat / 16 * 16) ∧ c.ucsr.vseed = BitVec.ofNat 32 (a + 1) ∧ c.ucsr.fflags = 0 ∧ c.ucsr.frm = 0 ∧
     c.ucsr.vrm = 0 ∧ c.ucsr.instret = 0 ∧ (∀ v ∈ c.ucsr.tkvec.toList, v = 0) ∧
     c.vec.vrows = r.w6.toNat / 2 ^ 8 % 2 ^ 11 ∧ (∀ m ∈ c.vec.masks.toList, m = 0) ∧ c.ev = 0 ∧ c.wake = false ∧ c.win = [] ∧
     c.winRev = p.hdr.lrev ∧ c.ctop = p.ctop ∧ c.sb = [] ∧ c.resv = none ∧ c.record = some r)

/-- R206: `ctx.resume` of context 0, by the state of its target; it is a release at core scope; another context takes cause 26. Rests also on the
model's choices: log entry 6. -/
def Obligations.ContextsAreResumed : Prop :=
  (∀ (rs1 : Reg) (s : State), steady s → isHub s.cur = false → ctxNo s.cur ≠ 0 → let i := Instr.ctxResume rs1
    exec i s = .next (takeTrap (issued s) s.cur 26 (here s).pc (iword i) (iword i) 0)) ∧
  ∀ (rs1 : Reg) (s s1 : State) (a : Word), steady s → isCtx0 s.cur = true → operands [rs1] none s = .ok ([a], s1) →
    let i := Instr.ctxResume rs1
    let t := bindTargetOf s1 a
    (a.toNat % 16 = 0 → exec i s = .next (takeTrap (issued s) s.cur 26 (here s).pc a (iword i) 0)) ∧
    (a.toNat % 16 ≠ 0 → settled s1 s1.cur .core = false → exec i s = .next s) ∧
    (a.toNat % 16 ≠ 0 → settled s1 s1.cur .core = true → ∃ s2, exec i s = .next (doneIn i s (nextPc s2)) ∧ s2.cur = s1.cur ∧
      (∀ n, n ≠ t → getCtx s2 n = getCtx s1 n) ∧ { s2 with ctxs := s1.ctxs } = s1 ∧
      ((getCtx s1 t).halted = none →
        ((getCtx s1 t).status = .trapped → (getCtx s2 t).status = .ready ∧ (getCtx s2 t).pc = (getCtx s1 t).pc ∧ (getCtx s2 t).trapRec = none) ∧
        ((getCtx s1 t).status = .parked .self → (getCtx s2 t).status = .ready ∧ (getCtx s2 t).pc = (getCtx s1 t).pc + 4) ∧
        ((getCtx s1 t).status = .ready → getCtx s2 t = { getCtx s1 t with wake := true })) ∧
      ((getCtx s1 t).halted ≠ none → getCtx s2 t = getCtx s1 t) ∧
      (∀ w, (getCtx s1 t).status = .parked w → w ≠ .self → getCtx s2 t = getCtx s1 t) ∧
      ((getCtx s1 t).status = .free → s2 = s1))

namespace Sys2Proof.Claims

/-- R29, R57, R204: the completion arrival of context `a` with a code, between `s` and `t`: at the record's cone at once when it is in the context's cluster, as
a message to one of another cluster, unless that is offline; "no cone" receives none. -/
def arrived (s t : State) (a name : Nat) (code : BitVec 8) : Prop :=
  (name = 0x1FFFF → ∀ n, getCone t n = getCone s n) ∧
  (name ≠ 0x1FFFF → clusterOf a = coneCluster name → ∀ n, getCone t n = getCone (coneDo s a name (.complete code)).1 n) ∧
  (name ≠ 0x1FFFF → clusterOf a ≠ coneCluster name →
    (∀ n, getCone t n = getCone s n) ∧
    (clusterOnline s (coneCluster name) = true → partOf s a = partOfCluster s (coneCluster name) →
      ∃ m ∈ t.coneMsgs, m.agent = a ∧ m.cone = name ∧ m.op = .complete code) ∧
    (clusterOnline s (coneCluster name) = false → t.coneMsgs = s.coneMsgs))

end Sys2Proof.Claims

/-- R204: `ctx.reap` of context 0: a context that has nothing outstanding ends, one that has is stopped and context 0 waits; a handle is
abandoned; a FREE context and an invalid operand are left alone. R207, R208, R29: `ctx.park` parks unless the wake bit is set, in context 0 unless
q6 or q7 holds an entry; `ctx.exit` ends the context once its accesses are performed, and is illegal in context 0. R29, R204: a context that ends
leaves its state, its ends, its rows and its carve-out free and no stream open, and arrives with its code at the cone of its record; an abandoned
handle arrives with code 9 (an arrival outside the cone's scope is counted as late: log entry 96). Rests also on the model's choices: log entries
6, 73, 89, 96. -/
def Obligations.ContextEnd : Prop :=
  (∀ (rs1 rs2 : Reg) (s s1 : State) (a b : Word), steady s → isCtx0 s.cur = true → operands [rs1, rs2] none s = .ok ([a, b], s1) →
     let i := Instr.ctxReap rs1 rs2
     let t := bindTargetOf s1 a
     (a.toNat / 2 ^ 17 ≠ 0 → exec i s = .next (doneIn i s (nextPc s1))) ∧
     (a.toNat / 2 ^ 17 = 0 → bitOf a 16 = true →
       (handleSlot s1 (coreOf s1.cur) (word (a.toNat % 2 ^ 16)) = none → exec i s = .next (doneIn i s (nextPc s1))) ∧
       (∀ x, handleSlot s1 (coreOf s1.cur) (word (a.toNat % 2 ^ 16)) = some x →
         exec i s = .next (doneIn i s (nextPc (abandon s1 s1.cur x))))) ∧
     (a.toNat / 2 ^ 17 = 0 → bitOf a 16 = false →
       (a.toNat % 16 = 0 → exec i s = .next (takeTrap (issued s) s.cur 26 (here s).pc a (iword i) 0)) ∧
       (a.toNat % 16 ≠ 0 → (getCtx s1 t).status = .free → exec i s = .next (doneIn i s (nextPc s1))) ∧
       (a.toNat % 16 ≠ 0 → (getCtx s1 t).status ≠ .free → endable s1 t = true → pugNeeds s1 t = [] →
         exec i s = .next (doneIn i s (nextPc (endContext s1 t (BitVec.ofNat 8 (b.toNat % 256))))) ∧
         (getCtx (endContext s1 t (BitVec.ofNat 8 (b.toNat % 256))) t).status = .free) ∧
       (a.toNat % 16 ≠ 0 → (getCtx s1 t).status ≠ .free → endable s1 t = false → ∃ t', exec i s = .next t' ∧
         (getCtx t' t).stopping = some (BitVec.ofNat 8 (b.toNat % 256)) ∧ (getCtx t' s.cur).status = .parked (.reap (ctxNo t)) ∧
         (getCtx t' s.cur).pc = (here s).pc))) ∧
  (∀ (s : State), steady s → isHub s.cur = false →
     (ctxNo s.cur ≠ 0 → (here s).wake = true →
       exec .ctxPark s = .next (doneIn .ctxPark s (nextPc (withHere s fun c => { c with wake := false })))) ∧
     (ctxNo s.cur ≠ 0 → (here s).wake = false → exec .ctxPark s = .next (parkCtx (dropReads s s.cur) .self)) ∧
     (ctxNo s.cur = 0 → (getCore s (coreOf s.cur)).handles ≠ [] ∨ (getCore s (coreOf s.cur)).trapQ ≠ [] →
       exec .ctxPark s = .next (doneIn .ctxPark s (nextPc s))) ∧
     (ctxNo s.cur = 0 → (getCore s (coreOf s.cur)).handles = [] → (getCore s (coreOf s.cur)).trapQ = [] →
       exec .ctxPark s = .next (parkCtx (dropReads s s.cur) .self)) ∧
     (ctxNo s.cur = 0 → exec .ctxExit s = .next (illegal .ctxExit s)) ∧
     (ctxNo s.cur ≠ 0 → endable s s.cur = false → exec .ctxExit s = .next (applyReqs s (visibleReqs s))) ∧
     (ctxNo s.cur ≠ 0 → endable s s.cur = true → pugNeeds s s.cur = [] → ∃ t, exec .ctxExit s = .next t ∧
       t = doneIn .ctxExit s (endContext s s.cur 0) ∧ (getCtx t s.cur).status = .free)) ∧
  (∀ (s : State) (a : Nat) (code : BitVec 8), isHub a = false →
     let t := endContext s a code
     (getCtx t a).status = .free ∧ (∀ k, endOf t a k = {}) ∧ (∀ e ∈ liveCtxs t (coreOf a), e.1 ≠ a) ∧
     (∀ b, b ≠ a → (getCtx t b).vec.vrows = (getCtx s b).vec.vrows ∧ (getCtx t b).cbase = (getCtx s b).cbase ∧ (getCtx t b).ctop = (getCtx s b).ctop ∧
       (getCtx t b).status = (getCtx s b).status) ∧
     (∀ r, (getCtx s a).record = some r → arrived s t a r.cone code) ∧
     (∀ u ∈ t.uio, uioOwner u ≠ a) ∧ (∀ p ∈ (getCluster t (clusterOf a)).pugs, p.2.agent ≠ a)) ∧
  (∀ (s : State) (a : Nat) (x : LSlot), isHub a = false →
     arrived s (abandon s a x) a x.record.cone 9 ∧ (∀ y ∈ (getCluster (abandon s a x) (clusterOf a)).launch, y.slot ≠ x.slot) ∧
     (abandon s a x).mem = s.mem ∧ (abandon s a x).ctxs = s.ctxs)

/-- R209: the identity word that `ctx.self` writes. -/
def Obligations.ContextIdentity : Prop :=
  ∀ (rd : Reg) (s : State), steady s → s.cur < Config.agents → operands [] (some rd) s = .ok ([], s) → ∃ v : Word,
    (∀ s1, writeRd rd v s = .ok ((), s1) → exec (.ctxSelf rd) s = .next (doneIn (.ctxSelf rd) s (nextPc s1))) ∧
    (isHub s.cur = false → fieldOf v 0 17 = s.cur ∧ fieldOf v 0 4 = ctxNo s.cur ∧ fieldOf v 4 8 = coreOf s.cur % 256 ∧
      fieldOf v 12 3 = clusterOf s.cur % 8 ∧ fieldOf v 15 2 = dieOf s.cur ∧ bitOf v 17 = (here s).sup ∧ fieldOf v 53 10 = 0 ∧
      bitOf v 63 = false ∧
      (∀ r, (here s).record = some r → fieldOf v 18 3 = r.prio ∧ fieldOf v 21 6 = r.draw ∧ fieldOf v 27 8 = r.stageNo ∧
        fieldOf v 35 2 = r.kind ∧ fieldOf v 37 16 = r.inst) ∧
      ((here s).record = none → fieldOf v 18 35 = 0)) ∧
    (isHub s.cur = true → fieldOf v 0 6 = s.cur - Config.contexts ∧ fieldOf v 6 11 = 0 ∧ bitOf v 17 = (here s).sup ∧
      fieldOf v 18 45 = 0 ∧ bitOf v 63 = true)

/-- R54, R211, R212: the event instructions: set, clear, read, and wait; what `ev.waitm` waits for are the bits of its mask in the group. R213:
what an engine sets in a cycle comes after the instruction of that cycle, which neither sees nor clears it. Rests also on the model's choices: log
entry 6. -/
def Obligations.EventBits : Prop :=
  (∀ (rs1 rs2 : Reg) (s s1 : State) (a b : Word) (v : Bool), steady s → isHub s.cur = false →
    operands [rs1, rs2] none s = .ok ([a, b], s1) → s1.cur = s.cur →
    let i := if v then Instr.evSet rs1 rs2 else Instr.evClr rs1 rs2
    (¬ evAllowed s b → exec i s = .next (takeTrap (issued s) s.cur 26 (here s).pc b (iword i) 0)) ∧
    (evAllowed s b → (v = true → evTarget s b ≠ s.cur → settled s1 s1.cur .core = true) →
      ∃ s2, exec i s = .next (doneIn i s (nextPc s2)) ∧ evBitSet s1 s2 (evTarget s b) (a.toNat % 256) v)) ∧
  (∀ (rd rs1 rs2 : Reg) (s s1 s2 : State) (a b : Word), steady s → isHub s.cur = false →
    operands [rs1, rs2] (some rd) s = .ok ([a, b], s1) → s1.cur = s.cur → evAllowed s b →
    let c := getCtx s1 (evTarget s b)
    writeRd rd (if c.status ≠ .free ∧ (seenNow s1 (evTarget s b)).getLsbD (a.toNat % 256) = true then 1 else 0) s1 = .ok ((), s2) →
    exec (.evRd rd rs1 rs2) s = .next (doneIn (.evRd rd rs1 rs2) s (nextPc s2))) ∧
  (∀ (rs1 : Reg) (s s1 : State) (a : Word), steady s → isHub s.cur = false → operands [rs1] none s = .ok ([a], s1) →
    ((seenNow s1 s1.cur).getLsbD (a.toNat % 256) = true → exec (.evWait rs1) s = .next (doneIn (.evWait rs1) s (nextPc s1))) ∧
    ((seenNow s1 s1.cur).getLsbD (a.toNat % 256) = false →
      exec (.evWait rs1) s = .next (parkCtx (dropReads s s.cur) (.event ((1 : BitVec 256) <<< (a.toNat % 256)))))) ∧
  (∀ (rs1 rs2 : Reg) (s s1 : State) (a b : Word), steady s → isHub s.cur = false → operands [rs1, rs2] none s = .ok ([a, b], s1) →
    let all := ∀ j, j < 64 → bitOf b j = true → (seenNow s1 s1.cur).getLsbD (64 * (a.toNat % 4) + j) = true
    (all → exec (.evWaitm rs1 rs2) s = .next (doneIn (.evWaitm rs1 rs2) s (nextPc s1))) ∧
    (¬ all → ∃ bits : BitVec 256, (∀ j, j < 256 → bits.getLsbD j = (decide (j / 64 = a.toNat % 4) && bitOf b (j % 64))) ∧
      exec (.evWaitm rs1 rs2) s = .next (parkCtx (dropReads s s.cur) (.event bits)))) ∧
  (∀ (s : State) (n bit : Nat), (getCtx s n).status ≠ .free → bit < 256 →
    let t := modCtx s n fun c => engineEvent c bit s.clock
    (getCtx t n).ev.getLsbD bit = true ∧ (setNow t n).getLsbD bit = true ∧ seenNow t n = seenNow s n)

/-! Cones -/

namespace Sys2Proof.Claims

/-- R56: a cone name: bits [16:0] of an operand; its cluster is bits [16:12]. -/
def coneName (a : Word) : Nat := a.toNat % 2 ^ 17
/-- R214, R97: the cone's cluster is online and of the agent's partition, no reply is pending, and, where the operation is a release, the
agent's accesses are performed at the cone's scope. -/
def coneReady (s : State) (a : Word) (rel : Bool) : Prop :=
  (here s).reply = none ∧ partOf s s.cur = partOfCluster s (coneCluster (coneName a)) ∧
  clusterOnline s (coneCluster (coneName a)) = true ∧ (rel = true → settled s s.cur (coneScope (getCone s (coneName a))) = true)
/-- The cone lies in the agent's own cluster. -/
def ownCone (s : State) (a : Word) : Prop := clusterOf s.cur = coneCluster (coneName a)

/-- R215 to R219: the cone instructions that ask something of a cone: destination if any, operand registers, whether it releases, and what is
asked for the operands. -/
def coneInstr : Instr → Option (Option Reg × List Reg × Bool × (Word → ConeOp))
  | .cnArrive a b => some (none, [a, b], true, fun v => .arrive (v.toNat % 2 ^ 16) (BitVec.ofNat 8 (v.toNat / 2 ^ 16 % 2 ^ 8)) false)
  | .cnDrop a b => some (none, [a, b], true, fun v => .arrive (v.toNat % 2 ^ 16) (BitVec.ofNat 8 (v.toNat / 2 ^ 16 % 2 ^ 8)) true)
  | .cnJoin d a => some (some d, [a], false, fun _ => .join)
  | .cnTry d a b => some (some d, [a, b], false, fun v => .test (v.toNat % 2 ^ 16))
  | .cnStat d a => some (some d, [a], false, fun _ => .stat)
  | _ => none

/-- R232: the reply has been taken; the instruction that waited for it goes on. -/
def replyTaken (s : State) : State := withHere s fun c => { c with reply := none, sent := none, claim := none }

/-- A result written to `rd`, if there is one. -/
def result (rd : Option Reg) (v : Word) (s s' : State) : Prop :=
  match rd with
  | some r => writeRd r v s = .ok ((), s')
  | none => s' = s

/-- R60: the fields of a cone's state word. -/
def coneWordIs (c : Cone) (v : Word) : Prop :=
  fieldOf v 0 16 = c.expect ∧ fieldOf v 16 16 = c.arrived ∧ fieldOf v 32 16 = c.phase ∧ fieldOf v 48 8 = c.err.toNat ∧
  fieldOf v 56 3 = c.scope ∧ bitOf v 59 = decide (c.timeout ≠ 0) ∧ bitOf v 60 = decide (c.expect = 0)

end Sys2Proof.Claims

/-- R191, R214 to R219, R232: a cone instruction sends a message to its cone, parks, and completes with the reply; a `cn.wait` parks on a cone of
its own cluster as it is, and asks one of another cluster; a cluster of another partition is cause 31, one that is offline cause 30. R56 to R61,
R215 to R219: what a cone does with what is asked of it: an arrival is counted, and trips the cone when it is the last; the first code that is not
0 becomes the error of the phase; drops and joins change the next phase's count; an arrival for another phase is cause 27, an agent outside the
scope cause 31. R57, R59, R215: messages reach their cone in the order of its cluster, and the sender receives the reply, which a waiter whose
phase has not passed does not yet; a cone whose limit has passed since its first arrival trips with code TIMEOUT. Rests also on the model's
choices: log entries 6, 40, 96. -/
def Obligations.Cones : Prop :=
  ((∀ (i : Instr) (rd : Option Reg) (srcs : List Reg) (rel : Bool) (op : Word → ConeOp), coneInstr i = some (rd, srcs, rel, op) →
     ∀ (s s1 s2 : State) (a : Word) (l : List Word), steady s → operands srcs rd s = .ok (a :: l, s1) →
       (coneReady s1 a rel →
         exec i s = .next (sendMsg (takeOperands i s) (.cone (coneName a) (op (l.getD 0 0))) (some .coneReply))) ∧
       (∀ v, (here s1).reply = some (.value v) → result rd v (replyTaken s1) s2 → exec i s = .next (doneIn i s (nextPc s2))) ∧
       (∀ cause tv, (here s1).reply = some (.trap cause tv) →
         exec i s = .next (takeTrap (issued s) s.cur cause (here s).pc tv (iword i) 0)) ∧
       ((here s1).reply = some .offline →
         exec i s = .next (takeTrap (issued s) s.cur 30 (here s).pc (word (coneName a)) (iword i) 0)) ∧
       ((here s1).reply = none → partOf s1 s1.cur ≠ partOfCluster s1 (coneCluster (coneName a)) →
         exec i s = .next (takeTrap (issued s) s.cur 31 (here s).pc (word (coneName a)) (iword i) 0)) ∧
       ((here s1).reply = none → partOf s1 s1.cur = partOfCluster s1 (coneCluster (coneName a)) →
         clusterOnline s1 (coneCluster (coneName a)) = false →
         exec i s = .next (takeTrap (issued s) s.cur 30 (here s).pc (word (coneName a)) (iword i) 0))) ∧
   (∀ (rs1 rs2 : Reg) (s s1 : State) (a b : Word), steady s → operands [rs1, rs2] none s = .ok ([a, b], s1) → coneReady s1 a false →
     let i := Instr.cnInit rs1 rs2
     let scope := b.toNat / 2 ^ 16 % 8
     (4 ≤ scope ∨ (isHub s1.cur = true ∧ scope = 0) → exec i s = .next (takeTrap (issued s) s.cur 31 (here s).pc b (iword i) 0)) ∧
     (scope < 4 → (isHub s1.cur = true → scope ≠ 0) → exec i s = .next (sendMsg (takeOperands i s) (.cone (coneName a)
       (.init (b.toNat % 2 ^ 16) scope (b.toNat / 2 ^ 19 % 2 ^ 16))) (some .coneReply)))) ∧
   (∀ (rs1 rs2 : Reg) (s s1 : State) (a b v : Word), steady s → operands [rs1, rs2] none s = .ok ([a, b], s1) →
     (here s1).reply = some (.value v) →
     exec (.cnInit rs1 rs2) s = .next (doneIn (.cnInit rs1 rs2) s (nextPc (replyTaken s1)))) ∧
   (∀ (rd rs1 rs2 : Reg) (s s1 s2 : State) (a b : Word), steady s → operands [rs1, rs2] (some rd) s = .ok ([a, b], s1) →
     let i := Instr.cnWait rd rs1 rs2
     let c := getCone s1 (coneName a)
     let v := b.toNat % 2 ^ 16
     (coneReady s1 a false → ownCone s1 a →
       (inScope s1 s1.cur (coneName a) c = false →
         exec i s = .next (takeTrap (issued s) s.cur 31 (here s).pc (word (coneName a)) (iword i) 0)) ∧
       (inScope s1 s1.cur (coneName a) c = true → phasePassed c v = false → exec i s = .next (parkCtx (dropReads s s.cur) (.cone (coneName a) v))) ∧
       (inScope s1 s1.cur (coneName a) c = true → phasePassed c v = true → acqClear s1 s1.cur = true →
         writeRd rd (word c.err.toNat) s1 = .ok ((), s2) → exec i s = .next (doneIn i s (nextPc s2)))) ∧
     (coneReady s1 a false → ¬ ownCone s1 a →
       exec i s = .next (sendMsg (takeOperands i s) (.cone (coneName a) (.wait v)) (some fun _ => .cone (coneName a) v))) ∧
     (¬ ownCone s1 a → acqClear s1 s1.cur = true → ∀ w, (here s1).reply = some (.value w) →
       writeRd rd (w &&& 0xFF) (replyTaken s1) = .ok ((), s2) → exec i s = .next (doneIn i s (nextPc s2))) ∧
     (¬ ownCone s1 a → ∀ cause tv, (here s1).reply = some (.trap cause tv) →
       exec i s = .next (takeTrap (issued s) s.cur cause (here s).pc tv (iword i) 0)))) ∧
  (∀ (s : State) (a name : Nat), name < 2 ^ 17 →
     let c := getCone s name
     (inScope s a name c = false → ∀ p code d, coneDo s a name (.arrive p code d) = (s, .trap 31 (word name)) ∧
       coneDo s a name .join = (s, .trap 31 (word name)) ∧ coneDo s a name (.test p) = (s, .trap 31 (word name)) ∧
       coneDo s a name (.wait p) = (s, .trap 31 (word name))) ∧
     (inScope s a name c = true → ∀ p, coneDo s a name (.wait p) = (s, .value (word (256 + c.err.toNat))) ∧
       coneDo s a name (.test p) = (s, .value (if phasePassed c p then word (256 + c.err.toNat) else 0))) ∧
     (inScope s a name c = true → ∀ p code d,
       (c.expect = 0 ∨ p ≠ c.phase → coneDo s a name (.arrive p code d) = (s, .trap 27 (word name))) ∧
       (c.expect ≠ 0 → p = c.phase →
         let r := coneDo s a name (.arrive p code d)
         let c' := getCone r.1 name
         let first := if c.ferr = 0 then code else c.ferr
         let delta := if d then c.delta - 1 else c.delta
         r.2 = .value 0 ∧ (∀ n, n % 2 ^ 17 ≠ name → n < 2 ^ 17 → getCone r.1 n = getCone s n) ∧ r.1.mem = s.mem ∧ r.1.ctxs = s.ctxs ∧
         (c.arrived + 1 ≠ c.expect → c'.arrived = c.arrived + 1 ∧ c'.phase = c.phase ∧ c'.err = c.err ∧ c'.expect = c.expect ∧
           c'.ferr = first ∧ c'.delta = delta) ∧
         (c.arrived + 1 = c.expect → c'.arrived = 0 ∧ c'.phase = (c.phase + 1) % 65536 ∧ c'.err = first ∧
           (c'.expect : Int) = max 0 (c.expect + delta) ∧ c'.ferr = 0 ∧ c'.delta = 0))) ∧
     (inScope s a name c = true →
       (c.expect = 0 → (coneDo s a name .join).2 = .value 0 ∧ (getCone (coneDo s a name .join).1 name).expect = 1) ∧
       (c.expect ≠ 0 → (c.expect : Int) + c.delta + 1 ≤ 65535 → (coneDo s a name .join).2 = .value 0 ∧
         (getCone (coneDo s a name .join).1 name).delta = c.delta + 1 ∧ (getCone (coneDo s a name .join).1 name).expect = c.expect) ∧
       (c.expect ≠ 0 → 65535 < (c.expect : Int) + c.delta + 1 → coneDo s a name .join = (s, .value 1))) ∧
     (∀ code, (inScope s a name c = false ∨ c.expect = 0 → coneDo s a name (.complete code) = (countLate s (coneCluster name), .value 0)) ∧
       (inScope s a name c = true → c.expect ≠ 0 → coneDo s a name (.complete code) = coneDo s a name (.arrive c.phase code false))) ∧
     (∀ n sc t, let c' := getCone (coneDo s a name (.init n sc t)).1 name
       (coneDo s a name (.init n sc t)).2 = .value 0 ∧ c'.expect = n ∧ c'.scope = sc ∧ c'.timeout = t ∧ c'.arrived = 0 ∧ c'.err = 0 ∧
       c'.phase = c.phase ∧ (sc = 0 → c'.owner = coreOf a)) ∧
     (coneDo s a name .stat).1 = s ∧
     (c.expect < 2 ^ 16 → c.arrived < 2 ^ 16 → c.phase < 2 ^ 16 → c.scope < 8 →
       ∃ v, (coneDo s a name .stat).2 = .value v ∧ coneWordIs c v)) ∧
  ((∀ (s : State) (id : Nat) (m : ConeMsg), s.coneMsgs.find? (fun x => x.id == id) = some m → (∀ x ∈ s.coneMsgs, x.id = id → x = m) →
     clusterOnline s (coneCluster m.cone) = true →
     let s0 := { s with coneMsgs := s.coneMsgs.filter fun x => x.id != id }
     let t := answer (coneDo s0 m.agent m.cone m.op).1 m.agent id (coneDo s0 m.agent m.cone m.op).2
     (m.op = .join → exec (.coneJoin id) s = .next t) ∧
     (∀ n sc lim, m.op = .init n sc lim → exec (.coneInit id) s = .next t) ∧
     (∀ v, m.op = .wait v → inScope s0 m.agent m.cone (getCone s0 m.cone) = true → phasePassed (getCone s0 m.cone) v = false →
       exec (.coneArrival id) s = .next (if (getCtx s0 m.agent).sent = some id then modCtx s0 m.agent (fun c => { c with sent := none }) else s0)) ∧
     (m.op ≠ .join → (∀ n sc lim, m.op ≠ .init n sc lim) → (∀ b sp key tags, m.op ≠ .snap b sp key tags) →
       (∀ v, m.op = .wait v → inScope s0 m.agent m.cone (getCone s0 m.cone) = false ∨ phasePassed (getCone s0 m.cone) v = true) →
       exec (.coneArrival id) s = .next t)) ∧
   (∀ (s : State) (cl k : Nat), cl < 32 → k < 4096 →
     let c := getCone s (cl * 4096 + k)
     (c.timeout ≠ 0 → c.arrived ≠ 0 → c.first + c.timeout * 1024 < s.clock → ∃ t, exec (.coneTimeout cl k) s = .next t ∧
       (getCone t (cl * 4096 + k)).phase = (c.phase + 1) % 65536 ∧ (getCone t (cl * 4096 + k)).err = 7 ∧
       (getCone t (cl * 4096 + k)).arrived = 0 ∧ t.mem = s.mem ∧ t.ctxs = s.ctxs) ∧
     (c.timeout = 0 ∨ c.arrived = 0 ∨ s.clock ≤ c.first + c.timeout * 1024 → exec (.coneTimeout cl k) s = .next s)))

/-! Vector instructions -/

namespace Sys2Proof.Claims

/-- What an element function gives: the element, its flags, and the generator after it. -/
abbrev Lane := Nat × BitVec 5 × BitVec 32

/-- R265: no producer that is still judged is undersized for the instruction, or the core does not check. -/
def paceOk (i : Instr) (s : State) : Prop := undersized (here s) (footOf i) = none ∨ paceCheck s s.cur = false

/-- R120: the mode of vector rounding. -/
def vMode (c : Ctx) : RMode := (RMode.ofCode c.ucsr.vrm.toNat).getD .rne

/-- R128: bit `b` of the flags of lane `l`. -/
def laneBit (c : Ctx) (l b : Nat) : Bool := bitOf (if l < 8 then c.ucsr.vflg0 else c.ucsr.vflg1) (8 * (l % 8) + b)

/-- The vector state and the flags aside, `c'` is `c`. -/
def vectorOnly (c c' : Ctx) : Prop :=
  { c' with
    vec := { c'.vec with vrf := c.vec.vrf, masks := c.vec.masks }
    ucsr := { c'.ucsr with vseed := c.ucsr.vseed, vflg0 := c.ucsr.vflg0, vflg1 := c.ucsr.vflg1 } } = c

/-- R257 to R262: `c'` is `c` after an instruction has written the elements `els` of `vd`, of `n` bytes each, in order: each is what `f` gives for
its row, its number and the generator as it then stands; its flags are raised in the group of its lane. Nothing else changes. -/
def wroteElems (c c' : Ctx) (vd : VReg) (n : Nat) (nf : Bool) (els : List (Nat × Nat)) (f : Nat → Nat → BitVec 32 → Lane) : Prop :=
  ∃ g : Nat → BitVec 32, g 0 = c.ucsr.vseed ∧ c'.ucsr.vseed = g els.length ∧
    (∀ k r e, els[k]? = some (r, e) → g (k + 1) = (f r e (g k)).2.2 ∧ elemOf (vrow c' vd r) n e = (f r e (g k)).1 % 2 ^ (8 * n)) ∧
    (∀ r e, e < 64 / n → (r, e) ∉ els → elemOf (vrow c' vd r) n e = elemOf (vrow c vd r) n e) ∧
    (∀ l b, l < 16 → b < 8 → (laneBit c' l b = true ↔ laneBit c l b = true ∨
      (nf = false ∧ ∃ k r e, els[k]? = some (r, e) ∧ e * n / 4 = l ∧ (f r e (g k)).2.1.getLsbD b = true))) ∧
    (∀ v r, v ≠ vd → vrow c' v r = vrow c v r) ∧ c'.vec.masks = c.vec.masks ∧ vectorOnly c c'

/-- An element of a source, as a number, and as a value of its format. -/
def el (c : Ctx) (v : VReg) (ty : VFmt) (r e : Nat) : Nat := elemOf (vrow c v r) ty.size e
def flt (c : Ctx) (v : VReg) (ty : VFmt) (r e : Nat) : Val := decodeF (fmtOf ty) (el c v ty r e)

/-- R120, R271: an exact result with its flags, rounded. -/
def rounded (c : Ctx) (ty : VFmt) (x : Val × BitVec 5) (g : BitVec 32) : Lane :=
  let r := roundF (fmtOf ty) (vMode c) false g x.1
  (r.1, x.2 ||| r.2.1, r.2.2)

/-- R271: a result by exact arithmetic: an integer that wraps, or a value that is rounded. -/
def arith (c : Ctx) (a b : VReg) (ty : VFmt) (fi : Int → Int → Int) (ff : Val → Val → Val × BitVec 5) (r e : Nat) (g : BitVec 32) : Lane :=
  if ty.isInt then (ofIval ty (fi (ival ty (el c a ty r e)) (ival ty (el c b ty r e))), 0, g)
  else rounded c ty (ff (flt c a ty r e) (flt c b ty r e)) g

/-- R271: the lesser or greater. -/
def pick (c : Ctx) (a b : VReg) (ty : VFmt) (max : Bool) (r e : Nat) (g : BitVec 32) : Lane :=
  let x := el c a ty r e
  let y := el c b ty r e
  if ty.isInt then (if max then (if ival ty x < ival ty y then y else x) else if ival ty x < ival ty y then x else y, 0, g)
  else ((minMaxF (fmtOf ty) max x y).1, (minMaxF (fmtOf ty) max x y).2, g)

/-- R281: a converted element. -/
def converted (c : Ctx) (a : VReg) (ty sty : VFmt) (sat : Bool) (r e : Nat) (g : BitVec 32) : Lane :=
  let lo := (intRange ty).1
  let hi := (intRange ty).2
  let n := ival sty (el c a sty r e)
  let x := flt c a sty r e
  if sty.isInt then
    if ty.isInt then (ofIval ty (max lo (min hi n)), if lo ≤ n ∧ n ≤ hi then 0 else fNV, g)
    else roundF (fmtOf ty) (vMode c) sat g (Val.ofInt n)
  else if ty.isInt then
    let q := roundInt lo hi (vMode c) g x
    (ofIval ty q.1, q.2.1, q.2.2)
  else
    let q := roundF (fmtOf ty) (vMode c) sat g x
    (q.1, q.2.1 ||| (if x.isSnan then fNV else 0), q.2.2)

/-- R274: two products and an accumulator; the sources' elements have two bytes. -/
def dotted (c : Ctx) (d a b : VReg) (ty : VFmt) (r l : Nat) (g : BitVec 32) : Lane :=
  let x (k : Nat) : Nat := elemOf (vrow c a r) 2 (2 * l + k)
  let y (k : Nat) : Nat := elemOf (vrow c b r) 2 (2 * l + k)
  if ty.isInt then
    (ofIval .i32 (ival ty (x 0) * ival ty (y 0) + ival ty (x 1) * ival ty (y 1) + ival .i32 (el c d .i32 r l)), 0, g)
  else
    let p := mulV (decodeF (fmtOf ty) (x 0)) (decodeF (fmtOf ty) (y 0))
    let q := mulV (decodeF (fmtOf ty) (x 1)) (decodeF (fmtOf ty) (y 1))
    let u := addV (decide (vMode c = .rdn)) p.1 q.1
    let v := addV (decide (vMode c = .rdn)) u.1 (flt c d .f32 r l)
    rounded c .f32 (v.1, p.2 ||| q.2 ||| u.2 ||| v.2) g

/-- R262: the active elements of an instruction on elements of a format, in order. -/
def active (c : Ctx) (m : MReg) (ty : VFmt) : List (Nat × Nat) := activeElems c m (rowLen c ty.size)

/-- R260: every element of the granted rows, in order. -/
def granted (c : Ctx) (ty : VFmt) : List (Nat × Nat) :=
  (List.range c.vec.rows).flatMap fun r => (List.range (rowLen c ty.size)).map fun e => (r, e)

/-- R271 to R281: the instructions that work element by element: destination, bytes of an element of it, whether flags are left alone, the
elements written, and what each is. -/
def laneOf (c : Ctx) : Instr → Option (VReg × Nat × Bool × List (Nat × Nat) × (Nat → Nat → BitVec 32 → Lane))
  | .vadd d a b m ty _ nf =>
    some (d, ty.size, nf, active c m ty, arith c a b ty (fun x y => x + y) fun x y => addV (decide (vMode c = .rdn)) x y)
  | .vsub d a b m ty _ nf =>
    some (d, ty.size, nf, active c m ty, arith c a b ty (fun x y => x - y) fun x y => addV (decide (vMode c = .rdn)) x y.negate)
  | .vmul d a b m ty _ nf => some (d, ty.size, nf, active c m ty, arith c a b ty (fun x y => x * y) fun x y => mulV x y)
  | .vmin d a b m ty _ nf => some (d, ty.size, nf, active c m ty, pick c a b ty false)
  | .vmax d a b m ty _ nf => some (d, ty.size, nf, active c m ty, pick c a b ty true)
  | .vfma d a b m ty _ nf => some (d, ty.size, nf, active c m ty, fun r e g =>
      rounded c ty (fmaV (decide (vMode c = .rdn)) false false (flt c a ty r e) (flt c b ty r e) (flt c d ty r e)) g)
  | .vfms d a b m ty _ nf => some (d, ty.size, nf, active c m ty, fun r e g =>
      rounded c ty (fmaV (decide (vMode c = .rdn)) false true (flt c a ty r e) (flt c b ty r e) (flt c d ty r e)) g)
  | .vfnma d a b m ty _ nf => some (d, ty.size, nf, active c m ty, fun r e g =>
      rounded c ty (fmaV (decide (vMode c = .rdn)) true false (flt c a ty r e) (flt c b ty r e) (flt c d ty r e)) g)
  | .vand d a b m ty _ _ => some (d, ty.size, true, active c m ty, fun r e g => (el c a ty r e &&& el c b ty r e, 0, g))
  | .vor d a b m ty _ _ => some (d, ty.size, true, active c m ty, fun r e g => (el c a ty r e ||| el c b ty r e, 0, g))
  | .vxor d a b m ty _ _ => some (d, ty.size, true, active c m ty, fun r e g => (el c a ty r e ^^^ el c b ty r e, 0, g))
  | .vshl d a b m ty _ _ => some (d, ty.size, true, active c m ty, fun r e g => (el c a ty r e <<< (el c b ty r e % (8 * ty.size)), 0, g))
  | .vshr d a b m ty _ _ => some (d, ty.size, true, active c m ty, fun r e g => (el c a ty r e >>> (el c b ty r e % (8 * ty.size)), 0, g))
  | .vsra d a b m ty _ _ => some (d, ty.size, true, active c m ty, fun r e g =>
      (ofIval ty (ival ty (el c a ty r e) / 2 ^ (el c b ty r e % (8 * ty.size))), 0, g))
  | .vabs d a m ty _ _ => some (d, ty.size, true, active c m ty, fun r e g =>
      (if ty.isInt then ofIval ty (max (ival ty (el c a ty r e)) (-(ival ty (el c a ty r e)))) else el c a ty r e % 2 ^ (8 * ty.size - 1), 0, g))
  | .vneg d a m ty _ _ => some (d, ty.size, true, active c m ty, fun r e g =>
      (if ty.isInt then ofIval ty (-(ival ty (el c a ty r e))) else el c a ty r e ^^^ 2 ^ (8 * ty.size - 1), 0, g))
  | .vrcp d a m ty _ nf => some (d, ty.size, nf, active c m ty, fun r e g => rounded c ty (rcpV (flt c a ty r e)) g)
  | .vrsq d a m ty _ nf => some (d, ty.size, nf, active c m ty, fun r e g => rounded c ty (rsqV (flt c a ty r e)) g)
  | .vexp2 d a m ty _ nf => some (d, ty.size, nf, active c m ty, fun r e g => rounded c ty (exp2V (flt c a ty r e)) g)
  | .vlog2 d a m ty _ nf => some (d, ty.size, nf, active c m ty, fun r e g => rounded c ty (log2V (flt c a ty r e)) g)
  | .vmvv d a m ty _ _ => some (d, ty.size, true, active c m ty, fun r e g => (el c a ty r e, 0, g))
  | .vsel d a b m ty _ _ => some (d, ty.size, true, granted c ty, fun r e g =>
      (if maskBit c m r e then el c a ty r e else el c b ty r e, 0, g))
  | .vperm d a b m ty _ _ => some (d, ty.size, true, active c m ty, fun r e g =>
      (if el c b ty r e < rowLen c ty.size then el c a ty r (el c b ty r e) else 0, 0, g))
  | .vcvt d a m ty sty sat _ nf =>
    some (d, ty.size, nf, activeElems c m (min (rowLen c ty.size) (rowLen c sty.size)), converted c a ty sty sat)
  | .vdot2 d a b m ty _ nf => some (d, 4, nf, (List.range c.vec.rows).flatMap fun r => ((List.range 16).filter fun l =>
      decide (2 * l + 1 < rowLen c 2) && maskBit c m r l).map fun l => (r, l), dotted c d a b ty)
  | _ => none

/-- R276: the comparisons: destination, sources, mask, format, whether flags are left alone, whether only signaling NaNs raise NV, and the two
results. -/
def cmpOf : Instr → Option (MReg × VReg × VReg × MReg × VFmt × Bool × Bool × (Int → Int → Bool) × (Val → Val → Bool))
  | .vcmpEq d a b m ty _ nf => some (d, a, b, m, ty, nf, true, fun x y => decide (x = y), eqV)
  | .vcmpNe d a b m ty _ nf => some (d, a, b, m, ty, nf, true, fun x y => decide (x ≠ y), fun x y => !eqV x y)
  | .vcmpLt d a b m ty _ nf => some (d, a, b, m, ty, nf, false, fun x y => decide (x < y), ltV)
  | .vcmpLe d a b m ty _ nf => some (d, a, b, m, ty, nf, false, fun x y => decide (x ≤ y), fun x y => ltV x y || eqV x y)
  | _ => none

/-- R282: the reductions: operation, destination, source, mask, format, and whether flags are left alone. -/
def redOf : Instr → Option (RedOp × VReg × VReg × MReg × VFmt × Bool)
  | .vredSum d a m ty _ nf => some (.sum, d, a, m, ty, nf)
  | .vredMax d a m ty _ nf => some (.max, d, a, m, ty, nf)
  | .vredMin d a m ty _ nf => some (.min, d, a, m, ty, nf)
  | _ => none

/-- R285: the mask instructions of two masks or one: destination, sources, and the result bit by bit. -/
def maskOf : Instr → Option (MReg × MReg × MReg × (Bool → Bool → Bool))
  | .mand d a b => some (d, a, b, fun x y => x && y)
  | .mor d a b => some (d, a, b, fun x y => x || y)
  | .mxor d a b => some (d, a, b, fun x y => x != y)
  | .mnot d a => some (d, a, a, fun x _ => !x)
  | _ => none

/-- The vector instructions of the three tables are held by the pace of earlier ones. -/
def paced (c : Ctx) (i : Instr) : Prop := laneOf c i ≠ none ∨ cmpOf i ≠ none ∨ redOf i ≠ none ∨ maskOf i ≠ none

/-- R258: `c'` is `c` with mask `d` written: `f` gives the bits; m0 stays all ones. -/
def wroteMask (c c' : Ctx) (d : MReg) (f : Nat → Nat → Bool) : Prop :=
  (d ≠ 0 → ∀ r e, r < 8 → e < 64 → maskBit c' d r e = f r e) ∧ (∀ m, m ≠ d → maskVal c' m = maskVal c m) ∧
  maskVal c' 0 = BitVec.allOnes 512 ∧ (∀ v r, vrow c' v r = vrow c v r)

end Sys2Proof.Claims

/-- R257 to R262, R120, R128, R271 to R281: what the instructions that work element by element write, in order, with their flags and draws, and
that they write nothing else; R265: an undersized producer is cause 28 on a core that checks. The exact sums, products, quotients and roots are
those of `FloatResults`. Rests also on the model's choices: log entries 5, 9. -/
def Obligations.VectorElementResults : Prop :=
  ∀ (i : Instr) (s : State), unheld i s →
    (∀ vd n nf els f, laneOf (here s) i = some (vd, n, nf, els, f) → paceOk i s → ∃ c', wroteElems (here s) c' vd n nf els f ∧
      exec i s = .next (doneIn i s (nextPc (withHere s fun _ => c')))) ∧
    (∀ p, (here s).out = [] → paced (here s) i → undersized (here s) (footOf i) = some p → paceCheck s s.cur = true →
      exec i s = .next (takeTrap s s.cur 28 (here s).pc p.addr (iword i) 0))

/-- R258, R276, R282, R285: comparisons write every bit of their mask; masks are combined bit by bit; a reduction writes bytes [3:0] of row 0:
an exact sum, maximum or minimum of the active integers, saturated to 32 bits; no active element gives the operation's neutral value. -/
def Obligations.VectorMasksAndReductions : Prop :=
  (∀ (i : Instr) md a b m ty nf quiet fi ff, cmpOf i = some (md, a, b, m, ty, nf, quiet, fi, ff) → ∀ (s : State), unheld i s → paceOk i s →
    let c := here s
    let nan (r e : Nat) : Bool := !ty.isInt && (if quiet then (flt c a ty r e).isSnan || (flt c b ty r e).isSnan
      else (flt c a ty r e).isNan || (flt c b ty r e).isNan)
    ∃ c', exec i s = .next (doneIn i s (nextPc (withHere s fun _ => c'))) ∧ vectorOnly c c' ∧ c'.ucsr.vseed = c.ucsr.vseed ∧
      wroteMask c c' md (fun r e => decide ((r, e) ∈ active c m ty) &&
        (if ty.isInt then fi (ival ty (el c a ty r e)) (ival ty (el c b ty r e)) else ff (flt c a ty r e) (flt c b ty r e))) ∧
      (∀ l k, l < 16 → k < 8 → (laneBit c' l k = true ↔ laneBit c l k = true ∨
        (nf = false ∧ ∃ r e, (r, e) ∈ active c m ty ∧ e * ty.size / 4 = l ∧ nan r e = true ∧ fNV.getLsbD k = true)))) ∧
  (∀ (i : Instr) md ma mb f, maskOf i = some (md, ma, mb, f) → ∀ (s : State), unheld i s → paceOk i s →
    ∃ c', exec i s = .next (doneIn i s (nextPc (withHere s fun _ => c'))) ∧ vectorOnly (here s) c' ∧
      wroteMask (here s) c' md (fun r e => f (maskBit (here s) ma r e) (maskBit (here s) mb r e))) ∧
  (∀ (i : Instr) op vd a m ty nf, redOf i = some (op, vd, a, m, ty, nf) → ∀ (s : State), unheld i s → paceOk i s →
    ∃ c', exec i s = .next (doneIn i s (nextPc (withHere s fun _ => c'))) ∧ vectorOnly (here s) c' ∧ c'.vec.masks = (here s).vec.masks ∧
      ((here s).vec.rows = 0 → c' = here s) ∧
      ((here s).vec.rows ≠ 0 → elemOf (vrow c' vd 0) 4 0 = (reduce op (here s) a m ty).1 % 2 ^ 32 ∧
        c'.ucsr.vseed = (reduce op (here s) a m ty).2.1 ∧
        (∀ e, 0 < e → e < 16 → elemOf (vrow c' vd 0) 4 e = elemOf (vrow (here s) vd 0) 4 e) ∧
        (∀ v r, v ≠ vd ∨ r ≠ 0 → vrow c' v r = vrow (here s) v r))) ∧
  (∀ (c : Ctx) (a : VReg) (m : MReg) (ty : VFmt), ty.isInt = true →
    let l := (active c m ty).map fun p => ival ty (el c a ty p.1 p.2)
    let clamp (n : Int) : Nat := (BitVec.ofInt 32 (max (-2 ^ 31) (min (2 ^ 31 - 1) n))).toNat
    (reduce .sum c a m ty).1 = clamp l.sum ∧
    (reduce .max c a m ty).1 = clamp (l.foldl max (intRange ty).1) ∧ (reduce .min c a m ty).1 = clamp (l.foldl min (intRange ty).2)) ∧
  (∀ (c : Ctx) (a : VReg) (m : MReg) (ty : VFmt), ty.isInt = false → active c m ty = [] →
    (reduce .sum c a m ty).1 = 0 ∧ (reduce .max c a m ty).1 = 0xFF800000 ∧ (reduce .min c a m ty).1 = 0x7F800000)

namespace Sys2Proof.Claims

/-- R283: the exact product of element `e` of a block with the block's scale. -/
def scaled (ty : VFmt) (x : Row) (e : Nat) : Val := (mulV (elemVal ty (elemOf x 1 e)) (sc24V (elemOf x 4 8 % 2 ^ 24))).1

/-- R283: a quotient rounded to an element of a block: its bits, flags, and the generator after it. -/
def blockElem (ty : VFmt) (mode : RMode) (v : Val) (g : BitVec 32) : Lane :=
  if ty.isInt then (ofIval ty (roundInt (-128) 127 mode g v).1, (roundInt (-128) 127 mode g v).2) else roundF (fmtOf ty) mode true g v

/-- R113, R283: the sum of two blocks as a new block. A scale or a sum that is no finite number gives the NaN scale and zeros; sums that are all zero give
zeros; otherwise the scale is the least one at or above the greatest magnitude divided by the greatest of the format, or the largest one, with OF; each
element is its sum divided by the scale, rounded in order, with its flags in its lane. -/
def blockSums : Prop :=
  (∀ (ty : VFmt) (mode : RMode) (nf : Bool) (x y : Row) (c : Ctx),
    let out := (bqRow ty mode nf x y c).1
    let c' := (bqRow ty mode nf x y c).2
    let sx := sc24V (elemOf x 4 8 % 2 ^ 24)
    let sy := sc24V (elemOf y 4 8 % 2 ^ 24)
    let sum (e : Nat) : Val := (addV (decide (mode = .rdn)) (scaled ty x e) (scaled ty y e)).1
    let wrong : Prop := sx.isNan = true ∨ sy.isNan = true ∨ ∃ e, e < 32 ∧ ((sum e).isNan = true ∨ (sum e).isInf = true)
    let infByZero (v : Row) (s : Val) (e : Nat) : Prop := (elemVal ty (elemOf v 1 e)).isInf = true ∧ s.isZero = true
    let invalid : Prop := sx.isNan = true ∨ sy.isNan = true ∨ ∃ e, e < 32 ∧ (infByZero x sx e ∨ infByZero y sy e ∨
      ((scaled ty x e).isInf = true ∧ (scaled ty y e).isInf = true ∧ (scaled ty x e).neg ≠ (scaled ty y e).neg))
    let most := maxAbs ((List.range 32).map sum)
    let up := sc24Up (divV most (Val.ofInt (bqMax ty))).1
    let q (e : Nat) : Val := (divV (sum e) (sc24V (up.getD 0xFEFFFF))).1
    out.toNat < 2 ^ 288 ∧ vectorOnly c c' ∧ c'.vec = c.vec ∧
    (wrong → elemOf out 4 8 = 0xFF0000 ∧ (∀ e, e < 32 → elemOf out 1 e = 0) ∧ c'.ucsr.vseed = c.ucsr.vseed ∧
      ∀ l k, l < 16 → k < 8 → (laneBit c' l k = true ↔ laneBit c l k = true ∨ (nf = false ∧ l = 8 ∧ invalid ∧ fNV.getLsbD k = true))) ∧
    (¬ wrong → most.isZero = true → out = 0 ∧ c' = c) ∧
    (¬ wrong → most.isZero = false → elemOf out 4 8 = up.getD 0xFEFFFF ∧ ∃ g : Nat → BitVec 32, g 0 = c.ucsr.vseed ∧ c'.ucsr.vseed = g 32 ∧
      (∀ e, e < 32 → elemOf out 1 e = (blockElem ty mode (q e) (g e)).1 % 256 ∧ g (e + 1) = (blockElem ty mode (q e) (g e)).2.2) ∧
      ∀ l k, l < 16 → k < 8 → (laneBit c' l k = true ↔ laneBit c l k = true ∨ (nf = false ∧ ((l = 8 ∧ up = none ∧ fOF.getLsbD k = true) ∨
        ∃ e, e < 32 ∧ e / 4 = l ∧ (blockElem ty mode (q e) (g e)).2.1.getLsbD k = true))))) ∧
  (∀ l : List Val, (∀ v ∈ l, v.isNan = false ∧ v.isInf = false) → ((maxAbs l).isZero = true ∨ ∃ v ∈ l, maxAbs l = v.abs) ∧
    ∀ v ∈ l, ltV (maxAbs l) v.abs = false) ∧
  (∀ (m : Nat) (e E : Int) (above : Bool), m ≠ 0 → (above = true → 2 ^ 17 ≤ m) → E ≤ e → E ≤ -142 →
    let reaches (k : Nat) : Prop := ∃ w, units E (sc24V k) = some w ∧ (m * 2 ^ (e - E).toNat : Nat) ≤ w ∧
      (above = true → (m * 2 ^ (e - E).toNat : Nat) < w)
    match sc24Up (.fin false m e above) with
    | some k => k < 0xFF0000 ∧ reaches k ∧ ∀ j, j < k → ¬ reaches j
    | none => ∀ j, j < 0xFF0000 → ¬ reaches j)

end Sys2Proof.Claims

/-- R261, R279, R280, R283, R285: moves between x registers, elements and masks, the grant, and block requantisation. -/
def Obligations.VectorMovesAndShape : Prop :=
  (∀ (vd : VReg) (rs1 : Reg) (ty : VFmt) (pace : BitVec 2) (s s1 : State) (a : Word), steady s → operands [rs1] none s = .ok ([a], s1) →
    let i := Instr.vbcast vd rs1 ty pace
    ∃ c', wroteElems (here s1) c' vd ty.size true (active (here s1) 0 ty) (fun _ _ g => (a.toNat, 0, g)) ∧
      exec i s = .next (doneIn i s (nextPc (withHere s1 fun _ => c')))) ∧
  (∀ (rd : Reg) (vs : VReg) (rs2 : Reg) (ty : VFmt) (pace : BitVec 2) (s s1 s2 : State) (x : Word), steady s →
    operands [rs2] (some rd) s = .ok ([x], s1) → let i := Instr.vmvxToX rd vs rs2 ty pace
    let r := x.toNat / 64 % 8
    let e := x.toNat % 64
    paceOk i s1 → writeRd rd (if r < (here s1).vec.rows ∧ e < rowLen (here s1) ty.size then
      BitVec.ofInt 64 (BitVec.ofNat (8 * ty.size) (el (here s1) vs ty r e)).toInt else 0) s1 = .ok ((), s2) →
    exec i s = .next (doneIn i s (nextPc s2))) ∧
  (∀ (vd : VReg) (rs1 rs2 : Reg) (ty : VFmt) (pace : BitVec 2) (s s1 : State) (a x : Word), steady s →
    operands [rs1, rs2] none s = .ok ([a, x], s1) → let i := Instr.vmvxToV vd rs1 rs2 ty pace
    let r := x.toNat / 64 % 8
    let e := x.toNat % 64
    ∃ c', exec i s = .next (doneIn i s (nextPc (withHere s1 fun _ => c'))) ∧
      wroteElems (here s1) c' vd ty.size true (if r < (here s1).vec.rows ∧ e < rowLen (here s1) ty.size then [(r, e)] else [])
        (fun _ _ g => (a.toNat, 0, g))) ∧
  (∀ (rd rs1 : Reg) (ty : VFmt) (pace : BitVec 2) (s s1 s2 : State) (a : Word), steady s → operands [rs1] (some rd) s = .ok ([a], s1) →
    let i := Instr.vshape rd rs1 ty pace
    let rows := if bitOf a 63 then (here s1).vec.rows else min (a.toNat / 2 ^ 16 % 2 ^ 16) (min 8 ((here s1).vec.vrows / 16))
    let len := if bitOf a 63 then (here s1).vec.len else min (a.toNat % 2 ^ 16) (64 / ty.size)
    writeRd rd (word (rows * 2 ^ 16 + len)) (withHere s1 fun c => { c with vec := { c.vec with rows := rows, len := len } }) = .ok ((), s2) →
    exec i s = .next (doneIn i s (nextPc s2))) ∧
  (∀ (rd : Reg) (ma : MReg) (s s1 s2 : State), steady s → operands [] (some rd) s = .ok ([], s1) →
    let ones := activeElems (here s1) ma (here s1).vec.len
    (paceOk (.mpop rd ma) s1 → writeRd rd (word ones.length) s1 = .ok ((), s2) →
      exec (.mpop rd ma) s = .next (doneIn (.mpop rd ma) s (nextPc s2))) ∧
    (paceOk (.mfirst rd ma) s1 → writeRd rd (match ones with | [] => BitVec.ofInt 64 (-1) | p :: _ => word (p.1 * (here s1).vec.len + p.2)) s1 =
      .ok ((), s2) → exec (.mfirst rd ma) s = .next (doneIn (.mfirst rd ma) s (nextPc s2)))) ∧
  (∀ (md : MReg) (rs1 : Reg) (s s1 : State) (a : Word), steady s → operands [rs1] none s = .ok ([a], s1) →
    ∃ c', exec (.mset md rs1) s = .next (doneIn (.mset md rs1) s (nextPc (withHere s1 fun _ => c'))) ∧ vectorOnly (here s1) c' ∧
      wroteMask (here s1) c' md (fun _ e => bitOf a e)) ∧
  (∀ (vd a b : VReg) (ty : VFmt) (pace : BitVec 2) (nf : Bool) (s : State), steady s → let i := Instr.vbqAddrq vd a b ty pace nf
    paceOk i s → ∃ c', exec i s = .next (doneIn i s (nextPc (withHere s fun _ => c'))) ∧ vectorOnly (here s) c' ∧
      c'.vec.masks = (here s).vec.masks ∧
      (∀ r, r < (here s).vec.rows → ∃ cr : Ctx, vrow c' vd r = (bqRow ty (vMode (here s)) nf (vrow (here s) a r) (vrow (here s) b r) cr).1) ∧
      (∀ v r, v ≠ vd ∨ (here s).vec.rows ≤ r → vrow c' v r = vrow (here s) v r)) ∧
  blockSums

namespace Sys2Proof.Claims

/-- R266: the address of element `e` of row `r` of a vector load or store of elements of `n` bytes, from the operands. -/
def vecAddr (kind : Nat) (vi : VReg) (n : Nat) (c : Ctx) (l : List Word) (r e : Nat) : Word :=
  match kind with
  | 0 => word ((l.getD 0 0).toNat + (r * rowLen c n + e) * n)
  | 1 => word ((l.getD 0 0).toNat + r * (l.getD 1 0).toNat + e * n)
  | _ => word ((l.getD 0 0).toNat + elemOf (vrow c vi r) n e * n)

/-- R266: the vector loads and stores: whether it stores, the register, the base, the operand registers, the mask, the element size, and the
address. -/
def vecMemOf : Instr → Option (Bool × VReg × Reg × List Reg × MReg × Esz × (Ctx → List Word → Nat → Nat → Word))
  | .vld v b m e => some (false, v, b, [b], m, e, vecAddr 0 0 e.size)
  | .vlds v b x m e => some (false, v, b, [b, x], m, e, vecAddr 1 0 e.size)
  | .vldx v b vi m e => some (false, v, b, [b], m, e, vecAddr 2 vi e.size)
  | .vst v b m e => some (true, v, b, [b], m, e, vecAddr 0 0 e.size)
  | .vsts v b x m e => some (true, v, b, [b, x], m, e, vecAddr 1 0 e.size)
  | .vstx v b vi m e => some (true, v, b, [b], m, e, vecAddr 2 vi e.size)
  | _ => none

/-- The active elements of a vector load or store with their addresses. -/
def vecAccesses (c : Ctx) (m : MReg) (e : Esz) (addr : Nat → Nat → Word) : List (Nat × Nat × Word) :=
  (activeElems c m (rowLen c e.size)).map fun p => (p.1, p.2, addr p.1 p.2)

end Sys2Proof.Claims

/-- R20, R262, R266 to R268, R470: vector loads and stores: the address of each active element; a load writes the elements it has read, or is
outstanding until it can read them all; a store's granted rows with an active element enter the store buffer together, with the elements' bytes in
order; a first element whose address is no multiple of its size is cause 4 or 6. Rests also on the model's choices: log entries 6, 62, 110. -/
def Obligations.VectorMemory : Prop :=
  ∀ (i : Instr) st v rs1 srcs m e addr, vecMemOf i = some (st, v, rs1, srcs, m, e, addr) →
    ∀ (s s1 s2 : State) (l : List Word), unheld i s → operands srcs none s = .ok (l, s1) → l.length = srcs.length → paceOk i s1 →
      orderGate .rlx .sys s1 = .ok ((), s2) →
      let acc := vecAccesses (here s2) m e (addr (here s2) l)
      (st = false → ∀ els s3, loadElems e.size (rs1 == 2) acc s2 = .ok (els, s3) → (here s3).scout = none → mayAccess s3 s3.cur els = true →
        els.map (fun p => (p.row, p.elem, p.ea)) = acc ∧
        let far := touches (waiting (here s3)) els
        let got := readElems s3.cur (readerOf s3.cur s3.nextId) (here s3).sb els s3
        (∀ vals s4, far = false → got = .ok (vals, s4) → vals.map (fun p => p.1) = els ∧
          ∃ c', exec i s = .next (doneIn i s (nextPc (withHere s4 fun _ => c'))) ∧ wroteElems (here s4) c' v e.size true
            (acc.map fun p => (p.1, p.2.1))
            (fun r k g => (((vals.find? fun p => p.1.row == r && p.1.elem == k).map fun p => p.2).getD 0, 0, g))) ∧
        (∀ (w : ReadWait) (x : Word), (far = true ∧ w = .needs []) ∨ (far = false ∧ got = .error (w, x)) →
          ∃ o : Outstanding, o.id = s3.nextId ∧ o.vd = some v ∧ o.marks = (1 : BitVec 56) <<< (32 + v.toNat) ∧ o.slot = none ∧ o.elems = els ∧
            o.size = e.size ∧ o.order = .rlx ∧ o.reply = none ∧
            exec i s = .next (doneIn i s (nextPc (withAccess (applyReqs (takeId s3).2 (w.reqs (readerOf s3.cur s3.nextId))) o))))) ∧
      (st = true → ∀ put s3, writeElems (here s2) v e.size (rs1 == 2) acc s2 = .ok (put, s3) → ∃ rows : List SbEntry,
        rows.flatMap (fun x => x.bytes) = put.flatMap (fun p => p.2.1) ∧ rows.length ≤ (here s2).vec.rows ∧ (∀ x ∈ rows, x.kind = .store) ∧
        ((here s3).sb.length + rows.length ≤ 8 →
          exec i s = .next (doneIn i s (nextPc (withHere s3 fun c => { c with sb := c.sb ++ rows })))) ∧
        (∀ x ∈ rows, x.seq = s3.nextId) ∧
        (8 < (here s3).sb.length + rows.length → exec i s = .next s)) ∧
      (∀ r k ea t, (here s).out = [] → acc = (r, k, ea) :: t → ea.toNat % e.size ≠ 0 →
        exec i s = .next (takeTrap (issued s) s.cur (if st then 6 else 4) (here s).pc ea (iword i) 0))

/-! Tile commands -/

namespace Sys2Proof.Claims

/-- R288: the executing context's window takes a command of the four words `w`: RND resolved, a seed drawn for stochastic rounding. -/
def entersWindow (c c' : Ctx) (w : List Word) : Prop :=
  let rnd := if fieldOf (w.getD 0 0) 20 3 = 7 then c.ucsr.vrm.toNat else fieldOf (w.getD 0 0) 20 3
  ∃ e : WinEntry, c'.win = c.win ++ [e] ∧ fieldOf e.w0 20 3 = rnd ∧ (∀ n, n < 20 ∨ 22 < n → bitOf e.w0 n = bitOf (w.getD 0 0) n) ∧
    e.w1 = w.getD 1 0 ∧ e.w2 = w.getD 2 0 ∧ e.w3 = w.getD 3 0 ∧ e.sent = none ∧
    (rnd ≠ 5 → e.seed = 0 ∧ c'.ucsr.vseed = c.ucsr.vseed) ∧
    (rnd = 5 → c'.ucsr.vseed = draw c.ucsr.vseed ∧ e.seed = if draw c.ucsr.vseed = 0 then 1 else draw c.ucsr.vseed) ∧
    { c' with win := c.win, ucsr := { c'.ucsr with vseed := c.ucsr.vseed } } = c

/-- R288: how an instruction that issues the command `w` ends, its words having been had in state `s1`. -/
def issuesCommand (i : Instr) (s s1 : State) (w : List Word) : Prop :=
  ((here s1).winRev = 0 → exec i s = .next (takeTrap (issued s) s.cur 29 (here s).pc (w.getD 0 0) (iword i) 0)) ∧
  ((here s1).winRev ≠ 0 → 32 ≤ (here s1).win.length → exec i s = .next (parkCtx (dropReads s s.cur) .window)) ∧
  ((here s1).winRev ≠ 0 → (here s1).win.length < 32 → acqClear s1 s1.cur = true → settled s1 s1.cur (commandScope s1 s1.cur (fieldOf (w.getD 1 0) 0 12)) = true →
    ∃ c', entersWindow (here s1) c' w ∧ exec i s = .next (doneIn i s (nextPc (withHere s1 fun _ => c'))))

/-- A command of a cluster that stands in a state. -/
def standsAs (t : State) (cl : Nat) (c : Cmd) : Prop := c ∈ (getCluster t cl).cmds

/-- R296: the command of the oldest entry of a context's window, which the window sends next. -/
def firstOf (s : State) (a : Nat) (e : WinEntry) : Cmd := cmdOf { s with nextId := s.nextId + 1 } a s.nextId e

/-- R312: the lines that the other settings of a cluster pin. -/
def othersPins (k : Cluster) (x : Setting) : List Nat := (k.settings.filter fun y => y.opened != x.opened).flatMap (·.pins)

/-- R312: the lines of two lists are more than 64 MiB together. -/
def tooMany (l m : List Nat) : Bool := decide (2 ^ 26 < 128 * (dedup (l ++ m)).length)

/-- R303 to R305: what a data command has to write: the elements `vals` of a format at the places `dst`, and nothing elsewhere. -/
def writesElements (fc : Nat) (dst : List (Option (Loc × Nat))) (vals : List Nat) (out : List (Bool × Nat × Byte)) : Prop :=
  (fmtBits fc ≠ 4 → ∀ (i : Nat) l nib v, dst[i]? = some (some (l, nib)) → vals[i]? = some v → ∀ k, k < fmtBytes fc →
    (l.cls == .spad, l.key + k, (leBytes (fmtBytes fc) v).getD k 0) ∈ out) ∧
  (fmtBits fc = 4 → ∀ (i : Nat) l nib v, dst[i]? = some (some (l, nib)) → vals[i]? = some v →
    (∀ (j : Nat), i < j → dst[j]? ≠ some (some (l, nib))) → ∃ b : Byte, (l.cls == .spad, l.key, b) ∈ out ∧ b.toNat / 16 ^ nib % 16 = v % 16) ∧
  ∀ b ∈ out, ∃ l nib, some (l, nib) ∈ dst ∧ b.1 = (l.cls == .spad) ∧ l.key ≤ b.2.1 ∧ b.2.1 < l.key + fmtBytes fc

/-- R303 to R305: what the data commands compute: `copy` the bits of the source elements, zero for one out of range; `conv` the values of the source elements,
scaled where the format has scales, rounded in order to the destination's format; `fill` one element everywhere. -/
def dataResults : Prop :=
  (∀ (s : State) (a f : Nat) (l : List (Option (Loc × Nat))) (v : List (Option Nat)), readFmt s a f l = .ok v → v.length = l.length ∧
    ∀ (i : Nat), (l[i]? = some none → v[i]? = some none) ∧ ∀ p nib b, l[i]? = some (some (p, nib)) → engRead s a p (fmtBytes f) = .ok b →
      v[i]? = some (some (if fmtBits f = 4 then leNat b / 16 ^ nib % 16 else leNat b))) ∧
  (∀ (s s2 : State) (c : Cmd) (out : List (Bool × Nat × Byte)) (fl : BitVec 5) (tags : List Nat),
    let ta := recOf c.ta
    let fa := trFmt ta
    let fc := trFmt (recOf c.tc)
    let places := c.regDst.places (recOf c.tc)
    (copyResult s c = .ok (s2, out, fl, tags) → fa = fc → fl = 0 ∧ ∃ src sc dst v,
      transData s c (c.regSrc.places ta) [] (fmtBytes fa) places = .ok (s2, src, sc, dst, tags) ∧ readFmt s2 c.agent fa src = .ok v ∧
      writesElements fc dst (v.map fun x => x.getD 0) out) ∧
    (convResult s c = .ok (s2, out, fl, tags) → ∃ src slots dst v sc vals, ∃ g : Nat → BitVec 32, ∃ fs : Nat → BitVec 5,
      transData s c (c.regSrc.places ta) c.slotsSrc (fmtBytes fa) places = .ok (s2, src, slots, dst, tags) ∧
      readFmt s2 c.agent fa src = .ok v ∧ readScales s2 c.agent slots = .ok sc ∧ writesElements fc dst vals out ∧ g 0 = c.seed ∧
      (∀ (i : Nat) x f0, (convSource (memberOf s2 c) fa c.regSrc.coords v sc)[i]? = some (x, f0) →
        vals[i]? = some (convElem fc c.rnd c.sat x (g i)).1 ∧ g (i + 1) = (convElem fc c.rnd c.sat x (g i)).2.2 ∧
        fs i = f0 ||| (convElem fc c.rnd c.sat x (g i)).2.1) ∧
      fl = (List.range vals.length).foldl (fun f i => f ||| fs i) 0) ∧
    (fillResult s c = .ok (s2, out, fl, tags) → fl = 0 ∧ ∃ src sc dst, transData s c [] [] 1 places = .ok (s2, src, sc, dst, tags) ∧
      writesElements fc dst (places.map fun _ => fieldOf c.w2 0 32 % 2 ^ fmtBits fc) out)) ∧
  (∀ (w : Member) (f : Nat) (coords : List (Nat × Nat)) (v : List (Option Nat)) (sc : List Val) (i r c : Nat) (x : Option Nat),
    coords[i]? = some (r, c) → v[i]? = some x → (fmtScaled f = true → i < sc.length) →
    let e : Val := match x with | none => .fin false 0 0 false | some n => if f = 0x10 then cb2Weight w.rows n (r % 8) else fmtVal f n
    (convSource w f coords v sc)[i]? = some (if fmtScaled f then mulV e (sc.getD i oneV) else (e, 0))) ∧
  (∀ (f : Nat) (mode : RMode) (sat : Bool) (x : Val) (g : BitVec 32), let nv := if x.isSnan then fNV else 0
    (∀ fm, fmtFloat f = some fm → convElem f mode sat x g = ((roundF fm mode sat g x).1, nv ||| (roundF fm mode sat g x).2.1, (roundF fm mode sat g x).2.2)) ∧
    (fmtFloat f = none → let q := roundInt (fmtRange f).1 (fmtRange f).2 mode g x
      convElem f mode sat x g = ((BitVec.ofInt (fmtBits f) q.1).toNat, nv ||| q.2.1, q.2.2)))

/-- What a byte is once a command's outputs are written: the last that they write there. -/
def afterOutputs (c : Cmd) (spad : Bool) (k : Nat) (old : Byte) : Byte :=
  match (c.out.filter fun b => b.1 == spad && b.2.1 == k).getLast? with
  | some b => b.2.2
  | none => old

/-- R303 to R305: the data commands: OP, event, and how the result is computed. -/
def dataOf (cl : Nat) : Instr → Option (Nat × (State → Cmd → Except CmdFail (State × List (Bool × Nat × Byte) × BitVec 5 × List Nat)))
  | .copy n => if n = cl then some (0x10, copyResult) else none
  | .conv n => if n = cl then some (0x11, convResult) else none
  | .fill n => if n = cl then some (0x12, fillResult) else none
  | _ => none

end Sys2Proof.Claims

/-- R288, R289, R150: `tc.issue` takes a command from 32 bytes of memory, `tc.issuev` from row 0 of a vector register; a context without a window
traps with cause 29, one whose window is full parks, and a misaligned address is cause 4. R55, R296, R298, R302, R306, R309: a window sends its
oldest entry when it is eligible: a command that fails a check completes with the check's code; a data command goes to the tile data path; a
matrix command goes to a setting; `glaze` takes its table. Rests also on the model's choices: log entries 46, 108. -/
def Obligations.CommandWindows : Prop :=
  ((∀ (rs1 : Reg) (s s1 : State) (a : Word), steady s → isHub s.cur = false → operands [rs1] none s = .ok ([a], s1) →
     (a.toNat % 32 ≠ 0 → exec (.tcIssue rs1) s = .next (takeTrap (issued s) s.cur 4 (here s).pc a (iword (.tcIssue rs1)) 0)) ∧
     (a.toNat % 32 = 0 → ∀ b s2, memRead a 32 false .rlx .clus s1 = .ok (b, s2) → b.length = 32 →
       issuesCommand (.tcIssue rs1) s s2 ((List.range 4).map fun i => word (leNat ((b.drop (8 * i)).take 8))))) ∧
   (∀ (vs : VReg) (s : State), steady s → isHub s.cur = false → paceOk (.tcIssuev vs) s →
     issuesCommand (.tcIssuev vs) s s ((List.range 4).map fun i => word (elemOf (vrow (here s) vs 0) 8 i)))) ∧
  (∀ (s : State) (a : Nat) (e : WinEntry) (rest : List WinEntry), a < Config.contexts → (getCtx s a).win = e :: rest →
     (getCtx s a).status ≠ .free → heldInst s (partOf s a) (instOf (getCtx s a)).1 (instOf (getCtx s a)).2 = false →
     eligible (getCtx s a) e = true →
     let c := firstOf s a e
     let cl := clusterOf a
     let op := fieldOf e.w0 0 8
     let check := sendCheck { s with nextId := s.nextId + 1 } (getCtx s a).winRev c
     (∀ code, check = some code → ∃ t, exec (.windowSend a) s = .next t ∧
       standsAs t cl { c with code := code, out := [], flags := 0, at_ := .done } ∧
       (getCtx t a).win = { e with sent := some s.nextId } :: rest ∧ t.mem = s.mem ∧ t.spad = s.spad) ∧
     (check = none → op = 0x10 ∨ op = 0x11 ∨ op = 0x12 → ∃ t, exec (.windowSend a) s = .next t ∧ standsAs t cl { c with at_ := .data } ∧
       (getCtx t a).win = { e with sent := some s.nextId } :: rest ∧ t.mem = s.mem) ∧
     (check = none → op = 0x20 → ∃ t g, exec (.glaze a 0) s = .next t ∧ exec (.windowSend a) s = .next t ∧
       tfind (getCluster t cl).glaze (c.tidM % 4) = some g ∧ g.space = (getCtx s a).space ∧
       g.gen = (tget {} (getCluster s cl).glaze (c.tidM % 4)).gen + 1 ∧
       g.rows = (tget {} (getCluster s cl).glaze (c.tidM % 4)).rows ∧ standsAs t cl { c with gen := g.gen, at_ := .data }) ∧
     (check = none → op = 1 ∨ op = 2 → ∀ s2 l, transSend { s with nextId := s.nextId + 1 } c = .ok (s2, l) →
       reentries (getCluster s2 cl) = [] → ∀ u, acceptCmd s2 cl c l = some u → ∃ t n, exec (.windowSend a) s = .next t ∧
         (op = 1 → exec (.mma a 0) s = .next t) ∧ (op = 2 → exec (.mmaSp a 0) s = .next t) ∧
         standsAs t cl { c with at_ := .setting n, tags := l.tags } ∧ ∃ x ∈ (getCluster t cl).settings, x.opened = n ∧ c.id ∈ x.members) ∧
     (fieldOf e.w0 8 6 ≠ (getCtx s a).winRev → check = some 4) ∧
     (fieldOf e.w0 8 6 = 1 → (getCtx s a).winRev = 1 → op ∉ [0x01, 0x02, 0x10, 0x11, 0x12, 0x20] → check = some 9))

/-- R309, R310, R312, R313, R314, R315: an opened setting fires when it is full, due, or not shared, and at its deadline when that passes during a
turn; an idle kiln takes the fired setting that ranks first and stages its members; a firing lasts its array cycles and 64 more, and then every
member has its result; operands that share no slice have no bank conflict. Rests also on the model's choices: log entries 42, 43, 69, 70, 76, 108.
-/
def Obligations.SettingsFireAndAreComputed : Prop :=
  (∀ (s : State) (cl slot : Nat) (x : Setting), cl < 32 → slot < 16 →
    (getCluster s cl).settings.find? (fun y => y.at_ == .opened && y.slot == slot) = some x → enginesOn s cl = true →
    (tableWaits (getCluster s cl) x = false →
      128 ≤ x.m ∨ 16 ≤ x.members.length ∨ x.deadline ≤ s.clock ∨ x.share = false ∨ fireEarly (getCluster s cl) x = true →
      ∃ t, exec (.settingFire cl slot) s = .next t ∧ { x with at_ := .fired s.clock } ∈ (getCluster t cl).settings ∧ t.mem = s.mem) ∧
    (tableWaits (getCluster s cl) x = true ∨ (x.m < 128 ∧ x.members.length < 16 ∧ s.clock < x.deadline ∧ x.share = true ∧
      fireEarly (getCluster s cl) x = false) → exec (.settingFire cl slot) s = .next s)) ∧
  (∀ (s : State) (cl before : Nat) (x : Setting), cl < 32 → x ∈ (getCluster s cl).settings → (∀ y ∈ (getCluster s cl).settings, y.opened = x.opened → y = x) →
    x.at_ = .opened → enginesOn s cl = true → tableWaits (getCluster s cl) x = false → x.m < 128 → x.members.length < 16 → x.share = true → before < x.deadline →
    x.deadline ≤ s.clock → { x with at_ := .fired x.deadline } ∈ (getCluster (fireDue before s cl) cl).settings) ∧
  (∀ (s : State) (cl : Nat) (c : Cmd), cl < 32 → reentries (getCluster s cl) = [c] →
    let c' := { c with gen := (tget {} (getCluster s cl).glaze (c.tidM % 4)).gen }
    (∀ n s3, transSend s c' = .error (.code n s3) → ∃ t, exec (.bufferReentryAccept cl) s = .next t ∧
      standsAs t cl { c' with code := n, out := [], flags := 0, at_ := .done }) ∧
    (∀ s2 l u, transSend s c' = .ok (s2, l) → acceptCmd s2 cl c' l = some u → exec (.bufferReentryAccept cl) s = .next u ∧
      ∃ x ∈ (getCluster u cl).settings, c.id ∈ x.members)) ∧
  (∀ (k : Cluster) (now : Nat) (x : Setting), firstFired k now = some x → x ∈ k.settings ∧ (∃ tf, x.at_ = .fired tf) ∧
    ∀ y ∈ k.settings, (∃ tf, y.at_ = .fired tf) → effClass now x < effClass now y ∨ (effClass now x = effClass now y ∧
      (firedAt x < firedAt y ∨ (firedAt x = firedAt y ∧ x.slot ≤ y.slot)))) ∧
  (∀ (s : State) (cl n : Nat) (x : Setting), cl < 32 → n < 16 → kilnIdle (getCluster s cl) n = true → enginesOn s cl = true →
    firstFired (getCluster s cl) s.clock = some x →
    (∀ q, stageMembers cl x x.members s = .error q →
      exec (.settingDispatch cl n) s = .next (applyReqs (putSetting s cl { x with at_ := .staging n }) q)) ∧
    (∀ g, stageMembers cl x x.members s = .ok g → g.members ≠ [] →
      (tooMany g.pins (othersPins (getCluster s cl) x) = false → ∃ t, exec (.settingDispatch cl n) s = .next t ∧ t.mem = g.s.mem ∧
        ∀ y ∈ (getCluster t cl).settings, y.opened = x.opened → y.at_ = .staging n ∧ y.members = g.members ∧ y.pins = g.pins ∧
          y.stream = g.stream) ∧
      (tooMany g.pins (othersPins (getCluster s cl) x) = true → exec (.settingDispatch cl n) s = .next s))) ∧
  (∀ (s : State) (cl n : Nat) (x : Setting), cl < 32 → n < 16 →
    (getCluster s cl).settings.find? (fun y => y.at_ == .staging n) = some x →
    ∀ g m ms c, stageMembers cl x x.members s = .ok g → g.members = m :: ms → findCmd g.s cl m = some c →
      (tooMany g.pins (othersPins (getCluster s cl) x) = true → exec (.firingStart cl n) s = .next s) ∧
      (tooMany g.pins (othersPins (getCluster s cl) x) = false → ∃ t rows, exec (.firingStart cl n) s = .next t ∧ t.mem = g.s.mem ∧
      (shareSlice g.s (dedup (g.pins ++ g.sums)) = false → tget 0 (getCluster t cl).conflicts n = tget 0 (getCluster g.s cl).conflicts n) ∧
      let cycles := (if c.sparse then (c.ks + 1) / 2 else c.ks) * max rows 16
      ∀ y ∈ (getCluster t cl).settings, y.opened = x.opened → y.m = rows ∧ y.members = m :: ms ∧ y.pins = g.pins ∧ y.stream = g.stream ∧
        y.at_ = .firing n (s.clock + (cycles + throttleExtra g.s (dieOfCluster cl) cycles + 64)))) ∧
  (∀ (s : State) (cl n due : Nat) (x : Setting), cl < 32 → n < 16 → x.at_ = .firing n due →
    (getCluster s cl).settings.find? (fun y => match y.at_ with | .firing i _ => i == n | _ => false) = some x →
    (s.clock < due → exec (.firingEnd cl n) s = .next s) ∧
    (due ≤ s.clock → ∀ rs, memberResults s (x.members.filterMap (findCmd s cl)) = .ok rs → ∃ t, exec (.firingEnd cl n) s = .next t ∧
      t.mem = s.mem ∧ t.spad = s.spad ∧ (∀ y ∈ (getCluster t cl).settings, y.opened ≠ x.opened) ∧
      (∀ c ∈ (getCluster t cl).cmds, (∃ r ∈ rs, r.1.id = c.id) → c.at_ = .done) ∧
      (∀ c code fl out, rs = [(c, code, fl, out)] → standsAs t cl { c with code := code, flags := fl, out := out, at_ := .done })))

/-- R97, R297, R302 to R306, R316, R317: the tile data path performs its next command; a glaze load gives its table 256 rows of 24 bits; a page
response lets a command go on or ends it with code 1; a command completes with its status word, sets its event bit, frees its window entry, and is
gone. Rests also on the model's choices: log entries 42, 44, 45, 107. -/
def Obligations.DataCommandsAndCompletion : Prop :=
  (∀ (s : State) (cl op : Nat) (i : Instr) f (c : Cmd), cl < 32 → dataOf cl i = some (op, f) → dataNext s cl = some c → c.op = op →
    tableLoaded s c = true →
    (∀ s2 out fl tags, f s c = .ok (s2, out, fl, tags) → ∃ t, exec i s = .next t ∧ t.mem = s2.mem ∧
      standsAs t cl { c with out := out, flags := fl, code := 0, tags := tags, at_ := .done }) ∧
    (∀ n s3, f s c = .error (.code n s3) → ∃ t, exec i s = .next t ∧ t.mem = s3.mem ∧
      standsAs t cl { c with code := n, out := [], flags := 0, at_ := .done })) ∧
  (∀ (s : State) (cl : Nat) (c : Cmd) (g : Glaze) s2 rows, cl < 32 → dataNext s cl = some c → c.op = 0x20 → glazeRows s c = .ok (s2, rows) →
    tfind (getCluster s2 cl).glaze (c.tidM % 4) = some g → ∃ t, exec (.glazeLoadPerformed cl (c.tidM % 4)) s = .next t ∧
      tfind (getCluster t cl).glaze (c.tidM % 4) = some { g with rows := rows, loader := c.space } ∧ rows.length = 256 ∧ (∀ r ∈ rows, r.toNat < 2 ^ 24) ∧
      standsAs t cl { c with out := [], flags := 0, code := 0, tags := [], at_ := .done } ∧ t.mem = s2.mem) ∧
  (∀ (s : State) (id cl n : Nat) (code : BitVec 8) (g : PageReq) (c : Cmd), s.pages.find? (fun p => p.id == id && p.sent) = some g →
    g.who = .cmd cl n → findCmd (takeAnswer s g code) cl n = some c → c.at_ = .page id →
    (code ≠ 0 → ∃ t, exec (.commandPageResponse id code) s = .next t ∧
      standsAs t cl { c with code := 1, out := [], flags := 0, at_ := .done }) ∧
    (code = 0 → c.isMatrix = false → ∃ t, exec (.commandPageResponse id code) s = .next t ∧ standsAs t cl { c with at_ := .data }) ∧
    (code = 0 → c.isMatrix = true → exec (.commandPageResponse id code) s = .next (reenter (takeAnswer s g code) cl c))) ∧
  (∀ (s : State) (cl id : Nat) (c : Cmd), cl < 32 → (getCluster s cl).cmds.find? (fun c => c.id == id && c.at_ == .done) = some c →
    c.out = [] →
    (enginesSettled s (commandScope s c.agent c.coneNo) = true → ∃ t, exec (.commandComplete cl id) s = .next t ∧
      (∀ y ∈ (getCluster t cl).cmds, y.id ≠ c.id) ∧ t.mem = s.mem ∧
      ((getCtx s c.agent).status ≠ .free → (getCtx s c.agent).born = c.ctxBorn →
        (∀ e ∈ (getCtx t c.agent).win, e.sent ≠ some c.id) ∧
        (bitOf c.w0 58 = true → (getCtx t c.agent).ev.getLsbD (fieldOf c.w0 50 8) = true)) ∧
      (c.stat ≠ 0x1FFF → statOwned s c = true → State.wf s = true →
        ∃ w : Word, readBytes t.spad (cl * 2 ^ 24 + (coreOf c.agent % 256 * 65536 + c.stat * 8)) 8 = leBytes 8 w.toNat ∧
          fieldOf w 0 8 = (if c.nf = true ∨ c.code ≠ 0 then 0 else c.flags.toNat) ∧ fieldOf w 8 8 = c.code.toNat ∧ fieldOf w 16 48 = 1)) ∧
    (enginesSettled s (commandScope s c.agent c.coneNo) = false → ∃ t, exec (.commandComplete cl id) s = .next t ∧
      standsAs t cl c ∧ t.mem = s.mem ∧ t.spad = s.spad)) ∧
  (∀ (s : State) (cl id : Nat) (c : Cmd), cl < 32 → (getCluster s cl).cmds.find? (fun c => c.id == id && c.at_ == .done) = some c →
    c.out ≠ [] → let bytes := c.out.map fun b => ((b.1, b.2.1), b.2.2)
    (outOffline s c = true → exec (.commandComplete cl id) s =
      exec (.commandComplete cl id) (putCmd s cl { c with out := [], flags := 0, code := 6 })) ∧
    (∀ q, outOffline s c = false → engCanWrite s c.agent bytes = .error q → exec (.commandComplete cl id) s = .next (putCmd (applyReqs s q) cl c)) ∧
    (outOffline s c = false → engCanWrite s c.agent bytes = .ok () → State.wf s = true → ∃ t, exec (.commandComplete cl id) s = .next t ∧
      (∀ k, readByte t.mem k = afterOutputs c false k (readByte s.mem k)) ∧
      (c.stat = 0x1FFF → ∀ k, readByte t.spad k = afterOutputs c true k (readByte s.spad k)) ∧
      (standsAs t cl { c with out := [] } ∨ ∀ y ∈ (getCluster t cl).cmds, y.id ≠ c.id))) ∧
  dataResults

/-- R130, R301: what a kiln computes: of integer formats, one block of 32 products is summed exactly, C is added, and the result saturates to 32
bits with OF; a position absent from sparse A adds nothing; a sum of two blocks saturates; metadata whose positions do not rise is invalid. Rests
also on the model's choices: log entry 16. -/
def Obligations.KilnArithmetic : Prop :=
  (∀ (w : Member) (p : Panel) (m n : Nat) (g : BitVec 32), w.fc = 0x09 → p.k = 32 →
    let a (k : Nat) : Int := match p.a.getD (m * 32 + k) none with | some x => fmtInt w.fa x | none => 0
    let b (k : Nat) : Int := fmtInt w.fb ((p.b.getD (32 * k + n) none).getD 0)
    let sum : Int := ((List.range 32).map fun k => a k * b k).sum + (if w.acc then fmtInt 0x09 (p.c.getD (32 * m + n) 0) else 0)
    let r := max (-2 ^ 31) (min (2 ^ 31 - 1) sum)
    kilnElem w p m n g = ((BitVec.ofInt 32 r).toNat, if r = sum then 0 else fOF, g)) ∧
  (∀ (x y : List (Option Int × Int)), let sum (l : List (Option Int × Int)) : Int := (l.map fun p => (p.1.getD 0) * p.2).sum
    let r := max (-2 ^ 31) (min (2 ^ 31 - 1) (sum x + sum y))
    runInts none [x, y] 0 = (r, if r = sum x + sum y then 0 else fOF)) ∧
  (∀ (md v0 v1 : Nat), (md / 4 % 4 ≤ md % 4 → expandGroup md v0 v1 = none) ∧
    (md % 4 < md / 4 % 4 → ∃ l, expandGroup md v0 v1 = some l ∧ l.length = 4 ∧ l[md % 4]? = some (some v0) ∧ l[md / 4 % 4]? = some (some v1) ∧
      ∀ i, i < 4 → i ≠ md % 4 → i ≠ md / 4 % 4 → l[i]? = some none))

/-! Launch and load balancing -/

namespace Sys2Proof.Claims

/-- The record that 64 bytes hold (R50). -/
def recordAt (b : List Byte) : LRec :=
  let w (i : Nat) : Word := word (leNat ((b.drop (8 * i)).take 8))
  ⟨w 0, w 1, w 2, w 3, w 4, w 5, w 6, w 7⟩

/-- R51, R240: how an instruction that posts `r` to cluster `cl` goes on from `s1`, its earlier aq and ar accesses performed: with the record accepted at once
into the own cluster's queue, it completes as `fin` says; else the record is sent, to another cluster with a credit only (R425), and the poster parks until it
is accepted. `base`: `s` with what the translations of the instruction mark. -/
def posts (i : Instr) (s s1 base : State) (r : LRec) (cl : Nat) (stage : Option (Nat × Nat)) (fin : State → State) : Prop :=
  acqClear s1 s1.cur = true → settled s1 s1.cur (if clusterOf s1.cur = cl then .clus else .pkg) = true →
    let behind := ∃ p ∈ s1.posts, p.target = cl ∧ p.poster = .agent s1.cur
    let sent := exec i s = .next (sendMsg (takeOperands i base) (.post r cl stage false) (some .launch))
    (clusterOf s1.cur = cl → (getCluster s1 cl).launch.length < 512 → acceptsPosts s1 cl = true → ¬ behind →
      exec i s = .next (doneIn i s (fin (acceptRecord s1 cl r (.agent s1.cur) stage)))) ∧
    (clusterOf s1.cur = cl → 512 ≤ (getCluster s1 cl).launch.length ∨ acceptsPosts s1 cl = false ∨ behind → sent) ∧
    (clusterOf s1.cur ≠ cl → (hasCredit s1 cl = true → sent) ∧
      (hasCredit s1 cl = false → exec i s = .next (applyReq s (.credit (dieOfCluster (clusterOf s1.cur))))))

/-- R24: what each reason for parking waits for. -/
def wakes (s : State) (a : Nat) (c : Ctx) : Park → Prop
  | .event bits => ∀ j, j < 256 → bits.getLsbD j = true → c.ev.getLsbD j = true
  | .window => c.win.length < 32
  | .cone name v => c.reply.isSome = true ∨
      (c.sent = none ∧ (phasePassed (getCone s name) v = true ∨ clusterOnline s (coneCluster name) = false))
  | .launch _ | .coneReply _ | .draw _ _ => c.reply.isSome = true
  | .replay n => (getCluster s (clusterOf a)).replay.length + n ≤ 256
  | .self => isCtx0 a = true ∧ ((getCore s (coreOf a)).handles ≠ [] ∨ (getCore s (coreOf a)).trapQ ≠ [])
  | .page id => ∀ p ∈ s.pages, p.id ≠ id
  | .pop k => offered s a k ≠ [] ∧ ∀ q, (endOf s a k).queue.bind (findQueue s) = some q → isRemote q a = true →
      (endOf s a k).asked = false ∧ (endOf s a k).waits = none
  | .look k => offered s a k ≠ [] ∨ present s a k ≠ []
  | .push k token => ∀ q, (endOf s a k).queue.bind (findQueue s) = some q →
      (if q.bag = true ∧ token = false then 2 else 1) + keptSlots s q a none ≤ freeSlots s q ∧
      (q.bag = true → (q.append = none ∨ q.append = some a) ∧ keptSlots s q a none = 0)
  | .balReply id => c.reply.isSome = true ∧ ∀ w ∈ s.writes, w.id = id → performedFor .core w = true
  | .pugClose p => c.reply.isSome = true ∨ (c.sent = none ∧ pugDrained s (clusterOf a) p = true)
  | .reap n => let t := coreOf a * 16 + n
      (getCtx s t).status = .free ∨ (settled s t .sys = true ∧ (∀ m ∈ s.coilMsgs, m.producer ≠ t) ∧ (∀ u ∈ s.uio, u.agent ≠ t) ∧
        (∀ o ∈ (getCtx s t).out, o.failed = true) ∧ (getCtx s t).reply = none ∧
        ∀ id, (getCtx s t).sent = some id → (∀ m ∈ s.coneMsgs, m.id ≠ id) ∧ ∀ m ∈ s.atomics, m.id ≠ id)

end Sys2Proof.Claims

/-- R48, R53, R223, R224: `ln.rep` asks for a replica of the context's stage, `ln.snap` asks a balancer for a snapshot: it clears sixteen route
counters and writes them to memory. Rests also on the model's choices: log entries 32, 33, 71. -/
def Obligations.ReplicasAndSnapshots : Prop :=
  (∀ (rd rs1 : Reg) (s s1 s2 : State) (a : Word), steady s → isHub s.cur = false → operands [rs1] (some rd) s = .ok ([a], s1) →
    let i := Instr.lnRep rd rs1
    let named := bitOf a 5
    let cl := if named then a.toNat % 32 else clusterOf s1.cur
    (∀ v, (here s1).reply = some (.value v) → writeRd rd v (replyTaken s1) = .ok ((), s2) → exec i s = .next (doneIn i s (nextPc s2))) ∧
    ((here s1).reply = none → (here s1).stage = none → writeRd rd 2 s1 = .ok ((), s2) → exec i s = .next (doneIn i s (nextPc s2))) ∧
    (∀ st, (here s1).reply = none → (here s1).stage = some st → st.1 = clusterOf s1.cur →
      (findStage s1 st = none → writeRd rd 2 s1 = .ok ((), s2) → exec i s = .next (doneIn i s (nextPc s2))) ∧
      (∀ x, findStage s1 st = some x →
        (named = true → partOfCluster s1 cl ≠ partOf s1 s1.cur ∨ clusterOnline s1 cl = false → writeRd rd 3 s1 = .ok ((), s2) →
          exec i s = .next (doneIn i s (nextPc s2))) ∧
        ((named = true → partOfCluster s1 cl = partOf s1 s1.cur ∧ clusterOnline s1 cl = true) →
          (x.record.repmax ≤ liveReplicas s1 st x → writeRd rd 1 s1 = .ok ((), s2) → exec i s = .next (doneIn i s (nextPc s2))) ∧
          (liveReplicas s1 st x < x.record.repmax → ordinary s rd →
            posts i s s1 s (x.record.replicaTo cl) cl (some st) fun t => nextPc (withHere t fun c => writeX c rd 0)))))) ∧
  (∀ (rs1 rs2 : Reg) (s s1 : State) (a b : Word), steady s → isHub s.cur = false → operands [rs1, rs2] none s = .ok ([a, b], s1) →
    let i := Instr.lnSnap rs1 rs2
    let cl := b.toNat % 32
    let n := b.toNat / 32 % 4
    (∀ v, (here s1).reply = some (.value v) → exec i s = .next (doneIn i s (nextPc (replyTaken s1)))) ∧
    ((here s1).reply = none →
      (a.toNat % 64 ≠ 0 → exec i s = .next (takeTrap (issued s) s.cur 6 (here s).pc a (iword i) 0)) ∧
      (a.toNat % 64 = 0 → partOfCluster s1 cl ≠ partOf s1 s1.cur →
        exec i s = .next (takeTrap (issued s) s.cur 2 (here s).pc (iword i) (iword i) 0)) ∧
      (a.toNat % 64 = 0 → partOfCluster s1 cl = partOf s1 s1.cur → clusterOnline s1 cl = false →
        exec i s = .next (takeTrap (issued s) s.cur 30 (here s).pc b (iword i) 0)) ∧
      (a.toNat % 64 = 0 → partOfCluster s1 cl = partOf s1 s1.cur → clusterOnline s1 cl = true →
        ∀ s2 l tags s3, orderGate .ar (if clusterOf s1.cur = cl then .clus else .pkg) s1 = .ok ((), s2) →
          resolve .write a 64 false s2 = .ok (([(l, 64)], tags), s3) →
          exec i s = .next (sendMsg (takeOperands i (translated .write a 64 s)) (.cone (cl * 4096) (.snap n (l.cls == .spad) l.key tags)) (some .balReply))))) ∧
  (∀ (s : State) (id : Nat) (m : ConeMsg) (b : Nat) (spad : Bool) (key : Nat) (tags : List Nat), (∀ p ∈ s.posts, p.id ≠ id) →
    s.coneMsgs.find? (fun x => x.id == id) = some m → m.op = .snap b spad key tags → clusterOnline s (coneCluster m.cone) = true →
    State.wf s = true →
    let cl := coneCluster m.cone
    let words := (List.range 16).flatMap fun j => leBytes 4 (tget 0 (getCluster s cl).route (16 * b + j)).toNat
    let cleared (t : State) : Prop := (∀ x ∈ t.coneMsgs, x.id ≠ id) ∧
      ∀ j, tget 0 (getCluster t cl).route j = if j / 16 = b then 0 else tget 0 (getCluster s cl).route j
    let answered (t : State) : Prop := (getCtx s m.agent).sent = some id → m.agent < Config.agents → (getCtx t m.agent).reply = some (.value 0)
    (spad = true → ∃ t, exec (.balancerRequest id) s = .next t ∧ cleared t ∧ answered t ∧ t.mem = s.mem ∧
      readBytes t.spad key 64 = words ∧ ∀ k, ¬ within key 64 k → readByte t.spad k = readByte s.spad k) ∧
    (spad = false → unreachable s m.agent key = true → ∃ t, exec (.balancerRequest id) s = .next t ∧ cleared t ∧ answered t ∧
      t.mem = s.mem ∧ t.spad = s.spad) ∧
    let far := (locOfKey s key).cls = .shared ∨ (locOfKey s key).cls = .peer
    (spad = false → unreachable s m.agent key = false → ¬ far → canWrite s (lineOf key) [key / 64] = true →
      ∃ t, exec (.balancerRequest id) s = .next t ∧ cleared t ∧ answered t ∧ t.spad = s.spad ∧ readBytes t.mem key 64 = words ∧
        ∀ k, ¬ within key 64 k → readByte t.mem k = readByte s.mem k) ∧
    (spad = false → unreachable s m.agent key = false → far →
      ∃ t, exec (.balancerRequest id) s = .next t ∧ cleared t ∧ answered t ∧ t.mem = s.mem ∧ t.spad = s.spad ∧
        ∃ w ∈ t.writes, w.home = false ∧ w.tags = tags ∧ w.bytes = (List.range 64).map fun k => (key + k, words.getD k 0)))

/-- R50, R51, R221, R222, R225, R226, R232: `ln.post` and `ln.hash` post a record of 64 bytes to its cluster; `ln.replay` puts records into the
replay buffer; `ln.quiet` waits for a draw. R48, R50 to R53, R202, R223, R225, R449: how records go from their poster to a core: posts are
accepted in order while the queue has room, counted by their route key, and dispatched by class and age to a core's q6 as a handle; the balancer
judges replica requests. Rests also on the model's choices: log entries 31, 34, 38, 71, 87, 90, 92. -/
def Obligations.LaunchRecords : Prop :=
  ((∀ (rs1 : Reg) (s s1 : State) (a : Word), steady s → isHub s.cur = false → operands [rs1] none s = .ok ([a], s1) →
     let i := Instr.lnPost rs1
     (∀ v, (here s1).reply = some (.value v) → exec i s = .next (doneIn i s (nextPc (replyTaken s1)))) ∧
     ((here s1).reply = some .offline → exec i s = .next (takeTrap (issued s) s.cur 30 (here s).pc a (iword i) 0)) ∧
     ((here s1).reply = none → a.toNat % 64 ≠ 0 → exec i s = .next (takeTrap (issued s) s.cur 4 (here s).pc a (iword i) 0)) ∧
     ((here s1).reply = none → a.toNat % 64 = 0 → ∀ b s2, memRead a 64 false .rlx .sys s1 = .ok (b, s2) → b.length = 64 →
       let r := recordAt b
       let cl := if bitOf r.w4 38 then fieldOf r.w4 33 5 else clusterOf s2.cur
       (r.bad = true → exec i s = .next (takeTrap (issued s) s.cur 2 (here s).pc a (iword i) 0)) ∧
       (r.bad = false → bitOf r.w4 38 = true → partOfCluster s2 cl ≠ partOf s2 s2.cur →
         exec i s = .next (takeTrap (issued s) s.cur 2 (here s).pc a (iword i) 0)) ∧
       (r.bad = false → bitOf r.w4 38 = true → partOfCluster s2 cl = partOf s2 s2.cur → clusterOnline s2 cl = false →
         exec i s = .next (takeTrap (issued s) s.cur 30 (here s).pc a (iword i) 0)) ∧
       (r.bad = false → (bitOf r.w4 38 = true → partOfCluster s2 cl = partOf s2 s2.cur ∧ clusterOnline s2 cl = true) →
         posts i s s2 (recordRead s a) { r with w7 := word (here s2).space } cl none nextPc))) ∧
   (∀ (rs1 rs2 : Reg) (s s1 : State) (a x : Word), steady s → isHub s.cur = false → operands [rs1, rs2] none s = .ok ([a, x], s1) →
     let i := Instr.lnHash rs1 rs2
     (∀ v, (here s1).reply = some (.value v) → exec i s = .next (doneIn i s (nextPc (replyTaken s1)))) ∧
     ((here s1).reply = none → a.toNat % 64 = 0 → ∀ b s2 pa s3, memRead a 64 false .rlx .sys s1 = .ok (b, s2) → b.length = 64 →
       (recordAt b).bad = false → readPa x s2 = .ok (pa, s3) →
       let cs := clustersOf s3 (partOf s3 s3.cur)
       let h := [16, 21, 26, 31, 36, 41, 46].foldl (fun n lo => n ^^^ (pa / 2 ^ lo % 32)) 0
       let cl := cs.getD (h % cs.length) 0
       clusterOnline s3 cl = true →
       posts i s s3 (translated .read x 1 (recordRead s a)) (LRec.withTarget { recordAt b with w7 := word (here s2).space } cl) cl none nextPc)) ∧
   (∀ (rs1 rs2 : Reg) (s s1 : State) (a n : Word), steady s → isHub s.cur = false → operands [rs1, rs2] none s = .ok ([a, n], s1) →
     a.toNat % 64 = 0 → let i := Instr.lnReplay rs1 rs2
     (n = 0 ∨ 256 < n.toNat → exec i s = .next (takeTrap (issued s) s.cur 2 (here s).pc (iword i) (iword i) 0)) ∧
     (n ≠ 0 → n.toNat ≤ 256 → ∀ rs s0 s2, readRecords a n.toNat s1 = .ok (rs, s0) → doneUio s0 = .ok ((), s2) → settled s2 s2.cur .pkg = true →
       let cl := clusterOf s2.cur
       (256 < (getCluster s2 cl).replay.length + rs.length → exec i s = .next (parkCtx (dropReads s s.cur) (.replay rs.length))) ∧
       ((getCluster s2 cl).replay.length + rs.length ≤ 256 → exec i s = .next (doneIn i s (nextPc (modCluster s2 cl fun k =>
         { k with replay := k.replay ++ rs.map fun r => { record := r, part := partOf s2 s2.cur } })))))) ∧
   (∀ (rs1 : Reg) (s s1 : State) (a : Word), steady s → isHub s.cur = false → operands [rs1] none s = .ok ([a], s1) →
     let i := Instr.lnQuiet rs1
     ((here s1).reply = none → ∃ t, exec i s = .next t ∧ (here t).status = .parked (.draw (a.toNat % 64) s1.clock) ∧ t.cur = s1.cur ∧
       ∃ w ∈ (getPart t (partOf s1 s1.cur)).watches, w.group = a.toNat % 64) ∧
     (∀ v, (here s1).reply = some (.value v) → acqClear (replyTaken s1) s1.cur = true → exec i s = .next (doneIn i s (nextPc (replyTaken s1)))))) ∧
  ((∀ (s : State) (cl : Nat) (r : LRec) (who : Poster) (stage : Option (Nat × Nat)), ∃ x : LSlot,
     (getCluster (acceptRecord s cl r who stage) cl).launch = (getCluster s cl).launch ++ [x] ∧ x.record = r ∧ x.poster = who ∧ x.core = none ∧
     x.stage = stage ∧ x.gen = (tget 0 (getCluster s cl).gens x.slot + 1) % 128 ∧
     ((getCluster s cl).launch.length < 512 → x.slot < 512 ∧ ∀ y ∈ (getCluster s cl).launch, y.slot ≠ x.slot) ∧
     (∀ key, let n := tget 0 (getCluster s cl).route key
       tget 0 (getCluster (acceptRecord s cl r who stage) cl).route key =
         if key = fieldOf r.w5 32 6 ∧ n ≠ 0xFFFFFFFF then n + 1 else n)) ∧
   (∀ (s : State) (id : Nat) (p : Post), s.posts.find? (fun p => p.id == id && !p.rep) = some p →
     (launchRoom s p.target = true → acceptsPosts s p.target = true → firstPost s p = true →
       let u := acceptRecord { s with posts := s.posts.filter fun x => x.id != id } p.target p.record p.poster p.stage
       exec (.launchRecordAccept id) s = .next (postAccepted u p) ∧
       (∀ a, p.poster = .agent a → postAccepted u p = answer u a id (.value 0))) ∧
     (launchRoom s p.target = false ∨ acceptsPosts s p.target = false ∨ firstPost s p = false →
       exec (.launchRecordAccept id) s = .next s)) ∧
   (∀ (s : State) (cl core : Nat) (x : LSlot), cl < 32 → nextDispatch s cl = some (x, core) → ∃ t, exec (.launchDispatch cl) s = .next t ∧
     (getCore t core).handles = (getCore s core).handles ++ [dataEntry (word (x.slot + 512 * x.gen))] ∧
     (∀ y ∈ (getCluster t cl).launch, y.slot = x.slot → y.core = some core) ∧ t.mem = s.mem ∧ t.ctxs = s.ctxs ∧
     x ∈ (getCluster s cl).launch ∧ x.core = none ∧ (getCore s core).handles.length < 64 ∧ core / 256 = cl ∧
     heldInst s (partOfCluster s cl) x.record.space x.record.inst = false) ∧
   (∀ (s : State) (cl : Nat) (x : Replay) (rest : List Replay), cl < 32 → (getCluster s cl).replay = x :: rest →
     let dst := if bitOf x.record.w4 38 then fieldOf x.record.w4 33 5 else cl
     (heldInst s x.part x.record.space x.record.inst = true → exec (.replayBufferPost cl) s = .next s) ∧
     (heldInst s x.part x.record.space x.record.inst = false → clusterOnline s dst = true →
       (dst ≠ cl ∧ hasCredit s dst = true) ∨ (dst = cl ∧ launchRoom s cl = true ∧ acceptsPosts s cl = true) → ∃ t,
       exec (.replayBufferPost cl) s = .next t ∧
       (getCluster t cl).replay = rest ∧
       (dst = cl → ∃ y ∈ (getCluster t cl).launch, y.record = x.record ∧ y.poster = .replay cl) ∧
       (dst ≠ cl → ∃ p ∈ t.posts, p.record = x.record ∧ p.target = dst ∧ p.poster = .replay cl))) ∧
   (∀ (s : State) (id a : Nat) (st : Nat × Nat) (p : Post), s.posts.find? (fun p => p.id == id && p.rep) = some p → p.stage = some st →
     p.poster = .agent a →
     (∀ n, judgeReplica s st p.target true p.part = .error n →
       exec (.balancerRequest id) s = .next (answer { s with posts := s.posts.filter fun x => x.id != id } a id (.value (word n)))) ∧
     (∀ r, judgeReplica s st p.target true p.part = .ok r → let sc : Scope := if st.1 = p.target then .clus else .pkg
       (enginesSettled s sc = false → exec (.balancerRequest id) s = .next s) ∧
       (enginesSettled s sc = true → st.1 ≠ p.target → hasCredit s p.target = false →
         exec (.balancerRequest id) s = .next (applyReq s (.credit (dieOfCluster st.1)))) ∧
       (enginesSettled s sc = true → st.1 = p.target ∨ hasCredit s p.target = true → ∃ t, exec (.balancerRequest id) s = .next t ∧
         { p with record := r, rep := false } ∈ t.posts ∧ t.mem = s.mem))) ∧
   (∀ (s : State) (cl inst : Nat) (x : StageInst) (core : Nat), cl < 32 → chosenStage s cl inst = some x →
     bestCore s cl (fun k => !runsStage s k (cl, inst)) = some core →
     (enginesSettled s .clus = false → exec (.balancerReplicaPost cl inst) s = .next s) ∧
     (enginesSettled s .clus = true → launchRoom s cl = true → acceptsPosts s cl = true → ∃ t, exec (.balancerReplicaPost cl inst) s = .next t ∧ ∃ y ∈ (getCluster t cl).launch, y.record = x.record.replicaAt core ∧
         y.poster = .balancer cl ∧ y.stage = some (cl, inst) ∧
         fieldOf y.record.w4 8 2 = 2 ∧ fieldOf y.record.w4 24 8 = core % 256 ∧ bitOf y.record.w4 32 = true)) ∧
   (∀ (s : State) (part g a t0 : Nat), part < 4 → g < 64 → tfind s.ctxs a ≠ none → (getCtx s a).status = .parked (.draw g t0) →
     (getCtx s a).stopping = none → partOf s a = part → drawnSince (getPart s part) g t0 s.clock = true → ∃ t, exec (.draw part g) s = .next t ∧
       (getCtx t a).reply = some (.value 0) ∧ t.mem = s.mem))

/-- R24, R40, R41, R47: a parked context becomes READY exactly when what it waits for has come; entries of a coil reach a consumer on another core
at its request, pushes from another cluster are appended in order, and a copied token reaches the consumers whose bags have ended. Rests also on
the model's choices: log entries 10, 78, 99. -/
def Obligations.ParkedContextsRejoin : Prop :=
  (∀ (s : State) (a : Nat) (why : Park), a < Config.agents → (getCtx s a).status = .parked why → (getCtx s a).halted = none →
    mayGo s a (getCtx s a) = true →
    (wakes s a (getCtx s a) why → ∃ t, exec (.contextRejoin a) s = .next t ∧
      getCtx t a = { getCtx s a with status := .ready, reply := coneRelease s a (getCtx s a) } ∧
      (∀ b, b ≠ a → getCtx t b = getCtx s b) ∧ { t with ctxs := s.ctxs } = s) ∧
    (¬ wakes s a (getCtx s a) why → exec (.contextRejoin a) s = .next (match why with
      | .reap _ => applyReqs s (visibleReqs s)
      | _ => s))) ∧
  (∀ (s : State) (a : Nat) (k : BitVec 3), a < Config.agents → (endOf s a k.toNat).asked = true →
    exec (.coilPopRequest a k) s = exec (.coilPopRequest a k) (setEnd (takeId s).2 a k.toNat
      { endOf s a k.toNat with asked := false, waits := some s.nextId })) ∧
  (∀ (s : State) (a n : Nat) (k : BitVec 3) (q : Queue), a < Config.agents → (endOf s a k.toNat).queue.bind (findQueue s) = some q →
    (endOf s a k.toNat).asked = false → (endOf s a k.toNat).waits = some n → isRemote q a = true →
    let earlier := ∃ x ∈ s.ctxs, ∃ d ∈ x.2.ends.toList, ∃ m, d.queue = some q.id ∧ d.waits = some m ∧ m < n ∧ localItems q x.1 ≠ []
    (earlier ∨ localItems q a = [] → exec (.coilPopRequest a k) s = .next s) ∧
    (¬ earlier → ∀ it rest, localItems q a = it :: rest → (∀ r, slotNeeds s q it.pos .read = some r →
      exec (.coilPopRequest a k) s = .next (applyReqs s r)) ∧
      (slotNeeds s q it.pos .read = none → ∃ t x, exec (.coilPopRequest a k) s = .next t ∧
        (endOf t a k.toNat).got = (endOf s a k.toNat).got ++ [x] ∧ x.entry = itemEntry s q it ∧ x.pos = it.pos ∧
        (endOf t a k.toNat).waits = none ∧ t.mem = s.mem ∧ t.spad = s.spad))) ∧
  (∀ (s : State) (id : Nat) (m : CoilMsg), s.coilMsgs.find? (fun m => m.id == id) = some m →
    (firstOfFlow s m = true → (∀ q, findQueue s m.queue = some q → slotNeeds s q q.tail .write = none) → exec (.coilPushArrival id) s =
      .next (appendEntry { s with coilMsgs := s.coilMsgs.filter fun x => x.id != id } m.queue m.producer m.entry)) ∧
    (firstOfFlow s m = true → ∀ q r, findQueue s m.queue = some q → slotNeeds s q q.tail .write = some r →
      exec (.coilPushArrival id) s = .next (applyReqs s r)) ∧
    (firstOfFlow s m = false → exec (.coilPushArrival id) s = .next s)) ∧
  (∀ (s : State) (n a pos k : Nat) (e : Entry) (ring : Bool) (q : Queue), findQueue s n = some q → q.id = n → q.copies = [(e, pos, [a], ring)] →
    bagsClaimed q pos = true → a ∉ q.claims → a < Config.agents → k < 8 → (endOf s a k).queue = some n → (endOf s a k).write = false →
    ∃ t, exec (.tokenCopyDelivery n) s = .next t ∧ (endOf t a k).got = (endOf s a k).got ++ [⟨pos, e, none⟩] ∧ (endOf t a k).asked = false ∧ (endOf t a k).waits = none ∧
      findQueue t n = some { q with copies := [] } ∧ t.mem = s.mem)

/-! Tensor records, patches and pugs -/

namespace Sys2Proof.Claims

/-- The `i`-th doubleword of a list of bytes. -/
def dword (b : List Byte) (i : Nat) : Word := word (leNat ((b.drop (8 * i)).take 8))

/-- R333: the source that a select of cell `i` with word `w` names: the cell above, the cell to the left, an operand, the immediate. -/
def patchSource (v : List Word) (i sel : Nat) (w x1 x2 x3 : Word) : Word :=
  match sel with
  | 0 => if i < 4 then 0 else v.getD (i - 4) 0
  | 1 => if i % 4 = 0 then 0 else v.getD (i - 1) 0
  | 2 => x1
  | 3 => x2
  | 4 => x3
  | 5 => BitVec.ofInt 64 (BitVec.ofNat 16 (w.toNat / 2 ^ 16 % 2 ^ 16)).toInt
  | _ => 0

/-- R334: the operations of a cell, by exact arithmetic. -/
def patchOp (op fn : Nat) (a b c : Word) : Word :=
  let n := b.toNat % 64
  match op with
  | 0 => a
  | 1 => BitVec.ofInt 64 (a.toInt + b.toInt)
  | 2 => BitVec.ofInt 64 (a.toInt - b.toInt)
  | 3 => a &&& b
  | 4 => a ||| b
  | 5 => a ^^^ b
  | 6 => BitVec.ofNat 64 (a.toNat * 2 ^ n)
  | 7 => if fn = 0 then BitVec.ofNat 64 (a.toNat / 2 ^ n) else BitVec.ofInt 64 (a.toInt / 2 ^ n)
  | 8 => if fn = 0 then (if a.toInt < b.toInt then a else b) else if a.toNat < b.toNat then a else b
  | 9 => if fn = 0 then (if a.toInt < b.toInt then b else a) else if a.toNat < b.toNat then b else a
  | 10 =>
    if fn = 0 then BitVec.ofNat 64 (a.toNat % 2 ^ 16 * (b.toNat % 2 ^ 16))
    else BitVec.ofInt 64 ((a.setWidth 16).toInt * (b.setWidth 16).toInt)
  | 11 => if (match fn with
      | 0 => decide (a.toNat = b.toNat)
      | 1 => decide (a.toNat ≠ b.toNat)
      | 2 => decide (a.toInt < b.toInt)
      | 3 => decide (a.toNat < b.toNat)
      | 4 => decide (b.toInt ≤ a.toInt)
      | _ => decide (b.toNat ≤ a.toNat)) then 1 else 0
  | _ => if c.toNat ≠ 0 then a else b

/-- R324: the fields of a pug's status word. -/
def pugWordIs (x : Pug) (idle : Bool) (v : Word) : Prop :=
  fieldOf v 0 5 = x.flags.toNat ∧ fieldOf v 8 8 = x.code.toNat ∧ bitOf v 16 = true ∧ bitOf v 17 = idle ∧ (x.errs < 2 ^ 32 → fieldOf v 32 32 = x.errs)

end Sys2Proof.Claims

/-- R228 to R230, R332 to R336: tensor records are kept by identifier for the space that set them; a patch slot is configured from 128 bytes for
its loader's instance, and computes its sixteen cells in order. Rests also on the model's choices: log entries 6, 94. -/
def Obligations.TensorRecordsAndPatches : Prop :=
  (∀ (rs1 rs2 : Reg) (s s1 : State) (a b : Word), steady s → isHub s.cur = false → operands [rs1, rs2] none s = .ok ([a, b], s1) →
    let set := Instr.tidSet rs1 rs2
    let get := Instr.tidGet rs1 rs2
    let tid := a.toNat % 1024
    (b.toNat % 64 ≠ 0 → exec set s = .next (takeTrap (issued s) s.cur 4 (here s).pc b (iword set) 0) ∧
      exec get s = .next (takeTrap (issued s) s.cur 6 (here s).pc b (iword get) 0)) ∧
    (b.toNat % 64 = 0 → ∀ bytes s2, memRead b 64 false .rlx .sys s1 = .ok (bytes, s2) → let cl := clusterOf s2.cur
      (∀ e, tfind (getCluster s2 cl).tensors tid = some e → e.space ≠ (here s2).space →
        exec set s = .next (takeTrap (issued s) s.cur 7 (here s).pc a (iword set) 0)) ∧
      ((∀ e, tfind (getCluster s2 cl).tensors tid = some e → e.space = (here s2).space) → ∃ t e,
        exec set s = .next (doneIn set s (nextPc t)) ∧ tfind (getCluster t cl).tensors tid = some e ∧ e.space = (here s2).space ∧
        (bytes.length = 64 → ∀ j : Fin 8, e.w[j] = dword bytes j) ∧
        (∀ n, n ≠ tid → tfind (getCluster t cl).tensors n = tfind (getCluster s2 cl).tensors n) ∧ t.mem = s2.mem ∧ t.ctxs = s2.ctxs)) ∧
    (b.toNat % 64 = 0 → ∀ s2, let cl := clusterOf s1.cur
      (∀ e, tfind (getCluster s1 cl).tensors tid = some e → e.space = (here s1).space →
        memWrite b (e.w.toList.flatMap fun w => leBytes 8 w.toNat) false .rlx .sys s1 = .ok ((), s2) →
        exec get s = .next (doneIn get s (nextPc s2))) ∧
      ((∀ e, tfind (getCluster s1 cl).tensors tid = some e → e.space ≠ (here s1).space) →
        memWrite b (List.replicate 64 0) false .rlx .sys s1 = .ok ((), s2) → exec get s = .next (doneIn get s (nextPc s2))))) ∧
  (∀ (rs1 : Reg) (s s1 : State) (a : Word), steady s → isHub s.cur = false → operands [rs1] none s = .ok ([a], s1) →
    let i := Instr.tidDrop rs1
    let cl := clusterOf s1.cur
    let tid := a.toNat % 1024
    (∀ e, tfind (getCluster s1 cl).tensors tid = some e → e.space = (here s1).space → ∃ t, exec i s = .next (doneIn i s (nextPc t)) ∧
      tfind (getCluster t cl).tensors tid = none ∧
      (∀ n, n ≠ tid → tfind (getCluster t cl).tensors n = tfind (getCluster s1 cl).tensors n) ∧ t.mem = s1.mem) ∧
    ((∀ e, tfind (getCluster s1 cl).tensors tid = some e → e.space ≠ (here s1).space) → exec i s = .next (doneIn i s (nextPc s1)))) ∧
  (∀ (rd rs1 rs2 rs3 : Reg) (slot : BitVec 2) (s : State), steady s → isHub s.cur = false →
    let i := Instr.pxRun rd rs1 rs2 rs3 slot
    let own := (getCore s (coreOf s.cur)).slots[slot.toNat]
    ((∀ x, own = some x → (x.space, x.inst) ≠ instOf (here s)) →
      exec i s = .next (takeTrap (issued s) s.cur 2 (here s).pc (iword i) (iword i) 0)) ∧
    (∀ x a b c s1 s2, own = some x → (x.space, x.inst) = instOf (here s) → operands [rs1, rs2, rs3] (some rd) s = .ok ([a, b, c], s1) →
      writeRd rd (runSlot x.cells a b c) s1 = .ok ((), s2) → exec i s = .next (doneIn i s (nextPc s2)))) ∧
  (∀ (cells : List Word) (x1 x2 x3 : Word), cells.length = 16 → (∀ w ∈ cells, cellOk w = true) → ∃ v : List Word, v.length = 16 ∧
    runSlot cells x1 x2 x3 = v.getD 15 0 ∧ ∀ i, i < 16 → let w := cells.getD i 0
      v.getD i 0 = patchOp (w.toNat % 16) (w.toNat / 2 ^ 32 % 16) (patchSource v i (w.toNat / 2 ^ 4 % 8) w x1 x2 x3)
        (patchSource v i (w.toNat / 2 ^ 7 % 8) w x1 x2 x3) (patchSource v i (w.toNat / 2 ^ 10 % 8) w x1 x2 x3)) ∧
  (∀ (slot : BitVec 2) (rs1 : Reg) (s s1 : State) (a : Word), steady s → isHub s.cur = false → operands [rs1] none s = .ok ([a], s1) →
    let i := Instr.pxLoad slot rs1
    (a.toNat % 128 ≠ 0 → exec i s = .next (takeTrap (issued s) s.cur 4 (here s).pc a (iword i) 0)) ∧
    (a.toNat % 128 = 0 → ∀ b s2, memRead a 128 false .rlx .sys s1 = .ok (b, s2) → b.length = 128 →
      let cells := (List.range 16).map (dword b)
      let old := (getCore s2 (coreOf s2.cur)).slots[slot.toNat]
      ((∃ w ∈ cells, cellOk w = false) ∨ (∃ x, old = some x ∧ (x.space, x.inst) ≠ instOf (here s2)) →
        exec i s = .next (takeTrap (issued s) s.cur 2 (here s).pc (iword i) (iword i) 0)) ∧
      ((∀ w ∈ cells, cellOk w = true) → (∀ x, old = some x → (x.space, x.inst) = instOf (here s2)) → ∃ t,
        exec i s = .next (doneIn i s (nextPc t)) ∧ (getCore t (coreOf s2.cur)).slots[slot.toNat] =
          some { space := (instOf (here s2)).1, inst := (instOf (here s2)).2, cells := cells } ∧ t.mem = s2.mem ∧ t.ctxs = s2.ctxs)))

/-- R322 to R325: `pg.open` lends its two ends to a free pug and counts READERS up; `pg.close` waits for the stream to drain, counts READERS down,
returns the ends and the status it had before the count; `pg.stat` gives the status word of an own pug and 0 of any other. R326 to R331: the
stream of a pug: outputs are pushed to its value queue while there is room and the push can be a release; a stopped instance's pug takes no index;
an index names a row and its columns; one out of range is a BOUND fault that yields NaNs; only a row that an index of the queue names is fetched,
once, and enters the hot-row cache; a token closes a bag, whose address goes out before it. Rests also on the model's choices: log entries 35, 36,
37, 80, 81. -/
def Obligations.Pugs : Prop :=
  ((∀ (rd rs1 rs2 : Reg) (s s1 : State) (a b : Word), steady s → isHub s.cur = false → (here s).reply = none → (here s).sent = none → operands [rs1, rs2] (some rd) s = .ok ([a, b], s1) →
     let i := Instr.pgOpen rd rs1 rs2
     let k := b.toNat % 8
     let j := b.toNat / 8 % 8
     let okK := isReadEnd s1 s1.cur k = true ∧ isLent s1 s1.cur k = false
     let okJ := isWriteEnd s1 s1.cur j = true ∧ isLent s1 s1.cur j = false
     (¬ okK → exec i s = .next (takeTrap (issued s) s.cur 24 (here s).pc (word k) (iword i) 0)) ∧
     (okK → ¬ okJ → exec i s = .next (takeTrap (issued s) s.cur 24 (here s).pc (word j) (iword i) 0)) ∧
     (okK → okJ → a.toNat % 64 ≠ 0 → exec i s = .next (takeTrap (issued s) s.cur 4 (here s).pc a (iword i) 0)) ∧
     (okK → okJ → a.toNat % 64 = 0 → ∀ dp d rds s0 s2, countedDesc a s1 = .ok (some (dp, d, rds), s0) → doneUio s0 = .ok ((), s2) → let cl := clusterOf s2.cur
       let status (n : Word) : Prop := ∀ s3, writeRd rd n s2 = .ok ((), s3) → exec i s = .next (doneIn i s (nextPc s3))
       (descOk d = false → status 0x11) ∧
       (descOk d = true → ringOk s2 s2.cur (instOf (here s2)) d = false → status 0x12) ∧
       (descOk d = true → ringOk s2 s2.cur (instOf (here s2)) d = true → choosePug s2 cl (bitOf b 6) (fieldOf b 7 4) = none → status 0x10) ∧
       (descOk d = true → ringOk s2 s2.cur (instOf (here s2)) d = true → ∀ p bg els s3, choosePug s2 cl (bitOf b 6) (fieldOf b 7 4) = some p →
         let fresh (x : Pug) : Prop := x.agent = s2.cur ∧ x.d = d ∧ x.desc = dp.toNat ∧ x.k = k ∧ x.j = j ∧ x.out = [] ∧ x.n = 0 ∧ x.flags = 0 ∧
           x.code = 0
         beginAtomic .add false (word (dp.toNat + 32)) 4 1 0 false .ar .pkg s2 = .ok ((bg, els), s3) →
         (∀ m, bg = .sent m → ∃ x, fresh x ∧ x.held = true ∧ exec i s = .next (sendMsg (takeOperands i
           (setPug (translated .write (word (dp.toNat + 32)) 4 (afterReads s rds)) cl p x)) m none)) ∧
         (∀ m, bg = .done m → s3.cur = s2.cur → ∃ t x,
           getPug t cl p = some x ∧ fresh x ∧ x.held = false ∧ (endOf t s2.cur k).lent = some p ∧ (endOf t s2.cur j).lent = some p ∧ t.mem = s3.mem ∧
           ∀ s4, writeRd rd (word p) t = .ok ((), s4) → exec i s = .next (doneIn i s (nextPc s4)))))) ∧
   (∀ (rd rs1 rs2 : Reg) (s s1 : State) (a b v : Word) (p : Nat) (x : Pug), steady s → isHub s.cur = false →
     (here s).reply = some (.value v) → operands [rs1, rs2] (some rd) s = .ok ([a, b], s1) → (here s1).reply = some (.value v) →
     heldPug s s.cur = some (p, x) → x.k < 8 → x.j < 8 → let i := Instr.pgOpen rd rs1 rs2
     ∃ t, getPug t (clusterOf s1.cur) p = some { x with held := false } ∧ (endOf t s1.cur x.k).lent = some p ∧
       (endOf t s1.cur x.j).lent = some p ∧ t.mem = s1.mem ∧
       ∀ s2, writeRd rd (word p) t = .ok ((), s2) → exec i s = .next (doneIn i s (nextPc s2))) ∧
   (∀ (rd rs1 : Reg) (s s1 : State) (a : Word), steady s → isHub s.cur = false → operands [rs1] (some rd) s = .ok ([a], s1) →
     let i := Instr.pgClose rd rs1
     let q := Instr.pgStat rd rs1
     let cl := clusterOf s1.cur
     let p := a.toNat % 16
     ((∀ x, getPug s1 cl p = some x → x.agent ≠ s1.cur) → ∀ s2, writeRd rd 0 s1 = .ok ((), s2) →
       exec i s = .next (doneIn i s (nextPc s2)) ∧ exec q s = .next (doneIn q s (nextPc s2))) ∧
     (∀ x, getPug s1 cl p = some x → x.agent = s1.cur → ∃ v,
       pugWordIs x ((present s1 x.agent x.k).isEmpty && !pugWorks x) v ∧
       (∀ s2, writeRd rd (if x.held then 0 else v) s1 = .ok ((), s2) → exec q s = .next (doneIn q s (nextPc s2))) ∧
       ((here s1).reply = none → pugDrained s1 cl p = false → exec i s = .next (parkCtx (dropReads s s.cur) (.pugClose p))) ∧
       (let count := beginAtomic .add false (word (x.desc + 32)) 4 (BitVec.ofInt 64 (-1)) 0 false .ar .pkg s1
        (here s1).reply = none → pugDrained s1 cl p = true →
         (∀ m els s3, count = .ok ((.done m, els), s3) → s3.cur = s1.cur → ∃ t, getPug t cl p = none ∧ (endOf t s1.cur x.k).lent = none ∧
           (endOf t s1.cur x.j).lent = none ∧ t.mem = s3.mem ∧
           ∀ s2, writeRd rd v t = .ok ((), s2) → exec i s = .next (doneIn i s (nextPc s2))) ∧
         (∀ m els s3, count = .ok ((.sent m, els), s3) → exec i s = .next (sendMsg (takeOperands i
           (setPug (translated .write (word (x.desc + 32)) 4 s) cl p { x with held := true, closing := v })) m (some fun _ => .pugClose p)))) ∧
       (∀ r, (here s1).reply = some (.value r) → ∃ t, getPug t cl p = none ∧ (endOf t s1.cur x.k).lent = none ∧
         (endOf t s1.cur x.j).lent = none ∧ t.mem = s1.mem ∧
         ∀ s2, writeRd rd x.closing t = .ok ((), s2) → exec i s = .next (doneIn i s (nextPc s2)))))) ∧
  ((∀ (s : State) (cl p : Nat) (x : Pug), cl < 32 → p < 16 → getPug s cl p = some x → x.held = false → x.page = none →
     (∀ e l q, x.out = e :: l → (endOf s x.agent x.j).queue.bind (findQueue s) = some q →
       let ready := canPush s q x.agent e = true ∧ enginesSettled s (queueScope q) = true ∧
         (q.coil = false ∨ cl = q.core / 256 ∨ hasCredit s (q.core / 256) = true)
       (ready → exec (.pugLookup cl p) s = .next (pushQueue (setPug s cl p { x with out := l }) q x.agent e)) ∧
       (¬ ready → exec (.pugLookup cl p) s = .next s)) ∧
     (x.out = [] → pugStopped s x = true ∨ (pugNeedsSlot s x = none ∧ pugPop s x = none) → exec (.pugLookup cl p) s = .next s) ∧
     (x.out = [] → pugStopped s x = false → pugNeedsSlot s x = none → ∀ e s1, pugPop s x = some (e, s1) →
       (e.isToken = true → modeOf x.d ≠ 2 → ∃ t, exec (.pugLookup cl p) s = .next t ∧ getPug t cl p = some { x with out := [e] } ∧
         t.mem = s1.mem) ∧
       (e.isToken = false → ∀ cols, lookupOf x.d e.payload.toNat = (none, cols) → ∃ t, exec (.pugLookup cl p) s = .next t ∧
         getPug t cl p = some (faultLookup x cols 5) ∧ t.mem = s1.mem) ∧
       (e.isToken = false → ∀ r cols b, lookupOf x.d e.payload.toNat = (some r, cols) → rowFor s x r = .hit b → ∃ t,
         exec (.pugLookup cl p) s = .next t ∧ t.mem = s1.mem ∧
         getPug t cl p = some (useValues { x with
           hot := (r, b) :: x.hot.filter fun h => h.1 != r
           unused := x.unused.filter (· != r) } (cols.map (rowElem x.d b))))) ∧
     (∀ row, row ∉ namedRows s x → exec (.pugRowFetch cl p row) s = .next s) ∧
     (∀ row b tags s1, pugStopped s x = false → row ∈ namedRows s x → (∀ h ∈ x.hot, h.1 ≠ row) → row < rowsOf x.d → x.badRow ≠ some row →
       engFetch s (pugActor x s) (tableOf x.d + row * rstrOf x.d) (rowSize x.d) = .ok (b, tags, s1) → ∃ t,
         exec (.pugRowFetch cl p row) s = .next t ∧ getPug t cl p = some { x with
           hot := (row, b) :: x.hot.take 63
           unused := row :: x.unused.filter (· != row) } ∧ t.mem = s1.mem) ∧
     (∀ e s1, pugStopped s x = false → pugNeedsSlot s x = none → x.out = [] → modeOf x.d = 2 → slotFree s x = true → pugPop s x = some (e, s1) → e.isToken = true → e.level = 1 ∨ 0 < x.n →
       ∃ t y, exec (.pugBagClose cl p) s = .next t ∧ getPug t cl p = some y ∧ y.bag = x.bag + 1 ∧ y.n = 0 ∧
         y.out = [dataEntry (word (ringOf x.d + x.bag % slotsOf x.d * slotStride x.d)), e] ∧ t.mem = s1.mem)) ∧
   (∀ (d : Vector Word 8) (i : Nat),
     (modeOf d = 0 → lookupOf d i = (if i < rowsOf d * lenOf d then some (i / lenOf d) else none, [i % lenOf d])) ∧
     (modeOf d ≠ 0 → lookupOf d i = (if i < rowsOf d then some i else none, List.range (lenOf d)))) ∧
   (∀ (s : State) (id cl p row : Nat) (code : BitVec 8) (g : PageReq) (x : Pug), s.pages.find? (fun g => g.id == id && g.sent) = some g →
     g.who = .pug cl p → getPug s cl p = some x → x.page = some (id, row) → ∃ t, exec (.pugPageResponse id code) s = .next t ∧
       getPug t cl p = some { x with page := none, badRow := if code = 0 then x.badRow else some row } ∧ t.mem = s.mem ∧
       ∀ g' ∈ t.pages, g'.id ≠ g.id))

/-! The supervisor -/

namespace Sys2Proof.Claims

/-- R387: the context that a selector names: on the own core, or from a hub core any of its partition. -/
def selTarget (s : State) (v : Word) : Nat :=
  if isHub s.cur then (v.toNat / 2 ^ 17 % 2 ^ 13) * 16 + v.toNat % 16 else coreOf s.cur * 16 + v.toNat % 16
/-- R387: the selector names a context that the agent may reach. -/
def selReaches (s : State) (v : Word) : Prop :=
  if isHub s.cur then bitOf v 30 = true ∧ partOf s (v.toNat / 2 ^ 17 % 2 ^ 13 * 16) = partOf s s.cur
  else bitOf v 30 = false ∧ v.toNat % 16 ≠ 0

end Sys2Proof.Claims

/-- R386 to R388: `cx.rd` and `cx.wr` read and write registers, the saved pc and CSRs of other contexts: of contexts 1 to 15 the user CSRs, each
under its map, of a context 0 `sepc`, `scause` and `stval`; `own.set` and `own.get` the owner tags of scratchpad blocks, and `esc.res` resumes a
context 0 that has escalated. Rests also on the model's choices: log entries 13, 14, 91. -/
def Obligations.SupervisorReachesContexts : Prop :=
  (∀ (rd rs1 : Reg) (s s1 s2 : State) (v : Word), steady s → (here s).sup = true → operands [rs1] (some rd) s = .ok ([v], s1) →
    let i := Instr.cxRd rd rs1
    let t := selTarget s1 v
    (isHub s1.cur = false → ¬ selReaches s1 v → exec i s = .next (takeTrap (issued s) s.cur 26 (here s).pc v (iword i) 0)) ∧
    (selReaches s1 v → writeRd rd (readItem s1 t (v.toNat / 16 % 2) (v.toNat / 32 % 4096)) s1 = .ok ((), s2) →
      exec i s = .next (doneIn i s (nextPc s2))) ∧
    (isHub s1.cur = true → ¬ selReaches s1 v → writeRd rd 0 s1 = .ok ((), s2) → exec i s = .next (doneIn i s (nextPc s2)))) ∧
  (∀ (s : State) (t idx : Nat),
    ((getCtx s t).status = .free → ∀ kind, readItem s t kind idx = 0) ∧
    ((getCtx s t).status ≠ .free → (idx = 32 → readItem s t 0 idx = (getCtx s t).pc) ∧ (idx = 0 ∨ 32 < idx → readItem s t 0 idx = 0) ∧
      (0 < idx → idx < 32 → xBound s t idx = false → readItem s t 0 idx = readX (getCtx s t) (BitVec.ofNat 5 idx)) ∧
      (0 < idx → idx < 32 → xBound s t idx = true → readItem s t 0 idx = 0) ∧
      (t < Config.contexts → t % 16 ≠ 0 → readItem s t 1 idx = if idx ∈ userCsrs then csrRead { s with cur := t } idx else 0) ∧
      (t < Config.contexts → t % 16 = 0 → readItem s t 1 idx = if idx = 0x141 then (getCtx s t).scsr.sepc
        else if idx = 0x142 then (getCtx s t).scsr.scause else if idx = 0x143 then (getCtx s t).scsr.stval else 0))) ∧
  (∀ (rs1 rs2 : Reg) (s s1 : State) (v x : Word), steady s → (here s).sup = true → operands [rs1, rs2] none s = .ok ([v, x], s1) →
    let i := Instr.cxWr rs1 rs2
    let t := selTarget s1 v
    let may := (getCtx s1 t).status = .trapped ∨ (getCtx s1 t).status = .parked .self
    let kind := v.toNat / 16 % 2
    let idx := v.toNat / 32 % 4096
    (isHub s1.cur = false → ¬ selReaches s1 v → exec i s = .next (takeTrap (issued s) s.cur 26 (here s).pc v (iword i) 0)) ∧
    ((selReaches s1 v → ¬ may) → (isHub s1.cur = false → selReaches s1 v) → exec i s = .next (doneIn i s (nextPc s1))) ∧
    (selReaches s1 v → may → ∃ u, exec i s = .next (doneIn i s (nextPc u)) ∧ u.mem = s1.mem ∧
      (kind = 0 → idx = 32 → getCtx u t = { getCtx s1 t with pc := word (x.toNat / 4 * 4) }) ∧
      (kind = 0 → 0 < idx → idx < 32 → xBound s1 t idx = false → getCtx u t = writeX (getCtx s1 t) (BitVec.ofNat 5 idx) x) ∧
      (kind = 0 → idx = 0 ∨ 32 < idx ∨ (idx < 32 ∧ xBound s1 t idx = true) → u = s1) ∧
      (kind = 1 → t % 16 ≠ 0 → { getCtx u t with ucsr := (getCtx s1 t).ucsr } = getCtx s1 t ∧
        (∀ w, userCsrAfter idx (readItem s1 t 1 idx) x = some w → readItem u t 1 idx = w ∧
          ∀ m ∈ userCsrs, m ≠ idx → ¬ (idx ≤ 3 ∧ m ≤ 3) → readItem u t 1 m = readItem s1 t 1 m) ∧
        (userCsrAfter idx (readItem s1 t 1 idx) x = none → u = s1 ∨ getCtx u t = getCtx s1 t)) ∧
      (kind = 1 → t % 16 = 0 → { getCtx u t with scsr := (getCtx s1 t).scsr } = getCtx s1 t ∧
        readItem u t 1 0x141 = (if idx = 0x141 then word (x.toNat / 4 * 4) else readItem s1 t 1 0x141) ∧
        readItem u t 1 0x142 = (if idx = 0x142 then x else readItem s1 t 1 0x142) ∧
        readItem u t 1 0x143 = (if idx = 0x143 then x else readItem s1 t 1 0x143)))) ∧
  (∀ (rs1 rs2 : Reg) (s s1 : State) (b v : Word), steady s → isHub s.cur = false → (here s).sup = true →
    operands [rs1, rs2] none s = .ok ([b, v], s1) → ∃ t,
      exec (.ownSet rs1 rs2) s = .next (doneIn (.ownSet rs1 rs2) s (nextPc t)) ∧ t.mem = s1.mem ∧ t.spad = s1.spad ∧ ∀ n,
        ownerTag (getCore t (coreOf s1.cur)) n =
          if n = b.toNat % 16 then word (v.toNat % 2 ^ 33) else ownerTag (getCore s1 (coreOf s1.cur)) n) ∧
  (∀ (rd rs1 : Reg) (s s1 s2 : State) (b : Word), steady s → isHub s.cur = false → (here s).sup = true →
    operands [rs1] (some rd) s = .ok ([b], s1) →
    writeRd rd (ownerTag (getCore s1 (coreOf s1.cur)) (b.toNat % 16)) s1 = .ok ((), s2) →
    exec (.ownGet rd rs1) s = .next (doneIn (.ownGet rd rs1) s (nextPc s2))) ∧
  (∀ (rs1 : Reg) (s s1 : State) (v : Word), steady s → (here s).sup = true →
    let i := Instr.escRes rs1
    let core := v.toNat % 2 ^ 13
    (isHub s.cur = false → exec i s = .next (illegal i s)) ∧
    (isHub s.cur = true → operands [rs1] none s = .ok ([v], s1) →
      (partOf s1 (core * 16) ≠ partOf s1 s1.cur ∨ (getCtx s1 (core * 16)).status ≠ .trapped → exec i s = .next (doneIn i s (nextPc s1))) ∧
      (partOf s1 (core * 16) = partOf s1 s1.cur → (getCtx s1 (core * 16)).status = .trapped → ∃ t,
        exec i s = .next (doneIn i s (nextPc t)) ∧ (getCtx t (core * 16)).status = .ready ∧
        (getCtx t (core * 16)).pc = (getCtx s1 (core * 16)).pc ∧ (∀ h, core ∉ (getHub t h).taken) ∧
        ∀ h, (getHub t h).esc = (getHub s1 h).esc)))

/-- R396, R397, R399: `pm.req` asks for an instance to stop, for the state of its save, and for its release; a save writes a section for each core
and then its header, and one that has failed its header with STATE 2; `pm.load` restores a section whose checks pass. Rests also on the model's
choices: log entries 17, 48, 53, 54, 103. -/
def Obligations.InstancesAreMoved : Prop :=
  (∀ (rd rs1 rs2 : Reg) (s s1 : State) (a v : Word), steady s → (here s).sup = true → operands [rs1, rs2] (some rd) s = .ok ([a, v], s1) →
    let i := Instr.pmReq rd rs1 rs2
    let cur := findPreempt s1 (partOf s1 s1.cur) (a.toNat % 2 ^ 16) (a.toNat / 2 ^ 16 % 2 ^ 16)
    let op := a.toNat / 2 ^ 32 % 4
    let status (n : Word) : Prop := ∀ s2, writeRd rd n s1 = .ok ((), s2) → exec i s = .next (doneIn i s (nextPc s2))
    (op = 3 → status 4) ∧ (op ≠ 3 → v.toNat % 128 ≠ 0 → status 3) ∧ (v.toNat % 128 = 0 →
    (op = 2 → cur = none → status 1) ∧ (op = 1 → cur = none → status 1) ∧
    (∀ p, cur = some p →
      (op = 2 → status (if p.state = 1 then 5 else 2)) ∧ (op = 1 → p.state ≠ 1 → status (if p.state = 0 then 2 else 1)) ∧
      (op = 1 → p.state = 1 → ∀ s2, writeRd rd 0 (releaseInst s1 p) = .ok ((), s2) → exec i s = .next (doneIn i s (nextPc s2))) ∧
      (op = 0 → p.state = 0 → status 2) ∧ (op = 0 → p.state = 1 → status 5) ∧
      (op = 0 → p.state = 2 → v ≠ 0 → ∃ t, t.mem = s1.mem ∧ t.ctxs = s1.ctxs ∧
        (∀ x ∈ t.preempts, x.id = p.id → x.state = 0 ∧ x.area = v ∧ x.saved = []) ∧
        ∀ s2, writeRd rd 0 t = .ok ((), s2) → exec i s = .next (doneIn i s (nextPc s2)))) ∧
    (op = 0 → cur = none → v ≠ 0 → ∃ t, t.mem = s1.mem ∧
      (∀ s2, writeRd rd 0 t = .ok ((), s2) → exec i s = .next (doneIn i s (nextPc s2))) ∧
      heldInst t (partOf s1 s1.cur) (a.toNat % 2 ^ 16) (a.toNat / 2 ^ 16 % 2 ^ 16) = true))) ∧
  (∀ (rd rs1 : Reg) (s s1 : State) (v : Word), steady s → isHub s.cur = false → (here s).sup = true →
    operands [rs1] (some rd) s = .ok ([v], s1) → (here s1).sb = [] →
    let i := Instr.pmLoad rd rs1
    let core := coreOf s1.cur
    let status (n : Word) (t : State) : Prop := ∀ s2, writeRd rd n t = .ok ((), s2) → exec i s = .next (doneIn i s (nextPc s2))
    (∀ e, sectionAt s1 (actorOf s1 s1.cur) v.toNat = .error e → (∀ q, e ≠ .wait q) → status 8 s1) ∧
    (∀ b s2, sectionAt s1 (actorOf s1 s1.cur) v.toNat = .ok (b, s2) → let x := loadSection b
      (sectionCheck s2 core x ≠ 0 → status (word (sectionCheck s2 core x)) s1) ∧
      (sectionCheck s2 core x = 0 → ∀ rs s3, restoreAll core x.ctxs s2 = .ok rs s3 →
        (loadCheck s3 core v.toNat x rs ≠ 0 → status (word (loadCheck s3 core v.toNat x rs)) s1) ∧
        (v.toNat % 128 ≠ 0 ∨ unfinished s3 core x = true → loadCheck s3 core v.toNat x rs ∈ [6, 7, 8]) ∧
        (loadCheck s3 core v.toNat x rs = 0 → (ringsOf core rs x.coils s3 = .fail → status 8 s1) ∧
          ∀ coils s4, ringsOf core rs x.coils s3 = .ok coils s4 → status 0 (restoreCore (dropUio s4) core x rs coils))))) ∧
  (∀ (s : State) (id core : Nat) (p : Preempt), s.preempts.find? (fun p => p.id == id) = some p → p.state = 0 → p.flush = false →
    (p.cores.head? ≠ some core → exec (.preemptSave id core) s = .next s) ∧
    (p.cores.head? = some core → instQuiet s p = false → exec (.preemptSave id core) s = .next (applyReqs s (visibleReqs s))) ∧
    (p.cores.head? = some core → instQuiet s p = true →
      ∀ s1, (if p.saved = [] then saveWrite s p core p.area.toNat (headerBytes p 0 0) else .ok s) = .ok s1 →
      ∀ s2, saveWrite s1 p core (p.area.toNat + p.nextOff) (sectionBytes s p core) = .ok s2 → ∃ t, exec (.preemptSave id core) s = .next t ∧
        t.mem = s2.mem ∧ ∀ x ∈ t.preempts, x.id = p.id → x.cores = p.cores.drop 1 ∧ x.saved = p.saved ++ [(core, p.nextOff)] ∧
          x.nextOff = p.nextOff + (sectionBytes s p core).length) ∧
    (p.cores = [] → instQuiet s p = true → farWaits s p = false → ¬ (p.area = 0 ∧ p.pdesc = 0) → p.saved = [] →
      ∀ s2, saveWrite s p (p.part * 2048) p.area.toNat (headerBytes p 1 0) = .ok s2 → ∃ t, exec (.preemptComplete id) s = .next t ∧
        t.mem = s2.mem ∧ ∀ x ∈ t.preempts, x.id = p.id → x.state = 1) ∧
    (p.cores ≠ [] ∨ farWaits s p = true → exec (.preemptComplete id) s = .next s) ∧
    (p.cores = [] → farWaits s p = false → instQuiet s p = false → exec (.preemptComplete id) s = .next (applyReqs s (visibleReqs s)))) ∧
  (∀ (s : State) (id core : Nat) (p : Preempt), s.preempts.find? (fun p => p.id == id) = some p → p.flush = true →
    ∀ s2, saveWrite s p (((p.saved.map (·.1) ++ p.cores).head?).getD (p.part * 2048)) p.area.toNat (headerBytes p 2 p.code) = .ok s2 →
      ∃ t, exec (.preemptSave id core) s = .next t ∧ t.mem = s2.mem ∧ ∀ x ∈ t.preempts, x.id = p.id → x.flush = false)

/-! Pages, sweeps, and the coherence bridge -/

namespace Sys2Proof.Claims

/-- R434: a partition of the package, named by its first die. -/
def partition (s : State) (p : Nat) : Prop := p < Config.dies ∧ partOfDie s p = p

/-- Memory `t` holds the 64 bytes `v` in a half, and everywhere else what `s` holds. -/
def wroteHalf (s t : State) (half : Nat) (v : BitVec 512) : Prop :=
  readHalf t.mem half = v.toNat ∧ ∀ k, k / 64 ≠ half → readByte t.mem k = readByte s.mem k

end Sys2Proof.Claims

/-- R389 to R393, R436: a scout of 256 instructions ends: the context rolls back and waits for its pages; a group goes to the host within its
allocation; the answer lets the context execute the faulting instruction again, or is a page fault with the code as PRSTAT; Response Failure stops
page requests until the driver re-enables them. Rests also on the model's choices: log entries 49, 59, 86. -/
def Obligations.PagesAreRequested : Prop :=
  (∀ (s : State) (a : Nat) (sc : Scout), a < Config.agents → (getCtx s a).scout = some sc →
    (sc.count < 256 → exec (.scoutStop a) s = .next s) ∧
    (256 ≤ sc.count → ∃ t, exec (.scoutStop a) s = .next t ∧ t.cur = s.cur ∧ t.mem = s.mem ∧
      let c := getCtx t a
      c.scout = none ∧ c.pc = sc.pc ∧ c.x = sc.x ∧ c.vec = sc.vec ∧ c.ucsr = sc.ucsr ∧
      ∃ g ∈ t.pages, c.status = .parked (.page g.id) ∧ g.who = .agent a ∧ g.pages = sc.pages ∧ g.pasid = sc.pasid ∧ g.sent = false)) ∧
  (∀ (s : State) (id : Nat) (g : PageReq), s.pages.find? (fun p => p.id == id && !p.sent) = some g →
    ((getPart s g.part).linkDown = false → pagesFit s g = false → exec (.pageRequestGroup id) s = .next s) ∧
    ((getPart s g.part).linkDown = false → pagesFit s g = true → ∃ t, exec (.pageRequestGroup id) s = .next t ∧ t.ctxs = s.ctxs ∧ t.mem = s.mem ∧
      t.pages = s.pages.map fun x => if x.id = g.id then { x with sent := true } else x) ∧
    ((getPart s g.part).linkDown = true → (∃ a, g.who = .agent a) → ∃ t, exec (.pageRequestGroup id) s = .next t ∧
      (∀ x ∈ t.pages, x.id ≠ g.id) ∧ (getPart t g.part).prFailed = true ∧ t.mem = s.mem)) ∧
  (∀ (s : State) (id a : Nat) (g : PageReq) (code : BitVec 8), s.pages.find? (fun p => p.id == id && p.sent) = some g → g.who = .agent a →
    (getCtx s a).halted = none →
    let t := takeAnswer s g code
    ((∀ x ∈ t.pages, x.id ≠ g.id) ∧ (code = 0x0F → (getPart t g.part).prFailed = true) ∧ (code ≠ 0x0F → t.parts = s.parts) ∧
      t.ctxs = s.ctxs ∧ t.mem = s.mem) ∧
    ((getCtx s a).stopping.isSome = true ∨ (getCtx s a).status ≠ .parked (.page g.id) → exec (.pageResponse id code) s = .next t) ∧
    (∀ acc va iw, (getCtx s a).stopping = none → (getCtx s a).status = .parked (.page g.id) → (getCtx s a).pageFault = some (acc, va, iw) →
      (code = 0 → exec (.pageResponse id code) s = .next (setCtx t a { getCtx s a with pageFault := none })) ∧
      (code ≠ 0 → exec (.pageResponse id code) s = .next (takeTrap t a (pageCause acc) (getCtx s a).pc va iw code.toNat)))) ∧
  (∀ (s : State) (part : Nat), partition s part → ∃ t, exec (.pageRequestReenable part) s = .next t ∧
    getPart t part = { getPart s part with prFailed := false } ∧ (∀ p, p ≠ part → getPart t p = getPart s p) ∧ t.ctxs = s.ctxs ∧
    t.pages = s.pages ∧ t.mem = s.mem)

/-- R80, R83, R107: a read fill gives the agent's core a lease; a sharing die drops its copy of a written line once no lease of its own is live,
then acknowledges; a write is complete when the last sharer has. R415, R416: a cluster answers a sweep: it holds no translation of the line any
more; it is waited for while an access through one is still to be performed; the sweep is complete when every cluster has answered and no write of
the line waits, and a snoop that waited for it is answered. Rests also on the model's choices: log entries 24, 26, 76, 101, 102. -/
def Obligations.CopiesAndSweeps : Prop :=
  ((∀ (s : State) (a line : Nat), isHub a = false → a < Config.contexts → unreachable s a (line * 128) = false →
     homeDie line = some (dieOf a) → (∃ h ∈ halvesOf line, tget 0 (getCore s (coreOf a)).l1 h ≤ s.clock) → tfind (getDie s (dieOf a)).copies line = none →
     s.writes = [] → s.atomics = [] → readNeeds s line (halvesOf line) = [] → ∃ t, exec (.readFill a line) s = .next t ∧
       (∀ h ∈ halvesOf line, tget 0 (getCore t (coreOf a)).l1 h = s.clock + (getDie s (dieOf a)).lease) ∧
       s.clock + (getDie s (dieOf a)).lease ≤ tget 0 (getDie t (dieOf a)).leases line ∧ t.mem = s.mem ∧ t.spad = s.spad) ∧
   (∀ (s : State) (id d : Nat) (w : Write), s.writes.find? (fun x => x.id == id && x.inv.contains d) = some w →
     (s.clock < tget 0 (getDie s d).leases (w.addr / 128) → exec (.remoteInvalidation id d) s = .next s) ∧
     (tget 0 (getDie s d).leases (w.addr / 128) ≤ s.clock → ∃ t, exec (.remoteInvalidation id d) s = .next t ∧
       tfind (getDie t d).copies (w.addr / 128) = none ∧ (∀ x ∈ t.writes, x.id = id → d ∉ x.inv) ∧ t.mem = s.mem)) ∧
   (∀ (s : State) (id d : Nat) (w : Write),
     s.writes.find? (fun x => x.id == id && x.acks.contains d && !x.inv.contains d) = some w → d < Config.dies → ∃ t,
       exec (.invalidationAck id d) s = .next t ∧ t.mem = s.mem ∧ t.dies = s.dies ∧
       (w.home = true → (w.acks.filter (· != d)) = [] → ∀ x ∈ t.writes, x.id ≠ id) ∧
       (w.home = false ∨ (w.acks.filter (· != d)) ≠ [] → ∀ x ∈ t.writes, x.id = id → x.acks = w.acks.filter (· != d)))) ∧
  ((∀ (s : State) (id cl : Nat) (x : Sweep), s.sweeps.find? (fun y => y.id == id && y.pending.contains cl) = some x →
     (inFlight s cl x.line = true → ∃ t, exec (.sweepAck id cl) s = .next t ∧ t.sweeps = s.sweeps ∧ t.mem = s.mem) ∧
     (inFlight s cl x.line = false → ∃ t, exec (.sweepAck id cl) s = .next t ∧ holdsTag t x.line cl = false ∧
       (∀ y ∈ t.sweeps, y.id = id → cl ∉ y.pending) ∧ (∀ y ∈ s.sweeps, y.id ≠ id → y ∈ t.sweeps) ∧ t.ctxs = s.ctxs ∧ t.mem = s.mem)) ∧
   (∀ (s : State) (id : Nat), ∃ t, exec (.sweepComplete id) s = .next t ∧ (s.snoops = [] → t = { s with sweeps := t.sweeps }) ∧
     (∀ x ∈ t.sweeps, x.id ≠ id ∨ x.pending ≠ [] ∨ writeAwaited s x.line = true) ∧
     (∀ x ∈ s.sweeps, x.id ≠ id ∨ x.pending ≠ [] ∨ writeAwaited s x.line = true → x ∈ t.sweeps) ∧
     (∀ e ∈ t.snoops, ∃ x ∈ t.sweeps, x.line = e.1 / 2) ∧
     (∀ half, (half, .inv) ∈ s.snoops → (∀ x ∈ t.sweeps, x.line ≠ half / 2) → tfind t.held half = none) ∧ t.mem = s.mem))

/-- R83, R173, R416, R421 to R423, R436: the bridge answers the host's snoops of halves that the device holds, and receives the halves it has
asked for; the host gives halves of device memory back, and reads, writes and holds them, shared or exclusive; what cannot be performed yet waits;
a peer reads and writes device memory and sends it operation packets, and is answered; when its link goes down requests under way to it end. Rests
also on the model's choices: log entries 66, 82, 84, 95, 112. -/
def Obligations.HostHoldsHalves : Prop :=
  (∀ (s : State) (half : Nat), isHostHalf s half = true → let line := half / 2
    (snooped s half = true → ∀ kind, exec (.hostSnoop half kind) s = .next s) ∧ (snooped s half = false →
      (isSource s line = true ∨ (∃ x ∈ s.sweeps, x.line = line) → ∃ t, exec (.hostSnoop half .inv) s = .next t ∧ (half, .inv) ∈ t.snoops ∧
        (∃ x ∈ t.sweeps, x.line = line) ∧ t.held = s.held ∧ t.mem = s.mem) ∧
      (isSource s line = false → (∀ x ∈ s.sweeps, x.line ≠ line) → ∃ t, exec (.hostSnoop half .inv) s = .next t ∧
        tfind t.held half = none ∧ (∀ h, h ≠ half → tfind t.held h = tfind s.held h) ∧ (∀ a, a ≠ engineAgent → resvValid t a line = false) ∧
        t.mem = s.mem) ∧
      (∃ t, exec (.hostSnoop half .data) s = .next t ∧ (tfind s.held half = some true → tfind t.held half = some false) ∧
        (∀ h, h ≠ half → tfind t.held h = tfind s.held h) ∧ t.mem = s.mem ∧ t.ctxs = s.ctxs) ∧
      ∃ t, exec (.hostSnoop half .cur) s = .next t ∧ t.held = s.held ∧ t.mem = s.mem ∧ t.ctxs = s.ctxs)) ∧
  (∀ (s : State) (half : Nat) (kind : CxlReq) (data : BitVec 512), tfind s.cxl half = some kind → ∃ t,
    exec (.cxlCacheResponse half data) s = .next t ∧ tfind t.cxl half = none ∧
    (kind = .rdShared ∨ kind = .rdOwn ∨ kind = .rdOwnNoData → tfind t.held half = some (decide (kind ≠ .rdShared) || tget false s.held half) ∧
      (tfind s.held half = none → State.wf s = true → wroteHalf s t half data) ∧ ((tfind s.held half).isSome = true → t.mem = s.mem)) ∧
    (kind = .dirtyEvict → t.mem = s.mem ∧ ((tfind s.held half).isSome = true → tfind t.held half = some false)) ∧
    (kind = .cleanEvict → t = { s with cxl := terase s.cxl half })) ∧
  (∀ (s : State) (half : Nat), s.bisnp.contains half = true →
    (∃ t, exec (.bisnpResponse half none) s = .next t ∧ t.mem = s.mem ∧ half ∉ t.bisnp ∧ hostHolds t half = false ∧
      ∀ e, e.1 ≠ half → (e ∈ t.filter ↔ e ∈ s.filter)) ∧
    (∀ v, s.hostReqs = [] →
      (hostNeeds { s with resets := [] } half = ([], false) → State.wf s = true → ∃ t,
        exec (.bisnpResponse half (some v)) s = .next t ∧ half ∉ t.bisnp ∧ hostHolds t half = false ∧ wroteHalf s t half v) ∧
      (hostNeeds { s with resets := [] } half ≠ ([], false) → exec (.bisnpResponse half (some v)) s =
        .next { applyReqs s (hostNeeds { s with resets := [] } half).1 with hostReqs := [.back half v] }))) ∧
  (∀ (s : State) (half d : Nat), homeDie (half / 2) = some d → partition s (partOfDie s d) → (getDie s d).off = false →
    quiet s d = [] → (getPart s (partOfDie s d)).linkDown = false →
    s.hostReqs = [] →
    let writing := ∃ w ∈ s.writes, w.home = false ∧ ∃ b ∈ w.bytes, b.1 / 64 = half
    let ask (hold : Option Bool) (data : Option (BitVec 512)) := exec (.hostCxlMemRequest (partOfDie s d) half (.cxl hold data)) s
    (writing → ∀ hold data, ask hold data = .next { s with hostReqs := [.mem (.cxl half hold data)] }) ∧ (¬ writing →
      ask none none = .next s ∧
      (∀ excl, leaseOver s (half / 2) = true → (excl = true → isSource s (half / 2) = false) → sharers s (half / 2) = [] →
        (s.filter.filter (·.1 != half)).length < 4194304 →
        ask (some excl) none = .next { s with filter := s.filter.filter (·.1 != half) ++ [(half, excl)] }) ∧
      (∀ excl, leaseOver s (half / 2) = false → ask (some excl) none = .next { s with hostReqs := [.mem (.cxl half (some excl) none)] }) ∧
      (leaseOver s (half / 2) = true → isSource s (half / 2) = true → ∃ t, ask (some true) none = .next t ∧
        t.hostReqs = [.mem (.cxl half (some true) none)] ∧ (∃ x ∈ t.sweeps, x.line = half / 2) ∧ t.filter = s.filter ∧ t.mem = s.mem) ∧
      (∀ v, hostNeeds s half = ([], false) → State.wf s = true →
        (∃ t, ask none (some v) = .next t ∧ wroteHalf s t half v ∧ hostHolds t half = false) ∧
        ∀ excl, ∃ t, ask (some excl) (some v) = .next t ∧ wroteHalf s t half v) ∧
      (∀ hold v, hostNeeds s half ≠ ([], false) →
        ask hold (some v) = .next { applyReqs s (hostNeeds s half).1 with hostReqs := [.mem (.cxl half hold (some v))] }))) ∧
  (∀ (s : State) (part pa key n : Nat) (b : List Byte), partition s part → s.hostReqs = [] →
    let reply (t : State) (ok : Bool) (l : List Byte) : Prop := t.peerReplies = s.peerReplies ++ [(ok, l)]
    let read := exec (.hostCxlMemRequest part pa (.uioRead n)) s
    let write := exec (.hostCxlMemRequest part pa (.uioWrite b)) s
    let k := leBytes 8 pa ++ b
    let perform := exec (.hostCxlMemRequest part pa (.packet b)) s
    (peerPlace s part pa n = none → ∃ t, read = .next t ∧ reply t false [] ∧ t.mem = s.mem) ∧
    (peerPlace s part pa n = some key → readNeeds s (lineOf key) (dedup [key / 64, (key + n - 1) / 64]) = [] → writeWaits s (lineOf key) = false →
      ∃ t, read = .next t ∧ reply t true (readBytes s.mem key n) ∧ t.mem = s.mem) ∧
    (peerPlace s part pa b.length = none → ∃ t, write = .next t ∧ reply t false [] ∧ t.mem = s.mem) ∧
    (peerPlace s part pa b.length = some key → canWrite s (lineOf key) (halvesTouched (cellsAt key b)) = true → State.wf s = true →
      ∃ t, write = .next t ∧ reply t true [] ∧ readBytes t.mem key b.length = b ∧
        ∀ k, ¬ within key b.length k → readByte t.mem k = readByte s.mem k) ∧
    (∀ size, size = (if (k.getD 25 0).getLsbD 0 then 8 else 4) →
      let o := leNat ((k.drop 8).take 8) % 2 ^ (8 * size)
      let e := leNat ((k.drop 16).take 8) % 2 ^ (8 * size)
      (peerPlace s part (leNat (k.take 8)) size = none ∨ packetTaken k = false → ∃ t, perform = .next t ∧ reply t false [] ∧ t.mem = s.mem) ∧
      (peerPlace s part (leNat (k.take 8)) size = some key → packetTaken k = true →
        siteNeeds s engineAgent (packetOp k) (locOfKey s key) size o e = none → ∃ t, perform = .next t ∧
          let r := atSite s engineAgent (packetOp k) false (locOfKey s key) size o e .rlx .sys []
          reply t true (leBytes 8 r.1) ∧ t.mem = r.2.mem))) ∧
  (∀ (s : State) (part : Nat), partition s part → (∀ g ∈ s.pages, g.part = part → g.sent = true → ∃ a, g.who = .agent a) → ∃ t,
    exec (.hostLinkDown part) s = .next t ∧ (getPart t part).linkDown = true ∧ t.cxl = [] ∧
    (∀ g ∈ t.pages, g.part = part → g.sent = false) ∧ t.mem = s.mem)

/-! Traps and interrupts, the reduce queue, register writes -/

namespace Sys2Proof.Claims

/-- R380: the trap value of an interrupt. -/
def interruptValue (s : State) (a code : Nat) : Word :=
  let c := (getCtx s a).scsr
  match code with
  | 5 => word (timeOf s a)
  | 9 => c.door
  | 16 => c.lossAddr
  | 17 => c.pmtAddr
  | 18 => word ((getHub s (a - Config.contexts)).esc.headD 0)
  | _ => 0

/-- R380, R384: `code` is the highest interrupt of a list that is pending and enabled for an agent. -/
def highestPending (s : State) (a : Nat) (codes : List Nat) (code : Nat) : Prop :=
  let on (n : Nat) : Bool := bitOf ((getCtx s a).scsr.sip &&& (getCtx s a).scsr.sie) n
  code ∈ codes ∧ on code = true ∧ ∀ n ∈ codes, code < n → on n = false

/-- Between the states `s` and `t` only bit `n` of an agent's `sip` may differ. -/
def sipElsewhere (s t : State) (a n : Nat) : Prop := ∀ m, m ≠ n → bitOf (getCtx t a).scsr.sip m = bitOf (getCtx s a).scsr.sip m

/-- Registers, memory and queues are the same in two states. -/
def sameUserState (s t : State) : Prop :=
  t.mem = s.mem ∧ t.spad = s.spad ∧ t.queues = s.queues ∧ ∀ a, (getCtx t a).x = (getCtx s a).x ∧ (getCtx t a).ucsr = (getCtx s a).ucsr

end Sys2Proof.Claims

/-- R373, R380 to R385: a core's oldest waiting trap record is pushed when it fits; an interrupt record when no other is there, the one of the
highest code first; a hub core takes its highest pending interrupt when it is enabled; an escalation is delivered oldest first. Rests also on the
model's choices: log entry 68. -/
def Obligations.InterruptsAreDelivered : Prop :=
  (∀ (s : State) (core : Nat) (r : TrapRec) (rest : List TrapRec), core < Config.cores → (getCore s core).waiting = r :: rest →
    let k := getCore s core
    (60 < k.trapQ.length → exec (.trapRecordPush core) s = .next s) ∧
    (k.trapQ.length ≤ 60 → settled s (agentOf core r.ctx) .core = false → exec (.trapRecordPush core) s = .next s) ∧
    (k.trapQ.length ≤ 60 → settled s (agentOf core r.ctx) .core = true → exec (.trapRecordPush core) s =
      .next (setCore s core { k with trapQ := k.trapQ ++ [r.w0, r.w1, r.w2, r.w3].map dataEntry, waiting := rest }))) ∧
  (∀ (s : State) (core code : Nat), core < Config.cores → let a := agentOf core 0
    let k := getCore s core
    highestPending s a [1, 5, 9, 16, 17] code →
    (k.waiting ≠ [] ∨ k.intr ≠ 0 ∨ 60 < k.trapQ.length → exec (.interruptRecordPush core) s = .next s) ∧
    (k.waiting = [] → k.intr = 0 → k.trapQ.length ≤ 60 → ∃ t, exec (.interruptRecordPush core) s = .next t ∧
      (getCore t core).trapQ = k.trapQ ++ [word (code + 64), 0, interruptValue s a code, 0].map dataEntry ∧
      (getCore t core).intr = k.trapQ.length + 4 ∧ bitOf (getCtx t a).scsr.sip code = false ∧ sipElsewhere s t a code ∧
      sameUserState s t)) ∧
  (∀ (s : State) (hub code : Nat), hub < Config.hubs → let a := Config.contexts + hub
    let c := getCtx s a
    highestPending s a [1, 5, 9, 16, 17, 18] code →
    (c.sup = true → bitOf c.scsr.sstatus 1 = false → exec (.hubInterruptTaken hub) s = .next s) ∧
    (c.sup = false ∨ bitOf c.scsr.sstatus 1 = true → interruptible s a c = true → ∃ t, exec (.hubInterruptTaken hub) s = .next t ∧
      hubEntered c (getCtx t a) true code c.pc (interruptValue s a code) ∧ sipElsewhere s t a code ∧ sameUserState s t ∧
      (code ≠ 18 → bitOf (getCtx t a).scsr.sip code = false) ∧
      (code = 18 → ∀ core rest, (getHub s hub).esc = core :: rest → (getHub t hub).esc = rest ∧
        (getHub t hub).taken = (getHub s hub).taken ++ [core] ∧ bitOf (getCtx t a).scsr.sip 18 = !rest.isEmpty))) ∧
  (∀ (s : State) (a : Nat), a < Config.agents → hasSup a = true → let c := (getCtx s a).scsr
    (c.armed = false ∨ timeOf s a < c.stimecmp.toNat → exec (.stimecmpMatch a) s = .next s) ∧
    (c.armed = true → c.stimecmp.toNat ≤ timeOf s a → ∃ t, exec (.stimecmpMatch a) s = .next t ∧
      bitOf (getCtx t a).scsr.sip 5 = true ∧ (getCtx t a).scsr.armed = false ∧ sipElsewhere s t a 5 ∧ sameUserState s t) ∧
    (∀ v : Word, ∃ t, exec (.doorbell a v) s = .next t ∧ bitOf (getCtx t a).scsr.sip 9 = true ∧ sipElsewhere s t a 9 ∧
      (getCtx t a).scsr.door = (if bitOf c.sip 9 = true then c.door ||| v else v) ∧ sameUserState s t) ∧
    (∀ v : Word, ∃ t, exec (.ssipWrite a v) s = .next t ∧ bitOf (getCtx t a).scsr.sip 1 = bitOf v 1 ∧ sipElsewhere s t a 1 ∧
      sameUserState s t))

/-- R34, R430 to R432: a reduce job starts once every earlier access of its hub core is performed; its indices are handed out in order; each core
enabled at its start gets one level-7 token after every index has been popped. Rests also on the model's choices: log entry 6. -/
def Obligations.ReduceJobs : Prop :=
  (∀ (s : State) (hub : Nat) (v : Word), hub < Config.hubs → let a := Config.contexts + hub
    let p := getPart s (partOf s a)
    (settled s a .pkg = false ∨ p.busy = true ∨ v.toNat % 2 ^ 32 = 0 → exec (.rqjobWrite hub v) s = .next s) ∧
    (settled s a .pkg = true → p.busy = false → v.toNat % 2 ^ 32 ≠ 0 → ∃ t, exec (.rqjobWrite hub v) s = .next t ∧
      let q := getPart t (partOf s a)
      q.nblk = v.toNat % 2 ^ 32 ∧ q.nextBlk = 0 ∧
      (∀ h, h ∈ q.tokens ↔ h < 64 ∧ partOf s (Config.contexts + h) = partOf s a ∧ (getHub s h).rqen = true) ∧
      (q.busy = true ↔ q.tokens ≠ []) ∧ sameUserState s t) ∧
    (p.busy = true → exec (.rqenWrite hub v) s = .next s) ∧
    (p.busy = false → ∃ t, exec (.rqenWrite hub v) s = .next t ∧ (getHub t hub).rqen = bitOf v 0 ∧
      (bitOf v 0 ≠ (getHub s hub).rqen → (getCtx t a).x[24] = 0) ∧ (bitOf v 0 = (getHub s hub).rqen → t.ctxs = s.ctxs) ∧
      (∀ i : Fin 32, i.val ≠ 24 → (getCtx t a).x[i] = (getCtx s a).x[i]) ∧ t.mem = s.mem) ∧
    (p.busy = true ∧ p.nextBlk = p.nblk ∧ hub ∈ p.tokens ∧ (getHub s hub).got = [] → ∃ t, exec (.reduceTokenDelivery hub) s = .next t ∧
      (getHub t hub).got = [tokenEntry 7] ∧ (∀ h, h ≠ hub → getHub t h = getHub s h) ∧ sameUserState s t) ∧
    (¬ (p.busy = true ∧ p.nextBlk = p.nblk ∧ hub ∈ p.tokens ∧ (getHub s hub).got = []) → exec (.reduceTokenDelivery hub) s = .next s) ∧
    (p.busy = true → (getHub s hub).got = [] → (getHub s hub).rqen = true → p.nextBlk < p.nblk → ∃ t,
      popEnd s a 0 = some (dataEntry (word p.nextBlk), t) ∧ (getPart t (partOf s a)).nextBlk = p.nextBlk + 1 ∧ sameUserState s t))

/-- R73, R81, R123, R308, R374 to R378, R406 to R410, R433: writes of registers: what each field reads afterwards, and the values that leave it
unchanged. R5, R68, R83, R446, R449, R452, R455, R461: a write of a register that has no row of its own: CSRs, the address decoder, RTENTRY, the
remote-cache region, and aligned doublewords of the management window. Rests also on the model's choices: log entries 51, 52, 56, 65, 86. -/
def Obligations.RegisterWrites : Prop :=
  ((∀ (s : State) (a : Nat) (v : Word), a < Config.contexts → ctxNo a = 0 → let part := partOf s a
     (usersFree s part = false → exec (.sspwinWrite a v) s = .next s) ∧
     (usersFree s part = true → ∃ t, exec (.sspwinWrite a v) s = .next t ∧
       (getPart t part).spwin = BitVec.ofNat 64 (v.toNat / 2 ^ 24 * 2 ^ 24) ∧ sameUserState s t) ∧
     (v.toNat % 2 ^ 13 < 32 ∨ 4096 < v.toNat % 2 ^ 13 → exec (.slscfgWrite a v) s = .next s) ∧
     (32 ≤ v.toNat % 2 ^ 13 → v.toNat % 2 ^ 13 ≤ 4096 → ∃ t, exec (.slscfgWrite a v) s = .next t ∧
       (getDie t (dieOf a)).lease = v.toNat % 2 ^ 13 ∧ sameUserState s t) ∧
     (v.toNat % 2 ^ 16 < 256 → exec (.drawdlyWrite a v) s = .next s) ∧
     (256 ≤ v.toNat % 2 ^ 16 → ∃ t, exec (.drawdlyWrite a v) s = .next t ∧ (getPart t part).drawdly = v.toNat % 2 ^ 16 ∧
       sameUserState s t) ∧
     (∃ t, exec (.scctlWrite a v) s = .next t ∧ sameUserState s t ∧ let w := (getCore t (coreOf a)).scctl
       bitOf w 0 = bitOf v 0 ∧ fieldOf w 8 6 = fieldOf v 8 6 ∧ fieldOf w 1 7 = 0 ∧ fieldOf w 14 50 = 0) ∧
     (∀ p : BitVec 3, ∃ t, exec (.holdWrite a p v) s = .next t ∧ holdOf t (clusterOf a) p.toNat = v.toNat % 2 ^ 16 ∧
       (∀ q, q ≠ p.toNat → holdOf t (clusterOf a) q = holdOf s (clusterOf a) q) ∧ sameUserState s t)) ∧
   (∀ (s : State) (a : Nat) (v : Word), a < Config.agents → hasSup a = true → let part := partOf s a
     (∀ r : BitVec 3, r.toNat < 5 → ∃ t, exec (.walkFormatWrite a r v) s = .next t ∧ sameUserState s t ∧
       let p := getPart s part
       let q := getPart t part
       (r = 0 → fieldOf q.wfmt 0 3 = (if 3 ≤ v.toNat % 8 ∧ v.toNat % 8 ≤ 5 then v.toNat % 8 else fieldOf p.wfmt 0 3) ∧
         fieldOf q.wfmt 3 5 = fieldOf v 3 5 ∧ bitOf q.wfmt 8 = true ∧ fieldOf q.wfmt 9 4 = fieldOf v 9 4 ∧ fieldOf q.wfmt 13 51 = 0) ∧
       (r = 1 → (∀ i, i < 6 → fieldOf q.wperm (8 * i) 6 = fieldOf v (8 * i) 6 ∧ fieldOf q.wperm (8 * i + 6) 2 = 0) ∧ fieldOf q.wperm 48 16 = 0) ∧
       (r = 2 → q.wpamask = v) ∧ (r = 3 → q.wleaf = v) ∧
       (r = 4 → fieldOf q.astab 0 5 = (if v.toNat % 32 ≤ 16 then v.toNat % 32 else fieldOf p.astab 0 5) ∧ fieldOf q.astab 5 7 = 0 ∧
         fieldOf q.astab 12 52 = fieldOf v 12 52) ∧
       (∀ k ∈ t.cores, ∀ e ∈ k.2.tlb, e.part ≠ part) ∧ (∀ k ∈ t.clusters, ∀ e ∈ k.2.tlb, e.part ≠ part) ∧
       (∀ k ∈ t.hubs, ∀ e ∈ k.2.tlb, e.part ≠ part) ∧ ∀ e ∈ t.hubWalk, e.1 ≠ part) ∧
     (∃ t, exec (.stimecmpWrite a v) s = .next t ∧ (getCtx t a).scsr.stimecmp = v ∧ (getCtx t a).scsr.armed = true ∧ sameUserState s t)) ∧
   (∀ (s : State) (a : Nat) (v : Word), a < Config.agents →
     ((getCtx s a).status = .free → exec (.vseedWrite a v) s = .next s) ∧
     ((getCtx s a).status ≠ .free → exec (.vseedWrite a v) s = .next (modCtx s a fun c => { c with ucsr := { c.ucsr with
       vseed := if v.toNat % 2 ^ 32 = 0 then 1 else BitVec.ofNat 32 v.toNat } }))) ∧
   (∀ (s : State) (v : Word),
     let w := BitVec.ofNat 64 (v.toNat % 32)
     (bitOf s.ptcfgReg 4 = true → exec (.ptcfgWrite v) s = .next s) ∧
     (bitOf s.ptcfgReg 4 = false → (∀ p ∈ s.parts, p.2.go = false) → exec (.ptcfgWrite v) s = .next { s with ptcfgReg := w, ptcfg := w }) ∧
     (bitOf s.ptcfgReg 4 = false → (∃ p ∈ s.parts, p.2.go = true) → exec (.ptcfgWrite v) s = .next { s with ptcfgReg := w }))) ∧
  ((∀ (s : State) (a : Nat) (num : BitVec 12) (v : Word), a < Config.agents →
     ((readUCsr s a num.toNat).isSome = true → (getCtx s a).status ≠ .free → exec (.registerWrite (.csr a num) v) s =
       .next (modCtx s a fun c => { c with ucsr := writeUCsr c.ucsr num.toNat v })) ∧
     ((readUCsr s a num.toNat).isSome = true → (getCtx s a).status = .free → exec (.registerWrite (.csr a num) v) s = .next s) ∧
     ((readUCsr s a num.toNat).isSome = false → hasSup a = true → hasSCsr a num.toNat = true → num ≠ 0x5E0 →
       exec (.registerWrite (.csr a num) v) s = .next (writeSCsr s a num.toNat v)) ∧
     ((readUCsr s a num.toNat).isSome = false → hasSup a = false ∨ hasSCsr a num.toNat = false →
       exec (.registerWrite (.csr a num) v) s = .next s)) ∧
   (∀ (s : State) (part : Nat) (v : Word), partition s part →
     (exec (.registerWrite (.rtentry part) v) s = .next (modPart s part fun p => { p with rtentry := v })) ∧
     exec (.registerWrite (.hdmBase part) v) s = .next (modPart s part fun p => { p with hdmBase := v.toNat % 2 ^ 52 / 2 ^ 28 * 2 ^ 28 }) ∧
     exec (.registerWrite (.mgBase part) v) s = .next (modPart s part fun p => { p with mgBase := v.toNat % 2 ^ 52 / 2 ^ 20 * 2 ^ 20 }) ∧
     (∀ base len kind port, ∃ t, exec (.registerWrite (.window part base len kind port) v) s = .next t ∧
       (bitOf v 0 = true → ⟨base, len, kind, port⟩ ∈ (getPart t part).windows) ∧
       (bitOf v 0 = false → ∀ w ∈ (getPart t part).windows, w.base ≠ base) ∧
       (∀ w, w.base ≠ base → (w ∈ (getPart t part).windows ↔ w ∈ (getPart s part).windows)) ∧ t.ctxs = s.ctxs ∧ t.mem = s.mem) ∧
     exec (.registerWrite (.pageAlloc part) v) s = .next (modPart s part fun p => { p with pageAlloc := v.toNat % 2 ^ 32 })) ∧
   (∀ (s : State) (hub : Nat) (v : Word), hub < Config.hubs → exec (.registerWrite (.hubSpace hub) v) s =
     .next (modCtx s (Config.contexts + hub) fun c => { c with space := v.toNat % 2 ^ 16 })) ∧
   (∀ (s : State) (die : Nat) (v : Word), die < Config.dies →
     (8 < v.toNat → exec (.registerWrite (.remoteRegion die) v) s = .next s) ∧
     (v.toNat ≤ 8 → exec (.registerWrite (.remoteRegion die) v) s = .next (modDie s die fun d => { d with region := v.toNat }))) ∧
   (∀ (s : State) (part off : Nat) (v : Word), partition s part → (off % 8 ≠ 0 → exec (.registerWrite (.mgmt part off) v) s = .next s) ∧
     (∀ d, d ∈ diesOf s part → off = 0x200 + 8 * (d - part) → part ≤ d → ∃ t, exec (.registerWrite (.mgmt part off) v) s = .next t ∧
       (getDie t d).corr = fieldOf v 0 16 ∧ (getDie t d).uncorr = fieldOf v 16 16 ∧ (getDie t d).lost = fieldOf v 32 16 ∧ sameUserState s t) ∧
     (∀ d, d ∈ diesOf s part → off = 0x100 + 8 * (d - part) → part ≤ d → bitOf v 0 = false → ∃ t,
       exec (.registerWrite (.mgmt part off) v) s = .next t ∧ (getDie t d).offdrop = fieldOf v 16 16 ∧ (getDie t d).state = (getDie s d).state ∧
       sameUserState s t) ∧
     (∀ i, i < 8 → off = 0x1000 + 8 * i → (getPart s part).port.status ≠ 1 → ∃ t, exec (.registerWrite (.mgmt part off) v) s = .next t ∧
       (getPart t part).port.staged.toList.getD i 0 = v ∧ sameUserState s t) ∧
     (∀ i, off = 0x1000 + 8 * i → i < 8 → (getPart s part).port.status = 1 → ∃ t, exec (.registerWrite (.mgmt part off) v) s = .next t ∧
       getPart t part = getPart s part)))

/-! Resets, errors, and the debug controller -/

namespace Sys2Proof.Claims

/-- A context 0 or hub core begins, or begins again, at an address: supervisor mode, space 0 (R447). -/
def beginsAt (c : Ctx) (pc : Word) : Prop := c.status = .ready ∧ c.sup = true ∧ c.space = 0 ∧ c.pc = pc ∧ c.scsr.sie = 0

/-- No engine, and no instruction, waits for an access at the route table. -/
def nothingHeld (s : State) : Prop :=
  (∀ cl, (getCluster s cl).settings = [] ∧ (getCluster s cl).cmds = [] ∧ (getCluster s cl).pugs = []) ∧ ∀ e ∈ s.ctxs, e.2.out = []

/-- The warm reset of a die has done step `n` (R451). -/
def warmAt (s : State) (d n : Nat) : Prop := ∃ r, warmOf s d = some r ∧ r.stepDone = n

/-- R454: a lost line has been reverted to a value between `s` and `t`, counted with a die and reported to it, with the line's physical address. -/
def reverted (s t : State) (d line : Nat) (v : BitVec 1024) : Prop :=
  let addr := word (if (homeDie line).isSome then physLine s line else line * 128 % 2 ^ 52)
  t.lossgen = s.lossgen + 1 ∧ readLine t.mem line = v ∧ (∀ k, lineOf k ≠ line → readByte t.mem k = readByte s.mem k) ∧
  (getDie t d).lost = min 0xFFFF ((getDie s d).lost + 1) ∧ (getDie t d).uncorr = min 0xFFFF ((getDie s d).uncorr + 1) ∧
  (∀ a, a ≠ engineAgent → resvValid t a line = false) ∧
  bitOf (getCtx t (agentOf (d * 2048) 0)).scsr.sip 16 = true ∧ (getCtx t (agentOf (d * 2048) 0)).scsr.lossAddr = addr ∧
  t.errorMsgs = s.errorMsgs ++ [addr] ∧ t.lostLines = []

end Sys2Proof.Claims

/-- R446, R447, R450: package cold reset leaves device memory zero and the machine as after reset; GO starts every core of a partition at RTENTRY;
a core reset reaps the core's contexts and restarts context 0, without changing memory, scratchpads or cones. Rests also on the model's choices:
log entries 18, 57. -/
def Obligations.CoresStart : Prop :=
  (∀ s : State, ∃ t, exec .coldReset s = .next t ∧
    (∀ k, k < 4 * Config.dieBytes → readByte t.mem k = 0) ∧ (∀ k, 4 * Config.dieBytes ≤ k → readByte t.mem k = readByte s.mem k) ∧
    t.ctxs = [] ∧ t.cores = [] ∧ t.hubs = [] ∧ t.clusters = [] ∧ t.dies = [] ∧ t.queues = [] ∧ t.lossgen = 0 ∧ t.clock = 0 ∧
    ∀ p, getPart t p = { windows := (getPart s p).windows }) ∧
  (∀ (s : State) (part : Nat), partition s part → ((getPart s part).go = true → exec (.runtimeGo part) s = .next s) ∧
    ((getPart s part).go = false → ∃ t, exec (.runtimeGo part) s = .next t ∧ (getPart t part).go = true ∧ t.mem = s.mem ∧
      ∀ a, a < Config.agents → partOf s a = part → isHub a = true ∨ ctxNo a = 0 → (getCtx t a).pc = (getPart s part).rtentry ∧
        (tfind s.ctxs a = none → beginsAt (getCtx t a) (getPart s part).rtentry))) ∧
  (∀ (s : State) (core : Nat), core < Config.cores → (getCore s core).resetting = false → let a := agentOf core 0
    (liveCtxs s core = [] → endable s a = true → ∃ t, exec (.coreReset core) s = .next t ∧
      beginsAt (getCtx t a) (getPart s (partOf s a)).rtentry ∧ (getCtx t a).winRev = 1 ∧ (getCore t core).trapQ = [] ∧
      (getCore t core).waiting = [] ∧ (getCore t core).handles = [] ∧ (∀ b, tagInst (ownerTag (getCore t core) b) = none) ∧
      (∀ i : Fin 4, (getCore t core).slots[i] = none) ∧
      (∀ i : Fin 4, (getCore t core).ctr[i] = {}) ∧ cycleOf t a = 0 ∧ t.mem = s.mem ∧ t.spad = s.spad ∧
      (∀ cl, (getCluster t cl).cones = (getCluster s cl).cones ∧
        (getCluster t cl).launch.map (·.record) = (getCluster s cl).launch.map (·.record)) ∧
      (∀ x ∈ (getCluster t (core / 256)).launch, x.core ≠ some core) ∧
      ∀ b, b ≠ a → (getCtx t b).x = (getCtx s b).x) ∧
    (∀ e, liveCtxs s core = [e] → getCtx s e.1 = e.2 → endable s e.1 = false → ∃ t, exec (.coreReset core) s = .next t ∧
      (getCtx t e.1).stopping = some 6 ∧ (getCtx t e.1).status = e.2.status ∧ (getCore t core).resetting = true ∧ t.mem = s.mem) ∧
    (∀ e, liveCtxs s core = [e] → endable s e.1 = true → pugNeeds s e.1 = [] → ∃ t, exec (.coreReset core) s = .next t ∧
      (getCtx t e.1).status = .free))

/-- R451, R452, R462: a warm reset takes the steps of its table in order: the die stops, its requests end, what is held modified is written back,
it goes offline, it is cleared, and it starts again. Rests also on the model's choices: log entry 58. -/
def Obligations.DiesRestart : Prop :=
  (∀ (s : State) (d : Nat), d < Config.dies →
    ((getDie s d).state ≠ .ready → exec (.dieWarmReset d) s = .next s) ∧
    ((getDie s d).state = .ready → warmOf s d = none → ∃ t, exec (.dieWarmReset d) s = .next t ∧ (getDie t d).state = .quiescing ∧ warmAt t d 0 ∧
      (∀ k ∈ t.cores, k.1 / 2048 = d → k.2.handles = [] ∧ k.2.trapQ = []) ∧
      (∀ cl ∈ clustersOfDie d, (getCluster t cl).launch = [] ∧ (getCluster t cl).replay = []) ∧
      (∀ e ∈ t.ctxs, dieOf e.1 = d → ∀ w ∈ e.2.win, w.sent.isSome = true) ∧ t.mem = s.mem)) ∧
  (∀ (s : State) (d : Nat) (r : WarmReset), d < Config.dies → warmOf s d = some r →
    (r.stepDone = 0 → step1Done s d = true → ∃ t, exec (.dieOffline d) s = .next t ∧ warmAt t d 1 ∧ t.mem = s.mem ∧ t.ctxs = s.ctxs) ∧
    (r.stepDone = 1 → step2Done s d r.mark = false → ∃ t, exec (.dieOffline d) s = .next t ∧ t.resets = s.resets ∧ t.mem = s.mem ∧
      t.ctxs = s.ctxs) ∧
    (r.stepDone = 1 → step2Done s d r.mark = true → ∃ t, exec (.dieOffline d) s = .next t ∧ warmAt t d 2 ∧ t.mem = s.mem ∧ t.ctxs = s.ctxs) ∧
    (r.stepDone = 2 → (∀ h ∈ s.filter, homedOn d (h.1 / 2) = false) → ∃ t, exec (.dieOffline d) s = .next t ∧ warmAt t d 3 ∧ t.mem = s.mem) ∧
    (r.stepDone = 2 → (∃ h ∈ s.filter, homedOn d (h.1 / 2) = true) → ∃ t, exec (.dieOffline d) s = .next t ∧ t.resets = s.resets ∧
      (∀ h ∈ s.filter, homedOn d (h.1 / 2) = true → h.1 ∈ t.bisnp) ∧ t.mem = s.mem) ∧
    (r.stepDone = 3 → ∃ t, exec (.dieOffline d) s = .next t ∧ warmAt t d 4 ∧ (∀ e ∈ t.stale, homedOn d e.1 = false) ∧ t.mem = s.mem) ∧
    (r.stepDone = 4 → ∃ t, exec (.dieOffline d) s = .next t) ∧
    (r.stepDone = 4 → nothingHeld s → ∃ t, exec (.dieOffline d) s = .next t ∧ warmAt t d 5 ∧ (getDie t d).off = true ∧ (getDie t d).state = .offline ∧
      (∀ e ∈ t.dies, ∀ c ∈ e.2.copies, homedOn d c.1 = false) ∧ (∀ line ∈ sourceLines s d, ∃ x ∈ t.sweeps, x.line = line) ∧
      (∀ p ∈ t.posts, dieOfCluster (postCluster p) ≠ d) ∧ t.mem = s.mem) ∧
    (5 ≤ r.stepDone → exec (.dieOffline d) s = .next s) ∧
    (r.stepDone = 5 → (∃ x ∈ s.sweeps, homedOn d x.line = true) → exec (.dieRetrained d) s = .next s) ∧
    (r.stepDone = 5 → (∀ x ∈ s.sweeps, homedOn d x.line = false) → ∃ t, exec (.dieRetrained d) s = .next t ∧ warmAt t d 6 ∧
      (getDie t d).state = .admitting ∧ (getDie t d).off = (getDie s d).off ∧ (getDie t d).offdrop = (getDie s d).offdrop ∧
      (getDie t d).lost = (getDie s d).lost ∧ (getDie t d).copies = [] ∧ (∀ e ∈ t.ctxs, dieOf e.1 ≠ d) ∧ (∀ k ∈ t.cores, k.1 / 2048 ≠ d) ∧
      (∀ k ∈ t.clusters, k.1 / 8 ≠ d) ∧ t.mem = s.mem) ∧
    (r.stepDone = 6 → ∃ t, exec (.dieReady d) s = .next t ∧ warmOf t d = none ∧ (getDie t d).state = .ready ∧ (getDie t d).off = false ∧
      t.mem = s.mem ∧ ((getPart s (partOfDie s d)).go = true → ∀ a, a < Config.contexts → dieOf a = d → ctxNo a = 0 →
        (getCtx t a).pc = (getPart s (partOfDie s d)).rtentry)) ∧
    (r.stepDone ≠ 5 → exec (.dieRetrained d) s = .next s) ∧ (r.stepDone ≠ 6 → exec (.dieReady d) s = .next s))

/-- R459: a die whose estimate exceeds its share, or whose heat flux is too high, throttles for the next 1,024 cycles: results, registers and
memory stay as they are. R453 to R455, R380: a corrected error is counted; an uncorrectable one is counted and its data handled by where it lies;
a lost line is reverted, counted, and reported as LOSS. Rests also on the model's choices: log entries 19, 63, 69, 111. -/
def Obligations.PowerAndErrors : Prop :=
  (∀ (s : State) (die : Nat), die < Config.dies →
     exec (.powerEstimate die false) s = .next s ∧ exec (.powerEstimate die true) s = exec (.heatFluxLimit die) s ∧
     ∃ t, exec (.heatFluxLimit die) s = .next t ∧ (getDie t die).throttle = s.clock + 1024 ∧ (∀ d, d ≠ die → getDie t d = getDie s d) ∧
       t.ctxs = s.ctxs ∧ t.mem = s.mem ∧ t.spad = s.spad ∧ t.queues = s.queues ∧
       ∀ k ∈ t.clusters, ∃ k' ∈ s.clusters, k.1 = k'.1 ∧ k.2.cmds = k'.2.cmds ∧ k.2.settings.map (·.members) = k'.2.settings.map (·.members)) ∧
  ((∀ (s : State) (d : Nat), d < Config.dies → exec (.eccUncorrectable (.cleanCopy d)) s = exec (.eccCorrected d) s ∧ ∃ t,
     exec (.eccCorrected d) s = .next t ∧ (getDie t d).corr = min 0xFFFF ((getDie s d).corr + 1) ∧ (getDie t d).uncorr = (getDie s d).uncorr ∧
     (getDie t d).lost = (getDie s d).lost ∧ sameUserState s t) ∧
   (∀ (s : State) (d line : Nat), lossDie s line = d → (∀ h, homeDie line = some h → h = d) → s.lostLines = [] →
     (∀ v, tfind s.stale line = some v →
       (canWrite s line (halvesOf line) = true → State.wf s = true → ∃ t, exec (.eccUncorrectable (.modifiedLine line)) s = .next t ∧
         reverted s t d line v ∧ tfind t.stale line = none) ∧
       (canWrite s line (halvesOf line) = false → ∃ t, exec (.eccUncorrectable (.modifiedLine line)) s = .next t ∧ t.lossgen = s.lossgen ∧
         t.lostLines = [(line, v)] ∧ (getDie t d).uncorr = min 0xFFFF ((getDie s d).uncorr + 1) ∧ t.mem = s.mem)) ∧
     (homeDie line = some d → tfind s.stale line = none → canWrite s line (halvesOf line) = true → State.wf s = true → ∃ t,
       exec (.eccUncorrectable (.hbmLine line)) s = .next t ∧ reverted s t d line 0)) ∧
   (∀ (s : State) (addr : Nat), addr < 32 * 2 ^ 24 → State.wf s = true → ∃ t, exec (.eccUncorrectable (.scratchpad addr)) s = .next t ∧
     (∀ k, k / 8 = addr / 8 → readByte t.spad k = 0) ∧ (∀ k, k / 8 ≠ addr / 8 → readByte t.spad k = readByte s.spad k) ∧
     (getDie t (addr / 2 ^ 24 / 8)).uncorr = min 0xFFFF ((getDie s (addr / 2 ^ 24 / 8)).uncorr + 1) ∧ t.mem = s.mem ∧ t.ctxs = s.ctxs) ∧
   (∀ (s : State) (q pos : Nat) (x : Queue) (it : Item), findQueue s q = some x → x.coil = false → x.items[pos]? = some it → ∃ t y,
     exec (.eccUncorrectable (.queueEntry q pos)) s = .next t ∧ findQueue t q = some y ∧ t.mem = s.mem ∧
     y.items = x.items.map fun i => if i.pos = it.pos then { i with entry := { it.entry with payload := 0 } } else i) ∧
   (∀ (s : State) (core pos : Nat) (e : Entry), core < Config.cores →
     ((getCore s core).handles[pos]? = some e → ∃ t, exec (.eccUncorrectable (.handle core pos)) s = .next t ∧ t.mem = s.mem ∧ t.ctxs = s.ctxs ∧
       (getCore t core).handles = (getCore s core).handles.set pos { e with payload := 0 }) ∧
     ((getCore s core).trapQ[pos]? = some e → ∃ t, exec (.eccUncorrectable (.trapEntry core pos)) s = .next t ∧ t.mem = s.mem ∧ t.ctxs = s.ctxs ∧
       (getCore t core).trapQ = (getCore s core).trapQ.set pos { e with payload := 0 })) ∧
   (∀ (s : State) (a : Nat), a < Config.contexts → let u := min 0xFFFF ((getDie s (dieOf a)).uncorr + 1)
     (ctxNo a = 0 → ∃ t, exec (.eccUncorrectable (.context a)) s = .next t ∧ t.ctxs = s.ctxs ∧ (getDie t (dieOf a)).uncorr = u) ∧
     (ctxNo a ≠ 0 → endable s a = true → pugNeeds s a = [] → ∃ t, exec (.eccUncorrectable (.context a)) s = .next t ∧
       (getCtx t a).status = .free) ∧
     (ctxNo a ≠ 0 → (getCtx s a).status ≠ .free → endable s a = false → ∃ t, exec (.eccUncorrectable (.context a)) s = .next t ∧
       (getCtx t a).stopping = some 6 ∧ (getCtx t a).x = (getCtx s a).x ∧ (getDie t (dieOf a)).uncorr = u ∧ t.mem = s.mem)) ∧
   (∀ (s : State) (cl k : Nat) (x : Setting), cl < Config.clusters →
     (getCluster s cl).settings.find? (fun x => match x.at_ with | .staging i | .firing i _ => i == k | _ => false) = some x → ∃ t,
       exec (.eccUncorrectable (.kiln cl k)) s = .next t ∧ (∀ y ∈ (getCluster t cl).settings, y.opened ≠ x.opened) ∧
       (∀ i ∈ x.members, ∀ c, findCmd t cl i = some c → c.code = 6 ∧ c.at_ = .done ∧ c.out = []) ∧ t.mem = s.mem) ∧
   (∀ (s : State) (cl p : Nat) (x : Pug) (e : Entry) (s1 : State), cl < Config.clusters → getPug s cl p = some x → x.out = [] →
     let u := countUncorrected s (dieOfCluster cl)
     pugPop u x = some (e, s1) → e.isToken = false → ∃ t, exec (.eccUncorrectable (.pug cl p)) s = .next t ∧
       getPug t cl p = some (faultLookup x (lookupOf x.d e.payload.toNat).2 6) ∧ t.mem = s1.mem))

/-- R449, R456, R457: a write of HLPOST posts the staged record, refuses it with its code, or, without credit (R436), keeps it until there is
some; the debug controller halts the context that `dbgsel` names, lets it go on, lets it take one step, and writes its items while it is halted.
Rests also on the model's choices: log entries 59, 87. -/
def Obligations.HostPortAndDebugger : Prop :=
  (∀ (s : State) (part : Nat) (v : Word), partition s part → let p := (getPart s part).port
    let r := recordOf p.staged.toList
    let cl := portTarget part r
    (v ≠ 1 ∧ p.status ≠ 1 ∨ p.status = 1 ∧ p.post.isSome = true → exec (.hlpost part v) s = .next s) ∧
    (v = 1 ∧ p.status ≠ 1 ∨ p.status = 1 ∧ p.post = none → ∃ t, exec (.hlpost part v) s = .next t ∧ t.mem = s.mem ∧ t.ctxs = s.ctxs ∧ let q := (getPart t part).port
      q.staged = p.staged ∧
      (r.bad = true ∨ cl ∉ clustersOf s part → q.status = 2 ∧ q.code = 2 ∧ t.posts = s.posts) ∧
      (r.bad = false → cl ∈ clustersOf s part → clusterOnline s cl = false → q.status = 2 ∧ q.code = 6 ∧ t.posts = s.posts) ∧
      (r.bad = false → cl ∈ clustersOf s part → clusterOnline s cl = true → hasCredit s cl = false →
        q.status = 1 ∧ q.post = none ∧ t.posts = s.posts) ∧
      (r.bad = false → cl ∈ clustersOf s part → clusterOnline s cl = true → hasCredit s cl = true → q.status = 1 ∧ ∃ m, t.posts = s.posts ++ [m] ∧ q.post = some m.id ∧
        m.record = r ∧ m.target = cl ∧ m.poster = .port part ∧ m.stage = none ∧ m.rep = false))) ∧
  (∀ (s : State) (part : Nat), partition s part → let a := (getPart s part).dbgsel.toNat % 2 ^ 17
    let c := getCtx s a
    (c.status = .free ∨ c.halted.isSome = true → exec (.halt part) s = .next s) ∧
    (c.status ≠ .free → c.halted = none → awaitsReply s c = true →
      exec (.halt part) s = .next (setCtx s a { c with stepping := true })) ∧
    (c.status ≠ .free → c.halted = none → awaitsReply s c = false →
      exec (.halt part) s = .next (setCtx s a { c with halted := some c.status, dbgEntry := false })) ∧
    (c.halted = none → exec (.resume part) s = .next s ∧ exec (.step part) s = .next s ∧ ∀ v, exec (.dbgdataWrite part v) s = .next s) ∧
    (c.halted.isSome = true → exec (.resume part) s = .next (setCtx s a { c with halted := none }) ∧
      exec (.step part) s = .next (setCtx s a { c with halted := none, stepping := true }) ∧
      ∀ v : Word, let i := (getPart s part).dbgitem
        exec (.dbgdataWrite part v) s = .next (writeItem s a (i.toNat / 16 % 2) (i.toNat / 32 % 4096) v))) ∧
  (∀ (s : State) (a idx : Nat) (v : Word),
    (writeItem s a 0 32 v = modCtx s a fun c => { c with pc := BitVec.ofNat 64 (v.toNat / 4 * 4) }) ∧
    (idx = 0 ∨ 32 < idx → writeItem s a 0 idx v = s) ∧ (xBound s a idx = true → idx < 32 → writeItem s a 0 idx v = s) ∧
    (∀ h : 0 < idx ∧ idx < 32, xBound s a idx = false → writeItem s a 0 idx v = modCtx s a fun c => { c with x := c.x.set idx v h.2 }) ∧
    (ctxNo a ≠ 0 → (readUCsr s a idx).isSome = true →
      writeItem s a 1 idx v = modCtx s a fun c => { c with ucsr := writeUCsr c.ucsr idx v }) ∧
    (ctxNo a ≠ 0 → readUCsr s a idx = none → writeItem s a 1 idx v = s) ∧
    (ctxNo a = 0 → idx < 0x141 ∨ 0x143 < idx → writeItem s a 1 idx v = s) ∧
    (ctxNo a = 0 → 0x141 ≤ idx → idx ≤ 0x143 → writeItem s a 1 idx v = writeSCsr s a idx v))

/-- R162, R448: the capability list of a partition: nine records from the offset on that the DVSEC names, each with its ID, the length of its body
and the offset of the next, and the fields of their bodies. Rests also on the model's choices: log entry 88. -/
def Obligations.CapabilityList : Prop :=
  ∀ (s : State) (part base : Nat), partition s part → base + 96 < 2 ^ 16 →
    let l := capList s part base
    let n := (diesOf s part).length
    let head (i id len next : Nat) : Prop := let w := l.getD i 0
      fieldOf w 0 16 = id ∧ fieldOf w 16 16 = 1 ∧ fieldOf w 32 16 = len ∧ fieldOf w 48 16 = next
    l.length = 14 + n ∧ (∀ i, i < 5 → head i (i + 1) 0 (base + 8 * (i + 1))) ∧
    (head 5 0x100 8 (base + 56) ∧ let w := l.getD 6 0
      fieldOf w 0 8 = part ∧ fieldOf w 8 8 = n ∧ fieldOf w 16 8 = (if bitOf s.ptcfg 3 then 2 else 1) ∧ fieldOf w 24 8 = 8 * n) ∧
    (head 7 0x101 16 (base + 80) ∧ l.getD 8 0 = (getPart s part).rtentry ∧ l.getD 9 0 = if (getPart s part).go then 1 else 0) ∧
    (head 10 0x102 8 (base + 96) ∧ l.getD 11 0 = word (getPart s part).mgBase) ∧
    (head 12 0x103 (8 * (n + 1)) 0 ∧ (∀ i, i < n → l.getD (13 + i) 0 = dstatOf (getDie s (part + i))) ∧ l.getD (13 + n) 0 = 36000)

/-! Encodings, the step, and the state after reset -/

/-- R139 to R149, R178, R387, R432: words that the manual writes out decode to the instructions it writes beside them; others are written out from
the layouts. -/
def Obligations.WordsDecode : Prop :=
  decode32 0x006C1393 = .ok (.slli 7 24 6) ∧ decode32 0x19B3307B = .ok (.vshape 6 6 .e4m3 0) ∧ decode32 0x0002807B = .ok (.vld 0 5 0 .e8) ∧
  decode32 0x000280FB = .ok (.vld 1 5 0 .e8) ∧ decode32 0x0C08617B = .ok (.vbqAddrq 2 0 1 .e4m3 0 false) ∧
  decode32 0x0002897B = .ok (.vst 2 5 0 .e8) ∧ decode32 0x02E6B00B = .ok (.cnArrive 13 14) ∧ decode32 0x1405D87B = .ok (.cxRd 10 11) ∧
  decode32 0x00B558FB = .ok (.cxWr 10 11) ∧ decode32 0x14C5DA7B = .ok (.pmReq 10 11 12) ∧ decode32 0x00055B7B = .ok (.escRes 10) ∧
  decode32 0x000F8413 = .ok (.addi 8 31 0) ∧ decode32 0x0403900B = .ok (.ctxResume 7) ∧ decode32 0x00000073 = .ok .ecall ∧
  decode32 0x00100073 = .ok .ebreak ∧ decode32 0x10200073 = .ok .sret ∧ (∃ r, decode32 0x00000000 = .error r) ∧ ∃ r, decode32 0xFFFFFFFF = .error r

/-- R133 to R149: for every well-formed instruction that has an encoding, decoding its word gives the instruction again, with every operand. -/
def Obligations.EncodeThenDecode : Prop :=
  ∀ (i : Instr) (w : Nat), wellFormed i = true → encode i = some w → w < 2 ^ 32 ∧ decode32 w = .ok i

/-- R9, R20, R133 to R135: a step whose turn is an agent's issue, when the agent may issue and the rotation floor, its core's slot and the
throttle (R22, R459) let it in this cycle, carries out the instruction that the word at its pc decodes to, after the cycles of the turn; a word
that decodes to none is an illegal instruction; the four bytes of the word are those that the agent sees at the translated pc, or those that its
core's instruction cache still holds (R94); the detectors that look at the state after a turn change no register and no memory. Rests also on the
model's choices: log entries 2, 10, 22. -/
def Obligations.StepRunsDecoded : Prop :=
  (∀ (s s3 : State) (dt a w : Nat) (rest : List Turn), s.turns = ⟨dt, .issue a⟩ :: rest → a < Config.agents →
    let s1 := pass { s with turns := rest } dt
    slotOpen s1 a = true → mayIssue s1 a = true → fetchWord { s1 with cur := a } = .ok (w, s3) →
      (∀ i, decode32 (w % 2 ^ 32) = .ok i → step s = observed s1 (exec i s3)) ∧
      (∀ r, decode32 (w % 2 ^ 32) = .error r → step s = observed s1 (exec (.illegalInstruction (BitVec.ofNat 32 w)) s3))) ∧
  (∀ (s : State) (dt a : Nat) (rest : List Turn), s.turns = ⟨dt, .issue a⟩ :: rest → a < Config.agents →
    let s1 := pass { s with turns := rest } dt
    (slotOpen s1 a = false → step s = observed s1 (.next s1)) ∧
    (slotOpen s1 a = true ↔ isHub a = true ∨ (getCtx s1 a).readyAt ≤ s1.clock ∧ (getCore s1 (coreOf a)).slotAt ≤ s1.clock ∧
      ¬ (s1.clock < (getDie s1 (dieOf a)).throttle ∧ (getCore s1 (coreOf a)).slotAt = s1.clock ∧ 3 ≤ (getCore s1 (coreOf a)).run))) ∧
  (∀ (s s3 : State) (pa : Nat) (tags : List Nat) (d : Nat), let pc := (here s).pc
    pc.toNat % 4 = 0 → canonical pc = true → inWindow s s.cur pc.toNat = false → xlateA .fetch pc pc s = .ok ((pa, tags), s3) →
      let l := locate s3 (partOf s3 s3.cur) pa
      l.cls = .hbm d → (getDie s3 d).off = false → laneHeld s3 s3.cur (lineOf l.key) = false →
      readNeeds s3 (lineOf l.key) [l.key / 64] = [] → l.key % 4 = 0 →
      let old := tfind (getCore s3 (coreOf s3.cur)).icache (l.key / 64)
      let seen := leNat ((List.range 4).map fun j => visibleByte s3 s3.cur (l.key + j))
      ∃ w s4, fetchWord s = .ok (w, s4) ∧ s4.mem = s3.mem ∧ s4.spad = s3.spad ∧ s4.ctxs = s3.ctxs ∧ s4.queues = s3.queues ∧
        (isHub s3.cur = true ∨ old = none → w = seen) ∧
        (isHub s3.cur = false → ∀ v, old = some v → w = v.toNat / 2 ^ (8 * (l.key % 64)) % 2 ^ 32 ∨ w = seen)) ∧
  (∀ b t : State, observed b (.next t) = .next (observe b t) ∧ (observe b t).cores = t.cores ∧ (observe b t).mem = t.mem ∧
    (observe b t).spad = t.spad ∧ (observe b t).queues = t.queues ∧
    ∀ a, let c := getCtx (observe b t) a
      c.x = (getCtx t a).x ∧ c.pc = (getCtx t a).pc ∧ c.status = (getCtx t a).status ∧ c.ucsr = (getCtx t a).ucsr ∧ c.vec = (getCtx t a).vec)

/-- R25, R81, R375 to R378, R388, R406 to R409, R446, R447, R452, R455: the state after package cold reset: device memory is zero, every counter
is 0, registers hold their reset values, contexts 1 to 15 are FREE, no core runs before GO; both memories have their canonical form. Rests also on
the model's choices: log entries 3, 4. -/
def Obligations.StateAfterReset : Prop :=
  let s := State.reset
  State.wf s = true ∧ (∀ k, readByte s.mem k = 0) ∧ s.lossgen = 0 ∧ s.clock = 0 ∧ (∀ a, mayIssue s a = false) ∧
  (∀ a, isHub a = false → ctxNo a ≠ 0 → (getCtx s a).status = .free) ∧
  (∀ a, isHub a = true ∨ ctxNo a = 0 → let c := getCtx s a
    c.status = .ready ∧ c.sup = true ∧ c.space = 0 ∧ c.scsr.sstatus = 0 ∧ c.scsr.sie = 0 ∧ c.scsr.sip = 0 ∧ c.scsr.stvec = 0 ∧ c.scsr.sepc = 0 ∧
    c.scsr.scause = 0 ∧ c.scsr.stval = 0 ∧ c.scsr.stimecmp = 0xFFFFFFFFFFFFFFFF) ∧
  (∀ core, (getCore s core).trapQ = [] ∧ (getCore s core).handles = [] ∧ (getCore s core).scctl = 0 ∧
    ∀ b, ownerTag (getCore s core) b = 0x100000000) ∧
  (∀ d, (getDie s d).lease = 256 ∧ dstatOf (getDie s d) = 0 ∧ dierrOf (getDie s d) = 0) ∧
  ∀ p, let q := getPart s p
    q.drawdly = 4096 ∧ fieldOf q.wfmt 0 3 = 5 ∧ bitOf q.wfmt 3 = false ∧ bitOf q.wfmt 4 = true ∧ bitOf q.wfmt 5 = false ∧ fieldOf q.wfmt 6 2 = 2 ∧
    bitOf q.wfmt 8 = true ∧ fieldOf q.wfmt 9 4 = 15 ∧ fieldOf q.wperm 0 6 = 0 ∧ fieldOf q.wperm 8 6 = 2 ∧ fieldOf q.wperm 16 6 = 4 ∧
    fieldOf q.wperm 24 6 = 3 ∧ fieldOf q.wperm 32 6 = 6 ∧ fieldOf q.wperm 40 6 = 7 ∧ q.wpamask = 0x003FFFFFFFFFFC00 ∧ q.wleaf = 0xE ∧
    q.astab = 0 ∧ q.spwin = 0 ∧ q.nblk = 0 ∧ q.busy = false

/-- Every step keeps the canonical form of memory and of the scratchpads: addresses strictly rising, no byte listed that an unlisted address reads
as. Rests also on the model's choices: log entry 4. -/
def Obligations.StepKeepsMemoryForm : Prop :=
  ∀ s t : State, State.wf s = true → step s = .next t → State.wf t = true
end

