-- ==== Sys2Proof/Laws/Act.lean ====
section
/-! SUPPORT. Laws/Act.lean: how the parts of a meaning run: one equation for each building block of `Act`, and what `perform` makes of a
meaning that completes, stops, or belongs to a scouting context. -/

namespace Sys2Proof.Machine

/-- A sequence whose first part answers goes on with the second. -/
theorem act_bind_ok {α β : Type} {first : Act α} {next : α → Act β} {s : State} {r : α × State} (h : first s = .ok r) :
    (first >>= next) s = next r.1 r.2 :=
  congrArg (fun x : Except Stop (α × State) => x.bind fun y => next y.1 y.2) h

/-- A sequence whose first part stops, stops so. -/
theorem act_bind_error {α β : Type} {first : Act α} {next : α → Act β} {s : State} {why : Stop} (h : first s = .error why) :
    (first >>= next) s = .error why :=
  congrArg (fun x : Except Stop (α × State) => x.bind fun y => next y.1 y.2) h

@[simp] theorem act_pure {α : Type} (a : α) (s : State) : (pure a : Act α) s = .ok (a, s) := rfl
@[simp] theorem act_get (s : State) : (get : Act State) s = .ok (s, s) := rfl
@[simp] theorem act_set (t s : State) : (set t : Act PUnit) s = .ok (⟨⟩, t) := rfl
@[simp] theorem act_modify (f : State → State) (s : State) : (modify f : Act PUnit) s = .ok (⟨⟩, f s) := rfl
@[simp] theorem act_me (s : State) : me s = .ok (getCtx s s.cur, s) := rfl
@[simp] theorem act_modMe (f : Ctx → Ctx) (s : State) : modMe f s = .ok ((), modCtx s s.cur f) := rfl
@[simp] theorem act_advance (s : State) : advance s = .ok ((), modCtx s s.cur fun c => { c with pc := c.pc + 4 }) := rfl
@[simp] theorem act_jumpTo (t : Word) (s : State) : jumpTo t s = .ok ((), modCtx s s.cur fun c => { c with pc := t }) := rfl
@[simp] theorem act_stop {α : Type} (e : Stop) (s : State) : (stop e : Act α) s = .error e := rfl
@[simp] theorem act_trap {α : Type} (n : Nat) (v : Word) (s : State) : (trap n v : Act α) s = .error (.trap n v) := rfl
@[simp] theorem act_trapIf_false (n : Nat) (v : Word) (s : State) : trapIf false n v s = .ok ((), s) := rfl
@[simp] theorem act_trapIf_true (n : Nat) (v : Word) (s : State) : trapIf true n v s = .error (.trap n v) := rfl
@[simp] theorem act_holdUnless_true (s : State) : holdUnless true s = .ok ((), s) := rfl
@[simp] theorem act_holdUnless_false (s : State) : holdUnless false s = .error (.hold []) := rfl
@[simp] theorem act_parkUnless_true (w : Park) (s : State) : parkUnless true w s = .ok ((), s) := rfl
@[simp] theorem act_parkUnless_false (w : Park) (s : State) : parkUnless false w s = .error (.park w) := rfl

/-- R93: the release condition holds: nothing waits. -/
theorem act_release {sc : Scope} {s : State} (h : settled s s.cur sc = true) : release sc s = .ok ((), s) := by
  simp [release, h]

/-- The value that a register gives when its operands can be had. -/
theorem act_operand1 {r : Reg} {rd : Option Reg} {s s' : State} {l : List Word} (h : operands [r] rd s = .ok (l, s')) :
    operand1 r rd s = .ok (l.getD 0 0, s') := by
  simp [operand1, act_bind_ok h]

theorem act_operand2 {r1 r2 : Reg} {rd : Option Reg} {s s' : State} {l : List Word} (h : operands [r1, r2] rd s = .ok (l, s')) :
    operand2 r1 r2 rd s = .ok ((l.getD 0 0, l.getD 1 0), s') := by
  simp [operand2, act_bind_ok h]

theorem act_operand3 {r1 r2 r3 : Reg} {rd : Option Reg} {s s' : State} {l : List Word}
    (h : operands [r1, r2, r3] rd s = .ok (l, s')) : operand3 r1 r2 r3 rd s = .ok ((l.getD 0 0, l.getD 1 0, l.getD 2 0), s') := by
  simp [operand3, act_bind_ok h]

/-- A result is written and the next instruction follows. -/
theorem act_finishRd {rd : Reg} {v : Word} {s s' : State} (h : writeRd rd v s = .ok ((), s')) :
    finishRd rd v s = .ok ((), modCtx s' s'.cur fun c => { c with pc := c.pc + 4 }) := by
  simp [finishRd, act_bind_ok h]

/-- `perform` of a meaning that completes, when the scoreboard does not hold the instruction. -/
theorem perform_ok {i : Instr} {m : Act Unit} {s s' : State} (hs : (getCtx s s.cur).scout = none) (hb : blocked i (getCtx s s.cur) = false)
    (h : m s = .ok ((), s')) : perform i m s = .next (completed i (getCtx s s.cur) s') := by
  simp [perform, hs, hb, h]

/-- `perform` of a meaning that stops, when nothing that it has issued before must be complete first. -/
theorem perform_error {i : Instr} {m : Act Unit} {s : State} {e : Stop} (hs : (getCtx s s.cur).scout = none)
    (hb : blocked i (getCtx s s.cur) = false) (hw : (waitsForOut e && !(getCtx s s.cur).out.isEmpty) = false) (h : m s = .error e) :
    perform i m s = .next (settle i m s e) := by
  simp only [perform, hs, hb, h, hw, Bool.false_eq_true, if_false]

/-- An instruction that the scoreboard holds parks where its parking condition holds, and changes nothing otherwise. -/
theorem perform_blocked {i : Instr} {m : Act Unit} {s : State} (hs : (getCtx s s.cur).scout = none) (hb : blocked i (getCtx s s.cur) = true) :
    perform i m s = .next (match parksAnyway m s with | some why => parkCtx s why | none => s) := by
  cases h : parksAnyway m s <;> simp [perform, hs, hb, h]

/-- `perform` for a scouting context. -/
theorem perform_scout {i : Instr} {m : Act Unit} {s : State} {sc : Scout} (hs : (getCtx s s.cur).scout = some sc) :
    perform i m s = .next (scoutStep i m sc s) := by
  simp [perform, hs]

/-- An instruction always answers a next state. -/
theorem perform_next (i : Instr) (m : Act Unit) (s : State) : ∃ t, perform i m s = .next t := by
  unfold perform
  dsimp only
  split
  · exact ⟨_, rfl⟩
  · split
    · exact ⟨_, rfl⟩
    · split <;> exact ⟨_, rfl⟩

end Sys2Proof.Machine
end

