-- ==== Sys2Proof/Laws/Memory.lean ====
section
/-! SUPPORT. Laws/Memory.lean: memory operations keep the canonical form, and what is read after a write. -/

namespace Sys2Proof.Machine

/-- A bound of `wfFrom` lies below an address. -/
def boundBelow (lo : Option Nat) (k : Nat) : Prop := ∀ l, lo = some l → l < k

/-- The canonical form, cell by cell: the cell lies above the bound, is no unlisted byte, and bounds the cells after it. -/
theorem wfFrom_cons {lo : Option Nat} {e : Host.Cell} {t : List Host.Cell} :
    wfFrom lo (e :: t) = true ↔ boundBelow lo e.1 ∧ e.2 ≠ unlistedByte ∧ wfFrom (some e.1) t = true := by
  cases lo <;> simp [wfFrom, boundBelow, and_assoc]

/-- A bound may be lowered to any that lies at or below it. -/
theorem wfFrom_lower {m : List Host.Cell} {l : Nat} {lo : Option Nat} (h : wfFrom (some l) m = true) (hl : boundBelow lo (l + 1)) :
    wfFrom lo m = true := by
  cases m with
  | nil => rfl
  | cons e t =>
    have ⟨h1, h2⟩ := wfFrom_cons.mp h
    exact wfFrom_cons.mpr ⟨fun n hn => Nat.lt_of_lt_of_le (hl n hn) (h1 l rfl), h2⟩

/-- No address at or below the bound is listed. -/
theorem readByte_below {m : List Host.Cell} {l k : Nat} (h : wfFrom (some l) m = true) (hk : k ≤ l) : readByte m k = unlistedByte := by
  induction m generalizing l with
  | nil => rfl
  | cons e t ih =>
    have ⟨h1, _, ht⟩ := wfFrom_cons.mp h
    have := h1 l rfl
    exact (if_neg (show ¬ e.1 = k by omega)).trans (ih ht (by omega))

/-- A write keeps every bound that lies below the written address. -/
theorem writeByte_wfFrom {m : List Host.Cell} {lo : Option Nat} (h : wfFrom lo m = true) (k : Nat) (x : Byte) (hk : boundBelow lo k) :
    wfFrom lo (writeByte m k x) = true := by
  induction m generalizing lo with
  | nil =>
    show wfFrom lo (if x = unlistedByte then [] else [(k, x)]) = true
    split
    · rfl
    · next hx => exact wfFrom_cons.mpr ⟨hk, hx, rfl⟩
  | cons e t ih =>
    have ⟨hlo, hy, ht⟩ := wfFrom_cons.mp h
    show wfFrom lo (if k < e.1 then _ else if e.1 = k then _ else _) = true
    split
    · next hka =>
      split
      · exact h
      · next hx => exact wfFrom_cons.mpr ⟨hk, hx, wfFrom_cons.mpr ⟨fun n hn => by injection hn; omega, hy, ht⟩⟩
    · next hka =>
      split
      · next hak =>
        split
        · exact wfFrom_lower ht fun n hn => Nat.lt_succ_of_lt (hlo n hn)
        · next hx => exact wfFrom_cons.mpr ⟨hk, hx, hak ▸ ht⟩
      · next hak => exact wfFrom_cons.mpr ⟨hlo, hy, ih ht fun n hn => by injection hn; omega⟩

/-- A write of a byte keeps the canonical form. -/
theorem writeByte_wf {m : List Host.Cell} (h : Memory.wf m = true) (k : Nat) (x : Byte) : Memory.wf (writeByte m k x) = true :=
  writeByte_wfFrom h k x fun _ hl => nomatch hl

/-- Writes of bytes keep the canonical form. -/
theorem writeCells_wf {m : List Host.Cell} (h : Memory.wf m = true) (cs : List (Nat × Byte)) : Memory.wf (writeCells m cs) = true := by
  induction cs generalizing m with
  | nil => exact h
  | cons c cs ih => exact ih (writeByte_wf h c.1 c.2)

/-- A write of a line keeps the canonical form. -/
theorem writeLine_wf {m : List Host.Cell} (h : Memory.wf m = true) (line : Nat) (v : BitVec 1024) : Memory.wf (writeLine m line v) = true :=
  writeCells_wf h _

/-- The bytes that satisfy a test keep the canonical form. -/
theorem filter_wfFrom {m : List Host.Cell} {lo : Option Nat} (p : Host.Cell → Bool) (h : wfFrom lo m = true) :
    wfFrom lo (m.filter p) = true := by
  induction m generalizing lo with
  | nil => rfl
  | cons e t ih =>
    have ⟨hlo, hx, ht⟩ := wfFrom_cons.mp h
    rw [List.filter_cons]
    split
    · exact wfFrom_cons.mpr ⟨hlo, hx, ih ht⟩
    · exact ih (wfFrom_lower ht fun n hn => Nat.lt_succ_of_lt (hlo n hn))

/-- A write leaves every other address alone. -/
theorem readByte_writeByte_ne (m : List Host.Cell) {k n : Nat} (x : Byte) (h : n ≠ k) : readByte (writeByte m k x) n = readByte m n := by
  induction m with
  | nil => by_cases hx : x = unlistedByte <;> simp [writeByte, readByte, hx, h.symm]
  | cons e t ih =>
    obtain ⟨a, y⟩ := e
    simp only [writeByte]
    split
    · split <;> simp [readByte, h.symm]
    · split
      · next hak => subst hak; split <;> simp [readByte, h.symm]
      · simp [readByte, ih]

/-- In a canonical memory a written byte is read back. -/
theorem readByte_writeByte_self {m : List Host.Cell} {lo : Option Nat} (hm : wfFrom lo m = true) (k : Nat) (x : Byte) :
    readByte (writeByte m k x) k = x := by
  induction m generalizing lo with
  | nil => by_cases hx : x = unlistedByte <;> simp [writeByte, readByte, hx]
  | cons e t ih =>
    have ht := (wfFrom_cons.mp hm).2.2
    show readByte (if k < e.1 then _ else if e.1 = k then _ else _) k = x
    split
    · next hka =>
      split
      · next hx => exact ((if_neg (show ¬ e.1 = k by omega)).trans (readByte_below ht (by omega))).trans hx.symm
      · exact if_pos rfl
    · split
      · next hak =>
        split
        · next hx => exact (readByte_below ht (by omega)).trans hx.symm
        · exact if_pos rfl
      · next hak => exact (if_neg hak).trans (ih ht)

/-- Writes leave the addresses that they do not name alone. -/
theorem readByte_writeCells_ne {cs : List (Nat × Byte)} {n : Nat} (h : ∀ c ∈ cs, n ≠ c.1) (m : List Host.Cell) :
    readByte (writeCells m cs) n = readByte m n := by
  induction cs generalizing m with
  | nil => rfl
  | cons c cs ih =>
    show readByte (writeCells (writeByte m c.1 c.2) cs) n = readByte m n
    rw [ih (fun d hd => h d (List.mem_cons_of_mem _ hd)), readByte_writeByte_ne m c.2 (h c (List.mem_cons_self ..))]

/-- The addresses of `cellsAt`. -/
theorem mem_cellsAt {a : Nat} {l : List Byte} {c : Nat × Byte} (h : c ∈ cellsAt a l) : a ≤ c.1 ∧ c.1 < a + l.length := by
  induction l generalizing a with
  | nil => simp [cellsAt] at h
  | cons b l ih =>
    simp only [cellsAt, List.mem_cons] at h
    rcases h with h | h
    · subst h; exact ⟨Nat.le_refl _, by simp⟩
    · have := ih h; simp only [List.length_cons]; omega

/-- A write of bytes at an address leaves every byte outside them alone. -/
theorem readByte_writeCells_cellsAt_ne {a n : Nat} {l : List Byte} (h : n < a ∨ a + l.length ≤ n) (m : List Host.Cell) :
    readByte (writeCells m (cellsAt a l)) n = readByte m n :=
  readByte_writeCells_ne (fun c hc => by have := mem_cellsAt hc; omega) m

/-- In a canonical memory the bytes written at an address are read back from it. -/
theorem readBytes_writeCells {m : List Host.Cell} (hm : Memory.wf m = true) (a : Nat) (l : List Byte) :
    readBytes (writeCells m (cellsAt a l)) a l.length = l := by
  induction l generalizing m a with
  | nil => rfl
  | cons b l ih =>
    have hw : Memory.wf (writeByte m a b) = true := writeByte_wf hm a b
    have h1 : readByte (writeCells (writeByte m a b) (cellsAt (a + 1) l)) a = b := by
      rw [readByte_writeCells_cellsAt_ne (by omega)]; exact readByte_writeByte_self hm a b
    show readByte (writeCells (writeByte m a b) (cellsAt (a + 1) l)) a ::
      readBytes (writeCells (writeByte m a b) (cellsAt (a + 1) l)) (a + 1) l.length = b :: l
    rw [h1, ih hw (a + 1)]

@[simp] theorem leBytes_length (n v : Nat) : (leBytes n v).length = n := by
  induction n generalizing v with
  | zero => rfl
  | succ n ih => simp [leBytes, ih]

/-- R3: the low bytes of a number, taken together, are the number again. -/
theorem leNat_leBytes (n v : Nat) : leNat (leBytes n v) = v % 256 ^ n := by
  induction n generalizing v with
  | zero => simp [leBytes, leNat, Nat.mod_one]
  | succ n ih =>
    simp only [leBytes, leNat, ih, BitVec.toNat_ofNat]
    have h : 256 ^ (n + 1) = 256 * 256 ^ n := by rw [Nat.pow_succ, Nat.mul_comm]
    rw [h, Nat.mod_mul]

/-- The canonical form of both memories rests on them alone. -/
theorem State.wf_congr {s t : State} (hm : t.mem = s.mem) (hs : t.spad = s.spad) : State.wf t = State.wf s := by
  simp only [State.wf, hm, hs]

/-- The state after reset has it. -/
theorem State.reset_wf : State.wf State.reset = true := rfl

end Sys2Proof.Machine
end

