-- ==== Sys2Proof/Laws/State.lean ====
section
/-! SUPPORT. Laws/State.lean: what each update of State leaves in each field, and what a table holds after it has been changed. -/

namespace Sys2Proof.Machine

/-! Tables -/

variable {α : Type}

theorem tfind_cons (e : Nat × α) (t : Tbl α) (n : Nat) : tfind (e :: t) n = if e.1 = n then some e.2 else tfind t n := rfl

/-- What a table holds after it has been set: the new entry at its key, and elsewhere what it held. -/
theorem tfind_tset (t : Tbl α) (k n : Nat) (x : α) : tfind (tset t k x) n = if k = n then some x else tfind t n := by
  induction t with
  | nil => rfl
  | cons e t ih =>
    show tfind (if k < e.1 then _ else if e.1 = k then _ else _) n = _
    by_cases hk : k < e.1
    · simp only [hk, if_true, tfind_cons]
    · by_cases he : e.1 = k
      · subst he; simp only [Nat.lt_irrefl, if_false, if_true, tfind_cons]; split <;> rfl
      · simp only [hk, he, if_false, tfind_cons, ih]
        by_cases hn : e.1 = n
        · simp only [hn, if_true, if_neg (show ¬ k = n by omega)]
        · simp only [hn, if_false]

/-- What it holds after a key has left it. -/
theorem tfind_terase (t : Tbl α) (k n : Nat) : tfind (terase t k) n = if k = n then none else tfind t n := by
  induction t with
  | nil => simp [terase, tfind]
  | cons e t ih =>
    simp only [terase, List.filter_cons] at ih ⊢
    split
    · next h => rw [tfind_cons, tfind_cons, ih]; have := ne_of_beq_false (by simpa using h : (e.1 == k) = false); split <;> split <;> simp_all
    · next h => rw [ih, tfind_cons]; split <;> simp_all

theorem tget_eq_tfind (d : α) (t : Tbl α) (k : Nat) : tget d t k = (tfind t k).getD d := by
  induction t with
  | nil => rfl
  | cons e t ih => rw [tfind_cons]; show (if e.1 = k then e.2 else tget d t k) = _; rw [ih]; split <;> rfl

@[simp] theorem tfind_tset_self (t : Tbl α) (k : Nat) (x : α) : tfind (tset t k x) k = some x := by simp [tfind_tset]
theorem tfind_tset_ne (t : Tbl α) {k n : Nat} (x : α) (h : n ≠ k) : tfind (tset t k x) n = tfind t n := by simp [tfind_tset, h.symm]
@[simp] theorem tfind_terase_self (t : Tbl α) (k : Nat) : tfind (terase t k) k = none := by simp [tfind_terase]
theorem tfind_terase_ne (t : Tbl α) {k n : Nat} (h : n ≠ k) : tfind (terase t k) n = tfind t n := by simp [tfind_terase, h.symm]
@[simp] theorem tget_tset_self (d : α) (t : Tbl α) (k : Nat) (x : α) : tget d (tset t k x) k = x := by simp [tget_eq_tfind]
theorem tget_tset_ne (d : α) (t : Tbl α) {k n : Nat} (x : α) (h : n ≠ k) : tget d (tset t k x) n = tget d t n := by
  simp [tget_eq_tfind, tfind_tset, h.symm]

/-! What a partition and the context of an agent depend on -/

theorem partOfDie_congr {s t : State} (h : t.ptcfg = s.ptcfg) (d : Nat) : partOfDie t d = partOfDie s d := by
  have hc (n : Nat) : cutBelow t n = cutBelow s n := by simp only [cutBelow, h]
  induction d with
  | zero => rfl
  | succ d ih => simp only [partOfDie, hc, ih]

theorem partOf_congr {s t : State} (h : t.ptcfg = s.ptcfg) (a : Nat) : partOf t a = partOf s a := by
  simp only [partOf, partOfDie_congr h]

theorem ctxDefault_congr {s t : State} (h : t.ptcfg = s.ptcfg) (hd : t.dies = s.dies) (hp : t.parts = s.parts) (a : Nat) :
    ctxDefault t a = ctxDefault s a := by
  simp only [ctxDefault, partOf_congr h, getPart, getDie, hd, hp]

theorem getCtx_congr {s t : State} (hc : t.ctxs = s.ctxs) (h : t.ptcfg = s.ptcfg) (hd : t.dies = s.dies) (hp : t.parts = s.parts) (a : Nat) :
    getCtx t a = getCtx s a := by
  simp only [getCtx, ctxDefault_congr h hd hp, hc]

/-! What is read after a write -/

@[simp] theorem getCtx_setCtx_self (s : State) (a : Nat) (c : Ctx) : getCtx (setCtx s a c) a = c := tget_tset_self _ _ _ _
theorem getCtx_setCtx_ne (s : State) {a b : Nat} (c : Ctx) (h : b ≠ a) : getCtx (setCtx s a c) b = getCtx s b :=
  (tget_tset_ne _ _ _ h).trans (congrArg (fun d => tget d s.ctxs b) (ctxDefault_congr (s := s) (t := setCtx s a c) rfl rfl rfl b))
@[simp] theorem getCtx_modCtx_self (s : State) (a : Nat) (f : Ctx → Ctx) : getCtx (modCtx s a f) a = f (getCtx s a) := tget_tset_self _ _ _ _
theorem getCtx_modCtx_ne (s : State) {a b : Nat} (f : Ctx → Ctx) (h : b ≠ a) : getCtx (modCtx s a f) b = getCtx s b :=
  (tget_tset_ne _ _ _ h).trans (congrArg (fun d => tget d s.ctxs b) (ctxDefault_congr (s := s) (t := modCtx s a f) rfl rfl rfl b))
@[simp] theorem getCore_setCore_self (s : State) (n : Nat) (c : Core) : getCore (setCore s n c) n = c := tget_tset_self _ _ _ _
theorem getCore_setCore_ne (s : State) {n m : Nat} (c : Core) (h : m ≠ n) : getCore (setCore s n c) m = getCore s m := tget_tset_ne _ _ _ h
@[simp] theorem getCore_modCore_self (s : State) (n : Nat) (f : Core → Core) : getCore (modCore s n f) n = f (getCore s n) := tget_tset_self _ _ _ _
theorem getCore_modCore_ne (s : State) {n m : Nat} (f : Core → Core) (h : m ≠ n) : getCore (modCore s n f) m = getCore s m := tget_tset_ne _ _ _ h
@[simp] theorem getCluster_setCluster_self (s : State) (n : Nat) (c : Cluster) : getCluster (setCluster s n c) n = c := tget_tset_self _ _ _ _
theorem getCluster_setCluster_ne (s : State) {n m : Nat} (c : Cluster) (h : m ≠ n) : getCluster (setCluster s n c) m = getCluster s m :=
  tget_tset_ne _ _ _ h
@[simp] theorem getCluster_modCluster_self (s : State) (n : Nat) (f : Cluster → Cluster) :
    getCluster (modCluster s n f) n = f (getCluster s n) := tget_tset_self _ _ _ _
theorem getCluster_modCluster_ne (s : State) {n m : Nat} (f : Cluster → Cluster) (h : m ≠ n) :
    getCluster (modCluster s n f) m = getCluster s m := tget_tset_ne _ _ _ h
@[simp] theorem getDie_setDie_self (s : State) (d : Nat) (v : Die) : getDie (setDie s d v) d = v := tget_tset_self _ _ _ _
theorem getDie_setDie_ne (s : State) {d e : Nat} (v : Die) (h : e ≠ d) : getDie (setDie s d v) e = getDie s e := tget_tset_ne _ _ _ h
@[simp] theorem getDie_modDie_self (s : State) (d : Nat) (f : Die → Die) : getDie (modDie s d f) d = f (getDie s d) := tget_tset_self _ _ _ _
theorem getDie_modDie_ne (s : State) {d e : Nat} (f : Die → Die) (h : e ≠ d) : getDie (modDie s d f) e = getDie s e := tget_tset_ne _ _ _ h
@[simp] theorem getPart_setPart_self (s : State) (p : Nat) (v : Part) : getPart (setPart s p v) p = v := tget_tset_self _ _ _ _
theorem getPart_setPart_ne (s : State) {p q : Nat} (v : Part) (h : q ≠ p) : getPart (setPart s p v) q = getPart s q := tget_tset_ne _ _ _ h
@[simp] theorem getPart_modPart_self (s : State) (p : Nat) (f : Part → Part) : getPart (modPart s p f) p = f (getPart s p) := tget_tset_self _ _ _ _
theorem getPart_modPart_ne (s : State) {p q : Nat} (f : Part → Part) (h : q ≠ p) : getPart (modPart s p f) q = getPart s q := tget_tset_ne _ _ _ h
@[simp] theorem getHub_modHub_self (s : State) (n : Nat) (f : Hub → Hub) : getHub (modHub s n f) n = f (getHub s n) := tget_tset_self _ _ _ _
theorem getHub_modHub_ne (s : State) {n m : Nat} (f : Hub → Hub) (h : m ≠ n) : getHub (modHub s n f) m = getHub s m := tget_tset_ne _ _ _ h

/-! What is read after a write elsewhere -/

@[simp] theorem getCore_setCtx (s : State) (a : Nat) (c : Ctx) (k : Nat) : getCore (setCtx s a c) k = getCore s k := rfl
@[simp] theorem getCluster_setCtx (s : State) (a : Nat) (c : Ctx) (k : Nat) : getCluster (setCtx s a c) k = getCluster s k := rfl
@[simp] theorem getDie_setCtx (s : State) (a : Nat) (c : Ctx) (k : Nat) : getDie (setCtx s a c) k = getDie s k := rfl
@[simp] theorem getPart_setCtx (s : State) (a : Nat) (c : Ctx) (k : Nat) : getPart (setCtx s a c) k = getPart s k := rfl
@[simp] theorem getHub_setCtx (s : State) (a : Nat) (c : Ctx) (k : Nat) : getHub (setCtx s a c) k = getHub s k := rfl
@[simp] theorem partOf_setCtx (s : State) (a : Nat) (c : Ctx) (k : Nat) : partOf (setCtx s a c) k = partOf s k := partOf_congr (s := s) (t := setCtx s a c) rfl k
@[simp] theorem getCore_modCtx (s : State) (a : Nat) (f : Ctx → Ctx) (k : Nat) : getCore (modCtx s a f) k = getCore s k := rfl
@[simp] theorem getCluster_modCtx (s : State) (a : Nat) (f : Ctx → Ctx) (k : Nat) : getCluster (modCtx s a f) k = getCluster s k := rfl
@[simp] theorem getDie_modCtx (s : State) (a : Nat) (f : Ctx → Ctx) (k : Nat) : getDie (modCtx s a f) k = getDie s k := rfl
@[simp] theorem getPart_modCtx (s : State) (a : Nat) (f : Ctx → Ctx) (k : Nat) : getPart (modCtx s a f) k = getPart s k := rfl
@[simp] theorem getHub_modCtx (s : State) (a : Nat) (f : Ctx → Ctx) (k : Nat) : getHub (modCtx s a f) k = getHub s k := rfl
@[simp] theorem partOf_modCtx (s : State) (a : Nat) (f : Ctx → Ctx) (k : Nat) : partOf (modCtx s a f) k = partOf s k := partOf_congr (s := s) (t := modCtx s a f) rfl k
@[simp] theorem getCtx_setCore (s : State) (n : Nat) (c : Core) (k : Nat) : getCtx (setCore s n c) k = getCtx s k := getCtx_congr (s := s) (t := setCore s n c) rfl rfl rfl rfl k
@[simp] theorem getCluster_setCore (s : State) (n : Nat) (c : Core) (k : Nat) : getCluster (setCore s n c) k = getCluster s k := rfl
@[simp] theorem getDie_setCore (s : State) (n : Nat) (c : Core) (k : Nat) : getDie (setCore s n c) k = getDie s k := rfl
@[simp] theorem getPart_setCore (s : State) (n : Nat) (c : Core) (k : Nat) : getPart (setCore s n c) k = getPart s k := rfl
@[simp] theorem getHub_setCore (s : State) (n : Nat) (c : Core) (k : Nat) : getHub (setCore s n c) k = getHub s k := rfl
@[simp] theorem partOf_setCore (s : State) (n : Nat) (c : Core) (k : Nat) : partOf (setCore s n c) k = partOf s k := partOf_congr (s := s) (t := setCore s n c) rfl k
@[simp] theorem getCtx_modCore (s : State) (n : Nat) (f : Core → Core) (k : Nat) : getCtx (modCore s n f) k = getCtx s k := getCtx_congr (s := s) (t := modCore s n f) rfl rfl rfl rfl k
@[simp] theorem getCluster_modCore (s : State) (n : Nat) (f : Core → Core) (k : Nat) : getCluster (modCore s n f) k = getCluster s k := rfl
@[simp] theorem getDie_modCore (s : State) (n : Nat) (f : Core → Core) (k : Nat) : getDie (modCore s n f) k = getDie s k := rfl
@[simp] theorem getPart_modCore (s : State) (n : Nat) (f : Core → Core) (k : Nat) : getPart (modCore s n f) k = getPart s k := rfl
@[simp] theorem getHub_modCore (s : State) (n : Nat) (f : Core → Core) (k : Nat) : getHub (modCore s n f) k = getHub s k := rfl
@[simp] theorem partOf_modCore (s : State) (n : Nat) (f : Core → Core) (k : Nat) : partOf (modCore s n f) k = partOf s k := partOf_congr (s := s) (t := modCore s n f) rfl k
@[simp] theorem getCtx_setCluster (s : State) (n : Nat) (c : Cluster) (k : Nat) : getCtx (setCluster s n c) k = getCtx s k := getCtx_congr (s := s) (t := setCluster s n c) rfl rfl rfl rfl k
@[simp] theorem getCore_setCluster (s : State) (n : Nat) (c : Cluster) (k : Nat) : getCore (setCluster s n c) k = getCore s k := rfl
@[simp] theorem getDie_setCluster (s : State) (n : Nat) (c : Cluster) (k : Nat) : getDie (setCluster s n c) k = getDie s k := rfl
@[simp] theorem getPart_setCluster (s : State) (n : Nat) (c : Cluster) (k : Nat) : getPart (setCluster s n c) k = getPart s k := rfl
@[simp] theorem getHub_setCluster (s : State) (n : Nat) (c : Cluster) (k : Nat) : getHub (setCluster s n c) k = getHub s k := rfl
@[simp] theorem partOf_setCluster (s : State) (n : Nat) (c : Cluster) (k : Nat) : partOf (setCluster s n c) k = partOf s k := partOf_congr (s := s) (t := setCluster s n c) rfl k
@[simp] theorem getCtx_modCluster (s : State) (n : Nat) (f : Cluster → Cluster) (k : Nat) : getCtx (modCluster s n f) k = getCtx s k := getCtx_congr (s := s) (t := modCluster s n f) rfl rfl rfl rfl k
@[simp] theorem getCore_modCluster (s : State) (n : Nat) (f : Cluster → Cluster) (k : Nat) : getCore (modCluster s n f) k = getCore s k := rfl
@[simp] theorem getDie_modCluster (s : State) (n : Nat) (f : Cluster → Cluster) (k : Nat) : getDie (modCluster s n f) k = getDie s k := rfl
@[simp] theorem getPart_modCluster (s : State) (n : Nat) (f : Cluster → Cluster) (k : Nat) : getPart (modCluster s n f) k = getPart s k := rfl
@[simp] theorem getHub_modCluster (s : State) (n : Nat) (f : Cluster → Cluster) (k : Nat) : getHub (modCluster s n f) k = getHub s k := rfl
@[simp] theorem partOf_modCluster (s : State) (n : Nat) (f : Cluster → Cluster) (k : Nat) : partOf (modCluster s n f) k = partOf s k := partOf_congr (s := s) (t := modCluster s n f) rfl k
@[simp] theorem getCore_setDie (s : State) (d : Nat) (v : Die) (k : Nat) : getCore (setDie s d v) k = getCore s k := rfl
@[simp] theorem getCluster_setDie (s : State) (d : Nat) (v : Die) (k : Nat) : getCluster (setDie s d v) k = getCluster s k := rfl
@[simp] theorem getPart_setDie (s : State) (d : Nat) (v : Die) (k : Nat) : getPart (setDie s d v) k = getPart s k := rfl
@[simp] theorem getHub_setDie (s : State) (d : Nat) (v : Die) (k : Nat) : getHub (setDie s d v) k = getHub s k := rfl
@[simp] theorem partOf_setDie (s : State) (d : Nat) (v : Die) (k : Nat) : partOf (setDie s d v) k = partOf s k := partOf_congr (s := s) (t := setDie s d v) rfl k
@[simp] theorem getCore_modDie (s : State) (d : Nat) (f : Die → Die) (k : Nat) : getCore (modDie s d f) k = getCore s k := rfl
@[simp] theorem getCluster_modDie (s : State) (d : Nat) (f : Die → Die) (k : Nat) : getCluster (modDie s d f) k = getCluster s k := rfl
@[simp] theorem getPart_modDie (s : State) (d : Nat) (f : Die → Die) (k : Nat) : getPart (modDie s d f) k = getPart s k := rfl
@[simp] theorem getHub_modDie (s : State) (d : Nat) (f : Die → Die) (k : Nat) : getHub (modDie s d f) k = getHub s k := rfl
@[simp] theorem partOf_modDie (s : State) (d : Nat) (f : Die → Die) (k : Nat) : partOf (modDie s d f) k = partOf s k := partOf_congr (s := s) (t := modDie s d f) rfl k
@[simp] theorem getCore_setPart (s : State) (p : Nat) (v : Part) (k : Nat) : getCore (setPart s p v) k = getCore s k := rfl
@[simp] theorem getCluster_setPart (s : State) (p : Nat) (v : Part) (k : Nat) : getCluster (setPart s p v) k = getCluster s k := rfl
@[simp] theorem getDie_setPart (s : State) (p : Nat) (v : Part) (k : Nat) : getDie (setPart s p v) k = getDie s k := rfl
@[simp] theorem getHub_setPart (s : State) (p : Nat) (v : Part) (k : Nat) : getHub (setPart s p v) k = getHub s k := rfl
@[simp] theorem partOf_setPart (s : State) (p : Nat) (v : Part) (k : Nat) : partOf (setPart s p v) k = partOf s k := partOf_congr (s := s) (t := setPart s p v) rfl k
@[simp] theorem getCore_modPart (s : State) (p : Nat) (f : Part → Part) (k : Nat) : getCore (modPart s p f) k = getCore s k := rfl
@[simp] theorem getCluster_modPart (s : State) (p : Nat) (f : Part → Part) (k : Nat) : getCluster (modPart s p f) k = getCluster s k := rfl
@[simp] theorem getDie_modPart (s : State) (p : Nat) (f : Part → Part) (k : Nat) : getDie (modPart s p f) k = getDie s k := rfl
@[simp] theorem getHub_modPart (s : State) (p : Nat) (f : Part → Part) (k : Nat) : getHub (modPart s p f) k = getHub s k := rfl
@[simp] theorem partOf_modPart (s : State) (p : Nat) (f : Part → Part) (k : Nat) : partOf (modPart s p f) k = partOf s k := partOf_congr (s := s) (t := modPart s p f) rfl k
@[simp] theorem getCtx_modHub (s : State) (h : Nat) (f : Hub → Hub) (k : Nat) : getCtx (modHub s h f) k = getCtx s k := getCtx_congr (s := s) (t := modHub s h f) rfl rfl rfl rfl k
@[simp] theorem getCore_modHub (s : State) (h : Nat) (f : Hub → Hub) (k : Nat) : getCore (modHub s h f) k = getCore s k := rfl
@[simp] theorem getCluster_modHub (s : State) (h : Nat) (f : Hub → Hub) (k : Nat) : getCluster (modHub s h f) k = getCluster s k := rfl
@[simp] theorem getDie_modHub (s : State) (h : Nat) (f : Hub → Hub) (k : Nat) : getDie (modHub s h f) k = getDie s k := rfl
@[simp] theorem getPart_modHub (s : State) (h : Nat) (f : Hub → Hub) (k : Nat) : getPart (modHub s h f) k = getPart s k := rfl
@[simp] theorem partOf_modHub (s : State) (h : Nat) (f : Hub → Hub) (k : Nat) : partOf (modHub s h f) k = partOf s k := partOf_congr (s := s) (t := modHub s h f) rfl k
@[simp] theorem getCtx_setQueue (s : State) (q : Queue) (k : Nat) : getCtx (setQueue s q) k = getCtx s k := getCtx_congr (s := s) (t := setQueue s q) rfl rfl rfl rfl k
@[simp] theorem getCore_setQueue (s : State) (q : Queue) (k : Nat) : getCore (setQueue s q) k = getCore s k := rfl
@[simp] theorem getCluster_setQueue (s : State) (q : Queue) (k : Nat) : getCluster (setQueue s q) k = getCluster s k := rfl
@[simp] theorem getDie_setQueue (s : State) (q : Queue) (k : Nat) : getDie (setQueue s q) k = getDie s k := rfl
@[simp] theorem getPart_setQueue (s : State) (q : Queue) (k : Nat) : getPart (setQueue s q) k = getPart s k := rfl
@[simp] theorem getHub_setQueue (s : State) (q : Queue) (k : Nat) : getHub (setQueue s q) k = getHub s k := rfl
@[simp] theorem partOf_setQueue (s : State) (q : Queue) (k : Nat) : partOf (setQueue s q) k = partOf s k := partOf_congr (s := s) (t := setQueue s q) rfl k

/-! Each update, field by field -/

@[simp] theorem setCtx_cur (s : State) (a : Nat) (c : Ctx) : (setCtx s a c).cur = s.cur := rfl
@[simp] theorem setCtx_turns (s : State) (a : Nat) (c : Ctx) : (setCtx s a c).turns = s.turns := rfl
@[simp] theorem setCtx_clock (s : State) (a : Nat) (c : Ctx) : (setCtx s a c).clock = s.clock := rfl
@[simp] theorem setCtx_fresh (s : State) (a : Nat) (c : Ctx) : (setCtx s a c).fresh = s.fresh := rfl
@[simp] theorem setCtx_nextId (s : State) (a : Nat) (c : Ctx) : (setCtx s a c).nextId = s.nextId := rfl
@[simp] theorem setCtx_ctxs (s : State) (a : Nat) (c : Ctx) : (setCtx s a c).ctxs = tset s.ctxs a c := rfl
@[simp] theorem setCtx_cores (s : State) (a : Nat) (c : Ctx) : (setCtx s a c).cores = s.cores := rfl
@[simp] theorem setCtx_hubs (s : State) (a : Nat) (c : Ctx) : (setCtx s a c).hubs = s.hubs := rfl
@[simp] theorem setCtx_clusters (s : State) (a : Nat) (c : Ctx) : (setCtx s a c).clusters = s.clusters := rfl
@[simp] theorem setCtx_dies (s : State) (a : Nat) (c : Ctx) : (setCtx s a c).dies = s.dies := rfl
@[simp] theorem setCtx_parts (s : State) (a : Nat) (c : Ctx) : (setCtx s a c).parts = s.parts := rfl
@[simp] theorem setCtx_ptcfg (s : State) (a : Nat) (c : Ctx) : (setCtx s a c).ptcfg = s.ptcfg := rfl
@[simp] theorem setCtx_ptcfgReg (s : State) (a : Nat) (c : Ctx) : (setCtx s a c).ptcfgReg = s.ptcfgReg := rfl
@[simp] theorem setCtx_lossgen (s : State) (a : Nat) (c : Ctx) : (setCtx s a c).lossgen = s.lossgen := rfl
@[simp] theorem setCtx_mem (s : State) (a : Nat) (c : Ctx) : (setCtx s a c).mem = s.mem := rfl
@[simp] theorem setCtx_spad (s : State) (a : Nat) (c : Ctx) : (setCtx s a c).spad = s.spad := rfl
@[simp] theorem setCtx_stale (s : State) (a : Nat) (c : Ctx) : (setCtx s a c).stale = s.stale := rfl
@[simp] theorem setCtx_queues (s : State) (a : Nat) (c : Ctx) : (setCtx s a c).queues = s.queues := rfl
@[simp] theorem setCtx_writes (s : State) (a : Nat) (c : Ctx) : (setCtx s a c).writes = s.writes := rfl
@[simp] theorem setCtx_atomics (s : State) (a : Nat) (c : Ctx) : (setCtx s a c).atomics = s.atomics := rfl
@[simp] theorem setCtx_uio (s : State) (a : Nat) (c : Ctx) : (setCtx s a c).uio = s.uio := rfl
@[simp] theorem setCtx_coneMsgs (s : State) (a : Nat) (c : Ctx) : (setCtx s a c).coneMsgs = s.coneMsgs := rfl
@[simp] theorem setCtx_coilMsgs (s : State) (a : Nat) (c : Ctx) : (setCtx s a c).coilMsgs = s.coilMsgs := rfl
@[simp] theorem setCtx_posts (s : State) (a : Nat) (c : Ctx) : (setCtx s a c).posts = s.posts := rfl
@[simp] theorem setCtx_pages (s : State) (a : Nat) (c : Ctx) : (setCtx s a c).pages = s.pages := rfl
@[simp] theorem setCtx_sweeps (s : State) (a : Nat) (c : Ctx) : (setCtx s a c).sweeps = s.sweeps := rfl
@[simp] theorem setCtx_preempts (s : State) (a : Nat) (c : Ctx) : (setCtx s a c).preempts = s.preempts := rfl
@[simp] theorem setCtx_resets (s : State) (a : Nat) (c : Ctx) : (setCtx s a c).resets = s.resets := rfl
@[simp] theorem setCtx_held (s : State) (a : Nat) (c : Ctx) : (setCtx s a c).held = s.held := rfl
@[simp] theorem setCtx_cxl (s : State) (a : Nat) (c : Ctx) : (setCtx s a c).cxl = s.cxl := rfl
@[simp] theorem setCtx_snoops (s : State) (a : Nat) (c : Ctx) : (setCtx s a c).snoops = s.snoops := rfl
@[simp] theorem setCtx_filter (s : State) (a : Nat) (c : Ctx) : (setCtx s a c).filter = s.filter := rfl
@[simp] theorem setCtx_bisnp (s : State) (a : Nat) (c : Ctx) : (setCtx s a c).bisnp = s.bisnp := rfl
@[simp] theorem setCtx_tier2 (s : State) (a : Nat) (c : Ctx) : (setCtx s a c).tier2 = s.tier2 := rfl
@[simp] theorem setCtx_hubWalk (s : State) (a : Nat) (c : Ctx) : (setCtx s a c).hubWalk = s.hubWalk := rfl
@[simp] theorem setCtx_lostLines (s : State) (a : Nat) (c : Ctx) : (setCtx s a c).lostLines = s.lostLines := rfl
@[simp] theorem setCtx_errorMsgs (s : State) (a : Nat) (c : Ctx) : (setCtx s a c).errorMsgs = s.errorMsgs := rfl
@[simp] theorem setCtx_slotUsed (s : State) (a : Nat) (c : Ctx) : (setCtx s a c).slotUsed = s.slotUsed := rfl
@[simp] theorem setCtx_hostReqs (s : State) (a : Nat) (c : Ctx) : (setCtx s a c).hostReqs = s.hostReqs := rfl
@[simp] theorem setCtx_peerReplies (s : State) (a : Nat) (c : Ctx) : (setCtx s a c).peerReplies = s.peerReplies := rfl
@[simp] theorem setCtx_backs (s : State) (a : Nat) (c : Ctx) : (setCtx s a c).backs = s.backs := rfl

@[simp] theorem modCtx_cur (s : State) (a : Nat) (f : Ctx → Ctx) : (modCtx s a f).cur = s.cur := rfl
@[simp] theorem modCtx_turns (s : State) (a : Nat) (f : Ctx → Ctx) : (modCtx s a f).turns = s.turns := rfl
@[simp] theorem modCtx_clock (s : State) (a : Nat) (f : Ctx → Ctx) : (modCtx s a f).clock = s.clock := rfl
@[simp] theorem modCtx_fresh (s : State) (a : Nat) (f : Ctx → Ctx) : (modCtx s a f).fresh = s.fresh := rfl
@[simp] theorem modCtx_nextId (s : State) (a : Nat) (f : Ctx → Ctx) : (modCtx s a f).nextId = s.nextId := rfl
@[simp] theorem modCtx_ctxs (s : State) (a : Nat) (f : Ctx → Ctx) : (modCtx s a f).ctxs = tset s.ctxs a (f (getCtx s a)) := rfl
@[simp] theorem modCtx_cores (s : State) (a : Nat) (f : Ctx → Ctx) : (modCtx s a f).cores = s.cores := rfl
@[simp] theorem modCtx_hubs (s : State) (a : Nat) (f : Ctx → Ctx) : (modCtx s a f).hubs = s.hubs := rfl
@[simp] theorem modCtx_clusters (s : State) (a : Nat) (f : Ctx → Ctx) : (modCtx s a f).clusters = s.clusters := rfl
@[simp] theorem modCtx_dies (s : State) (a : Nat) (f : Ctx → Ctx) : (modCtx s a f).dies = s.dies := rfl
@[simp] theorem modCtx_parts (s : State) (a : Nat) (f : Ctx → Ctx) : (modCtx s a f).parts = s.parts := rfl
@[simp] theorem modCtx_ptcfg (s : State) (a : Nat) (f : Ctx → Ctx) : (modCtx s a f).ptcfg = s.ptcfg := rfl
@[simp] theorem modCtx_ptcfgReg (s : State) (a : Nat) (f : Ctx → Ctx) : (modCtx s a f).ptcfgReg = s.ptcfgReg := rfl
@[simp] theorem modCtx_lossgen (s : State) (a : Nat) (f : Ctx → Ctx) : (modCtx s a f).lossgen = s.lossgen := rfl
@[simp] theorem modCtx_mem (s : State) (a : Nat) (f : Ctx → Ctx) : (modCtx s a f).mem = s.mem := rfl
@[simp] theorem modCtx_spad (s : State) (a : Nat) (f : Ctx → Ctx) : (modCtx s a f).spad = s.spad := rfl
@[simp] theorem modCtx_stale (s : State) (a : Nat) (f : Ctx → Ctx) : (modCtx s a f).stale = s.stale := rfl
@[simp] theorem modCtx_queues (s : State) (a : Nat) (f : Ctx → Ctx) : (modCtx s a f).queues = s.queues := rfl
@[simp] theorem modCtx_writes (s : State) (a : Nat) (f : Ctx → Ctx) : (modCtx s a f).writes = s.writes := rfl
@[simp] theorem modCtx_atomics (s : State) (a : Nat) (f : Ctx → Ctx) : (modCtx s a f).atomics = s.atomics := rfl
@[simp] theorem modCtx_uio (s : State) (a : Nat) (f : Ctx → Ctx) : (modCtx s a f).uio = s.uio := rfl
@[simp] theorem modCtx_coneMsgs (s : State) (a : Nat) (f : Ctx → Ctx) : (modCtx s a f).coneMsgs = s.coneMsgs := rfl
@[simp] theorem modCtx_coilMsgs (s : State) (a : Nat) (f : Ctx → Ctx) : (modCtx s a f).coilMsgs = s.coilMsgs := rfl
@[simp] theorem modCtx_posts (s : State) (a : Nat) (f : Ctx → Ctx) : (modCtx s a f).posts = s.posts := rfl
@[simp] theorem modCtx_pages (s : State) (a : Nat) (f : Ctx → Ctx) : (modCtx s a f).pages = s.pages := rfl
@[simp] theorem modCtx_sweeps (s : State) (a : Nat) (f : Ctx → Ctx) : (modCtx s a f).sweeps = s.sweeps := rfl
@[simp] theorem modCtx_preempts (s : State) (a : Nat) (f : Ctx → Ctx) : (modCtx s a f).preempts = s.preempts := rfl
@[simp] theorem modCtx_resets (s : State) (a : Nat) (f : Ctx → Ctx) : (modCtx s a f).resets = s.resets := rfl
@[simp] theorem modCtx_held (s : State) (a : Nat) (f : Ctx → Ctx) : (modCtx s a f).held = s.held := rfl
@[simp] theorem modCtx_cxl (s : State) (a : Nat) (f : Ctx → Ctx) : (modCtx s a f).cxl = s.cxl := rfl
@[simp] theorem modCtx_snoops (s : State) (a : Nat) (f : Ctx → Ctx) : (modCtx s a f).snoops = s.snoops := rfl
@[simp] theorem modCtx_filter (s : State) (a : Nat) (f : Ctx → Ctx) : (modCtx s a f).filter = s.filter := rfl
@[simp] theorem modCtx_bisnp (s : State) (a : Nat) (f : Ctx → Ctx) : (modCtx s a f).bisnp = s.bisnp := rfl
@[simp] theorem modCtx_tier2 (s : State) (a : Nat) (f : Ctx → Ctx) : (modCtx s a f).tier2 = s.tier2 := rfl
@[simp] theorem modCtx_hubWalk (s : State) (a : Nat) (f : Ctx → Ctx) : (modCtx s a f).hubWalk = s.hubWalk := rfl
@[simp] theorem modCtx_lostLines (s : State) (a : Nat) (f : Ctx → Ctx) : (modCtx s a f).lostLines = s.lostLines := rfl
@[simp] theorem modCtx_errorMsgs (s : State) (a : Nat) (f : Ctx → Ctx) : (modCtx s a f).errorMsgs = s.errorMsgs := rfl
@[simp] theorem modCtx_slotUsed (s : State) (a : Nat) (f : Ctx → Ctx) : (modCtx s a f).slotUsed = s.slotUsed := rfl
@[simp] theorem modCtx_hostReqs (s : State) (a : Nat) (f : Ctx → Ctx) : (modCtx s a f).hostReqs = s.hostReqs := rfl
@[simp] theorem modCtx_peerReplies (s : State) (a : Nat) (f : Ctx → Ctx) : (modCtx s a f).peerReplies = s.peerReplies := rfl
@[simp] theorem modCtx_backs (s : State) (a : Nat) (f : Ctx → Ctx) : (modCtx s a f).backs = s.backs := rfl

@[simp] theorem setCore_cur (s : State) (n : Nat) (c : Core) : (setCore s n c).cur = s.cur := rfl
@[simp] theorem setCore_turns (s : State) (n : Nat) (c : Core) : (setCore s n c).turns = s.turns := rfl
@[simp] theorem setCore_clock (s : State) (n : Nat) (c : Core) : (setCore s n c).clock = s.clock := rfl
@[simp] theorem setCore_fresh (s : State) (n : Nat) (c : Core) : (setCore s n c).fresh = s.fresh := rfl
@[simp] theorem setCore_nextId (s : State) (n : Nat) (c : Core) : (setCore s n c).nextId = s.nextId := rfl
@[simp] theorem setCore_ctxs (s : State) (n : Nat) (c : Core) : (setCore s n c).ctxs = s.ctxs := rfl
@[simp] theorem setCore_cores (s : State) (n : Nat) (c : Core) : (setCore s n c).cores = tset s.cores n c := rfl
@[simp] theorem setCore_hubs (s : State) (n : Nat) (c : Core) : (setCore s n c).hubs = s.hubs := rfl
@[simp] theorem setCore_clusters (s : State) (n : Nat) (c : Core) : (setCore s n c).clusters = s.clusters := rfl
@[simp] theorem setCore_dies (s : State) (n : Nat) (c : Core) : (setCore s n c).dies = s.dies := rfl
@[simp] theorem setCore_parts (s : State) (n : Nat) (c : Core) : (setCore s n c).parts = s.parts := rfl
@[simp] theorem setCore_ptcfg (s : State) (n : Nat) (c : Core) : (setCore s n c).ptcfg = s.ptcfg := rfl
@[simp] theorem setCore_ptcfgReg (s : State) (n : Nat) (c : Core) : (setCore s n c).ptcfgReg = s.ptcfgReg := rfl
@[simp] theorem setCore_lossgen (s : State) (n : Nat) (c : Core) : (setCore s n c).lossgen = s.lossgen := rfl
@[simp] theorem setCore_mem (s : State) (n : Nat) (c : Core) : (setCore s n c).mem = s.mem := rfl
@[simp] theorem setCore_spad (s : State) (n : Nat) (c : Core) : (setCore s n c).spad = s.spad := rfl
@[simp] theorem setCore_stale (s : State) (n : Nat) (c : Core) : (setCore s n c).stale = s.stale := rfl
@[simp] theorem setCore_queues (s : State) (n : Nat) (c : Core) : (setCore s n c).queues = s.queues := rfl
@[simp] theorem setCore_writes (s : State) (n : Nat) (c : Core) : (setCore s n c).writes = s.writes := rfl
@[simp] theorem setCore_atomics (s : State) (n : Nat) (c : Core) : (setCore s n c).atomics = s.atomics := rfl
@[simp] theorem setCore_uio (s : State) (n : Nat) (c : Core) : (setCore s n c).uio = s.uio := rfl
@[simp] theorem setCore_coneMsgs (s : State) (n : Nat) (c : Core) : (setCore s n c).coneMsgs = s.coneMsgs := rfl
@[simp] theorem setCore_coilMsgs (s : State) (n : Nat) (c : Core) : (setCore s n c).coilMsgs = s.coilMsgs := rfl
@[simp] theorem setCore_posts (s : State) (n : Nat) (c : Core) : (setCore s n c).posts = s.posts := rfl
@[simp] theorem setCore_pages (s : State) (n : Nat) (c : Core) : (setCore s n c).pages = s.pages := rfl
@[simp] theorem setCore_sweeps (s : State) (n : Nat) (c : Core) : (setCore s n c).sweeps = s.sweeps := rfl
@[simp] theorem setCore_preempts (s : State) (n : Nat) (c : Core) : (setCore s n c).preempts = s.preempts := rfl
@[simp] theorem setCore_resets (s : State) (n : Nat) (c : Core) : (setCore s n c).resets = s.resets := rfl
@[simp] theorem setCore_held (s : State) (n : Nat) (c : Core) : (setCore s n c).held = s.held := rfl
@[simp] theorem setCore_cxl (s : State) (n : Nat) (c : Core) : (setCore s n c).cxl = s.cxl := rfl
@[simp] theorem setCore_snoops (s : State) (n : Nat) (c : Core) : (setCore s n c).snoops = s.snoops := rfl
@[simp] theorem setCore_filter (s : State) (n : Nat) (c : Core) : (setCore s n c).filter = s.filter := rfl
@[simp] theorem setCore_bisnp (s : State) (n : Nat) (c : Core) : (setCore s n c).bisnp = s.bisnp := rfl
@[simp] theorem setCore_tier2 (s : State) (n : Nat) (c : Core) : (setCore s n c).tier2 = s.tier2 := rfl
@[simp] theorem setCore_hubWalk (s : State) (n : Nat) (c : Core) : (setCore s n c).hubWalk = s.hubWalk := rfl
@[simp] theorem setCore_lostLines (s : State) (n : Nat) (c : Core) : (setCore s n c).lostLines = s.lostLines := rfl
@[simp] theorem setCore_errorMsgs (s : State) (n : Nat) (c : Core) : (setCore s n c).errorMsgs = s.errorMsgs := rfl
@[simp] theorem setCore_slotUsed (s : State) (n : Nat) (c : Core) : (setCore s n c).slotUsed = s.slotUsed := rfl
@[simp] theorem setCore_hostReqs (s : State) (n : Nat) (c : Core) : (setCore s n c).hostReqs = s.hostReqs := rfl
@[simp] theorem setCore_peerReplies (s : State) (n : Nat) (c : Core) : (setCore s n c).peerReplies = s.peerReplies := rfl
@[simp] theorem setCore_backs (s : State) (n : Nat) (c : Core) : (setCore s n c).backs = s.backs := rfl

@[simp] theorem modCore_cur (s : State) (n : Nat) (f : Core → Core) : (modCore s n f).cur = s.cur := rfl
@[simp] theorem modCore_turns (s : State) (n : Nat) (f : Core → Core) : (modCore s n f).turns = s.turns := rfl
@[simp] theorem modCore_clock (s : State) (n : Nat) (f : Core → Core) : (modCore s n f).clock = s.clock := rfl
@[simp] theorem modCore_fresh (s : State) (n : Nat) (f : Core → Core) : (modCore s n f).fresh = s.fresh := rfl
@[simp] theorem modCore_nextId (s : State) (n : Nat) (f : Core → Core) : (modCore s n f).nextId = s.nextId := rfl
@[simp] theorem modCore_ctxs (s : State) (n : Nat) (f : Core → Core) : (modCore s n f).ctxs = s.ctxs := rfl
@[simp] theorem modCore_cores (s : State) (n : Nat) (f : Core → Core) : (modCore s n f).cores = tset s.cores n (f (getCore s n)) := rfl
@[simp] theorem modCore_hubs (s : State) (n : Nat) (f : Core → Core) : (modCore s n f).hubs = s.hubs := rfl
@[simp] theorem modCore_clusters (s : State) (n : Nat) (f : Core → Core) : (modCore s n f).clusters = s.clusters := rfl
@[simp] theorem modCore_dies (s : State) (n : Nat) (f : Core → Core) : (modCore s n f).dies = s.dies := rfl
@[simp] theorem modCore_parts (s : State) (n : Nat) (f : Core → Core) : (modCore s n f).parts = s.parts := rfl
@[simp] theorem modCore_ptcfg (s : State) (n : Nat) (f : Core → Core) : (modCore s n f).ptcfg = s.ptcfg := rfl
@[simp] theorem modCore_ptcfgReg (s : State) (n : Nat) (f : Core → Core) : (modCore s n f).ptcfgReg = s.ptcfgReg := rfl
@[simp] theorem modCore_lossgen (s : State) (n : Nat) (f : Core → Core) : (modCore s n f).lossgen = s.lossgen := rfl
@[simp] theorem modCore_mem (s : State) (n : Nat) (f : Core → Core) : (modCore s n f).mem = s.mem := rfl
@[simp] theorem modCore_spad (s : State) (n : Nat) (f : Core → Core) : (modCore s n f).spad = s.spad := rfl
@[simp] theorem modCore_stale (s : State) (n : Nat) (f : Core → Core) : (modCore s n f).stale = s.stale := rfl
@[simp] theorem modCore_queues (s : State) (n : Nat) (f : Core → Core) : (modCore s n f).queues = s.queues := rfl
@[simp] theorem modCore_writes (s : State) (n : Nat) (f : Core → Core) : (modCore s n f).writes = s.writes := rfl
@[simp] theorem modCore_atomics (s : State) (n : Nat) (f : Core → Core) : (modCore s n f).atomics = s.atomics := rfl
@[simp] theorem modCore_uio (s : State) (n : Nat) (f : Core → Core) : (modCore s n f).uio = s.uio := rfl
@[simp] theorem modCore_coneMsgs (s : State) (n : Nat) (f : Core → Core) : (modCore s n f).coneMsgs = s.coneMsgs := rfl
@[simp] theorem modCore_coilMsgs (s : State) (n : Nat) (f : Core → Core) : (modCore s n f).coilMsgs = s.coilMsgs := rfl
@[simp] theorem modCore_posts (s : State) (n : Nat) (f : Core → Core) : (modCore s n f).posts = s.posts := rfl
@[simp] theorem modCore_pages (s : State) (n : Nat) (f : Core → Core) : (modCore s n f).pages = s.pages := rfl
@[simp] theorem modCore_sweeps (s : State) (n : Nat) (f : Core → Core) : (modCore s n f).sweeps = s.sweeps := rfl
@[simp] theorem modCore_preempts (s : State) (n : Nat) (f : Core → Core) : (modCore s n f).preempts = s.preempts := rfl
@[simp] theorem modCore_resets (s : State) (n : Nat) (f : Core → Core) : (modCore s n f).resets = s.resets := rfl
@[simp] theorem modCore_held (s : State) (n : Nat) (f : Core → Core) : (modCore s n f).held = s.held := rfl
@[simp] theorem modCore_cxl (s : State) (n : Nat) (f : Core → Core) : (modCore s n f).cxl = s.cxl := rfl
@[simp] theorem modCore_snoops (s : State) (n : Nat) (f : Core → Core) : (modCore s n f).snoops = s.snoops := rfl
@[simp] theorem modCore_filter (s : State) (n : Nat) (f : Core → Core) : (modCore s n f).filter = s.filter := rfl
@[simp] theorem modCore_bisnp (s : State) (n : Nat) (f : Core → Core) : (modCore s n f).bisnp = s.bisnp := rfl
@[simp] theorem modCore_tier2 (s : State) (n : Nat) (f : Core → Core) : (modCore s n f).tier2 = s.tier2 := rfl
@[simp] theorem modCore_hubWalk (s : State) (n : Nat) (f : Core → Core) : (modCore s n f).hubWalk = s.hubWalk := rfl
@[simp] theorem modCore_lostLines (s : State) (n : Nat) (f : Core → Core) : (modCore s n f).lostLines = s.lostLines := rfl
@[simp] theorem modCore_errorMsgs (s : State) (n : Nat) (f : Core → Core) : (modCore s n f).errorMsgs = s.errorMsgs := rfl
@[simp] theorem modCore_slotUsed (s : State) (n : Nat) (f : Core → Core) : (modCore s n f).slotUsed = s.slotUsed := rfl
@[simp] theorem modCore_hostReqs (s : State) (n : Nat) (f : Core → Core) : (modCore s n f).hostReqs = s.hostReqs := rfl
@[simp] theorem modCore_peerReplies (s : State) (n : Nat) (f : Core → Core) : (modCore s n f).peerReplies = s.peerReplies := rfl
@[simp] theorem modCore_backs (s : State) (n : Nat) (f : Core → Core) : (modCore s n f).backs = s.backs := rfl

@[simp] theorem setCluster_cur (s : State) (n : Nat) (c : Cluster) : (setCluster s n c).cur = s.cur := rfl
@[simp] theorem setCluster_turns (s : State) (n : Nat) (c : Cluster) : (setCluster s n c).turns = s.turns := rfl
@[simp] theorem setCluster_clock (s : State) (n : Nat) (c : Cluster) : (setCluster s n c).clock = s.clock := rfl
@[simp] theorem setCluster_fresh (s : State) (n : Nat) (c : Cluster) : (setCluster s n c).fresh = s.fresh := rfl
@[simp] theorem setCluster_nextId (s : State) (n : Nat) (c : Cluster) : (setCluster s n c).nextId = s.nextId := rfl
@[simp] theorem setCluster_ctxs (s : State) (n : Nat) (c : Cluster) : (setCluster s n c).ctxs = s.ctxs := rfl
@[simp] theorem setCluster_cores (s : State) (n : Nat) (c : Cluster) : (setCluster s n c).cores = s.cores := rfl
@[simp] theorem setCluster_hubs (s : State) (n : Nat) (c : Cluster) : (setCluster s n c).hubs = s.hubs := rfl
@[simp] theorem setCluster_clusters (s : State) (n : Nat) (c : Cluster) : (setCluster s n c).clusters = tset s.clusters n c := rfl
@[simp] theorem setCluster_dies (s : State) (n : Nat) (c : Cluster) : (setCluster s n c).dies = s.dies := rfl
@[simp] theorem setCluster_parts (s : State) (n : Nat) (c : Cluster) : (setCluster s n c).parts = s.parts := rfl
@[simp] theorem setCluster_ptcfg (s : State) (n : Nat) (c : Cluster) : (setCluster s n c).ptcfg = s.ptcfg := rfl
@[simp] theorem setCluster_ptcfgReg (s : State) (n : Nat) (c : Cluster) : (setCluster s n c).ptcfgReg = s.ptcfgReg := rfl
@[simp] theorem setCluster_lossgen (s : State) (n : Nat) (c : Cluster) : (setCluster s n c).lossgen = s.lossgen := rfl
@[simp] theorem setCluster_mem (s : State) (n : Nat) (c : Cluster) : (setCluster s n c).mem = s.mem := rfl
@[simp] theorem setCluster_spad (s : State) (n : Nat) (c : Cluster) : (setCluster s n c).spad = s.spad := rfl
@[simp] theorem setCluster_stale (s : State) (n : Nat) (c : Cluster) : (setCluster s n c).stale = s.stale := rfl
@[simp] theorem setCluster_queues (s : State) (n : Nat) (c : Cluster) : (setCluster s n c).queues = s.queues := rfl
@[simp] theorem setCluster_writes (s : State) (n : Nat) (c : Cluster) : (setCluster s n c).writes = s.writes := rfl
@[simp] theorem setCluster_atomics (s : State) (n : Nat) (c : Cluster) : (setCluster s n c).atomics = s.atomics := rfl
@[simp] theorem setCluster_uio (s : State) (n : Nat) (c : Cluster) : (setCluster s n c).uio = s.uio := rfl
@[simp] theorem setCluster_coneMsgs (s : State) (n : Nat) (c : Cluster) : (setCluster s n c).coneMsgs = s.coneMsgs := rfl
@[simp] theorem setCluster_coilMsgs (s : State) (n : Nat) (c : Cluster) : (setCluster s n c).coilMsgs = s.coilMsgs := rfl
@[simp] theorem setCluster_posts (s : State) (n : Nat) (c : Cluster) : (setCluster s n c).posts = s.posts := rfl
@[simp] theorem setCluster_pages (s : State) (n : Nat) (c : Cluster) : (setCluster s n c).pages = s.pages := rfl
@[simp] theorem setCluster_sweeps (s : State) (n : Nat) (c : Cluster) : (setCluster s n c).sweeps = s.sweeps := rfl
@[simp] theorem setCluster_preempts (s : State) (n : Nat) (c : Cluster) : (setCluster s n c).preempts = s.preempts := rfl
@[simp] theorem setCluster_resets (s : State) (n : Nat) (c : Cluster) : (setCluster s n c).resets = s.resets := rfl
@[simp] theorem setCluster_held (s : State) (n : Nat) (c : Cluster) : (setCluster s n c).held = s.held := rfl
@[simp] theorem setCluster_cxl (s : State) (n : Nat) (c : Cluster) : (setCluster s n c).cxl = s.cxl := rfl
@[simp] theorem setCluster_snoops (s : State) (n : Nat) (c : Cluster) : (setCluster s n c).snoops = s.snoops := rfl
@[simp] theorem setCluster_filter (s : State) (n : Nat) (c : Cluster) : (setCluster s n c).filter = s.filter := rfl
@[simp] theorem setCluster_bisnp (s : State) (n : Nat) (c : Cluster) : (setCluster s n c).bisnp = s.bisnp := rfl
@[simp] theorem setCluster_tier2 (s : State) (n : Nat) (c : Cluster) : (setCluster s n c).tier2 = s.tier2 := rfl
@[simp] theorem setCluster_hubWalk (s : State) (n : Nat) (c : Cluster) : (setCluster s n c).hubWalk = s.hubWalk := rfl
@[simp] theorem setCluster_lostLines (s : State) (n : Nat) (c : Cluster) : (setCluster s n c).lostLines = s.lostLines := rfl
@[simp] theorem setCluster_errorMsgs (s : State) (n : Nat) (c : Cluster) : (setCluster s n c).errorMsgs = s.errorMsgs := rfl
@[simp] theorem setCluster_slotUsed (s : State) (n : Nat) (c : Cluster) : (setCluster s n c).slotUsed = s.slotUsed := rfl
@[simp] theorem setCluster_hostReqs (s : State) (n : Nat) (c : Cluster) : (setCluster s n c).hostReqs = s.hostReqs := rfl
@[simp] theorem setCluster_peerReplies (s : State) (n : Nat) (c : Cluster) : (setCluster s n c).peerReplies = s.peerReplies := rfl
@[simp] theorem setCluster_backs (s : State) (n : Nat) (c : Cluster) : (setCluster s n c).backs = s.backs := rfl

@[simp] theorem modCluster_cur (s : State) (n : Nat) (f : Cluster → Cluster) : (modCluster s n f).cur = s.cur := rfl
@[simp] theorem modCluster_turns (s : State) (n : Nat) (f : Cluster → Cluster) : (modCluster s n f).turns = s.turns := rfl
@[simp] theorem modCluster_clock (s : State) (n : Nat) (f : Cluster → Cluster) : (modCluster s n f).clock = s.clock := rfl
@[simp] theorem modCluster_fresh (s : State) (n : Nat) (f : Cluster → Cluster) : (modCluster s n f).fresh = s.fresh := rfl
@[simp] theorem modCluster_nextId (s : State) (n : Nat) (f : Cluster → Cluster) : (modCluster s n f).nextId = s.nextId := rfl
@[simp] theorem modCluster_ctxs (s : State) (n : Nat) (f : Cluster → Cluster) : (modCluster s n f).ctxs = s.ctxs := rfl
@[simp] theorem modCluster_cores (s : State) (n : Nat) (f : Cluster → Cluster) : (modCluster s n f).cores = s.cores := rfl
@[simp] theorem modCluster_hubs (s : State) (n : Nat) (f : Cluster → Cluster) : (modCluster s n f).hubs = s.hubs := rfl
@[simp] theorem modCluster_clusters (s : State) (n : Nat) (f : Cluster → Cluster) : (modCluster s n f).clusters = tset s.clusters n (f (getCluster s n)) := rfl
@[simp] theorem modCluster_dies (s : State) (n : Nat) (f : Cluster → Cluster) : (modCluster s n f).dies = s.dies := rfl
@[simp] theorem modCluster_parts (s : State) (n : Nat) (f : Cluster → Cluster) : (modCluster s n f).parts = s.parts := rfl
@[simp] theorem modCluster_ptcfg (s : State) (n : Nat) (f : Cluster → Cluster) : (modCluster s n f).ptcfg = s.ptcfg := rfl
@[simp] theorem modCluster_ptcfgReg (s : State) (n : Nat) (f : Cluster → Cluster) : (modCluster s n f).ptcfgReg = s.ptcfgReg := rfl
@[simp] theorem modCluster_lossgen (s : State) (n : Nat) (f : Cluster → Cluster) : (modCluster s n f).lossgen = s.lossgen := rfl
@[simp] theorem modCluster_mem (s : State) (n : Nat) (f : Cluster → Cluster) : (modCluster s n f).mem = s.mem := rfl
@[simp] theorem modCluster_spad (s : State) (n : Nat) (f : Cluster → Cluster) : (modCluster s n f).spad = s.spad := rfl
@[simp] theorem modCluster_stale (s : State) (n : Nat) (f : Cluster → Cluster) : (modCluster s n f).stale = s.stale := rfl
@[simp] theorem modCluster_queues (s : State) (n : Nat) (f : Cluster → Cluster) : (modCluster s n f).queues = s.queues := rfl
@[simp] theorem modCluster_writes (s : State) (n : Nat) (f : Cluster → Cluster) : (modCluster s n f).writes = s.writes := rfl
@[simp] theorem modCluster_atomics (s : State) (n : Nat) (f : Cluster → Cluster) : (modCluster s n f).atomics = s.atomics := rfl
@[simp] theorem modCluster_uio (s : State) (n : Nat) (f : Cluster → Cluster) : (modCluster s n f).uio = s.uio := rfl
@[simp] theorem modCluster_coneMsgs (s : State) (n : Nat) (f : Cluster → Cluster) : (modCluster s n f).coneMsgs = s.coneMsgs := rfl
@[simp] theorem modCluster_coilMsgs (s : State) (n : Nat) (f : Cluster → Cluster) : (modCluster s n f).coilMsgs = s.coilMsgs := rfl
@[simp] theorem modCluster_posts (s : State) (n : Nat) (f : Cluster → Cluster) : (modCluster s n f).posts = s.posts := rfl
@[simp] theorem modCluster_pages (s : State) (n : Nat) (f : Cluster → Cluster) : (modCluster s n f).pages = s.pages := rfl
@[simp] theorem modCluster_sweeps (s : State) (n : Nat) (f : Cluster → Cluster) : (modCluster s n f).sweeps = s.sweeps := rfl
@[simp] theorem modCluster_preempts (s : State) (n : Nat) (f : Cluster → Cluster) : (modCluster s n f).preempts = s.preempts := rfl
@[simp] theorem modCluster_resets (s : State) (n : Nat) (f : Cluster → Cluster) : (modCluster s n f).resets = s.resets := rfl
@[simp] theorem modCluster_held (s : State) (n : Nat) (f : Cluster → Cluster) : (modCluster s n f).held = s.held := rfl
@[simp] theorem modCluster_cxl (s : State) (n : Nat) (f : Cluster → Cluster) : (modCluster s n f).cxl = s.cxl := rfl
@[simp] theorem modCluster_snoops (s : State) (n : Nat) (f : Cluster → Cluster) : (modCluster s n f).snoops = s.snoops := rfl
@[simp] theorem modCluster_filter (s : State) (n : Nat) (f : Cluster → Cluster) : (modCluster s n f).filter = s.filter := rfl
@[simp] theorem modCluster_bisnp (s : State) (n : Nat) (f : Cluster → Cluster) : (modCluster s n f).bisnp = s.bisnp := rfl
@[simp] theorem modCluster_tier2 (s : State) (n : Nat) (f : Cluster → Cluster) : (modCluster s n f).tier2 = s.tier2 := rfl
@[simp] theorem modCluster_hubWalk (s : State) (n : Nat) (f : Cluster → Cluster) : (modCluster s n f).hubWalk = s.hubWalk := rfl
@[simp] theorem modCluster_lostLines (s : State) (n : Nat) (f : Cluster → Cluster) : (modCluster s n f).lostLines = s.lostLines := rfl
@[simp] theorem modCluster_errorMsgs (s : State) (n : Nat) (f : Cluster → Cluster) : (modCluster s n f).errorMsgs = s.errorMsgs := rfl
@[simp] theorem modCluster_slotUsed (s : State) (n : Nat) (f : Cluster → Cluster) : (modCluster s n f).slotUsed = s.slotUsed := rfl
@[simp] theorem modCluster_hostReqs (s : State) (n : Nat) (f : Cluster → Cluster) : (modCluster s n f).hostReqs = s.hostReqs := rfl
@[simp] theorem modCluster_peerReplies (s : State) (n : Nat) (f : Cluster → Cluster) : (modCluster s n f).peerReplies = s.peerReplies := rfl
@[simp] theorem modCluster_backs (s : State) (n : Nat) (f : Cluster → Cluster) : (modCluster s n f).backs = s.backs := rfl

@[simp] theorem setDie_cur (s : State) (d : Nat) (v : Die) : (setDie s d v).cur = s.cur := rfl
@[simp] theorem setDie_turns (s : State) (d : Nat) (v : Die) : (setDie s d v).turns = s.turns := rfl
@[simp] theorem setDie_clock (s : State) (d : Nat) (v : Die) : (setDie s d v).clock = s.clock := rfl
@[simp] theorem setDie_fresh (s : State) (d : Nat) (v : Die) : (setDie s d v).fresh = s.fresh := rfl
@[simp] theorem setDie_nextId (s : State) (d : Nat) (v : Die) : (setDie s d v).nextId = s.nextId := rfl
@[simp] theorem setDie_ctxs (s : State) (d : Nat) (v : Die) : (setDie s d v).ctxs = s.ctxs := rfl
@[simp] theorem setDie_cores (s : State) (d : Nat) (v : Die) : (setDie s d v).cores = s.cores := rfl
@[simp] theorem setDie_hubs (s : State) (d : Nat) (v : Die) : (setDie s d v).hubs = s.hubs := rfl
@[simp] theorem setDie_clusters (s : State) (d : Nat) (v : Die) : (setDie s d v).clusters = s.clusters := rfl
@[simp] theorem setDie_dies (s : State) (d : Nat) (v : Die) : (setDie s d v).dies = tset s.dies d v := rfl
@[simp] theorem setDie_parts (s : State) (d : Nat) (v : Die) : (setDie s d v).parts = s.parts := rfl
@[simp] theorem setDie_ptcfg (s : State) (d : Nat) (v : Die) : (setDie s d v).ptcfg = s.ptcfg := rfl
@[simp] theorem setDie_ptcfgReg (s : State) (d : Nat) (v : Die) : (setDie s d v).ptcfgReg = s.ptcfgReg := rfl
@[simp] theorem setDie_lossgen (s : State) (d : Nat) (v : Die) : (setDie s d v).lossgen = s.lossgen := rfl
@[simp] theorem setDie_mem (s : State) (d : Nat) (v : Die) : (setDie s d v).mem = s.mem := rfl
@[simp] theorem setDie_spad (s : State) (d : Nat) (v : Die) : (setDie s d v).spad = s.spad := rfl
@[simp] theorem setDie_stale (s : State) (d : Nat) (v : Die) : (setDie s d v).stale = s.stale := rfl
@[simp] theorem setDie_queues (s : State) (d : Nat) (v : Die) : (setDie s d v).queues = s.queues := rfl
@[simp] theorem setDie_writes (s : State) (d : Nat) (v : Die) : (setDie s d v).writes = s.writes := rfl
@[simp] theorem setDie_atomics (s : State) (d : Nat) (v : Die) : (setDie s d v).atomics = s.atomics := rfl
@[simp] theorem setDie_uio (s : State) (d : Nat) (v : Die) : (setDie s d v).uio = s.uio := rfl
@[simp] theorem setDie_coneMsgs (s : State) (d : Nat) (v : Die) : (setDie s d v).coneMsgs = s.coneMsgs := rfl
@[simp] theorem setDie_coilMsgs (s : State) (d : Nat) (v : Die) : (setDie s d v).coilMsgs = s.coilMsgs := rfl
@[simp] theorem setDie_posts (s : State) (d : Nat) (v : Die) : (setDie s d v).posts = s.posts := rfl
@[simp] theorem setDie_pages (s : State) (d : Nat) (v : Die) : (setDie s d v).pages = s.pages := rfl
@[simp] theorem setDie_sweeps (s : State) (d : Nat) (v : Die) : (setDie s d v).sweeps = s.sweeps := rfl
@[simp] theorem setDie_preempts (s : State) (d : Nat) (v : Die) : (setDie s d v).preempts = s.preempts := rfl
@[simp] theorem setDie_resets (s : State) (d : Nat) (v : Die) : (setDie s d v).resets = s.resets := rfl
@[simp] theorem setDie_held (s : State) (d : Nat) (v : Die) : (setDie s d v).held = s.held := rfl
@[simp] theorem setDie_cxl (s : State) (d : Nat) (v : Die) : (setDie s d v).cxl = s.cxl := rfl
@[simp] theorem setDie_snoops (s : State) (d : Nat) (v : Die) : (setDie s d v).snoops = s.snoops := rfl
@[simp] theorem setDie_filter (s : State) (d : Nat) (v : Die) : (setDie s d v).filter = s.filter := rfl
@[simp] theorem setDie_bisnp (s : State) (d : Nat) (v : Die) : (setDie s d v).bisnp = s.bisnp := rfl
@[simp] theorem setDie_tier2 (s : State) (d : Nat) (v : Die) : (setDie s d v).tier2 = s.tier2 := rfl
@[simp] theorem setDie_hubWalk (s : State) (d : Nat) (v : Die) : (setDie s d v).hubWalk = s.hubWalk := rfl
@[simp] theorem setDie_lostLines (s : State) (d : Nat) (v : Die) : (setDie s d v).lostLines = s.lostLines := rfl
@[simp] theorem setDie_errorMsgs (s : State) (d : Nat) (v : Die) : (setDie s d v).errorMsgs = s.errorMsgs := rfl
@[simp] theorem setDie_slotUsed (s : State) (d : Nat) (v : Die) : (setDie s d v).slotUsed = s.slotUsed := rfl
@[simp] theorem setDie_hostReqs (s : State) (d : Nat) (v : Die) : (setDie s d v).hostReqs = s.hostReqs := rfl
@[simp] theorem setDie_peerReplies (s : State) (d : Nat) (v : Die) : (setDie s d v).peerReplies = s.peerReplies := rfl
@[simp] theorem setDie_backs (s : State) (d : Nat) (v : Die) : (setDie s d v).backs = s.backs := rfl

@[simp] theorem modDie_cur (s : State) (d : Nat) (f : Die → Die) : (modDie s d f).cur = s.cur := rfl
@[simp] theorem modDie_turns (s : State) (d : Nat) (f : Die → Die) : (modDie s d f).turns = s.turns := rfl
@[simp] theorem modDie_clock (s : State) (d : Nat) (f : Die → Die) : (modDie s d f).clock = s.clock := rfl
@[simp] theorem modDie_fresh (s : State) (d : Nat) (f : Die → Die) : (modDie s d f).fresh = s.fresh := rfl
@[simp] theorem modDie_nextId (s : State) (d : Nat) (f : Die → Die) : (modDie s d f).nextId = s.nextId := rfl
@[simp] theorem modDie_ctxs (s : State) (d : Nat) (f : Die → Die) : (modDie s d f).ctxs = s.ctxs := rfl
@[simp] theorem modDie_cores (s : State) (d : Nat) (f : Die → Die) : (modDie s d f).cores = s.cores := rfl
@[simp] theorem modDie_hubs (s : State) (d : Nat) (f : Die → Die) : (modDie s d f).hubs = s.hubs := rfl
@[simp] theorem modDie_clusters (s : State) (d : Nat) (f : Die → Die) : (modDie s d f).clusters = s.clusters := rfl
@[simp] theorem modDie_dies (s : State) (d : Nat) (f : Die → Die) : (modDie s d f).dies = tset s.dies d (f (getDie s d)) := rfl
@[simp] theorem modDie_parts (s : State) (d : Nat) (f : Die → Die) : (modDie s d f).parts = s.parts := rfl
@[simp] theorem modDie_ptcfg (s : State) (d : Nat) (f : Die → Die) : (modDie s d f).ptcfg = s.ptcfg := rfl
@[simp] theorem modDie_ptcfgReg (s : State) (d : Nat) (f : Die → Die) : (modDie s d f).ptcfgReg = s.ptcfgReg := rfl
@[simp] theorem modDie_lossgen (s : State) (d : Nat) (f : Die → Die) : (modDie s d f).lossgen = s.lossgen := rfl
@[simp] theorem modDie_mem (s : State) (d : Nat) (f : Die → Die) : (modDie s d f).mem = s.mem := rfl
@[simp] theorem modDie_spad (s : State) (d : Nat) (f : Die → Die) : (modDie s d f).spad = s.spad := rfl
@[simp] theorem modDie_stale (s : State) (d : Nat) (f : Die → Die) : (modDie s d f).stale = s.stale := rfl
@[simp] theorem modDie_queues (s : State) (d : Nat) (f : Die → Die) : (modDie s d f).queues = s.queues := rfl
@[simp] theorem modDie_writes (s : State) (d : Nat) (f : Die → Die) : (modDie s d f).writes = s.writes := rfl
@[simp] theorem modDie_atomics (s : State) (d : Nat) (f : Die → Die) : (modDie s d f).atomics = s.atomics := rfl
@[simp] theorem modDie_uio (s : State) (d : Nat) (f : Die → Die) : (modDie s d f).uio = s.uio := rfl
@[simp] theorem modDie_coneMsgs (s : State) (d : Nat) (f : Die → Die) : (modDie s d f).coneMsgs = s.coneMsgs := rfl
@[simp] theorem modDie_coilMsgs (s : State) (d : Nat) (f : Die → Die) : (modDie s d f).coilMsgs = s.coilMsgs := rfl
@[simp] theorem modDie_posts (s : State) (d : Nat) (f : Die → Die) : (modDie s d f).posts = s.posts := rfl
@[simp] theorem modDie_pages (s : State) (d : Nat) (f : Die → Die) : (modDie s d f).pages = s.pages := rfl
@[simp] theorem modDie_sweeps (s : State) (d : Nat) (f : Die → Die) : (modDie s d f).sweeps = s.sweeps := rfl
@[simp] theorem modDie_preempts (s : State) (d : Nat) (f : Die → Die) : (modDie s d f).preempts = s.preempts := rfl
@[simp] theorem modDie_resets (s : State) (d : Nat) (f : Die → Die) : (modDie s d f).resets = s.resets := rfl
@[simp] theorem modDie_held (s : State) (d : Nat) (f : Die → Die) : (modDie s d f).held = s.held := rfl
@[simp] theorem modDie_cxl (s : State) (d : Nat) (f : Die → Die) : (modDie s d f).cxl = s.cxl := rfl
@[simp] theorem modDie_snoops (s : State) (d : Nat) (f : Die → Die) : (modDie s d f).snoops = s.snoops := rfl
@[simp] theorem modDie_filter (s : State) (d : Nat) (f : Die → Die) : (modDie s d f).filter = s.filter := rfl
@[simp] theorem modDie_bisnp (s : State) (d : Nat) (f : Die → Die) : (modDie s d f).bisnp = s.bisnp := rfl
@[simp] theorem modDie_tier2 (s : State) (d : Nat) (f : Die → Die) : (modDie s d f).tier2 = s.tier2 := rfl
@[simp] theorem modDie_hubWalk (s : State) (d : Nat) (f : Die → Die) : (modDie s d f).hubWalk = s.hubWalk := rfl
@[simp] theorem modDie_lostLines (s : State) (d : Nat) (f : Die → Die) : (modDie s d f).lostLines = s.lostLines := rfl
@[simp] theorem modDie_errorMsgs (s : State) (d : Nat) (f : Die → Die) : (modDie s d f).errorMsgs = s.errorMsgs := rfl
@[simp] theorem modDie_slotUsed (s : State) (d : Nat) (f : Die → Die) : (modDie s d f).slotUsed = s.slotUsed := rfl
@[simp] theorem modDie_hostReqs (s : State) (d : Nat) (f : Die → Die) : (modDie s d f).hostReqs = s.hostReqs := rfl
@[simp] theorem modDie_peerReplies (s : State) (d : Nat) (f : Die → Die) : (modDie s d f).peerReplies = s.peerReplies := rfl
@[simp] theorem modDie_backs (s : State) (d : Nat) (f : Die → Die) : (modDie s d f).backs = s.backs := rfl

@[simp] theorem setPart_cur (s : State) (p : Nat) (v : Part) : (setPart s p v).cur = s.cur := rfl
@[simp] theorem setPart_turns (s : State) (p : Nat) (v : Part) : (setPart s p v).turns = s.turns := rfl
@[simp] theorem setPart_clock (s : State) (p : Nat) (v : Part) : (setPart s p v).clock = s.clock := rfl
@[simp] theorem setPart_fresh (s : State) (p : Nat) (v : Part) : (setPart s p v).fresh = s.fresh := rfl
@[simp] theorem setPart_nextId (s : State) (p : Nat) (v : Part) : (setPart s p v).nextId = s.nextId := rfl
@[simp] theorem setPart_ctxs (s : State) (p : Nat) (v : Part) : (setPart s p v).ctxs = s.ctxs := rfl
@[simp] theorem setPart_cores (s : State) (p : Nat) (v : Part) : (setPart s p v).cores = s.cores := rfl
@[simp] theorem setPart_hubs (s : State) (p : Nat) (v : Part) : (setPart s p v).hubs = s.hubs := rfl
@[simp] theorem setPart_clusters (s : State) (p : Nat) (v : Part) : (setPart s p v).clusters = s.clusters := rfl
@[simp] theorem setPart_dies (s : State) (p : Nat) (v : Part) : (setPart s p v).dies = s.dies := rfl
@[simp] theorem setPart_parts (s : State) (p : Nat) (v : Part) : (setPart s p v).parts = tset s.parts p v := rfl
@[simp] theorem setPart_ptcfg (s : State) (p : Nat) (v : Part) : (setPart s p v).ptcfg = s.ptcfg := rfl
@[simp] theorem setPart_ptcfgReg (s : State) (p : Nat) (v : Part) : (setPart s p v).ptcfgReg = s.ptcfgReg := rfl
@[simp] theorem setPart_lossgen (s : State) (p : Nat) (v : Part) : (setPart s p v).lossgen = s.lossgen := rfl
@[simp] theorem setPart_mem (s : State) (p : Nat) (v : Part) : (setPart s p v).mem = s.mem := rfl
@[simp] theorem setPart_spad (s : State) (p : Nat) (v : Part) : (setPart s p v).spad = s.spad := rfl
@[simp] theorem setPart_stale (s : State) (p : Nat) (v : Part) : (setPart s p v).stale = s.stale := rfl
@[simp] theorem setPart_queues (s : State) (p : Nat) (v : Part) : (setPart s p v).queues = s.queues := rfl
@[simp] theorem setPart_writes (s : State) (p : Nat) (v : Part) : (setPart s p v).writes = s.writes := rfl
@[simp] theorem setPart_atomics (s : State) (p : Nat) (v : Part) : (setPart s p v).atomics = s.atomics := rfl
@[simp] theorem setPart_uio (s : State) (p : Nat) (v : Part) : (setPart s p v).uio = s.uio := rfl
@[simp] theorem setPart_coneMsgs (s : State) (p : Nat) (v : Part) : (setPart s p v).coneMsgs = s.coneMsgs := rfl
@[simp] theorem setPart_coilMsgs (s : State) (p : Nat) (v : Part) : (setPart s p v).coilMsgs = s.coilMsgs := rfl
@[simp] theorem setPart_posts (s : State) (p : Nat) (v : Part) : (setPart s p v).posts = s.posts := rfl
@[simp] theorem setPart_pages (s : State) (p : Nat) (v : Part) : (setPart s p v).pages = s.pages := rfl
@[simp] theorem setPart_sweeps (s : State) (p : Nat) (v : Part) : (setPart s p v).sweeps = s.sweeps := rfl
@[simp] theorem setPart_preempts (s : State) (p : Nat) (v : Part) : (setPart s p v).preempts = s.preempts := rfl
@[simp] theorem setPart_resets (s : State) (p : Nat) (v : Part) : (setPart s p v).resets = s.resets := rfl
@[simp] theorem setPart_held (s : State) (p : Nat) (v : Part) : (setPart s p v).held = s.held := rfl
@[simp] theorem setPart_cxl (s : State) (p : Nat) (v : Part) : (setPart s p v).cxl = s.cxl := rfl
@[simp] theorem setPart_snoops (s : State) (p : Nat) (v : Part) : (setPart s p v).snoops = s.snoops := rfl
@[simp] theorem setPart_filter (s : State) (p : Nat) (v : Part) : (setPart s p v).filter = s.filter := rfl
@[simp] theorem setPart_bisnp (s : State) (p : Nat) (v : Part) : (setPart s p v).bisnp = s.bisnp := rfl
@[simp] theorem setPart_tier2 (s : State) (p : Nat) (v : Part) : (setPart s p v).tier2 = s.tier2 := rfl
@[simp] theorem setPart_hubWalk (s : State) (p : Nat) (v : Part) : (setPart s p v).hubWalk = s.hubWalk := rfl
@[simp] theorem setPart_lostLines (s : State) (p : Nat) (v : Part) : (setPart s p v).lostLines = s.lostLines := rfl
@[simp] theorem setPart_errorMsgs (s : State) (p : Nat) (v : Part) : (setPart s p v).errorMsgs = s.errorMsgs := rfl
@[simp] theorem setPart_slotUsed (s : State) (p : Nat) (v : Part) : (setPart s p v).slotUsed = s.slotUsed := rfl
@[simp] theorem setPart_hostReqs (s : State) (p : Nat) (v : Part) : (setPart s p v).hostReqs = s.hostReqs := rfl
@[simp] theorem setPart_peerReplies (s : State) (p : Nat) (v : Part) : (setPart s p v).peerReplies = s.peerReplies := rfl
@[simp] theorem setPart_backs (s : State) (p : Nat) (v : Part) : (setPart s p v).backs = s.backs := rfl

@[simp] theorem modPart_cur (s : State) (p : Nat) (f : Part → Part) : (modPart s p f).cur = s.cur := rfl
@[simp] theorem modPart_turns (s : State) (p : Nat) (f : Part → Part) : (modPart s p f).turns = s.turns := rfl
@[simp] theorem modPart_clock (s : State) (p : Nat) (f : Part → Part) : (modPart s p f).clock = s.clock := rfl
@[simp] theorem modPart_fresh (s : State) (p : Nat) (f : Part → Part) : (modPart s p f).fresh = s.fresh := rfl
@[simp] theorem modPart_nextId (s : State) (p : Nat) (f : Part → Part) : (modPart s p f).nextId = s.nextId := rfl
@[simp] theorem modPart_ctxs (s : State) (p : Nat) (f : Part → Part) : (modPart s p f).ctxs = s.ctxs := rfl
@[simp] theorem modPart_cores (s : State) (p : Nat) (f : Part → Part) : (modPart s p f).cores = s.cores := rfl
@[simp] theorem modPart_hubs (s : State) (p : Nat) (f : Part → Part) : (modPart s p f).hubs = s.hubs := rfl
@[simp] theorem modPart_clusters (s : State) (p : Nat) (f : Part → Part) : (modPart s p f).clusters = s.clusters := rfl
@[simp] theorem modPart_dies (s : State) (p : Nat) (f : Part → Part) : (modPart s p f).dies = s.dies := rfl
@[simp] theorem modPart_parts (s : State) (p : Nat) (f : Part → Part) : (modPart s p f).parts = tset s.parts p (f (getPart s p)) := rfl
@[simp] theorem modPart_ptcfg (s : State) (p : Nat) (f : Part → Part) : (modPart s p f).ptcfg = s.ptcfg := rfl
@[simp] theorem modPart_ptcfgReg (s : State) (p : Nat) (f : Part → Part) : (modPart s p f).ptcfgReg = s.ptcfgReg := rfl
@[simp] theorem modPart_lossgen (s : State) (p : Nat) (f : Part → Part) : (modPart s p f).lossgen = s.lossgen := rfl
@[simp] theorem modPart_mem (s : State) (p : Nat) (f : Part → Part) : (modPart s p f).mem = s.mem := rfl
@[simp] theorem modPart_spad (s : State) (p : Nat) (f : Part → Part) : (modPart s p f).spad = s.spad := rfl
@[simp] theorem modPart_stale (s : State) (p : Nat) (f : Part → Part) : (modPart s p f).stale = s.stale := rfl
@[simp] theorem modPart_queues (s : State) (p : Nat) (f : Part → Part) : (modPart s p f).queues = s.queues := rfl
@[simp] theorem modPart_writes (s : State) (p : Nat) (f : Part → Part) : (modPart s p f).writes = s.writes := rfl
@[simp] theorem modPart_atomics (s : State) (p : Nat) (f : Part → Part) : (modPart s p f).atomics = s.atomics := rfl
@[simp] theorem modPart_uio (s : State) (p : Nat) (f : Part → Part) : (modPart s p f).uio = s.uio := rfl
@[simp] theorem modPart_coneMsgs (s : State) (p : Nat) (f : Part → Part) : (modPart s p f).coneMsgs = s.coneMsgs := rfl
@[simp] theorem modPart_coilMsgs (s : State) (p : Nat) (f : Part → Part) : (modPart s p f).coilMsgs = s.coilMsgs := rfl
@[simp] theorem modPart_posts (s : State) (p : Nat) (f : Part → Part) : (modPart s p f).posts = s.posts := rfl
@[simp] theorem modPart_pages (s : State) (p : Nat) (f : Part → Part) : (modPart s p f).pages = s.pages := rfl
@[simp] theorem modPart_sweeps (s : State) (p : Nat) (f : Part → Part) : (modPart s p f).sweeps = s.sweeps := rfl
@[simp] theorem modPart_preempts (s : State) (p : Nat) (f : Part → Part) : (modPart s p f).preempts = s.preempts := rfl
@[simp] theorem modPart_resets (s : State) (p : Nat) (f : Part → Part) : (modPart s p f).resets = s.resets := rfl
@[simp] theorem modPart_held (s : State) (p : Nat) (f : Part → Part) : (modPart s p f).held = s.held := rfl
@[simp] theorem modPart_cxl (s : State) (p : Nat) (f : Part → Part) : (modPart s p f).cxl = s.cxl := rfl
@[simp] theorem modPart_snoops (s : State) (p : Nat) (f : Part → Part) : (modPart s p f).snoops = s.snoops := rfl
@[simp] theorem modPart_filter (s : State) (p : Nat) (f : Part → Part) : (modPart s p f).filter = s.filter := rfl
@[simp] theorem modPart_bisnp (s : State) (p : Nat) (f : Part → Part) : (modPart s p f).bisnp = s.bisnp := rfl
@[simp] theorem modPart_tier2 (s : State) (p : Nat) (f : Part → Part) : (modPart s p f).tier2 = s.tier2 := rfl
@[simp] theorem modPart_hubWalk (s : State) (p : Nat) (f : Part → Part) : (modPart s p f).hubWalk = s.hubWalk := rfl
@[simp] theorem modPart_lostLines (s : State) (p : Nat) (f : Part → Part) : (modPart s p f).lostLines = s.lostLines := rfl
@[simp] theorem modPart_errorMsgs (s : State) (p : Nat) (f : Part → Part) : (modPart s p f).errorMsgs = s.errorMsgs := rfl
@[simp] theorem modPart_slotUsed (s : State) (p : Nat) (f : Part → Part) : (modPart s p f).slotUsed = s.slotUsed := rfl
@[simp] theorem modPart_hostReqs (s : State) (p : Nat) (f : Part → Part) : (modPart s p f).hostReqs = s.hostReqs := rfl
@[simp] theorem modPart_peerReplies (s : State) (p : Nat) (f : Part → Part) : (modPart s p f).peerReplies = s.peerReplies := rfl
@[simp] theorem modPart_backs (s : State) (p : Nat) (f : Part → Part) : (modPart s p f).backs = s.backs := rfl

@[simp] theorem modHub_cur (s : State) (h : Nat) (f : Hub → Hub) : (modHub s h f).cur = s.cur := rfl
@[simp] theorem modHub_turns (s : State) (h : Nat) (f : Hub → Hub) : (modHub s h f).turns = s.turns := rfl
@[simp] theorem modHub_clock (s : State) (h : Nat) (f : Hub → Hub) : (modHub s h f).clock = s.clock := rfl
@[simp] theorem modHub_fresh (s : State) (h : Nat) (f : Hub → Hub) : (modHub s h f).fresh = s.fresh := rfl
@[simp] theorem modHub_nextId (s : State) (h : Nat) (f : Hub → Hub) : (modHub s h f).nextId = s.nextId := rfl
@[simp] theorem modHub_ctxs (s : State) (h : Nat) (f : Hub → Hub) : (modHub s h f).ctxs = s.ctxs := rfl
@[simp] theorem modHub_cores (s : State) (h : Nat) (f : Hub → Hub) : (modHub s h f).cores = s.cores := rfl
@[simp] theorem modHub_hubs (s : State) (h : Nat) (f : Hub → Hub) : (modHub s h f).hubs = tset s.hubs h (f (getHub s h)) := rfl
@[simp] theorem modHub_clusters (s : State) (h : Nat) (f : Hub → Hub) : (modHub s h f).clusters = s.clusters := rfl
@[simp] theorem modHub_dies (s : State) (h : Nat) (f : Hub → Hub) : (modHub s h f).dies = s.dies := rfl
@[simp] theorem modHub_parts (s : State) (h : Nat) (f : Hub → Hub) : (modHub s h f).parts = s.parts := rfl
@[simp] theorem modHub_ptcfg (s : State) (h : Nat) (f : Hub → Hub) : (modHub s h f).ptcfg = s.ptcfg := rfl
@[simp] theorem modHub_ptcfgReg (s : State) (h : Nat) (f : Hub → Hub) : (modHub s h f).ptcfgReg = s.ptcfgReg := rfl
@[simp] theorem modHub_lossgen (s : State) (h : Nat) (f : Hub → Hub) : (modHub s h f).lossgen = s.lossgen := rfl
@[simp] theorem modHub_mem (s : State) (h : Nat) (f : Hub → Hub) : (modHub s h f).mem = s.mem := rfl
@[simp] theorem modHub_spad (s : State) (h : Nat) (f : Hub → Hub) : (modHub s h f).spad = s.spad := rfl
@[simp] theorem modHub_stale (s : State) (h : Nat) (f : Hub → Hub) : (modHub s h f).stale = s.stale := rfl
@[simp] theorem modHub_queues (s : State) (h : Nat) (f : Hub → Hub) : (modHub s h f).queues = s.queues := rfl
@[simp] theorem modHub_writes (s : State) (h : Nat) (f : Hub → Hub) : (modHub s h f).writes = s.writes := rfl
@[simp] theorem modHub_atomics (s : State) (h : Nat) (f : Hub → Hub) : (modHub s h f).atomics = s.atomics := rfl
@[simp] theorem modHub_uio (s : State) (h : Nat) (f : Hub → Hub) : (modHub s h f).uio = s.uio := rfl
@[simp] theorem modHub_coneMsgs (s : State) (h : Nat) (f : Hub → Hub) : (modHub s h f).coneMsgs = s.coneMsgs := rfl
@[simp] theorem modHub_coilMsgs (s : State) (h : Nat) (f : Hub → Hub) : (modHub s h f).coilMsgs = s.coilMsgs := rfl
@[simp] theorem modHub_posts (s : State) (h : Nat) (f : Hub → Hub) : (modHub s h f).posts = s.posts := rfl
@[simp] theorem modHub_pages (s : State) (h : Nat) (f : Hub → Hub) : (modHub s h f).pages = s.pages := rfl
@[simp] theorem modHub_sweeps (s : State) (h : Nat) (f : Hub → Hub) : (modHub s h f).sweeps = s.sweeps := rfl
@[simp] theorem modHub_preempts (s : State) (h : Nat) (f : Hub → Hub) : (modHub s h f).preempts = s.preempts := rfl
@[simp] theorem modHub_resets (s : State) (h : Nat) (f : Hub → Hub) : (modHub s h f).resets = s.resets := rfl
@[simp] theorem modHub_held (s : State) (h : Nat) (f : Hub → Hub) : (modHub s h f).held = s.held := rfl
@[simp] theorem modHub_cxl (s : State) (h : Nat) (f : Hub → Hub) : (modHub s h f).cxl = s.cxl := rfl
@[simp] theorem modHub_snoops (s : State) (h : Nat) (f : Hub → Hub) : (modHub s h f).snoops = s.snoops := rfl
@[simp] theorem modHub_filter (s : State) (h : Nat) (f : Hub → Hub) : (modHub s h f).filter = s.filter := rfl
@[simp] theorem modHub_bisnp (s : State) (h : Nat) (f : Hub → Hub) : (modHub s h f).bisnp = s.bisnp := rfl
@[simp] theorem modHub_tier2 (s : State) (h : Nat) (f : Hub → Hub) : (modHub s h f).tier2 = s.tier2 := rfl
@[simp] theorem modHub_hubWalk (s : State) (h : Nat) (f : Hub → Hub) : (modHub s h f).hubWalk = s.hubWalk := rfl
@[simp] theorem modHub_lostLines (s : State) (h : Nat) (f : Hub → Hub) : (modHub s h f).lostLines = s.lostLines := rfl
@[simp] theorem modHub_errorMsgs (s : State) (h : Nat) (f : Hub → Hub) : (modHub s h f).errorMsgs = s.errorMsgs := rfl
@[simp] theorem modHub_slotUsed (s : State) (h : Nat) (f : Hub → Hub) : (modHub s h f).slotUsed = s.slotUsed := rfl
@[simp] theorem modHub_hostReqs (s : State) (h : Nat) (f : Hub → Hub) : (modHub s h f).hostReqs = s.hostReqs := rfl
@[simp] theorem modHub_peerReplies (s : State) (h : Nat) (f : Hub → Hub) : (modHub s h f).peerReplies = s.peerReplies := rfl
@[simp] theorem modHub_backs (s : State) (h : Nat) (f : Hub → Hub) : (modHub s h f).backs = s.backs := rfl

@[simp] theorem setQueue_cur (s : State) (q : Queue) : (setQueue s q).cur = s.cur := rfl
@[simp] theorem setQueue_turns (s : State) (q : Queue) : (setQueue s q).turns = s.turns := rfl
@[simp] theorem setQueue_clock (s : State) (q : Queue) : (setQueue s q).clock = s.clock := rfl
@[simp] theorem setQueue_fresh (s : State) (q : Queue) : (setQueue s q).fresh = s.fresh := rfl
@[simp] theorem setQueue_nextId (s : State) (q : Queue) : (setQueue s q).nextId = s.nextId := rfl
@[simp] theorem setQueue_ctxs (s : State) (q : Queue) : (setQueue s q).ctxs = s.ctxs := rfl
@[simp] theorem setQueue_cores (s : State) (q : Queue) : (setQueue s q).cores = s.cores := rfl
@[simp] theorem setQueue_hubs (s : State) (q : Queue) : (setQueue s q).hubs = s.hubs := rfl
@[simp] theorem setQueue_clusters (s : State) (q : Queue) : (setQueue s q).clusters = s.clusters := rfl
@[simp] theorem setQueue_dies (s : State) (q : Queue) : (setQueue s q).dies = s.dies := rfl
@[simp] theorem setQueue_parts (s : State) (q : Queue) : (setQueue s q).parts = s.parts := rfl
@[simp] theorem setQueue_ptcfg (s : State) (q : Queue) : (setQueue s q).ptcfg = s.ptcfg := rfl
@[simp] theorem setQueue_ptcfgReg (s : State) (q : Queue) : (setQueue s q).ptcfgReg = s.ptcfgReg := rfl
@[simp] theorem setQueue_lossgen (s : State) (q : Queue) : (setQueue s q).lossgen = s.lossgen := rfl
@[simp] theorem setQueue_mem (s : State) (q : Queue) : (setQueue s q).mem = s.mem := rfl
@[simp] theorem setQueue_spad (s : State) (q : Queue) : (setQueue s q).spad = s.spad := rfl
@[simp] theorem setQueue_stale (s : State) (q : Queue) : (setQueue s q).stale = s.stale := rfl
@[simp] theorem setQueue_queues (s : State) (q : Queue) : (setQueue s q).queues = s.queues.map fun e => if e.id == q.id then q else e := rfl
@[simp] theorem setQueue_writes (s : State) (q : Queue) : (setQueue s q).writes = s.writes := rfl
@[simp] theorem setQueue_atomics (s : State) (q : Queue) : (setQueue s q).atomics = s.atomics := rfl
@[simp] theorem setQueue_uio (s : State) (q : Queue) : (setQueue s q).uio = s.uio := rfl
@[simp] theorem setQueue_coneMsgs (s : State) (q : Queue) : (setQueue s q).coneMsgs = s.coneMsgs := rfl
@[simp] theorem setQueue_coilMsgs (s : State) (q : Queue) : (setQueue s q).coilMsgs = s.coilMsgs := rfl
@[simp] theorem setQueue_posts (s : State) (q : Queue) : (setQueue s q).posts = s.posts := rfl
@[simp] theorem setQueue_pages (s : State) (q : Queue) : (setQueue s q).pages = s.pages := rfl
@[simp] theorem setQueue_sweeps (s : State) (q : Queue) : (setQueue s q).sweeps = s.sweeps := rfl
@[simp] theorem setQueue_preempts (s : State) (q : Queue) : (setQueue s q).preempts = s.preempts := rfl
@[simp] theorem setQueue_resets (s : State) (q : Queue) : (setQueue s q).resets = s.resets := rfl
@[simp] theorem setQueue_held (s : State) (q : Queue) : (setQueue s q).held = s.held := rfl
@[simp] theorem setQueue_cxl (s : State) (q : Queue) : (setQueue s q).cxl = s.cxl := rfl
@[simp] theorem setQueue_snoops (s : State) (q : Queue) : (setQueue s q).snoops = s.snoops := rfl
@[simp] theorem setQueue_filter (s : State) (q : Queue) : (setQueue s q).filter = s.filter := rfl
@[simp] theorem setQueue_bisnp (s : State) (q : Queue) : (setQueue s q).bisnp = s.bisnp := rfl
@[simp] theorem setQueue_tier2 (s : State) (q : Queue) : (setQueue s q).tier2 = s.tier2 := rfl
@[simp] theorem setQueue_hubWalk (s : State) (q : Queue) : (setQueue s q).hubWalk = s.hubWalk := rfl
@[simp] theorem setQueue_lostLines (s : State) (q : Queue) : (setQueue s q).lostLines = s.lostLines := rfl
@[simp] theorem setQueue_errorMsgs (s : State) (q : Queue) : (setQueue s q).errorMsgs = s.errorMsgs := rfl
@[simp] theorem setQueue_slotUsed (s : State) (q : Queue) : (setQueue s q).slotUsed = s.slotUsed := rfl
@[simp] theorem setQueue_hostReqs (s : State) (q : Queue) : (setQueue s q).hostReqs = s.hostReqs := rfl
@[simp] theorem setQueue_peerReplies (s : State) (q : Queue) : (setQueue s q).peerReplies = s.peerReplies := rfl
@[simp] theorem setQueue_backs (s : State) (q : Queue) : (setQueue s q).backs = s.backs := rfl

end Sys2Proof.Machine
end

