-- ==== Sys2Proof/Laws/Ops.lean ====
section
/-! SUPPORT. Laws/Ops.lean: what the shared operations can do: which of them leave memory, and the turns of the machine, as they were; what the
end of an instruction leaves in its context; operands that are ordinary registers; writes at their home. -/

namespace Sys2Proof.Machine

variable {α : Type}

/-! Counters -/

@[simp] theorem countCore_mem (s : State) (core src n : Nat) : (countCore s core src n).mem = s.mem := by
  unfold countCore; split <;> rfl
@[simp] theorem countCore_spad (s : State) (core src n : Nat) : (countCore s core src n).spad = s.spad := by
  unfold countCore; split <;> rfl
@[simp] theorem countCore_ctxs (s : State) (core src n : Nat) : (countCore s core src n).ctxs = s.ctxs := by
  unfold countCore; split <;> rfl
@[simp] theorem countCluster_mem (s : State) (cl src n : Nat) : (countCluster s cl src n).mem = s.mem := by
  unfold countCluster; split; · rfl
  split <;> rfl
@[simp] theorem countCluster_spad (s : State) (cl src n : Nat) : (countCluster s cl src n).spad = s.spad := by
  unfold countCluster; split; · rfl
  split <;> rfl
@[simp] theorem countCluster_ctxs (s : State) (cl src n : Nat) : (countCluster s cl src n).ctxs = s.ctxs := by
  unfold countCluster; split; · rfl
  split <;> rfl
@[simp] theorem countDie_mem (s : State) (d src n : Nat) : (countDie s d src n).mem = s.mem := by
  unfold countDie; split; · rfl
  split <;> rfl
@[simp] theorem countDie_spad (s : State) (d src n : Nat) : (countDie s d src n).spad = s.spad := by
  unfold countDie; split; · rfl
  split <;> rfl
@[simp] theorem countDie_ctxs (s : State) (d src n : Nat) : (countDie s d src n).ctxs = s.ctxs := by
  unfold countDie; split; · rfl
  split <;> rfl
@[simp] theorem countLate_mem (s : State) (cl : Nat) : (countLate s cl).mem = s.mem := by simp [countLate]
@[simp] theorem countLate_spad (s : State) (cl : Nat) : (countLate s cl).spad = s.spad := by simp [countLate]

/-! Traps and the end of an instruction -/

/-- A field that is the same in both branches. -/
theorem apply_ite_same {α β : Type} (f : α → β) {c : Prop} [Decidable c] {x y : α} {v : β} (hx : f x = v) (hy : f y = v) :
    f (if c then x else y) = v := by split <;> assumption

@[simp] theorem escalate_mem (s : State) (core h : Nat) : (escalate s core h).mem = s.mem := rfl
@[simp] theorem escalate_spad (s : State) (core h : Nat) : (escalate s core h).spad = s.spad := rfl

/-- Giving entries back concerns the queues, and registers of the agent, its core and its partition. -/
theorem giveBack_same (f : State → α) (hq : ∀ s q, f (setQueue s q) = f s) (hc : ∀ s a c, f (setCtx s a c) = f s)
    (hp : ∀ s p g, f (modPart s p g) = f s) (hk : ∀ s n g, f (modCore s n g) = f s) (s : State) (a : Nat) (t : Taken) :
    f (giveBack s a t) = f s := by
  unfold giveBack
  split
  · split
    · exact hq _ _
    · rfl
  · dsimp only
    split
    · exact hc _ _ _
    · split
      · exact hp _ _ _
      · split <;> exact hk _ _ _
theorem giveBackAll_same (f : State → α) (hq : ∀ s q, f (setQueue s q) = f s) (hc : ∀ s a c, f (setCtx s a c) = f s)
    (hp : ∀ s p g, f (modPart s p g) = f s) (hk : ∀ s n g, f (modCore s n g) = f s) (s : State) (a : Nat) (l : List Taken) :
    f (giveBackAll s a l) = f s := by
  unfold giveBackAll
  induction l.reverse generalizing s with
  | nil => rfl
  | cons t l ih => exact (ih _).trans (giveBack_same f hq hc hp hk s a t)

/-- What an instruction took and gives back concerns only the agent, the queues, its core, its partition and its fetched lines. -/
theorem returnTaken_same (f : State → α) (hq : ∀ s q, f (setQueue s q) = f s) (hc : ∀ s a c, f (setCtx s a c) = f s)
    (hp : ∀ s p g, f (modPart s p g) = f s) (hk : ∀ s n g, f (modCore s n g) = f s) (hu : ∀ s a, f (dropReads s a) = f s)
    (s : State) (a : Nat) : f (returnTaken s a) = f s := by
  unfold returnTaken
  dsimp only
  split
  · exact hu _ _
  · exact ((hc _ _ _).trans (giveBackAll_same f hq hc hp hk _ _ _)).trans (hu _ _)
@[simp] theorem returnTaken_mem (s : State) (a : Nat) : (returnTaken s a).mem = s.mem :=
  returnTaken_same State.mem (fun _ _ => rfl) (fun _ _ _ => rfl) (fun _ _ _ => rfl) (fun _ _ _ => rfl) (fun _ _ => rfl) s a
@[simp] theorem returnTaken_spad (s : State) (a : Nat) : (returnTaken s a).spad = s.spad :=
  returnTaken_same State.spad (fun _ _ => rfl) (fun _ _ _ => rfl) (fun _ _ _ => rfl) (fun _ _ _ => rfl) (fun _ _ => rfl) s a
@[simp] theorem returnTaken_cur (s : State) (a : Nat) : (returnTaken s a).cur = s.cur :=
  returnTaken_same State.cur (fun _ _ => rfl) (fun _ _ _ => rfl) (fun _ _ _ => rfl) (fun _ _ _ => rfl) (fun _ _ => rfl) s a
@[simp] theorem returnTaken_turns (s : State) (a : Nat) : (returnTaken s a).turns = s.turns :=
  returnTaken_same State.turns (fun _ _ => rfl) (fun _ _ _ => rfl) (fun _ _ _ => rfl) (fun _ _ _ => rfl) (fun _ _ => rfl) s a

/-- An instruction that holds no entry gives nothing back. -/
theorem returnTaken_none {s : State} {a : Nat} (hc : (getCtx s a).claim = none) : returnTaken s a = dropReads s a := by
  unfold returnTaken
  have h : (getCtx (dropReads s a) a).claim = none := (congrArg Ctx.claim (getCtx_congr (s := s) (t := dropReads s a) rfl rfl rfl rfl a)).trans hc
  simp only [h]

/-- R373, R381, R385: taking a trap changes no memory. -/
@[simp] theorem takeTrap_mem (s : State) (a cause : Nat) (epc tval iw : Word) (p : Nat) : (takeTrap s a cause epc tval iw p).mem = s.mem := by
  unfold takeTrap; dsimp only; split; · simp
  split <;> simp
@[simp] theorem takeTrap_spad (s : State) (a cause : Nat) (epc tval iw : Word) (p : Nat) : (takeTrap s a cause epc tval iw p).spad = s.spad := by
  unfold takeTrap; dsimp only; split; · simp
  split <;> simp
@[simp] theorem takeTrap_cur (s : State) (a cause : Nat) (epc tval iw : Word) (p : Nat) : (takeTrap s a cause epc tval iw p).cur = s.cur := by
  unfold takeTrap; dsimp only; split; · simp
  split <;> simp [escalate]
@[simp] theorem takeTrap_turns (s : State) (a cause : Nat) (epc tval iw : Word) (p : Nat) :
    (takeTrap s a cause epc tval iw p).turns = s.turns := by
  unfold takeTrap; dsimp only; split; · simp
  split <;> simp [escalate]

@[simp] theorem countIssue_mem (s : State) (core src n : Nat) : (countIssue s core src n).mem = s.mem := by simp [countIssue]
@[simp] theorem countIssue_spad (s : State) (core src n : Nat) : (countIssue s core src n).spad = s.spad := by simp [countIssue]

/-- R20 to R22: an issue changes no memory. -/
@[simp] theorem takeSlot_mem (s : State) (rows cost : Nat) : (takeSlot s rows cost).mem = s.mem := by
  unfold takeSlot; dsimp only; split
  · rfl
  · simp only [countIssue_mem, countDie_mem]; exact apply_ite_same State.mem rfl rfl
@[simp] theorem takeSlot_spad (s : State) (rows cost : Nat) : (takeSlot s rows cost).spad = s.spad := by
  unfold takeSlot; dsimp only; split
  · rfl
  · simp only [countIssue_spad, countDie_spad]; exact apply_ite_same State.spad rfl rfl
@[simp] theorem issued_mem (s : State) : (issued s).mem = s.mem := takeSlot_mem _ _ _
@[simp] theorem issued_spad (s : State) : (issued s).spad = s.spad := takeSlot_spad _ _ _

@[simp] theorem retire_mem (s : State) (rows cost : Nat) : (retire s rows cost).mem = s.mem := by
  simp only [retire, takeSlot_mem]; split <;> simp
@[simp] theorem retire_spad (s : State) (rows cost : Nat) : (retire s rows cost).spad = s.spad := by
  simp only [retire, takeSlot_spad]; split <;> simp

/-- The end of an instruction changes no memory. -/
@[simp] theorem completed_mem (i : Instr) (c : Ctx) (s : State) : (completed i c s).mem = s.mem := by simp [completed]
@[simp] theorem completed_spad (i : Instr) (c : Ctx) (s : State) : (completed i c s).spad = s.spad := by simp [completed]
@[simp] theorem doneIn_mem (i : Instr) (s t : State) : (doneIn i s t).mem = t.mem := completed_mem _ _ _
@[simp] theorem doneIn_spad (i : Instr) (s t : State) : (doneIn i s t).spad = t.spad := completed_spad _ _ _
@[simp] theorem nextPc_mem (t : State) : (nextPc t).mem = t.mem := rfl
@[simp] theorem nextPc_spad (t : State) : (nextPc t).spad = t.spad := rfl

/-! Requests -/

@[simp] theorem takeId_snd_mem (s : State) : (takeId s).2.mem = s.mem := rfl
@[simp] theorem takeId_snd_spad (s : State) : (takeId s).2.spad = s.spad := rfl

@[simp] theorem startSweep_mem (s : State) (line : Nat) : (startSweep s line).mem = s.mem := by
  unfold startSweep; split
  · rfl
  · cases homeDie line <;> simp [dropWalk, takeId]
@[simp] theorem startSweep_spad (s : State) (line : Nat) : (startSweep s line).spad = s.spad := by
  unfold startSweep; split
  · rfl
  · cases homeDie line <;> simp [dropWalk, takeId]

@[simp] theorem applyReq_mem (s : State) (q : Req) : (applyReq s q).mem = s.mem := by
  cases q <;> simp only [applyReq, startSweep_mem, evictTier2] <;> (repeat' split) <;> first | rfl | simp
@[simp] theorem applyReq_spad (s : State) (q : Req) : (applyReq s q).spad = s.spad := by
  cases q <;> simp only [applyReq, startSweep_spad, evictTier2] <;> (repeat' split) <;> first | rfl | simp

/-- Asking for lines, sweeps and back-invalidations changes no memory. -/
@[simp] theorem applyReqs_mem (s : State) (l : List Req) : (applyReqs s l).mem = s.mem := by
  induction l generalizing s with
  | nil => rfl
  | cons q l ih => exact (ih (applyReq s q)).trans (applyReq_mem s q)
@[simp] theorem applyReqs_spad (s : State) (l : List Req) : (applyReqs s l).spad = s.spad := by
  induction l generalizing s with
  | nil => rfl
  | cons q l ih => exact (ih (applyReq s q)).trans (applyReq_spad s q)

/-! Writes at their home -/

@[simp] theorem killResv_mem (s : State) (block by_ : Nat) : (killResv s block by_).mem = s.mem := rfl
@[simp] theorem killResv_spad (s : State) (block by_ : Nat) : (killResv s block by_).spad = s.spad := rfl
@[simp] theorem keepStale_mem (s : State) (line : Nat) : (keepStale s line).mem = s.mem := by unfold keepStale; split <;> rfl
@[simp] theorem keepStale_spad (s : State) (line : Nat) : (keepStale s line).spad = s.spad := by unfold keepStale; split <;> rfl

@[simp] theorem trackWrite_mem (s : State) (w : Write) : (trackWrite s w).mem = s.mem := by
  unfold trackWrite; exact apply_ite_same State.mem rfl rfl
@[simp] theorem trackWrite_spad (s : State) (w : Write) : (trackWrite s w).spad = s.spad := by
  unfold trackWrite; exact apply_ite_same State.spad rfl rfl

/-- R80: a write at its home leaves exactly its bytes in memory. -/
@[simp] theorem homeWrite_mem (s : State) (spare line : Nat) (bytes : List (Nat × Byte)) (w : Write) :
    (homeWrite s spare line bytes w).mem = writeCells s.mem bytes := by simp [homeWrite]
@[simp] theorem homeWrite_spad (s : State) (spare line : Nat) (bytes : List (Nat × Byte)) (w : Write) :
    (homeWrite s spare line bytes w).spad = s.spad := by simp [homeWrite]
@[simp] theorem directWrite_mem (s : State) (agent line : Nat) (bytes : List (Nat × Byte)) (o : Order) (sc : Scope) (tags : List Nat)
    (spare : Nat) (src : Option Nat) (g : Option (Nat × Nat)) : (directWrite s agent line bytes o sc tags spare src g).mem = writeCells s.mem bytes := by simp [directWrite]
@[simp] theorem directWrite_spad (s : State) (agent line : Nat) (bytes : List (Nat × Byte)) (o : Order) (sc : Scope) (tags : List Nat)
    (spare : Nat) (src : Option Nat) (g : Option (Nat × Nat)) : (directWrite s agent line bytes o sc tags spare src g).spad = s.spad := by simp [directWrite]

/-- A write at its home keeps the canonical form. -/
theorem directWrite_wf {s : State} (h : State.wf s = true) (agent line : Nat) (bytes : List (Nat × Byte)) (o : Order) (sc : Scope)
    (tags : List Nat) (spare : Nat) (src : Option Nat) (g : Option (Nat × Nat)) :
    State.wf (directWrite s agent line bytes o sc tags spare src g) = true := by
  simp only [State.wf, Bool.and_eq_true] at h ⊢
  simp only [directWrite_mem, directWrite_spad]
  exact ⟨writeCells_wf h.1 bytes, h.2⟩

/-- So do an engine's bytes, line by line. -/
theorem directBytes_wf {s : State} (h : State.wf s = true) (agent : Nat) (bytes : List (Nat × Byte)) (tags : List Nat)
    (src : Option Nat) (g : Option (Nat × Nat)) : State.wf (directBytes s agent bytes tags src g) = true := by
  unfold directBytes
  induction byLine bytes generalizing s with
  | nil => exact h
  | cons x l ih => exact ih (directWrite_wf h agent x.1 x.2 .rlx .sys tags _ src g)

@[simp] theorem spadWrite_mem (s : State) (agent : Nat) (cells : List (Nat × Byte)) : (spadWrite s agent cells).mem = s.mem := by
  unfold spadWrite
  generalize dedup (cells.map fun c => 2 ^ 60 + c.1 / 128) = l
  suffices h : ∀ t : State, (l.foldl (fun s b => killResv s b agent) t).mem = t.mem from h _
  induction l with
  | nil => intro t; rfl
  | cons b l ih => intro t; exact (ih _).trans (killResv_mem t b agent)
@[simp] theorem spadWrite_spad (s : State) (agent : Nat) (cells : List (Nat × Byte)) :
    (spadWrite s agent cells).spad = writeCells s.spad cells := by
  unfold spadWrite
  generalize dedup (cells.map fun c => 2 ^ 60 + c.1 / 128) = l
  suffices h : ∀ t : State, (l.foldl (fun s b => killResv s b agent) t).spad = t.spad from h _
  induction l with
  | nil => intro t; rfl
  | cons b l ih => intro t; exact (ih _).trans (killResv_spad t b agent)

/-- A write to the scratchpads keeps the canonical form. -/
theorem spadWrite_wf {s : State} (h : State.wf s = true) (agent : Nat) (cells : List (Nat × Byte)) :
    State.wf (spadWrite s agent cells) = true := by
  simp only [State.wf, Bool.and_eq_true] at h ⊢
  simp only [spadWrite_mem, spadWrite_spad]
  exact ⟨h.1, writeCells_wf h.2 cells⟩

@[simp] theorem answer_mem (s : State) (a id : Nat) (r : Reply) : (answer s a id r).mem = s.mem := by
  unfold answer; dsimp only; exact apply_ite_same State.mem rfl (apply_ite_same State.mem rfl rfl)
@[simp] theorem answer_spad (s : State) (a id : Nat) (r : Reply) : (answer s a id r).spad = s.spad := by
  unfold answer; dsimp only; exact apply_ite_same State.spad rfl (apply_ite_same State.spad rfl rfl)

/-! Operands -/

/-- A register below x24 names no queue end. -/
theorem ordinary_low (s : State) {r : Reg} (h : r.toNat < 24) : ordinary s r := by
  intro k hk
  simp only [endNo, show ¬ 24 ≤ r.toNat by omega, if_false] at hk
  exact nomatch hk

theorem isReadEnd_unbound {s : State} {a k : Nat} (h : isBound s a k = false) : isReadEnd s a k = false := by
  simp only [isBound, Bool.or_eq_false_iff] at h
  simp [isReadEnd, h]
theorem isWriteEnd_unbound {s : State} {a k : Nat} (h : isBound s a k = false) : isWriteEnd s a k = false := by
  simp only [isBound, Bool.or_eq_false_iff] at h
  simp [isWriteEnd, h]

/-- R36: an ordinary register is no forbidden source and no forbidden destination. -/
theorem badSource_ordinary {s : State} {r : Reg} (h : ordinary s r) : badSource s s.cur r = none := by
  unfold badSource
  cases he : endNo r with
  | none => rfl
  | some k => simp [h k he]
theorem badDest_ordinary {s : State} {r : Reg} (h : ordinary s r) : badDest s s.cur r = none := by
  unfold badDest
  cases he : endNo r with
  | none => rfl
  | some k => simp [h k he]

/-- R37: ordinary registers pop no end. -/
theorem endUses_ordinary {s : State} {l : List Reg} (h : ∀ r ∈ l, ordinary s r) : endUses s s.cur l = [] := by
  have hn : (l.filterMap fun r => (endNo r).bind fun k => if isReadEnd s s.cur k then some k else none) = [] := by
    rw [List.filterMap_eq_nil_iff]
    intro r hr
    cases he : endNo r with
    | none => rfl
    | some k => simp [isReadEnd_unbound (h r hr k he)]
  unfold endUses
  rw [hn]; rfl

end Sys2Proof.Machine
end

