-- ==== Sys2Proof/Tests/Slice0.lean ====
section
/-! SUPPORT. Tests/Slice0.lean: terms that `wellFormed` refuses, words written out from the manual's encodings, single steps with results from
the manual's rules, and for every statement with hypotheses a concrete state and operands that meet them (`meets_…`). -/

namespace Sys2Proof.Tests

set_option Elab.async false

open Sys2Proof Sys2Proof.Machine Sys2Proof.Claims

/-! Small states -/

/-- x registers from a list. -/
def regs (l : List (Nat × Word)) : Vector Word 32 := l.foldl (fun v e => v.setIfInBounds e.1 e.2) (Vector.replicate 32 0)
/-- A context that can issue. -/
def ctxWith (l : List (Nat × Word)) : Ctx := { status := .ready, pc := 0x80000000, x := regs l }
/-- A machine with one context listed, which issues. -/
def only (a : Nat) (c : Ctx) : State := { State.reset with cur := a, ctxs := [(a, c)] }
/-- Context 5 of core 0. -/
def user (l : List (Nat × Word)) : State := only 5 (ctxWith l)
/-- Context 0 of core 0. -/
def zero (l : List (Nat × Word)) : State := only 0 { ctxWith l with sup := true, winRev := 1 }
/-- Hub core 0. -/
def hub (l : List (Nat × Word)) : State := only Config.contexts { ctxWith l with sup := true, vec := { vrows := 128, rows := 8, len := 64 } }
/-- The same with the first 2^48 addresses mapped to device memory. -/
def mapped (s : State) : State :=
  { s with
    mem := writeCells [] (placeCells 0x13)
    parts := [(0, placePart {})]
    dies := [(0, { started := some (word placePc) })] }

/-- An action answers, and its answer passes a test. -/
def answers {ε α : Type} (r : Except ε (α × State)) (p : α → State → Bool) : Bool :=
  match r with
  | .ok (a, s) => p a s
  | .error _ => false
/-- A next state follows, and passes a test. -/
def nextIs (o : Host.Outcome State Fault Refusal) (p : State → Bool) : Bool :=
  match o with
  | .next s => p s
  | _ => false
/-- The next state is this one. -/
def goesTo (o : Host.Outcome State Fault Refusal) (t : State) : Bool := nextIs o fun s => s == t

/-! Ill-formed terms -/

/-- R138, R333, R149, R270, R284: levels, a destination, a format. -/
theorem test_wellFormed_refuses_instructions :
    wellFormed (.qTok 0 0) = false ∧ wellFormed (.qBt 0 0 4) = false ∧ wellFormed (.pxRun 0 1 2 3 0) = false ∧
    wellFormed (.hint 24 1 0) = false ∧ wellFormed (.vadd 0 1 2 0 .e4m3 0 false) = false ∧ wellFormed (.vfma 0 1 2 0 .i32 0 false) = false ∧
    wellFormed (.vrcp 0 1 0 .i16 0 false) = false ∧ wellFormed (.vshl 0 1 2 0 .f32 0 false) = false ∧
    wellFormed (.vdot2 0 1 2 0 .f32 0 false) = false ∧ wellFormed (.vbqAddrq 0 1 2 .f32 0 false) = false ∧
    wellFormed (.vcmpEq 0 1 2 0 .e5m2 0 false) = false ∧ wellFormed (.vredSum 0 1 0 .e4m3 0 false) = false ∧
    wellFormed (.vabs 0 1 0 .e5m2 0 false) = false := by decide +kernel

/-- R10 to R12: units that the package does not have. -/
theorem test_wellFormed_refuses_units :
    wellFormed (.mma 131072 0) = false ∧ wellFormed (.mma 0 32) = false ∧ wellFormed (.copy 32) = false ∧
    wellFormed (.contextRejoin 131136) = false ∧ wellFormed (.walkFormatWrite 0 5 0) = false ∧ wellFormed (.launchDispatch 32) = false ∧
    wellFormed (.coneTimeout 0 4096) = false ∧ wellFormed (.draw 4 0) = false ∧ wellFormed (.draw 0 64) = false ∧
    wellFormed (.settingFire 0 16) = false ∧ wellFormed (.glazeLoadPerformed 0 4) = false ∧ wellFormed (.dieOffline 4) = false ∧
    wellFormed (.sweepAck 0 33) = false ∧ wellFormed (.coreReset 8192) = false ∧ wellFormed (.rqenWrite 64 0) = false ∧
    wellFormed (.halt 4) = false := by decide +kernel

/-! Words written out from the manual's encodings -/

/-- R167, R169: integer instructions, by the layouts of R137. -/
theorem test_decode_integer :
    decode32 0x00C58533 = .ok (.add 10 11 12) ∧ decode32 0x40C58533 = .ok (.sub 10 11 12) ∧ decode32 0x02C5C533 = .ok (.div 10 11 12) ∧
    decode32 0x4035D513 = .ok (.srai 10 11 3) ∧ decode32 0x00001537 = .ok (.lui 10 1) ∧ decode32 0x0085B503 = .ok (.ld 10 11 8) ∧
    decode32 0x00A5B423 = .ok (.sd 10 11 8) ∧ decode32 0xFEB50EE3 = .ok (.beq 10 11 (-2)) ∧ decode32 0x008000EF = .ok (.jal 1 4) ∧
    decode32 0x00008067 = .ok (.jalr 0 1 0) := by decide +kernel

/-- R171, R176, R178, R186: atomics, single precision, CSRs and the environment. -/
theorem test_decode_extensions :
    decode32 0x1005B52F = .ok (.lr 10 11 false false true) ∧ decode32 0x28C5A52F = .error .function ∧
    decode32 0x00C5A52F = .ok (.amoadd 10 12 11 false false false) ∧ decode32 0x00C5F553 = .ok (.faddS 10 11 12 .dyn) ∧
    decode32 0x00C5D553 = .ok (.faddS 10 11 12 .sto) ∧ decode32 0x00C5E553 = .error .reserved ∧
    decode32 0x80159573 = .ok (.csrrw 10 11 0x801) ∧ decode32 0x0FF0000F = .ok (.fence 0 0 0 15 15) ∧
    decode32 0x10500073 = .ok .wfi := by decide +kernel

/-- R148: all zeros, all ones, and a compressed word encode nothing. -/
theorem test_decode_rejects :
    decode32 0 = .error .length ∧ decode32 0xFFFFFFFF = .error .length ∧ decode32 0x00004501 = .error .length := by decide +kernel
/-- Context 5 with q0 and q1 bound to one near queue each. -/
def queued (kind : Bool) (items : List Item) (tk : Word) : State :=
  let c := ctxWith [(6, 7)]
  let e : QEnd := { queue := some 1, write := kind }
  let q : Queue :=
    { id := 1, part := 0, space := 0, pdesc := 0x1000, inst := 0, index := 0, coil := false, depth := 2, bag := false, ord := true, scope := .core,
      place := 0, core := 0, holder := none, ring := 0, ringCluster := 0, tail := items.length, items := items, append := none, openBag := none, claims := [],
      copies := [] }
  let c := { c with ends := c.ends.set 0 e, ucsr := { c.ucsr with tkvec := c.ucsr.tkvec.set 0 tk } }
  { only 5 c with queues := [q] }


/-- Context 5 with the first 2^48 addresses mapped. -/
def mem5 (l : List (Nat × Word)) : State := mapped (user l)

/-! Integers, branches, operands -/

/-- Two integer operands; a wrap of the sum, and the signed by unsigned product. -/
theorem meets_IntegerResults :
    (let s := user [(6, 0xFFFFFFFFFFFFFFFF), (7, 2)]
     unheld (.mulhsu 5 6 7) s ∧ unheld (.addiw 5 6 1) s ∧ unheld (.lui 5 0) s ∧ unheld (.auipc 5 0) s ∧ (twoOperand (.mulhsu 5 6 7)).isSome = true ∧ (oneOperand (.addiw 5 6 1)).isSome = true ∧
     answers (operands [6, 7] (some 5) s) (fun l s1 => l == [0xFFFFFFFFFFFFFFFF, 2] && answers (writeRd 5 1 s1) fun _ _ => true) = true ∧
     answers (operands [6] (some 5) s) (fun l s1 => l == [0xFFFFFFFFFFFFFFFF] && answers (writeRd 5 0 s1) fun _ _ => true) = true ∧
     answers (operands [] (some 5) s) (fun l s1 => l == [] && answers (writeRd 5 0x80000000 s1) fun _ _ => true) = true ∧
     nextIs (exec (.add 5 6 7) s) (fun t => readX (here t) 5 == 1 && (here t).pc == 0x80000004) = true ∧
     nextIs (exec (.mulhsu 5 6 7) s) (fun t => readX (here t) 5 == 0xFFFFFFFFFFFFFFFF) = true ∧
     nextIs (exec (.addiw 5 6 1) s) (fun t => readX (here t) 5 == 0) = true ∧
     nextIs (exec (.lui 5 0x80000) s) (fun t => readX (here t) 5 == 0xFFFFFFFF80000000) = true ∧
     nextIs (exec (.auipc 5 1) s) (fun t => readX (here t) 5 == 0x80001000) = true) :=
  ⟨⟨rfl, rfl⟩, ⟨rfl, rfl⟩, ⟨rfl, rfl⟩, ⟨rfl, rfl⟩, by decide +kernel⟩

/-- A branch that is taken, one that is not, one to a target that is no multiple of 4; a jump to each. -/
theorem meets_BranchesAndJumps :
    (let s := user [(6, 1), (7, 0x80000103)]
     unheld (.blt 0 6 4) s ∧ unheld (.jal 1 1) s ∧ unheld (.jalr 1 7 2) s ∧ (here s).out = [] ∧ (branchOf (.blt 0 6 4)).isSome = true ∧
     answers (operands [0, 6] none s) (fun l s1 => l == [0, 1] && (pcPlus s1 8).toNat % 4 == 0 && (pcPlus s1 6).toNat % 4 != 0) = true ∧
     answers (operands [7] (some 1) s) (fun l s1 => l == [0x80000103] && answers (writeRd 1 (pcPlus s1 4) s1) fun _ _ => true) = true ∧
     nextIs (exec (.blt 0 6 4) s) (fun t => (here t).pc == 0x80000008) = true ∧
     nextIs (exec (.bge 0 6 4) s) (fun t => (here t).pc == 0x80000004) = true ∧
     nextIs (exec (.bne 0 6 3) s) (fun t => (here t).status == .trapped && (here t).trapRec.any fun r => r.w2 == 0x80000006) = true ∧
     nextIs (exec (.jal 1 (-4)) s) (fun t => (here t).pc == 0x7FFFFFF8 && readX (here t) 1 == 0x80000004) = true ∧
     nextIs (exec (.jal 1 1) s) (fun t => (here t).status == .trapped) = true ∧
     nextIs (exec (.jalr 1 7 2) s) (fun t => (here t).pc == 0x80000104) = true ∧
     nextIs (exec (.jalr 1 7 (-1)) s) (fun t => (here t).status == .trapped) = true) :=
  ⟨⟨rfl, rfl⟩, ⟨rfl, rfl⟩, ⟨rfl, rfl⟩, by decide +kernel⟩

/-- Ordinary registers, x0 among them. -/
theorem meets_OrdinaryRegisters :
    (let s := user [(6, 9)]
     (∀ r ∈ [(6 : Reg), 0], ordinary s r) ∧ (∀ r, some (5 : Reg) = some r → ordinary s r)) :=
  ⟨fun r hr => ordinary_low _ (by fin_cases hr <;> decide), fun r hr => ordinary_low _ (by cases hr; decide)⟩

theorem meets_RegisterOnlyFrame :
    (let s := user [(6, 9), (7, 4)]
     registerOnly (.remuw 5 6 7) = some ([6, 7], 5) ∧ unheld (.remuw 5 6 7) s ∧ (here s).claim = none ∧ (here s).status = .ready ∧ (∀ r ∈ [(6 : Reg), 7], ordinary s r) ∧ ordinary s 5 ∧
     nextIs (exec (.remuw 5 6 7) s) (fun t => readX (here t) 5 == 1) = true) :=
  ⟨rfl, ⟨rfl, rfl⟩, rfl, by decide +kernel, fun r hr => ordinary_low _ (by fin_cases hr <;> decide), ordinary_low _ (by decide), by decide +kernel⟩

/-- A data entry, a token with and without a handler, an empty end, and ends of the wrong direction; a push, and a full queue. -/
theorem meets_QueueEndsAsOperands :
    (let d : Item := { pos := 0, entry := dataEntry 9, owner := none }
     let k : Item := { pos := 0, entry := tokenEntry 2, owner := none }
     let s := queued false [d] 0
     let s1 := queued false [k] 0x400
     let s2 := queued false [k] 0
     let s3 := queued false [] 0
     let w := queued true [] 0
     let w1 := queued true [d, { d with pos := 1 }] 0
     let two (w : Bool) : State := modCtx (queued w [] 0) 5 fun c => { c with ends := c.ends.set 1 { queue := some 1, write := !w } }
     oneOperand (.addi 5 24 1) ≠ none ∧ endNo 24 = some 0 ∧ readable s 0 ∧ readable s1 0 ∧ readable s2 0 ∧ readable s3 0 ∧
     offered s s.cur 0 = [dataEntry 9] ∧ popNeeds s s.cur 0 = none ∧ popNeeds s1 s1.cur 0 = none ∧ popNeeds s2 s2.cur 0 = none ∧ (tokenEntry 2).isToken = true ∧ offered s3 s3.cur 0 = [] ∧
     isWriteEnd w w.cur 0 = true ∧ (w.queues.any fun q => canPush w q w.cur (dataEntry 0) && !q.coil && settled w w.cur (queueScope q)) = true ∧
     (w1.queues.any fun q => !canPush w1 q w1.cur (dataEntry 0)) = true ∧
     nextIs (exec (.addi 5 24 1) s) (fun t => readX (here t) 5 == 10 && t.queues.all fun q => q.items.isEmpty) = true ∧
     nextIs (exec (.addi 5 24 1) s1) (fun t => (here t).pc == 0x400 && (here t).ucsr.tklvl == 2 && (here t).ucsr.tkepc == 0x80000000) = true ∧
     nextIs (exec (.addi 5 24 1) s2) (fun t => (here t).trapRec.any fun r => fieldOf r.w0 0 6 == 25) = true ∧
     goesTo (exec (.addi 5 24 1) s3) (parkCtx s3 (.pop 0)) = true ∧
     nextIs (exec (.addi 5 24 1) w) (fun t => (here t).trapRec.any fun r => fieldOf r.w0 0 6 == 24) = true ∧
     nextIs (exec (.addi 24 6 1) s) (fun t => (here t).trapRec.any fun r => fieldOf r.w0 0 6 == 24) = true ∧
     nextIs (exec (.addi 24 6 1) w) (fun t => t.queues.all fun q => q.items.map (·.entry) == [dataEntry 8]) = true ∧
     goesTo (exec (.addi 24 6 1) w1) (parkCtx w1 (.push 0 false)) = true ∧
     isBound (two true) 5 0 = true ∧ otherBound (two true) 5 0 = true ∧ otherBound (two false) 5 0 = true ∧ acqClear w w.cur = true ∧
     nextIs (exec (.addi 5 24 1) (two false)) (fun t => (here t).trapRec.any fun r => fieldOf r.w0 0 6 == 24) = true ∧
     nextIs (exec (.addi 24 6 1) (two true)) (fun t => (here t).trapRec.any fun r => fieldOf r.w0 0 6 == 24) = true) := by
  refine ⟨nofun, rfl, ?_, ?_, ?_, ?_, ?_⟩
  · exact ⟨by decide +kernel, by decide +kernel, by decide +kernel⟩
  · exact ⟨by decide +kernel, by decide +kernel, by decide +kernel⟩
  · exact ⟨by decide +kernel, by decide +kernel, by decide +kernel⟩
  · exact ⟨by decide +kernel, by decide +kernel, by decide +kernel⟩
  · decide +kernel

/-- Each limit of division: by zero, and the most negative dividend by −1. -/
theorem meets_DivisionResults :
    (let s := user [(6, 0x8000000000000000), (7, 0xFFFFFFFFFFFFFFFF), (8, 7)]
     unheld (.div 5 6 7) s ∧ (here s).claim = none ∧ (here s).status = .ready ∧ ordinary s 6 ∧ ordinary s 7 ∧ ordinary s 5 ∧ (divisionOf (.div 5 6 7)).isSome = true ∧
     answers (operands [6, 7] (some 5) s) (fun l s1 => l == [0x8000000000000000, 0xFFFFFFFFFFFFFFFF] && answers (writeRd 5 0 s1) fun _ _ => true) = true ∧
     nextIs (exec (.div 5 6 7) s) (fun t => readX (here t) 5 == 0x8000000000000000) = true ∧
     nextIs (exec (.rem 5 6 7) s) (fun t => readX (here t) 5 == 0) = true ∧
     nextIs (exec (.divu 5 8 0) s) (fun t => readX (here t) 5 == 0xFFFFFFFFFFFFFFFF) = true ∧
     nextIs (exec (.remw 5 8 0) s) (fun t => readX (here t) 5 == 7) = true ∧
     nextIs (exec (.div 5 6 8) s) (fun t => readX (here t) 5 == 0xEDB6DB6DB6DB6DB7) = true) :=
  ⟨⟨rfl, rfl⟩, rfl, by decide +kernel, ordinary_low _ (by decide), ordinary_low _ (by decide), ordinary_low _ (by decide), by decide +kernel⟩

/-! CSRs and the environment -/

/-- A legal write, a legal read, an illegal write of a read-only CSR, and a supervisor CSR in user mode; the reserved rounding mode 110, and the
generator's state 0. -/
theorem meets_CsrAccesses :
    (let s := user [(6, 0x25)]
     (csrOf (.csrrw 5 6 0x003)).isSome = true ∧ unheld (.csrrw 5 6 0x003) s ∧ (here s).out = [] ∧ csrLegal s 0x003 true = true ∧ csrLegal s 0xC00 true = false ∧
     csrLegal s 0x104 false = false ∧ csrLegal (zero []) 0x5F3 true = true ∧
     answers (operands [6] (some 5) s) (fun l s1 => l == [0x25] && answers (csrWrite 0x003 0x25 s1) fun _ s2 =>
       answers (writeRd 5 (csrRead s1 0x003) s2) fun _ _ => true) = true ∧
     userCsrAfter 0x802 3 6 = some 3 ∧ userCsrAfter 0x801 5 0 = some 1 ∧
     nextIs (exec (.csrrw 5 6 0x003) s) (fun t => (here t).ucsr.fflags == 5 && (here t).ucsr.frm == 1 && readX (here t) 5 == 0) = true ∧
     nextIs (exec (.csrrs 5 0 0x801) s) (fun t => readX (here t) 5 == 1) = true ∧
     nextIs (exec (.csrrw 5 6 0xC02) s) (fun t => (here t).trapRec.any fun r => fieldOf r.w0 0 6 == 2) = true) := by
  exact ⟨rfl, ⟨rfl, rfl⟩, by decide +kernel⟩

/-- User mode, supervisor mode, an armed breakpoint, a write still to be performed, and three pcs that cannot be fetched. -/
theorem meets_EnvironmentAndFetchFaults :
    (let s := user []
     let z := zero []
     let b := { s with cores := [(0, { armbrk := true })] }
     let w := only 5 { ctxWith [] with sb := [{}] }
     let p1 := only 5 { ctxWith [] with pc := 2 }
     let p2 := only 5 { ctxWith [] with pc := 0x0100000000000000 }
     steady s ∧ steady z ∧ (here s).sup = false ∧ (here z).sup = true ∧ (getCore b (coreOf b.cur)).armbrk = true ∧
     settled s s.cur .sys = true ∧ (∀ w ∈ s.writes, w.agent = s.cur → w.home = true) ∧ (here w).sb ≠ [] ∧ settled w w.cur .sys = false ∧ (here p1).pc.toNat % 4 ≠ 0 ∧ canonical (here p2).pc = false ∧
     inWindow (only 5 { ctxWith [] with pc := 0 }) 5 0 = true ∧
     nextIs (exec .ecall s) (fun t => (here t).trapRec.any fun r => fieldOf r.w0 0 6 == 8 && fieldOf r.w0 8 4 == 5 && r.w1 == 0x80000000) = true ∧
     nextIs (exec .ecall z) (fun t => (here t).scsr.scause == 9 && (here t).status == .trapped && (getHub t 0).esc == [0]) = true ∧
     nextIs (exec .ebreak b) (fun t => (here t).halted == some .ready && (here t).dbgEntry) = true ∧
     nextIs (exec .sret z) (fun t => (here t).pc == 0) = true ∧ goesTo (exec (.fence 0 0 0 15 15) w) w = true ∧
     nextIs (exec .instructionFetchFault p1) (fun t => (here t).trapRec.any fun r => fieldOf r.w0 0 6 == 0 && r.w2 == 2) = true ∧
     nextIs (exec .instructionFetchFault p2) (fun t => (here t).trapRec.any fun r => fieldOf r.w0 0 6 == 1) = true) :=
  ⟨⟨rfl, rfl⟩, ⟨rfl, rfl⟩, by decide +kernel⟩

/-- An agent of each kind. -/
theorem meets_TrapEntryAndReturn :
    (isHub 5 = false ∧ ctxNo 5 ≠ 0) ∧ (isHub 16 = false ∧ ctxNo 16 = 0 ∧ 16 < Config.contexts) ∧ isHub Config.contexts = true ∧
    (let t := takeTrap (hub []) Config.contexts 4 0x80000000 9 0 0
     (here t).scsr.scause = 4 ∧ (here (hub [])).claim = none ∧ (here t).scsr.sepc = 0x80000000 ∧ bitOf (here t).scsr.sstatus 8 = true) := by decide +kernel

/-! Loads, stores, atomics -/


/-- Both kinds of extension; the instruction at 0x80000000 is 0x13. -/
theorem meets_LoadsAndStores :
    (let s := mem5 [(6, 0x80000001), (7, 0x1122334455667788)]
     let l : Loc := ⟨.hbm 0, 0x80000000⟩
     let e : ReadElem := ⟨0, 0, 0x80000000, [(l, 1)], []⟩
     let w := { s with writes := [{ id := 1, agent := 5, kind := .store, addr := 0x80000000, bytes := [(0x80000000, 1)], order := .rlx, scope := .sys,
                                    tags := [], ea := 0, atHome := false, home := false, inv := [], acks := [] }] }
     unheld (.lb 5 6 (-1)) s ∧ unheld (.sh 7 6 1) s ∧ acqClear s s.cur = true ∧ (loadOf (.lb 5 6 (-1))).isSome = true ∧
     (storeOf (.sh 7 6 1)).isSome = true ∧
     answers (operands [6] (some 5) s) (fun v s1 => v == [0x80000001] && answers (resolve .read (baseOff 0x80000001 (-1)) 1 false s1) fun p s2 =>
       p.1 == [(l, 1)] && (here s2).scout.isNone && mayAccess s2 s2.cur [e] && answers (readElems 5 (readerOf 5 s2.nextId) [] [e] s2) fun r s3 =>
         r == [(e, 0x13)] && answers (writeRd 5 0x13 s3) fun _ _ => true) = true ∧
     homeDie (lineOf 0x80000000) = some 0 ∧ tfind (getDie s 0).copies (lineOf 0x80000000) = none ∧
     ownPending s 5 (keysOf e.pieces) = false ∧ writeWaits s (lineOf 0x80000000) = false ∧ laneHeld s 5 (lineOf 0x80000000) = false ∧
     readNeeds s (lineOf 0x80000000) (halvesIn (l, 1) (lineOf 0x80000000)) = [] ∧ ownPending w 5 (keysOf e.pieces) = true ∧
     nextIs (exec (.lb 5 6 (-1)) w) (fun t => (here t).out.map (fun o => (o.rd, o.marks)) == [(5, 0x20)] && (here t).pc == 0x80000004) = true ∧
     answers (operands [6, 7] none s) (fun l s1 => l.length == 2 && answers (memWrite (baseOff 0x80000001 1) (leBytes 2 0x7788) false .rlx .sys s1)
       fun _ _ => true) = true ∧
     nextIs (exec (.lb 5 6 (-1)) s) (fun t => readX (here t) 5 == 0x13) = true ∧
     nextIs (exec (.sh 7 6 1) s) (fun t => (here t).sb.map (·.bytes) == [[((false, 0x80000002), 0x88), ((false, 0x80000003), 0x77)]]) = true) :=
  ⟨⟨rfl, rfl⟩, ⟨rfl, rfl⟩, by decide +kernel⟩

/-- A scoped access at its alignment and off it; the scratchpad window from 0 on: an owned block, a block of nobody, and an access that leaves
the window; an address that is not canonical. -/
theorem meets_OtherAccesses :
    (let s := mem5 [(6, 0x80000000), (7, 0x80000002), (8, 0x0100000000000000)]
     let o := { user [(6, 0x10), (7, 0x1000), (8, 0x0100000000000000)] with
       cores := [(0, { owner := [(0, 0)] })]
       spad := [(0x10, 0x80)]
       parts := [(0, { spwin := 0 })] }
     unheld (.mld 5 6 0 2 .aq .clus) s ∧ unheld (.mst 7 7 0 2 .rl .clus) s ∧ steady o ∧ steady s ∧ ordinary o 6 ∧ ordinary o 5 ∧ (here o).sb = [] ∧
     (here o).claim = none ∧ (here s).claim = none ∧ ordinary s 8 ∧ ordinary s 5 ∧ acqClear s s.cur = true ∧ settled s s.cur .clus = true ∧
     answers (operands [6] (some 5) s) (fun l s1 => l == [0x80000000] && canonical 0x80000000 && answers (resolve .read 0x80000000 4 false s1)
       fun p s2 => p.1 == [(⟨.hbm 0, 0x80000000⟩, 4)] && mayAccess s2 s2.cur [⟨0, 0, 0x80000000, p.1, []⟩]) = true ∧
     answers (operands [6, 7] none s) (fun _ s1 => answers (memWrite 0x80000000 (leBytes 4 0) false .rl .clus s1) fun _ _ => true) = true ∧
     nextIs (exec (.mld 5 6 0 2 .aq .clus) s) (fun t => readX (here t) 5 == 0x13) = true ∧
     nextIs (exec (.mld 5 7 0 2 .aq .clus) s) (fun t => (here t).trapRec.any fun r => fieldOf r.w0 0 6 == 4) = true ∧
     nextIs (exec (.mst 7 7 0 2 .rl .clus) s) (fun t => (here t).trapRec.any fun r => fieldOf r.w0 0 6 == 6) = true ∧
     acqClear o o.cur = true ∧ inWindow o o.cur 0x10 = true ∧ ownsRange o o.cur 0x10 1 = true ∧ ownsRange o o.cur 0x1000 1 = false ∧
     inWindow o o.cur 0xFFFFFF = true ∧ inWindow o o.cur 0x1000000 = false ∧ canonical 0x0100000000000000 = false ∧
     nextIs (exec (.lb 5 6 0) o) (fun t => readX (here t) 5 == 0xFFFFFFFFFFFFFF80) = true ∧
     nextIs (exec (.lb 5 7 0) o) (fun t => (here t).trapRec.any fun r => fieldOf r.w0 0 6 == 5) = true ∧
     nextIs (exec (.ld 5 8 0) o) (fun t => (here t).trapRec.any fun r => fieldOf r.w0 0 6 == 5) = true ∧
     nextIs (exec (.lw 5 8 0) s) (fun t => (here t).trapRec.any fun r => fieldOf r.w0 0 6 == 5) = true ∧
     nextIs (exec (.sw 5 8 0) s) (fun t => (here t).trapRec.any fun r => fieldOf r.w0 0 6 == 7) = true) :=
  ⟨⟨rfl, rfl⟩, ⟨rfl, rfl⟩, ⟨rfl, rfl⟩, ⟨rfl, rfl⟩, ordinary_low _ (by decide), ordinary_low _ (by decide), rfl, rfl, rfl, ordinary_low _ (by decide),
    ordinary_low _ (by decide), by decide +kernel⟩

/-- An addition, a load-reserved, an exchange that is expected; a bound end as rd of `cas`. -/
theorem meets_AtomicOperations :
    (let s := mem5 [(5, 0x13), (6, 0x80000000), (7, 0xFFFFFFFF)]
     let q := queued false [] 0
     let l : Loc := ⟨.hbm 0, 0x80000000⟩
     let w := queued true [] 0
     let h := { s with filter := [(0x2000000, true)] }
     let r := modCtx s 5 fun c => { c with resv := some { block := blockOf l, since := 0, valid := true, prio := none } }
     unheld (.amoadd 5 7 6 false false false) s ∧ unheld (.lr 5 6 false false false) s ∧ unheld (.xamCas 5 7 6 .ar false .sys) s ∧ ordinary s 5 ∧
     (atomicOf (.amoadd 5 7 6 false false false)).isSome = true ∧
     answers (operands [6, 7] (some 5) s) (fun v s1 => v.length == 2 &&
       answers (beginAtomic .add true 0x80000000 4 0xFFFFFFFF 0 false .rlx .sys s1) fun m s2 =>
         (m.1 matches .done 0x13) && answers (writeRd 5 0x13 s2) fun _ _ => true) = true ∧
     answers (beginAtomic .lr true 0x80000000 4 0 0 false .rlx .sys s) (fun m _ => m.1 matches .done 0x13) = true ∧
     answers (beginAtomic .cas false 0x80000000 4 7 0x13 false .rlx .sys s) (fun m _ => m.1 matches .done 0x13) = true ∧
     endNo 24 = some 0 ∧ isWriteEnd w w.cur 0 = true ∧
     answers (resolve .write 0x80000000 4 false h) (fun p s1 => p.1 == [(l, 4)] && (siteNeeds s1 5 .add l 4 1 0).isSome) = true ∧
     nextIs (exec (.amoadd 5 7 6 false false false) h) (fun t => (here t).out.map (fun o => (o.rd, o.atomic)) == [(5, true)] && t.atomics.length == 1) = true ∧
     answers (resolve .write 0x80000000 4 false s) (fun p s1 => p.1 == [(l, 4)] && (siteNeeds s1 5 .add l 4 1 0).isNone && s1.cur == s.cur) = true ∧
     acqClear s s.cur = true ∧ settled s s.cur .sys = true ∧ (here s).sb = [] ∧ (here s).out = [] ∧ s.writes = [] ∧
     atomStores .fadd 4 0x3F800000 0x40000000 = some 0x40400000 ∧ atomStores .bfadd2 4 0x3F803F80 0x40003F80 = some 0x40404000 ∧
     resvValid r 5 (blockOf l) = true ∧ resvValid (atSite r 5 .add true l 4 7 0 .rlx .sys []).2 5 (blockOf l) = true ∧
     resvValid (atSite r 5 .add false l 4 7 0 .rlx .sys []).2 5 (blockOf l) = false ∧
     State.wf s = true ∧ isBound q q.cur 0 = true ∧
     nextIs (exec (.amoadd 5 7 6 false false false) s) (fun t => readX (here t) 5 == 0x13 && readBytes t.mem 0x80000000 4 == leBytes 4 0x12) = true ∧
     nextIs (exec (.xamCas 5 7 6 .ar false .sys) s) (fun t => readX (here t) 5 == 0x13 && readBytes t.mem 0x80000000 4 == leBytes 4 0xFFFFFFFF) = true ∧
     nextIs (exec (.lr 5 6 false false false) s) (fun t => (here t).resv.any (·.valid)) = true ∧
     nextIs (exec (.xamCas 24 7 6 .ar false .sys) q) (fun t => (here t).trapRec.any fun r => fieldOf r.w0 0 6 == 24) = true ∧
     (atSite s 5 .maxu true l 1 7 0 .rlx .sys []).1 = 0x13) :=
  ⟨⟨rfl, rfl⟩, ⟨rfl, rfl⟩, ⟨rfl, rfl⟩, ordinary_low _ (by decide), by decide +kernel⟩

/-- A line of device memory, the window, user mode, and the whole line of zeros. -/
theorem meets_CacheInstructions :
    (let s := mapped (zero [(6, 0x80000010), (7, 0x10), (8, 0x0100000000000000)])
     let w := { s with parts := [(0, { placePart {} with windows := [⟨0x80000000, 0x100000, 2, 2⟩], hdmBase := 0x100000000000 })] }
     unheld (.clInval 6) s ∧ unheld (.clZero 6) s ∧ unheld (.clPref 8) s ∧ steady (mem5 []) ∧ (cacheOpOf (.clInval 6)).isSome = true ∧ (here s).sup = true ∧
     answers (operands [6] none s) (fun l s1 => l == [0x80000010] && acqClear s1 s1.cur && answers (clResolve .read 0x80000010 s1) fun r s2 =>
       (r.any fun p => p.1.cls == .hbm 0) && decide ((here s2).sb.length < 8)) = true ∧
     answers (clResolve .write 0x80000010 s) (fun r s2 => r.isSome && decide ((here s2).sb.length < 8)) = true ∧
     canonical 0x10 = true ∧ inWindow s s.cur 0x10 = true ∧ (here (mem5 [])).sup = false ∧
     (locate w 0 0x80000010).cls = .peer ∧
     nextIs (exec (.clInval 6) s) (fun t => (here t).sb.map (fun e => (e.kind, e.addr / 128)) == [(.inval, 0x1000000)]) = true ∧
     nextIs (exec (.clFlush 7) s) (fun t => (here t).sb.isEmpty && (here t).pc == 0x80000004) = true ∧
     nextIs (exec (.clZero 6) s) (fun t => (here t).sb.map (·.bytes.length) == [128]) = true ∧
     nextIs (exec (.clPref 8) s) (fun t => (here t).pc == 0x80000004) = true ∧
     nextIs (exec (.clInval 6) (mem5 [])) (fun t => (here t).trapRec.any fun r => fieldOf r.w0 0 6 == 2) = true) :=
  ⟨⟨rfl, rfl⟩, ⟨rfl, rfl⟩, ⟨rfl, rfl⟩, ⟨rfl, rfl⟩, by decide +kernel⟩

/-- An entry that may leave and one that may not; a write at its home with and without a live lease. -/
theorem meets_StoreBuffers :
    (let b : List ((Bool × Nat) × Byte) := [((false, 0x80000000), 1), ((true, 0x20), 2)]
     let e : SbEntry := { bytes := b }
     let s0 := mem5 [(6, 0x80000000), (7, 5)]
     let u := { s0 with ctxs := [(5, { ctxWith [] with sb := [e] })] }
     let s := { u with cores := [(0, { owner := [(0, 0)] })] }
     let r := { s0 with
       ctxs := [(5, { ctxWith [] with sb := [{ e with order := .rl }] })]
       writes := [{ id := 1, agent := 5, kind := .store, addr := 0x90000000, bytes := [(0x90000000, 1)], order := .rlx, scope := .sys, tags := [],
                    ea := 0, atHome := false, home := false, inv := [], acks := [] }] }
     let l := { r with dies := [(0, { started := some (word placePc), leases := [(0x1200000, 256)] })] }
     acqClear s0 s0.cur = true ∧ unheld (.sh 7 6 0) s0 ∧ (here s0).claim = none ∧ ordinary s0 6 ∧ ordinary s0 7 ∧
     answers (resolve .write 0x80000000 4 false s0) (fun p s1 => p.1.length == 1 && decide ((here s1).sb.length < 8) && s1.cur == s0.cur) = true ∧
     mayLeave s 5 e = true ∧ State.wf s = true ∧ unreachable s 5 (lineOf 0x80000000 * 128) = false ∧ ownsEntry s 5 e = true ∧ mayLeave u 5 e = true ∧ ownsEntry u 5 e = false ∧
     mayLeave r 5 { e with order := .rl } = false ∧
     unreachable r 5 0x90000000 = false ∧ laneBusyFrom r 1 (stationOf 5) 0x1200000 = false ∧ heldByReset r 1 0x90000000 = false ∧ (r.writes.all fun w => !behindOwn r w) = true ∧
     (locOfKey r 0x90000000).cls = .hbm 0 ∧ leaseOver r 0x1200000 = true ∧ (r.writes.map (performNeeds r)) = [[]] ∧ leaseOver l 0x1200000 = false ∧
     nextIs (exec (.storeBufferLeave 5) s) (fun t => readByte t.spad 0x20 == 2 && t.writes.length == 1 && t.mem == s.mem) = true ∧
     nextIs (exec (.storeBufferLeave 5) u) (fun t => (getCtx t 5).status == .trapped && (getCtx t 5).sb.isEmpty && t.writes.isEmpty) = true ∧
     goesTo (exec (.storeBufferLeave 5) r) (applyReqs r (visibleReqs r)) = true ∧
     nextIs (exec (.homeWritePerformed 1) r) (fun t => readByte t.mem 0x90000000 == 1 && t.writes.isEmpty) = true ∧
     nextIs (exec (.homeWritePerformed 1) l) (fun t => t.mem == l.mem && t.writes.map (·.atHome) == [true]) = true ∧
     (bytesOf s0 5 0 [{ bytes := b.take 1 }] [(⟨.hbm 0, 0x80000000⟩, 1)] matches .ok ([1], _)) = true ∧
     (bytesOf s0 5 0 [{ bytes := b.take 1 }] [(⟨.hbm 0, 0x80000000⟩, 2)] matches .error (.needs _)) = true ∧
     (bytesOf s0 5 0 [{ bytes := [((false, 2 ^ 52 + 2 ^ 51 + 0x100), 9)] }] [(⟨.mgmt, 2 ^ 52 + 2 ^ 51 + 0x100⟩, 1)] matches .ok ([0], _)) = true) :=
  ⟨by decide +kernel, ⟨rfl, rfl⟩, rfl, ordinary_low _ (by decide), ordinary_low _ (by decide), by decide +kernel⟩

/-- A valid reservation, one that is 4,096 cycles old, a priority reservation at its end, a qualification past its window. -/
theorem meets_Reservations :
    (let r : Resv := { block := 0x1000000, since := 0, valid := true, prio := some 4096 }
     let q : Qual := { block := 0x1000000, since := 0, seq := none, until_ := 4095 }
     let s0 := mem5 []
     let s := { s0 with ctxs := [(5, { ctxWith [] with resv := some { r with prio := none } })] }
     let o := { s0 with clock := 4096, ctxs := [(5, { ctxWith [] with resv := some r, qual := some q })] }
     let l : Loc := ⟨.hbm 0, 0x80000000⟩
     State.wf s = true ∧ resvValid s 5 (blockOf l) = true ∧ resvValid s0 5 (blockOf l) = false ∧ (getCtx o 5).resv = some r ∧ tfind o.ctxs 5 ≠ none ∧
     (atSite s 5 .sc true l 4 9 0 .rlx .sys []).1 = 0 ∧ readBytes (atSite s 5 .sc true l 4 9 0 .rlx .sys []).2.mem 0x80000000 4 = leBytes 4 9 ∧
     (atSite s0 5 .sc true l 4 9 0 .rlx .sys []).1 = 1 ∧ (getCtx o 5).qual = some q ∧
     nextIs (exec (.reservationExpiry 5) o) (fun t => (getCtx t 5).resv == some { r with valid := false }) = true ∧
     goesTo (exec (.reservationExpiry 5) s) s = true ∧
     nextIs (exec (.qualificationLapse 5) o) (fun t => (getCtx t 5).qual.isNone) = true ∧
     goesTo (exec (.qualificationLapse 5) { o with clock := 4095 }) { o with clock := 4095 } = true ∧
     nextIs (exec (.priorityReservationEnd 0x1000000) o) (fun t => (getCtx t 5).resv == some { r with prio := none }) = true) := by
  decide +kernel

/-- An atomic to host memory before it is sent, off its alignment, and with its reply; one at its home and one to an offline die; unordered I/O of a
context and of the hub. -/
theorem meets_MessagesAndReplies :
    (let s := mem5 [(6, 0x800000000000), (7, 3), (8, 0x800000000002)]
     let e : ReadElem := ⟨0, 0, 0x80000000, [(⟨.hbm 0, 0x80000000⟩, 4)], []⟩
     let a : Outstanding := { id := 3, pc := 0x80000000, iw := 0, order := .rlx, atomic := false, rd := 5, vd := none, size := 4, signed := true, elems := [e],
                              marks := 0x20, slot := none, taken := [], reply := none }
     let with_ (l : Ctx → Ctx) : State := modCtx s 5 l
     let p := with_ fun c => { c with out := [a] }
     let pr := with_ fun c => { c with out := [{ a with atomic := true, reply := some (.value 0xFFFFFFFF) }] }
     let pt := with_ fun c => { c with out := [{ a with reply := some (.trap 30 0) }] }
     let pv := with_ fun c => { c with out := [{ a with vd := some 0, marks := 0 }] }
     let ps := modCtx (queued true [] 0) 5 fun c => { c with out := [{ a with atomic := true, reply := some (.value 9), slot := some 1, marks := 0 }] }
     let m : Atomic := { id := 3, agent := 5, op := .add, pa := 0x80000000, size := 4, opnd := 2, expv := 0, order := .rlx, scope := .sys, packet := false }
     let h := { s with ctxs := [(5, { ctxWith [] with sent := some 3 })], atomics := [m] }
     let o := { h with dies := [(0, { off := true })] }
     let k := { h with atomics := [{ m with packet := true }] }
     let r : UioRead := { id := 4, agent := 5, pa := 2 ^ 52 + 0x800000000000, data := none, failed := false }
     let u := { s with uio := [r] }
     let v := { s with uio := [{ r with agent := Config.agents }] }
     let y : Write := { id := 4, agent := 5, kind := .store, addr := 2 ^ 52 + 0x90000000, bytes := [(2 ^ 52 + 0x90000000, 1)], order := .rlx, scope := .sys, tags := [],
                        ea := 0x90000000, atHome := true, home := false, inv := [], acks := [] }
     let z := { s with
       writes := [y]
       parts := [(0, { placePart {} with windows := [⟨0x90000000, 0x100000, 2, 2⟩], hdmBase := 0x100000000000 })] }
     let b := { s with backs := [⟨9, 7, 5⟩] }
     steady s ∧ (here s).claim = none ∧ ordinary s 6 ∧ ordinary s 7 ∧ ordinary s 5 ∧ (atomicOf (.amoadd 5 7 6 false false false)).isSome = true ∧
     (here s).out = [] ∧ (here s).sb = [] ∧ settled s s.cur .sys = true ∧ s.writes = [] ∧ acqClear s s.cur = true ∧
     answers (resolve .write 0x800000000000 4 false s) (fun q s1 => q.1.length == 1 && (q.1.all fun x => x.1.cls == .host && x.2 == 4) && s1.cur == s.cur &&
       acqClear s1 s1.cur) = true ∧
     lostElem p 5 a = none ∧ answers (readElems 5 (readerOf 5 3) [] [e] p) (fun l p' => l == [(e, 0x13)] && (getCtx p' 5).out == [a] && !(getCtx p' 5).stepping) = true ∧
     ((settleOut p 5).ctxs.map fun c => (c.2.out.length, readX c.2 5)) = [(0, 0x13)] ∧
     (settleOut pv 5).ctxs.map (fun c => c.2.out.length) = [0] ∧
     (getCtx (settleOut pr 5) 5).x.toList.getD 5 0 = 0xFFFFFFFFFFFFFFFF ∧
     ps.queues.map (fun q => canPush ps q 5 (dataEntry 0) (some 3) && settledBefore ps 5 3 (queueScope q)) = [true] ∧
     (settleOut ps 5).queues.map (fun q => q.items.map (·.entry)) = [[dataEntry 9]] ∧
     atBoundary (here pt) = true ∧ ((here (settleOut pt 5)).trapRec.any fun r => fieldOf r.w0 0 6 == 30 && r.w2 == 0x80000000) = true ∧
     registerOnly (.addi 6 5 1) = some ([5], 6) ∧ a.marks.getLsbD (5 : Reg).toNat = true ∧ goesTo (exec (.addi 6 5 1) p) p = true ∧
     goesTo (exec .ecall p) p = true ∧ nextIs (exec (.addi 6 7 1) p) (fun t => readX (here t) 6 == 4) = true ∧
     b.backs.find? (fun x => x.id == 9) = some ⟨9, 7, 5⟩ ∧ nextIs (exec (.uioCompletion 9 true 0) b) (fun t => t.backs.isEmpty && tfind t.stale 7 == some 5) = true ∧
     behindLoad h m = false ∧ unreachable h 5 m.pa = false ∧ laneBusyFrom h 3 (stationOf 5) (lineOf m.pa) = false ∧ heldByReset h 3 m.pa = false ∧ siteNeeds { h with resets := [] } 5 .add (locOfKey h m.pa) 4 2 0 (some 3) = none ∧
     unreachable o 5 m.pa = true ∧ packetTaken (opPacket m) = true ∧ packetTaken (opPacket { m with pa := 0x80000002 }) = false ∧ State.wf v = true ∧ r.pa % 128 = 0 ∧
     nextIs (exec (.amoadd 5 7 6 false false false) s) (fun t => t.atomics.length == 1 && (here t).out.map (·.id) == t.atomics.map (·.id) && (here t).pc == 0x80000004) = true ∧
     nextIs (exec (.amoadd 5 7 8 false false false) s) (fun t => (here t).trapRec.any fun r => fieldOf r.w0 0 6 == 6) = true ∧
     nextIs (exec (.homeAtomic 3) h) (fun t => (here t).reply == some (.value 0x13) && readByte t.mem 0x80000000 == 0x15) = true ∧
     nextIs (exec (.offlineReply 3) o) (fun t => (here t).reply == some .offline && t.mem == o.mem) = true ∧
     nextIs (exec (.operationPacketCompletion 3 true 9) k) (fun t => (here t).reply == some (.value 9)) = true ∧
     nextIs (exec (.uioCompletionTimeout 3) k) (fun t => (here t).reply == some (.trap 7 0)) = true ∧
     nextIs (exec (.uioCompletion 4 true 7) u) (fun t => t.uio.map (·.data) == [some 7]) = true ∧
     nextIs (exec (.uioCompletionTimeout 4) u) (fun t => t.uio.map (·.failed) == [true]) = true ∧
     uncached z (y.addr / 128) = true ∧ nextIs (exec (.uioCompletion 4 true 0) z) (fun t => t.writes.isEmpty && (here t).status == .ready) = true ∧
     nextIs (exec (.uioCompletion 4 false 0) z) (fun t => t.writes.isEmpty && (here t).trapRec.any fun r => fieldOf r.w0 0 6 == 7) = true ∧
     nextIs (exec (.uioCompletion 4 true 7) v) (fun t => readLine t.mem (r.pa / 128) == 7 && t.tier2 == [r.pa / 128]) = true) :=
  ⟨⟨rfl, rfl⟩, rfl, ordinary_low _ (by decide), ordinary_low _ (by decide), ordinary_low _ (by decide), by decide +kernel⟩

/-! Single precision, gates, queue instructions -/

/-- −0 and a signaling NaN among the sources. -/
theorem meets_FloatSignsAndComparisons :
    (let s := user [(6, 0x80000000), (7, 0x3F800000), (8, 0x7F800001)]
     unheld (.fsgnjnS 5 6 7) s ∧ unheld (.feqS 5 6 8) s ∧ unheld (.fminS 5 6 8) s ∧ unheld (.fclassS 5 6) s ∧ (signInject (.fsgnjnS 5 6 7)).isSome = true ∧ (floatCompare (.feqS 5 6 8)).isSome = true ∧
     answers (operands [6, 8] (some 5) s) (fun l s1 => l == [0x80000000, 0x7F800001] && answers (writeRd 5 0 (afterRound s1 fNV 0)) fun _ _ => true) = true ∧
     answers (operands [6] (some 5) s) (fun l _ => l == [0x80000000]) = true ∧
     nextIs (exec (.fsgnjnS 5 6 7) s) (fun t => readX (here t) 5 == 0xFFFFFFFF80000000) = true ∧
     nextIs (exec (.fminS 5 6 8) s) (fun t => readX (here t) 5 == 0xFFFFFFFF80000000 && (here t).ucsr.fflags == fNV) = true ∧
     nextIs (exec (.feqS 5 6 8) s) (fun t => readX (here t) 5 == 0 && (here t).ucsr.fflags == fNV) = true ∧
     nextIs (exec (.feqS 5 6 0) s) (fun t => readX (here t) 5 == 1) = true ∧
     nextIs (exec (.fclassS 5 6) s) (fun t => readX (here t) 5 == 8) = true ∧
     units (-2) (.fin true 3 0 false) = some (-12) ∧ minMaxF fp32 true 0x80000000 0 = (0, 0) ∧ minMaxF fp32 false 0 0x80000000 = (0x80000000, 0) ∧
     minMaxF fp32 true 0x7FC00000 0x7F800001 = (0x7FC00000, fNV) ∧ minMaxF fp32 false 0x3F800000 0x7FC00000 = (0x3F800000, 0)) :=
  ⟨⟨rfl, rfl⟩, ⟨rfl, rfl⟩, ⟨rfl, rfl⟩, ⟨rfl, rfl⟩, by decide +kernel⟩

/-- A sum that is inexact, a conversion each way, and a value below the range. -/
theorem meets_FloatResults :
    (let s := user [(6, 0x3F800000), (7, 0x33000000), (8, 0xBFC00000)]
     unheld (.faddS 5 6 7 .rup) s ∧ unheld (.fcvtWS 5 8 .rne) s ∧ unheld (.fcvtSW 5 8 .rtz) s ∧ (floatOf (.faddS 5 6 7 .rup)).isSome = true ∧ (floatToInt (.fcvtWS 5 8 .rne)).isSome = true ∧
     (intToFloat (.fcvtSW 5 8 .rtz)).isSome = true ∧
     answers (operands [6, 7] (some 5) s) (fun l s1 => l.length == 2 && answers (writeRd 5 0 (afterRound s1 fNX 0)) fun _ _ => true) = true ∧
     answers (operands [8] (some 5) s) (fun l _ => l == [0xBFC00000]) = true ∧ units 0 (.fin true 3 0 false) = some (-3) ∧
     nextIs (exec (.faddS 5 6 7 .rup) s) (fun t => readX (here t) 5 == 0x3F800001 && (here t).ucsr.fflags == fNX) = true ∧
     nextIs (exec (.fcvtWS 5 8 .rne) s) (fun t => readX (here t) 5 == 0xFFFFFFFFFFFFFFFE) = true ∧
     nextIs (exec (.fcvtWuS 5 8 .rne) s) (fun t => readX (here t) 5 == 0 && (here t).ucsr.fflags == fNV) = true ∧
     nextIs (exec (.fcvtSW 5 8 .rtz) s) (fun t => readX (here t) 5 == 0xFFFFFFFFCE808000) = true ∧
     units (-1) (.fin true 3 (-1) false) = some (-3) ∧ (addV true (.fin false 3 0 false) (.fin true 3 0 false)).1.neg = true ∧
     divV (.fin false 1 0 false) (.fin true 0 0 false) = (.inf true, fDZ) ∧ mulV (.inf true) (.fin false 0 0 false) = (.nan false, fNV)) :=
  ⟨⟨rfl, rfl⟩, ⟨rfl, rfl⟩, ⟨rfl, rfl⟩, by decide +kernel⟩

/-- 2^-150 in single precision, which is a tie between 0 and the least encoding. -/
theorem meets_RoundingIsCorrect :
    fp32 ∈ formats ∧ (roundF fp32 .rne false 1 (.fin false 1 (-150) false)).2.1 &&& fOF = 0 ∧
    (roundF fp32 .rne false 1 (.fin false 1 (-150) false)).1 = 0 ∧ (roundF fp32 .rup false 1 (.fin false 1 (-150) false)).1 = 1 :=
  ⟨by simp [formats], by decide +kernel⟩

theorem meets_CoreAndModeGates :
    (let s := user []
     let h := hub []
     steady s ∧ steady h ∧ isHub h.cur = true ∧ barrelCore .ctxPark = true ∧ (here s).sup = false ∧ supervisorMode .sret = true ∧
     isHub s.cur = false ∧ ctxNo s.cur ≠ 0 ∧ contextZero (.ctxStart 5 6) = true ∧
     nextIs (exec .ctxPark h) (fun t => (here t).scsr.scause == 2) = true ∧
     nextIs (exec .sret s) (fun t => (here t).trapRec.any fun r => fieldOf r.w0 0 6 == 2) = true ∧
     nextIs (exec (.ctxStart 5 6) s) (fun t => (here t).trapRec.any fun r => fieldOf r.w0 0 6 == 26) = true) :=
  ⟨⟨rfl, rfl⟩, ⟨rfl, rfl⟩, by decide +kernel⟩

/-- A token of level 2 at the head, and no head. -/
theorem meets_QTagReturnsHeadState :
    (let s := queued false [{ pos := 0, entry := tokenEntry 2, owner := none }] 0
     unheld (.qTag 5 0) s ∧ isHub s.cur = false ∧ ordinary s 5 ∧ headAtHand s 0 ∧ headAtHand (queued false [] 0) 0 ∧ isReadEnd s s.cur 0 = true ∧
     isLent s s.cur 0 = false ∧ nextIs (exec (.qTag 5 0) s) (fun t => readX (here t) 5 == 10) = true ∧
     nextIs (exec (.qTag 5 0) (queued false [] 0)) (fun t => readX (here t) 5 == 16) = true) :=
  ⟨⟨rfl, rfl⟩, by decide +kernel, ordinary_low _ (by decide), ⟨by decide +kernel, fun h => absurd h (by decide +kernel)⟩,
   ⟨by decide +kernel, fun _ _ _ h => nomatch (show (none : Option (Queue × Item)) = some _ from h)⟩, by decide +kernel⟩

/-- A write end that takes the token, a full one; a read end with a token of the level, a lower one, data, and nothing; an unbound end. -/
theorem meets_QueueTokensAndHeads :
    (let d : Item := { pos := 0, entry := dataEntry 9, owner := none }
     let w := queued true [] 0
     let f := queued true [d, { d with pos := 1 }] 0
     let r := queued false [{ d with entry := tokenEntry 2 }] 0
     let n := queued false [] 0
     steady w ∧ steady r ∧ steady n ∧ acquired r 0 ∧ ordinary r 5 ∧ isHub w.cur = false ∧ isWriteEnd w w.cur 0 = true ∧ isWriteEnd r r.cur 0 = false ∧
     (w.queues.any fun q => canPush w q w.cur (tokenEntry 3) && !q.coil && settled w w.cur (queueScope q)) = true ∧
     (f.queues.any fun q => !canPush f q f.cur (tokenEntry 3)) = true ∧
     isReadEnd w w.cur 0 = false ∧ isReadEnd r r.cur 0 = true ∧ isLent r r.cur 0 = false ∧ offered n n.cur 0 = [] ∧ popNeeds n n.cur 0 = none ∧
     offered r r.cur 0 = [tokenEntry 2] ∧ headEntry r 0 = some (tokenEntry 2) ∧ headEntry n 0 = none ∧ (popHead r r.cur 0).isSome = true ∧
     otherBound w w.cur 0 = false ∧ isLent w w.cur 0 = false ∧ (endOf w w.cur 0).closed = false ∧ acqClear w w.cur = true ∧ popNeeds r r.cur 0 = none ∧ (tokenEntry 2).isToken = true ∧
     answers (inspect 0 r) (fun _ _ => true) = true ∧ (popEnd r r.cur 0).isSome = true ∧ isBound r r.cur 1 = false ∧ countEnd r r.cur 0 = some 1 ∧
     countEnd w w.cur 0 = some 2 ∧
     nextIs (exec (.qTok 0 3) w) (fun t => t.queues.all fun q => q.items.map (·.entry) == [tokenEntry 3]) = true ∧
     nextIs (exec (.qClose 0) w) (fun t => (t.queues.all fun q => q.items.map (·.entry) == [tokenEntry 7]) && (endOf t t.cur 0).closed) = true ∧
     goesTo (exec (.qTok 0 3) f) (parkCtx f (.push 0 true)) = true ∧
     nextIs (exec (.qTok 0 3) r) (fun t => (here t).trapRec.any fun r => fieldOf r.w0 0 6 == 24) = true ∧
     nextIs (exec (.qBt 0 2 (-1)) r) (fun t => (here t).pc == 0x7FFFFFFC && t.queues.all fun q => q.items.isEmpty) = true ∧
     nextIs (exec (.qBt 0 3 (-1)) r) (fun t => (here t).pc == 0x80000004 && t.queues.all fun q => q.items.length == 1) = true ∧
     goesTo (exec (.qPeek 5 0) n) (parkCtx n (.look 0)) = true ∧
     nextIs (exec (.qCnt 5 0) w) (fun t => readX (here t) 5 == 2) = true ∧
     nextIs (exec (.qCnt 5 1) w) (fun t => (here t).trapRec.any fun r => fieldOf r.w0 0 6 == 24) = true) :=
  ⟨⟨rfl, rfl⟩, ⟨rfl, rfl⟩, ⟨rfl, rfl⟩, fun _ => by decide +kernel, ordinary_low _ (by decide), by decide +kernel⟩

/-! Context 0 and contexts -/

/-- A pipeline descriptor at 0x80001000: one stage, which starts at 0x80002000 and binds q0 to read the one near queue, of 8 entries. -/
def pdescCells : List (Nat × Byte) :=
  cellsAt 0x80001000 ((leBytes 8 0x2010001) ++ (leBytes 8 0x80001040) ++ (leBytes 8 0x80001080)) ++
  cellsAt 0x80001040 (leBytes 8 0x80002000 ++ leBytes 8 0xFFFFFFFFFFFFFF00) ++ cellsAt 0x80001080 (leBytes 1 6)

/-- A launch record of that descriptor: arguments 1 and 2, spill base 0x30, stage 0, KIND 0, cone 3, one unit of spill, 16 vector rows. -/
def rec1 : LRec := ⟨0x80001000, 1, 2, 0x39, 0, 3, 0x1001, 0⟩

/-- Context 0 with the descriptor in memory, and a launch record whose handle is 513. -/
def starter (l : List (Nat × Word)) : State :=
  let s := mapped (zero l)
  { s with
    mem := writeCells s.mem pdescCells
    clusters := [(0, { launch := [{ slot := 1, gen := 1, record := rec1, poster := .agent 0, seq := 0, core := some 0, stage := none }] })] }

/-- The same with context 5 as given. -/
def withFive (s : State) (c : Ctx) : State := { s with ctxs := s.ctxs ++ [(5, c)] }

/-- Context `a` as the consumer of a coil owned by core 0, without bags; its pop is on its way, or not. -/
def coilOf (a : Nat) : State :=
  let e : QEnd := { queue := some 1, write := false, waits := some 7 }
  let q : Queue :=
    { id := 1, part := 0, space := 0, pdesc := 0x1000, inst := 0, index := 0, coil := true, depth := 2, bag := false, ord := true, scope := .pkg,
      place := 0, core := 0, holder := none, ring := 0x80004000, ringCluster := 0, tail := 1,
      items := [{ pos := 0, entry := dataEntry 9, owner := none }], append := none, openBag := none, claims := [], copies := [] }
  let c := ctxWith []
  { mapped (only a { c with ends := c.ends.set 0 e }) with queues := [q] }

/-- A target that is READY, one that is bound already, one that can be bound, context 0 as a target; a near queue of two entries. -/
theorem meets_QueuesAreBoundAndFirstInFirstOut :
    (let s0 := starter [(6, 5), (7, 0), (8, 0x10)]
     let r := withFive s0 { ctxWith [] with status := .ready }
     let p := withFive s0 { ctxWith [] with status := .parked .self, record := some rec1 }
     let d : Item := { pos := 0, entry := dataEntry 9, owner := none }
     let w := queued true [d] 0
     let g := queued false [d, { d with pos := 1, entry := dataEntry 4 }] 0
     steady s0 ∧ isCtx0 p.cur = true ∧
     answers (operands [6, 7] (some 5) p) (fun l s1 => l == [5, 0] && (5 : Word).toNat % 16 != 0 && isBound s1 (bindTargetOf s1 5) (bindEndOf 5) == false) = true ∧
     bindable p 5 ∧ ¬ bindable r 5 ∧
     answers (bindTarget 5 0 0 false p) (fun n t => n == 0 && isBound t 5 0 && t.queues.length == 1) = true ∧
     answers (bindTarget 5 0 1 false p) (fun n t => n == 3 && t == p) = true ∧
     answers (operands [8, 7] (some 5) s0) (fun l _ => l == [0x10, 0]) = true ∧
     nextIs (exec (.qBind 5 6 7) p) (fun t => readX (here t) 5 == 0 && isBound t 5 0) = true ∧
     nextIs (exec (.qBind 5 6 6) p) (fun t => readX (here t) 5 == 3 && !isBound t 5 0) = true ∧
     nextIs (exec (.qBind 5 6 7) r) (fun t => readX (here t) 5 == 1) = true ∧
     nextIs (exec (.qUnbind 5 6) p) (fun t => readX (here t) 5 == 2) = true ∧
     nextIs (exec (.qBind 5 8 7) s0) (fun t => (here t).scsr.scause == 26) = true ∧
     (w.queues.all fun q => findQueue w q.id == some q && !q.bag && !q.coil) = true ∧
     hwRead g g.cur 0 = false ∧ (endOf g g.cur 0).got = [] ∧ ((endOf g g.cur 0).queue.bind (findQueue g)).isSome = true ∧
     (popEnd g g.cur 0).map (·.1) = some (dataEntry 9) ∧
     (getCtx p 5).record = some rec1 ∧ (match readHdr p (actorOf p 5) rec1.w0 with
       | .ok h s1 => decide (h.nqueue = 1) && (match readQDesc s1 (actorOf s1 5) h 0 with
         | .ok d s2 => !d.coil && (liveQueue s2 5 (getCtx p 5).space rec1.w0 rec1.inst 0 d.coil).isNone &&
             decide (ramUsed s2 (coreOf 5) + 2 ^ d.lgd ≤ 2048) && ((getCtx s2 5).space == (getCtx p 5).space)
         | _ => false)
       | _ => false) = true ∧
     (readHdr p (actorOf p 5) 0x100000000000000 matches .fail) = true ∧
     (endOf g g.cur 0).queue = some 1 ∧ endOf (unbindEnd g g.cur 0) g.cur 0 = {} ∧ (unbindEnd g g.cur 0).queues.length = 0 ∧
     (coilOf 0).queues.map (fun q => (isRemote q 5, isRemote q 4096)) = [(false, true)] ∧
     (popEnd (coilOf 4101) 4101 0).isNone = true ∧ (coilOf 4101).queues.map (fun q => (earlierPop (coilOf 4101) q 7, slotNeeds (coilOf 4101) q 0 .read)) = [(false, none)] ∧
     (endOf (servePop (coilOf 4101) 4101 0) 4101 0).got.map (·.entry) = [dataEntry 0]) := by
  refine ⟨⟨rfl, rfl⟩, by decide +kernel, by decide +kernel, ⟨rfl, .inr (by decide +kernel)⟩,
    fun h => h.2.elim (by decide +kernel) (by decide +kernel), ?_⟩
  decide +kernel

/-- A handle of a record, one of no record, an instance that is held, and a core without a free context. -/
theorem meets_ContextStart :
    (let s := starter [(6, 513), (7, 1)]
     let h := { s with preempts := [{ id := 1, part := 0, space := 0, inst := 0, area := 0, pdesc := 0x80001000, cores := [], saved := [], nextOff := 0,
                                      state := 1, code := 0, groups := [], flush := false }] }
     let f := { s with ctxs := (List.range 16).map fun n => (n, ctxWith []) }
     steady s ∧ isCtx0 s.cur = true ∧ answers (operands [6] (some 5) s) (fun l s1 => l == [513] && (match startCheck s1 513 with
       | .ok p _ => p.ctx == 1 | _ => false)) = true ∧
     (handleSlot s 0 513).isSome = true ∧ heldInst h 0 0 0 = true ∧ heldInst s 0 0 0 = false ∧
     (∀ n : Fin 15, (getCtx f (0 * 16 + (n + 1))).status ≠ .free) ∧
     nextIs (exec (.ctxStart 5 6) s) (fun t => readX (here t) 5 == 1 && (getCtx t 1).status == .ready && (getCtx t 1).pc == 0x80002000 &&
       readX (getCtx t 1) 10 == 1 && readX (getCtx t 1) 2 == 0x10000 && isBound t 1 0) = true ∧
     nextIs (exec (.ctxStart 5 7) s) (fun t => readX (here t) 5 == 0x17 && (getCtx t 1).status == .free) = true ∧
     nextIs (exec (.ctxStart 5 6) h) (fun t => readX (here t) 5 == 0x18) = true ∧
     freeRows s 0 = 1024 ∧ (carveTop s 0 1).isSome = true ∧
     (match startCheck s 513 with
      | .ok p s2 => p.ends.map (fun x => (x.k, x.write, x.desc.isSome)) == [(0, false, true)] && (getCtx (startCtx s2 p) 1).record == some rec1 &&
          (endOf (startCtx s2 p) 1 0).queue.isSome && (getCluster (startCtx s2 p) 0).launch.isEmpty
      | _ => false) = true) :=
  ⟨⟨rfl, rfl⟩, by decide +kernel⟩

/-- Targets in each state; an entry of the store buffer that is still to be performed. -/
theorem meets_ContextsAreResumed :
    (let s := zero [(6, 5), (7, 0)]
     let at' (c : Ctx) := withFive s c
     let w := { s with ctxs := [(0, { getCtx s 0 with sb := [{ bytes := [((true, 0x20), 1)] }] })] }
     steady s ∧ isCtx0 s.cur = true ∧ answers (operands [6] none s) (fun l s1 => l == [5] && settled s1 s1.cur .core && bindTargetOf s1 5 == 5) = true ∧
     answers (operands [6] none w) (fun _ s1 => !settled s1 s1.cur .core) = true ∧ isHub 5 = false ∧ ctxNo 5 ≠ 0 ∧
     nextIs (exec (.ctxResume 6) (at' { ctxWith [] with status := .trapped })) (fun t => (getCtx t 5).status == .ready && (getCtx t 5).pc == 0x80000000) = true ∧
     nextIs (exec (.ctxResume 6) (at' { ctxWith [] with status := .parked .self })) (fun t => (getCtx t 5).status == .ready && (getCtx t 5).pc == 0x80000004) = true ∧
     nextIs (exec (.ctxResume 6) (at' (ctxWith []))) (fun t => (getCtx t 5).wake) = true ∧
     nextIs (exec (.ctxResume 6) (at' { ctxWith [] with status := .parked .window })) (fun t => (getCtx t 5).status == .parked .window) = true ∧
     nextIs (exec (.ctxResume 6) s) (fun t => (getCtx t 5).status == .free) = true ∧ goesTo (exec (.ctxResume 6) w) w = true ∧
     nextIs (exec (.ctxResume 7) s) (fun t => (here t).scsr.scause == 26) = true ∧
     nextIs (exec (.ctxResume 6) (user [])) (fun t => (here t).trapRec.any fun r => fieldOf r.w0 0 6 == 26) = true) :=
  ⟨⟨rfl, rfl⟩, by decide +kernel⟩

/-- Operands of `ctx.reap` of each form; contexts with and without something outstanding, the wake bit, and an entry of the trap queue. -/
theorem meets_ContextEnd :
    (let s0 := starter [(6, 5), (7, 0x11), (8, 0x10000 + 513), (9, 0x20000)]
     let s := withFive s0 (ctxWith [])
     let b := withFive s0 { ctxWith [] with sb := [{}] }
     let u := user []
     let k := only 5 { ctxWith [] with wake := true }
     let v := only 5 { ctxWith [] with sb := [{}] }
     let z := zero []
     let zt := { z with cores := [(0, { trapQ := [dataEntry 0] })] }
     steady s ∧ isCtx0 s.cur = true ∧ answers (operands [6, 7] none s) (fun l s1 => l == [5, 0x11] && bindTargetOf s1 5 == 5) = true ∧
     (0x20000 : Word).toNat / 2 ^ 17 ≠ 0 ∧ bitOf 0x10201 16 = true ∧ (handleSlot s 0 (word ((0x10201 : Word).toNat % 2 ^ 16))).isSome = true ∧
     (getCtx s 5).status ≠ .free ∧ endable s 5 = true ∧ pugNeeds s 5 = [] ∧ endable b 5 = false ∧ (getCtx s0 5).status = .free ∧
     ctxNo u.cur ≠ 0 ∧ (here k).wake = true ∧ (here u).wake = false ∧ (getCore zt 0).trapQ ≠ [] ∧ endable v 5 = false ∧ endable u 5 = true ∧
     nextIs (exec (.ctxReap 9 7) s) (fun t => (getCtx t 5).status == .ready) = true ∧
     nextIs (exec (.ctxReap 8 7) s) (fun t => (handleSlot t 0 513).isNone && t.coneMsgs.isEmpty) = true ∧
     nextIs (exec (.ctxReap 6 7) s) (fun t => (getCtx t 5).status == .free && (here t).pc == 0x80000004) = true ∧
     nextIs (exec (.ctxReap 6 7) b) (fun t => (getCtx t 5).stopping == some 0x11 && (here t).status == .parked (.reap 5)) = true ∧
     nextIs (exec (.ctxReap 0 7) s) (fun t => (here t).scsr.scause == 26) = true ∧
     nextIs (exec .ctxPark k) (fun t => !(here t).wake && (here t).pc == 0x80000004) = true ∧
     goesTo (exec .ctxPark u) (parkCtx u .self) = true ∧ goesTo (exec .ctxPark z) (parkCtx z .self) = true ∧
     nextIs (exec .ctxPark zt) (fun t => (here t).pc == 0x80000004) = true ∧
     nextIs (exec .ctxExit z) (fun t => (here t).scsr.scause == 2) = true ∧ goesTo (exec .ctxExit v) v = true ∧
     nextIs (exec .ctxExit u) (fun t => (here t).status == .free) = true) :=
  ⟨⟨rfl, rfl⟩, by decide +kernel⟩

/-- A context with a record, context 0, and a hub core. -/
theorem meets_ContextIdentity :
    (let s := only 0x1FFF5 { ctxWith [] with record := some { rec1 with w4 := 0x1F, w5 := 0xABCD000000000000 } }
     let h := hub []
     steady s ∧ steady h ∧ s.cur < Config.agents ∧ h.cur < Config.agents ∧ isHub s.cur = false ∧ isHub h.cur = true ∧
     answers (operands [] (some 5) s) (fun l s1 => l == [] && s1 == s) = true ∧ answers (operands [] (some 5) h) (fun l s1 => l == [] && s1 == h) = true ∧
     nextIs (exec (.ctxSelf 5) s) (fun t => readX (here t) 5 == word (0x1FFF5 + 0x1F * 2 ^ 27 + 0xABCD * 2 ^ 37)) = true ∧
     nextIs (exec (.ctxSelf 5) (zero [])) (fun t => readX (here t) 5 == 0x20000) = true ∧
     nextIs (exec (.ctxSelf 5) h) (fun t => readX (here t) 5 == 0x8000000000020000) = true) :=
  ⟨⟨rfl, rfl⟩, ⟨rfl, rfl⟩, by decide +kernel⟩

/-- The own bits, those of another context from context 0 and from a context that may not name them, and those of a FREE context. -/
theorem meets_EventBits :
    (let u := user [(6, 255), (7, 0x13), (8, 3)]
     let s := withFive (zero [(6, 255), (7, 0x15), (8, 3)]) (ctxWith [])
     let e := only 5 { ctxWith [(6, 255), (7, 3), (8, 0x8000000000000000)] with ev := (1 : BitVec 256) <<< 255 }
     steady u ∧ steady s ∧ isHub s.cur = false ∧ ¬ evAllowed u 0x13 ∧ evAllowed s 0x15 ∧ evAllowed u 3 ∧ evTarget s 0x15 = 5 ∧
     settled s s.cur .core = true ∧ answers (operands [6, 7] none s) (fun l s1 => l == [255, 0x15] && s1 == s) = true ∧
     answers (operands [6, 0] (some 5) e) (fun l s1 => l == [255, 0] && s1 == e) = true ∧
     answers (operands [7, 8] none e) (fun l s1 => l.length == 2 && (here s1).ev.getLsbD (64 * 3 + 63)) = true ∧
     nextIs (exec (.evSet 6 7) u) (fun t => (here t).trapRec.any fun r => fieldOf r.w0 0 6 == 26) = true ∧
     nextIs (exec (.evSet 6 7) s) (fun t => (getCtx t 5).ev == (1 : BitVec 256) <<< 255) = true ∧
     nextIs (exec (.evClr 6 0) e) (fun t => (here t).ev == 0) = true ∧
     nextIs (exec (.evRd 5 6 0) e) (fun t => readX (here t) 5 == 1) = true ∧
     nextIs (exec (.evRd 5 6 7) (zero [(6, 255), (7, 0x15)])) (fun t => readX (here t) 5 == 0) = true ∧
     nextIs (exec (.evWait 6) e) (fun t => (here t).pc == 0x80000004) = true ∧
     goesTo (exec (.evWait 6) u) (parkCtx u (.event ((1 : BitVec 256) <<< 255))) = true ∧
     nextIs (exec (.evWaitm 7 8) e) (fun t => (here t).pc == 0x80000004) = true ∧
     nextIs (exec (.evWaitm 7 8) u) (fun t => (here t).pc == 0x80000000) = true) := by
  refine ⟨⟨rfl, rfl⟩, ⟨rfl, rfl⟩, by decide +kernel, fun h => ?_, fun h => .inl (by decide +kernel), fun h => absurd h (by decide +kernel), by decide +kernel⟩
  exact (h (by decide +kernel)).elim (by decide +kernel) (by decide +kernel)

/-- A cone of the own cluster and one of another; an arrival that trips it, one for another phase; a cone whose limit has passed. -/
theorem meets_Cones :
    (let c : Cone := { expect := 1, scope := 1 }
     let s := { user [(6, 3), (7, 0x50000), (8, 0x1003), (9, 0x40001), (10, 0x20001), (11, 1)] with clusters := [(0, { cones := [(3, c), (4, { c with expect := 2, arrived := 1, phase := 7 })] })] }
     let p := { s with ctxs := [(5, { ctxWith [(6, 3), (8, 0x1003)] with reply := some (.value 9), sent := some 2 })] }
     let m : ConeMsg := { id := 3, agent := 5, cone := 3, op := .join }
     let j := { s with coneMsgs := [m] }
     let k (op : ConeOp) : State := { s with ctxs := [(5, { ctxWith [] with status := .parked (.coneReply 3), sent := some 3 })], coneMsgs := [{ m with op }] }
     let a := k (.arrive 0 5 false)
     let b := k (.arrive 1 5 false)
     let w := k (.wait 1)
     let n := k (.init 1 2 0)
     let o := { s with clock := 2000000, clusters := [(0, { cones := [(3, { c with expect := 2, arrived := 1, timeout := 1 })] })] }
     steady s ∧ (coneInstr (.cnArrive 6 7)).isSome = true ∧
     answers (operands [6, 7] none s) (fun l s1 => l == [3, 0x50000] && s1 == s) = true ∧ coneReady s 3 true ∧ ownCone s 3 ∧ coneReady s 0x1003 true ∧
     ¬ ownCone s 0x1003 ∧ (here p).reply = some (.value 9) ∧ (4 ≤ (0x40001 : Word).toNat / 2 ^ 16 % 8) ∧ ((0x20001 : Word).toNat / 2 ^ 16 % 8 < 4) ∧
     inScope s s.cur 3 (getCone s 3) = true ∧ phasePassed (getCone s 3) 1 = false ∧ phasePassed (getCone s 4) 1 = true ∧ acqClear s s.cur = true ∧
     inScope s 0x2000 3 (getCone s 3) = false ∧ (getCone s 0).expect = 0 ∧
     j.coneMsgs.find? (fun x => x.id == 3) = some m ∧ clusterOnline s (coneCluster 3) = true ∧
     (getCone o 3).first + (getCone o 3).timeout * 1024 < o.clock ∧
     nextIs (exec (.cnArrive 6 7) s) (fun t => (here t).status == .parked (.coneReply 1) && (here t).pc == 0x80000000 &&
       t.coneMsgs.map (·.op) == [.arrive 0 5 false] && getCone t 3 == getCone s 3) = true ∧
     nextIs (exec (.coneArrival 3) a) (fun t => (getCone t 3).phase == 1 && (getCone t 3).err == 5) = true ∧
     nextIs (exec (.coneArrival 3) b) (fun t => getCone t 3 == getCone s 3) = true ∧
     nextIs (exec (.coneArrival 3) w) (fun t => t.coneMsgs.isEmpty && (getCtx t 5).reply.isNone && (getCtx t 5).sent.isNone) = true ∧
     (coneDo s 5 3 (.arrive 1 0 false)).2 = .trap 27 3 ∧
     nextIs (exec (.cnJoin 5 8) s) (fun t => (here t).status == .parked (.coneReply 1) && t.coneMsgs.length == 1) = true ∧
     nextIs (exec (.cnJoin 5 6) p) (fun t => readX (here t) 5 == 9) = true ∧
     nextIs (exec (.cnInit 6 9) s) (fun t => (here t).trapRec.any fun r => fieldOf r.w0 0 6 == 31) = true ∧
     nextIs (exec (.cnInit 6 10) s) (fun t => t.coneMsgs.map (·.op) == [.init 1 2 0]) = true ∧
     nextIs (exec (.coneInit 3) n) (fun t => (getCone t 3).expect == 1 && (getCone t 3).scope == 2) = true ∧
     goesTo (exec (.cnWait 5 6 11) s) (parkCtx s (.cone 3 1)) = true ∧
     nextIs (exec (.cnWait 5 8 11) s) (fun t => (here t).status == .parked (.cone 0x1003 1) && t.coneMsgs.map (·.op) == [.wait 1]) = true ∧
     nextIs (exec (.cnWait 5 8 11) p) (fun t => readX (here t) 5 == 9 && (here t).pc == 0x80000004) = true ∧
     nextIs (exec (.coneJoin 3) j) (fun t => (getCone t 3).delta == 1 && t.coneMsgs.isEmpty) = true ∧
     nextIs (exec (.coneTimeout 0 3) o) (fun t => (getCone t 3).err == 7 && (getCone t 3).phase == 1) = true) := by
  refine ⟨⟨rfl, rfl⟩, by decide +kernel, by decide +kernel, ⟨by decide +kernel, by decide +kernel, by decide +kernel, fun _ => by decide +kernel⟩,
    by unfold ownCone; decide +kernel, ⟨by decide +kernel, by decide +kernel, by decide +kernel, fun _ => by decide +kernel⟩,
    by unfold ownCone; decide +kernel, ?_⟩
  decide +kernel

/-! Vectors -/

/-- Context 5 with two granted rows of 64 bytes and what the first rows of v1 and v2 hold; the other rows hold 0. -/
def vecs (l : List (Nat × Word)) (v1 v2 : Row) : State :=
  mapped (only 5 { ctxWith l with vec := { vrows := 32, rows := 2, len := 64, vrf := [(1, v1), (2, v2)] } })

/-- An integer sum, a sum rounded with flags, and a shift; an undersized producer that a core which checks reports. -/
theorem meets_VectorElementResults :
    (let s := vecs [] 0x7F8000013F800000 0x33000000
     let p : Producer := { wrote := 2, addr := 0x7FFFFFFC, lat := 12, dist := 0 }
     let u := { s with ctxs := [(5, { getCtx s 5 with vec := { (getCtx s 5).vec with pace := [p] } })], cores := [(0, { scctl := 1 })] }
     let i := Instr.vadd 3 1 2 0 .f32 0 false
     unheld i s ∧ unheld (.vshl 3 1 2 0 .i8 0 false) s ∧ (here u).out = [] ∧ (laneOf (here s) i).isSome = true ∧ (laneOf (here s) (.vshl 3 1 2 0 .i8 0 false)).isSome = true ∧
     (undersized (here s) (footOf i) = none) ∧ (undersized (here u) (footOf i)).isSome = true ∧ paceCheck u u.cur = true ∧
     nextIs (exec i s) (fun t => elemOf (vrow (here t) 3 0) 4 0 == 0x3F800000 && elemOf (vrow (here t) 3 0) 4 1 == 0x7FC00000 &&
       (here t).ucsr.vflg0 == 0x1001) = true ∧
     nextIs (exec (.vadd 3 1 2 0 .i8 0 false) s) (fun t => elemOf (vrow (here t) 3 0) 1 3 == 0x72 && elemOf (vrow (here t) 3 0) 1 2 == 0x80) = true ∧
     nextIs (exec (.vmul 1 1 1 0 .i32 0 false) s) (fun t => elemOf (vrow (here t) 1 0) 4 1 == 0xFF000001) = true ∧
     nextIs (exec i u) (fun t => (here t).trapRec.any fun r => fieldOf r.w0 0 6 == 28 && r.w2 == 0x7FFFFFFC) = true) :=
  ⟨⟨rfl, rfl⟩, ⟨rfl, rfl⟩, by decide +kernel⟩

/-- A comparison with a signaling NaN, a mask operation, and a reduction that saturates; the destination m0 stays all ones. -/
theorem meets_VectorMasksAndReductions :
    (let s := vecs [] 0x7F8000017FFFFFFF 0x7F80000100000001
     unheld (.vcmpEq 1 1 2 0 .f32 0 false) s ∧ unheld (.mnot 2 0) s ∧ unheld (.vredSum 3 1 0 .i32 0 false) s ∧ (cmpOf (.vcmpEq 1 1 2 0 .f32 0 false)).isSome = true ∧ (maskOf (.mnot 2 0)).isSome = true ∧ (redOf (.vredSum 3 1 0 .i32 0 false)).isSome = true ∧
     undersized (here s) (footOf (.vcmpEq 1 1 2 0 .f32 0 false)) = none ∧ (here s).vec.rows ≠ 0 ∧ VFmt.isInt .i32 = true ∧
     active (here { s with ctxs := [(5, ctxWith [])] }) 0 .f32 = [] ∧
     nextIs (exec (.vcmpEq 1 1 2 0 .f32 0 false) s) (fun t => !maskBit (here t) 1 0 0 && !maskBit (here t) 1 0 1 && maskBit (here t) 1 0 2 &&
       !maskBit (here t) 1 0 16 && (here t).ucsr.vflg0 == 0x1000) = true ∧
     nextIs (exec (.vcmpEq 0 1 2 0 .i32 0 false) s) (fun t => maskVal (here t) 0 == BitVec.allOnes 512) = true ∧
     nextIs (exec (.mnot 2 0) s) (fun t => maskVal (here t) 2 == 0) = true ∧
     nextIs (exec (.vredSum 3 1 0 .i32 0 false) s) (fun t => elemOf (vrow (here t) 3 0) 4 0 == 0x7FFFFFFF) = true) :=
  ⟨⟨rfl, rfl⟩, ⟨rfl, rfl⟩, ⟨rfl, rfl⟩, by decide +kernel⟩

/-- An index inside and outside the grant; a shape that is clamped and the query form; a scale that is NaN. -/
theorem meets_VectorMovesAndShape :
    (let s := vecs [(6, 0x1FF80), (7, 65), (8, 0x41), (9, 0x8000000000000000), (10, 0x70005)] 0xFF80 0
     steady s ∧ (let b : Row := 0x38 + 2 ^ 64 * 0x7E8000
       (sc24V 0x7E8000).isNan = false ∧ (bqRow .e4m3 .rne false b 0 (here s)).1.toNat < 2 ^ 288 ∧ elemOf (bqRow .e4m3 .rne false 0 0 (here s)).1 4 8 = 0 ∧
       sc24Up (.fin false 1 0 false) = sc24Up (.fin false 2 (-1) false) ∧ (sc24Up (.fin false 1 0 false)).isSome = true ∧
       sc24Up (.fin false 1 300 false) = none) ∧
     answers (operands [6] none s) (fun l s1 => l == [0x1FF80] && s1 == s) = true ∧
     answers (operands [6, 7] none s) (fun l s1 => l.length == 2 && s1 == s) = true ∧
     answers (operands [9] (some 5) s) (fun l s1 => l.length == 1 && answers (writeRd 5 1 s1) fun _ _ => true) = true ∧
     answers (operands [] (some 5) s) (fun l s1 => l == [] && answers (writeRd 5 1 s1) fun _ _ => true) = true ∧
     undersized (here s) (footOf (.mpop 5 0)) = none ∧ undersized (here s) (footOf (.vmvxToX 5 1 0 .i16 0)) = none ∧
     undersized (here s) (footOf (.vbqAddrq 3 1 2 .e4m3 0 false)) = none ∧ (sc24V 0xFF0000).isNan = true ∧
     nextIs (exec (.vbcast 3 6 .i16 0) s) (fun t => elemOf (vrow (here t) 3 1) 2 31 == 0xFF80) = true ∧
     nextIs (exec (.vmvxToX 5 1 0 .i16 0) s) (fun t => readX (here t) 5 == 0xFFFFFFFFFFFFFF80) = true ∧
     nextIs (exec (.vmvxToX 5 1 6 .i16 0) s) (fun t => readX (here t) 5 == 0) = true ∧
     nextIs (exec (.vmvxToV 3 6 7 .i16 0) s) (fun t => elemOf (vrow (here t) 3 1) 2 1 == 0xFF80) = true ∧
     nextIs (exec (.vshape 5 10 .i32 0) s) (fun t => readX (here t) 5 == 0x20005 && (here t).vec.rows == 2 && (here t).vec.len == 5) = true ∧
     nextIs (exec (.vshape 5 9 .i32 0) s) (fun t => readX (here t) 5 == 0x20040) = true ∧
     nextIs (exec (.mpop 5 0) s) (fun t => readX (here t) 5 == 128) = true ∧
     nextIs (exec (.mfirst 5 1) s) (fun t => readX (here t) 5 == 0xFFFFFFFFFFFFFFFF) = true ∧
     nextIs (exec (.mset 2 7) s) (fun t => maskBit (here t) 2 7 6 && maskBit (here t) 2 0 0 && !maskBit (here t) 2 0 1) = true ∧
     nextIs (exec (.vbqAddrq 3 1 2 .e4m3 0 false) s) (fun t => (here t).pc == 0x80000004) = true) :=
  ⟨⟨rfl, rfl⟩, by decide +kernel⟩

/-- A unit-stride load, a strided store of two rows, an indexed load, and a base that is misaligned. -/
theorem meets_VectorMemory :
    (let s := vecs [(6, 0x80000000), (7, 0x1000), (8, 0x80000002)] 0x0405060708090A0B 4
     unheld (.vld 3 6 0 .e32) s ∧ unheld (.vsts 1 6 7 0 .e32) s ∧ (here s).out = [] ∧ (vecMemOf (.vld 3 6 0 .e32)).isSome = true ∧ (vecMemOf (.vsts 1 6 7 0 .e32)).isSome = true ∧
     answers (operands [6, 7] none s) (fun l s1 => l.length == 2 && s1 == s && answers (orderGate .rlx .sys s1) fun _ s2 =>
       let acc := vecAccesses (here s2) 0 .e32 (vecAddr 1 0 4 (here s2) l)
       answers (writeElems (here s2) 1 4 false acc s2) fun put s3 => put.length == 32 && (here s3).sb.length + 2 ≤ 8) = true ∧
     answers (operands [6] none s) (fun l s1 => answers (orderGate .rlx .sys s1) fun _ s2 =>
       answers (loadElems 4 false (vecAccesses (here s2) 0 .e32 (vecAddr 0 0 4 (here s2) l)) s2) fun els s3 =>
         (here s3).scout.isNone && mayAccess s3 s3.cur els && !touches (waiting (here s3)) els &&
           answers (readElems s3.cur (readerOf s3.cur s3.nextId) (here s3).sb els s3) fun got _ => got.length == 32) = true ∧
     undersized (here s) (footOf (.vld 3 6 0 .e32)) = none ∧
     nextIs (exec (.vld 3 6 0 .e32) s) (fun t => elemOf (vrow (here t) 3 0) 4 0 == 0x13 && elemOf (vrow (here t) 3 1) 4 0 == 0) = true ∧
     nextIs (exec (.vldx 3 6 2 0 .e32) s) (fun t => elemOf (vrow (here t) 3 0) 4 0 == 0 && elemOf (vrow (here t) 3 0) 4 1 == 0x13) = true ∧
     nextIs (exec (.vsts 1 6 7 0 .e32) s) (fun t => (here t).sb.map (fun e => (e.bytes.length, (e.bytes.head?.map (·.1)))) ==
       [(64, some (false, 0x80000000)), (64, some (false, 0x80001000))]) = true ∧
     nextIs (exec (.vst 1 8 0 .e32) s) (fun t => (here t).trapRec.any fun r => fieldOf r.w0 0 6 == 6 && r.w2 == 0x80000002) = true) :=
  ⟨⟨rfl, rfl⟩, ⟨rfl, rfl⟩, by decide +kernel⟩

/-! Tile commands -/

/-- A tensor record: base, extents, strides, format. -/
def trec (base e01 e23 s01 s23 fmt : Word) : Vector Word 8 := #v[base, e01, e23, s01, s23, 0, 0, fmt]
/-- bf16 without elements, which pads; one row of 32 fp32 elements at byte 0x100 of the scratchpad window. -/
def padRec : Vector Word 8 := trec 0 0 0 0 0 0x201
def rowRec : Vector Word 8 := trec 0x100 0x100000020 0x100000001 1 0 0
/-- A window entry: `mma` of one row with A and B padded and C in the scratchpad, without a status slot. -/
def mmaEntry (op : Nat) : WinEntry :=
  { w0 := word (op + 0x100), w1 := word (0xFFF + 2 ^ 12 + 2 ^ 23 + 3 * 2 ^ 32), w2 := 0, w3 := word (0x1FFF * 2 ^ 51), seed := 0, sent := none }
/-- A machine whose context 5 has a window with one entry, and owns block 0 of its core's scratchpad. -/
def windowed (e : WinEntry) : State :=
  { mapped (only 5 { ctxWith [] with winRev := 1, win := [e] }) with
    parts := [(0, { placePart {} with spwin := 0 })]
    cores := [(0, { owner := [(0, 0)] })]
    clusters := [(0, { tensors := [(1, ⟨0, padRec⟩), (2, ⟨0, padRec⟩), (3, ⟨0, rowRec⟩)] })] }

/-- The state after an instruction. -/
def after (i : Instr) (s : State) : State :=
  match exec i s with
  | .next t => t
  | _ => s

/-- Commands: `mma.sp`, and fill, copy, conv, glaze loads on the tile data path. -/
def spEntry : WinEntry := { mmaEntry 2 with w1 := word (0xFFF + 2 ^ 12 + 2 ^ 23 + 3 * 2 ^ 32 + 4 * 2 ^ 42) }
def withMeta (s : State) : State := modCluster s 0 fun k => { k with tensors := k.tensors ++ [(4, ⟨0, trec 0 0 0 0 0 0x211⟩), (5, ⟨0, trec 0x80 0x100000020 0x100000001 1 0 0⟩)] }
/-- A command of this entry stands where `p` says. -/
def standing (e : WinEntry) (p : CmdAt) : State := modCluster (withMeta (windowed e)) 0 fun k => { k with cmds := [{ cmdOf (withMeta (windowed e)) 5 9 e with at_ := p }] }

/-- An address that is aligned and one that is not; a context without a window, one whose window is full; commands of each kind. -/
theorem meets_CommandWindows :
    (let w (n : Nat) (l : List WinEntry) : State := mapped (only 5 { ctxWith [(6, 0x80000000), (7, 0x80000010)] with winRev := n, win := l })
     let e := mmaEntry 1
     let s := w 1 []
     let f := w 1 (List.replicate 32 e)
     let h (e : WinEntry) : State := withMeta (windowed e)
     let ok (e : WinEntry) : Bool := (getCtx (h e) 5).win == [e] && eligible (getCtx (h e) 5) e &&
       sendCheck { h e with nextId := (h e).nextId + 1 } 1 (firstOf (h e) 5 e) == none
     steady s ∧ isHub s.cur = false ∧ answers (operands [6] none s) (fun l s1 => l == [0x80000000] && answers (memRead 0x80000000 32 false .rlx .clus s1) fun b s2 =>
       b.length == 32 && (here s2).winRev == 1 && settled s2 s2.cur (commandScope s2 s2.cur 0)) = true ∧
     undersized (here s) (footOf (.tcIssuev 1)) = none ∧ (here (w 0 [])).winRev = 0 ∧ 32 ≤ (here f).win.length ∧
     heldInst (h e) 0 0 0 = false ∧ ok e = true ∧ ok spEntry = true ∧ ok (mmaEntry 0x12) = true ∧ ok { mmaEntry 0x20 with w1 := 0x1FFF } = true ∧
     sendCheck (h e) 2 (firstOf (h e) 5 e) = some 4 ∧ fieldOf (mmaEntry 0x30).w0 8 6 = 1 ∧
     nextIs (exec (.tcIssue 6) s) (fun t => (here t).win.map (·.w0) == [0x13]) = true ∧
     nextIs (exec (.tcIssue 7) s) (fun t => (here t).trapRec.any fun r => fieldOf r.w0 0 6 == 4) = true ∧
     nextIs (exec (.tcIssue 6) (w 0 [])) (fun t => (here t).trapRec.any fun r => fieldOf r.w0 0 6 == 29) = true ∧
     goesTo (exec (.tcIssuev 1) f) (parkCtx f .window) = true ∧
     nextIs (exec (.windowSend 5) (h (mmaEntry 0x30))) (fun t => (getCluster t 0).cmds.map (fun c => (c.at_, c.code)) == [(.done, 9)]) = true ∧
     nextIs (exec (.windowSend 5) (h (mmaEntry 0x12))) (fun t => (getCluster t 0).cmds.map (fun c => c.at_) == [.data]) = true ∧
     nextIs (exec (.glaze 5 0) (h { mmaEntry 0x20 with w1 := 0x1FFF })) (fun t => (getCluster t 0).glaze.map (fun g => g.2.gen) == [1]) = true) :=
  ⟨⟨rfl, rfl⟩, by decide +kernel⟩

/-- Both matrix commands join a setting. -/
theorem meets_CommandWindows_matrix :
    (nextIs (exec (.windowSend 5) (withMeta (windowed (mmaEntry 1)))) (fun t => (getCluster t 0).cmds.map (fun c => c.at_) == [.setting 2] &&
       (getCluster t 0).settings.map (fun x => (x.m, x.opened)) == [(1, 2)]) = true ∧
     nextIs (exec (.mmaSp 5 0) (withMeta (windowed spEntry))) (fun t => (getCluster t 0).cmds.map (fun c => c.at_) == [.setting 2]) = true) := by
  decide +kernel

/-- A setting that is opened, fired, dispatched, firing and at its end; a command that enters the buffer again, and one whose C is refused. -/
theorem meets_SettingsFireAndAreComputed :
    (let w1 := after (.windowSend 5) (windowed (mmaEntry 1))
     let w2 := after (.settingFire 0 0) w1
     let w3 := after (.settingDispatch 0 0) w2
     let w4 := after (.firingStart 0 0) w3
     let share := modCluster w1 0 fun k => { k with settings := k.settings.map fun x => { x with share := true, deadline := 99 } }
     let more (l : List Setting) : List Setting := (List.range 16).flatMap fun n => l.map fun x => { x with opened := 50 + n, at_ := .firing n 7 }
     let busy := modCluster share 0 fun k => { k with settings := k.settings ++ more k.settings }
     let r := modCluster (standing (mmaEntry 1) .reentry) 0 fun k => k
     let bad := { r with cores := [] }
     let due := { w4 with clock := 80, cores := [] }
     (getCluster w1 0).settings.map (fun x => (x.at_ == .opened, x.slot, tableWaits (getCluster w1 0) x, x.share)) = [(true, 0, false, false)] ∧
     ((getCluster busy 0).settings.any fun x => x.at_ == .opened && !tableWaits (getCluster busy 0) x && decide (x.m < 128) && decide (busy.clock < x.deadline) &&
       x.share && !fireEarly (getCluster busy 0) x) = true ∧
     (reentries (getCluster r 0)).length = 1 ∧ (reentries (getCluster bad 0)).length = 1 ∧
     (firstFired (getCluster w2 0) w2.clock).isSome = true ∧ kilnIdle (getCluster w2 0) 0 = true ∧ enginesOn w2 0 = true ∧
     (getCluster w3 0).settings.map (fun x => (x.at_ == .staging 0, x.members.length)) = [(true, 1)] ∧
     (getCluster w4 0).settings.map (fun x => x.at_ == .firing 0 80) = [true] ∧ w4.clock < 80 ∧ due.clock = 80 ∧
     (match memberResults due ((getCluster due 0).cmds) with | .ok [(_, code, _, _)] => code == 2 | _ => false) = true ∧
     (let d := { share with clock := 100 }
      (getCluster d 0).settings.map (fun x => (x.at_ == .opened, x.m, x.share, tableWaits (getCluster d 0) x)) = [(true, 1, true, false)] ∧
      (getCluster (fireDue 50 d 0) 0).settings.map (fun x => x.at_ == .fired 99) = [true]) ∧
     (match (getCluster w3 0).settings with
      | [x] => (match stageMembers 0 x x.members w3 with | .ok g => !shareSlice g.s (dedup (g.pins ++ g.sums)) | _ => false)
      | _ => false) = true ∧
     goesTo (exec (.settingFire 0 0) busy) busy = true ∧ nextIs (exec (.firingEnd 0 0) w4) (fun t => (getCluster t 0).settings.length == 1) = true ∧
     nextIs (exec (.bufferReentryAccept 0) r) (fun t => (getCluster t 0).settings.length == 1) = true ∧
     nextIs (exec (.bufferReentryAccept 0) bad) (fun t => (getCluster t 0).cmds.map (fun c => c.code) == [2]) = true ∧
     nextIs (exec (.firingEnd 0 0) due) (fun t => (getCluster t 0).settings.isEmpty && (getCluster t 0).cmds.map (fun c => c.code) == [2]) = true) := by
  decide +kernel

theorem dedup_nodup (l : List Nat) (h : l.Nodup) : dedup l = l := by
  induction l with
  | nil => rfl
  | cons a t ih =>
    obtain ⟨ha, ht⟩ := List.nodup_cons.mp h
    rw [dedup, ih ht, List.filter_eq_self.mpr]
    intro b hb
    simp only [Bool.not_eq_true', beq_eq_false_iff_ne]
    exact fun e => ha (e ▸ hb)

/-- A fired setting beside one that has pinned all that a cluster may pin. -/
theorem meets_SettingsFireAndAreComputed_pins :
    (let w2 := after (.settingFire 0 0) (after (.windowSend 5) (windowed (mmaEntry 1)))
     let y : Setting :=
       { slot := 1, key := [], table := none, pins := List.range 524289, stream := [], dom := 0, share := false, m := 0, members := [], deadline := 0, cls := 0,
         opened := 60, at_ := .firing 1 9 }
     let p := modCluster w2 0 fun k => { k with settings := k.settings ++ [y] }
     kilnIdle (getCluster p 0) 0 = true ∧ enginesOn p 0 = true ∧
     (match firstFired (getCluster p 0) p.clock with
      | some x => x.members.length == 1 && (match stageMembers 0 x x.members p with | .ok g => g.members.length == 1 && g.pins.isEmpty | _ => false)
      | none => false) = true ∧
     Config.pinBytes < 128 * (dedup ([] ++ (getCluster p 0).settings.flatMap (·.pins))).length) := by
  refine ⟨by decide +kernel, by decide +kernel, by decide +kernel, ?_⟩
  have h : (getCluster (after (.settingFire 0 0) (after (.windowSend 5) (windowed (mmaEntry 1)))) 0).settings.map (fun x => x.pins) = [[]] := by decide +kernel
  have e : ∀ (l : List Setting) (y : Setting), l.map (fun x => x.pins) = [[]] → (l ++ [y]).flatMap (fun x => x.pins) = y.pins := by
    intro l y hl
    rw [List.flatMap_append, List.flatMap_def, hl]; simp
  have g : ∀ (s : State) (f : Cluster → Cluster), getCluster (modCluster s 0 f) 0 = f (getCluster s 0) := by
    intro s f
    simp [modCluster]
  simp only [g, List.nil_append]
  rw [e _ _ h]
  simp only [dedup_nodup _ List.nodup_range, List.length_range]
  decide

/-- fill, copy and conv of one row each, a glaze load of 256 rows from mapped memory, a command that waits for a page, and one that completes; a
command whose destination is refused. -/
theorem meets_DataCommandsAndCompletion :
    (let fill := standing { mmaEntry 0x12 with w2 := 7 } .data
     let copy := standing { mmaEntry 0x10 with w1 := word (0xFFF + 5 * 2 ^ 12 + 3 * 2 ^ 32) } .data
     let conv := standing { mmaEntry 0x11 with w1 := word (0xFFF + 2 ^ 12 + 3 * 2 ^ 32) } .data
     let bad := { fill with cores := [] }
     let gl := after (.glaze 5 0) (modCluster (withMeta (windowed { mmaEntry 0x20 with w1 := 0x2FFF })) 0 fun k =>
       { k with tensors := tset k.tensors 2 ⟨0, trec 0x80000000 0 0 0 0 0⟩ })
     let g : PageReq := { id := 3, part := 0, pasid := 0, who := .cmd 0 9, pages := [(0x80000000, false)], sent := true }
     let pg (op : Nat) := { standing (mmaEntry op) (.page 3) with pages := [g] }
     let done (st : Nat) := standing { mmaEntry 0x12 with w3 := word (st * 2 ^ 51) } .done
     let put := modCluster (done 0x1FFF) 0 fun k => { k with cmds := k.cmds.map fun c => { c with out := [(true, 0x100, 7), (false, 0x90000000, 9)] } }
     let held := { put with filter := [(0x2400000, true)] }
     let w : Write :=
       { id := 1, agent := Config.agents, kind := .store, addr := 0x90000000, bytes := [(0x90000000, 1)], order := .rlx, scope := .sys, tags := [],
         ea := 0, atHome := true, home := true, inv := [1], acks := [1] }
     (dataOf 0 (.fill 0)).isSome = true ∧ (dataNext fill 0).map (fun c => (c.op, tableLoaded fill c)) = some (0x12, true) ∧
     (dataNext copy 0).map (fun c => (c.op, tableLoaded copy c)) = some (0x10, true) ∧ (dataNext conv 0).map (·.op) = some 0x11 ∧
     (dataNext bad 0).isSome = true ∧ (dataNext gl 0).map (·.op) = some 0x20 ∧ (tfind (getCluster gl 0).glaze 0).isSome = true ∧
     (pg 1).pages.find? (fun p => p.id == 3 && p.sent) = some g ∧ ((findCmd (takeAnswer (pg 1) g 0) 0 9).any fun c => c.isMatrix) = true ∧
     (findCmd (takeAnswer (pg 0x12) g 0) 0 9).map (·.isMatrix) = some false ∧
     ((getCluster (done 1) 0).cmds.all fun c => c.at_ == .done && c.out.isEmpty && enginesSettled (done 1) (commandScope (done 1) c.agent c.coneNo) &&
       c.stat == 1 && statOwned (done 1) c) = true ∧ State.wf (done 1) = true ∧
     nextIs (exec (.fill 0) fill) (fun t => (getCluster t 0).cmds.map (fun c => (c.at_, c.code, c.out.take 5)) ==
       [(.done, 0, [(true, 0x100, 7), (true, 0x101, 0), (true, 0x102, 0), (true, 0x103, 0), (true, 0x104, 7)])]) = true ∧
     nextIs (exec (.copy 0) copy) (fun t => (getCluster t 0).cmds.map (fun c => (c.code, c.out.length)) == [(0, 128)]) = true ∧
     nextIs (exec (.conv 0) conv) (fun t => (getCluster t 0).cmds.map (fun c => (c.code, c.flags, c.out.length)) == [(0, 0, 128)]) = true ∧
     nextIs (exec (.fill 0) bad) (fun t => (getCluster t 0).cmds.map (fun c => (c.code, c.out.length)) == [(2, 0)]) = true ∧
     nextIs (exec (.glazeLoadPerformed 0 0) gl) (fun t => (getCluster t 0).glaze.map (fun g => (g.2.rows.length, g.2.rows.head?)) == [(256, some 0x13)]) = true ∧
     nextIs (exec (.commandPageResponse 3 1) (pg 1)) (fun t => (getCluster t 0).cmds.map (fun c => (c.at_, c.code)) == [(.done, 1)]) = true ∧
     nextIs (exec (.commandPageResponse 3 0) (pg 0x12)) (fun t => (getCluster t 0).cmds.map (·.at_) == [.data]) = true ∧
     nextIs (exec (.commandComplete 0 9) (done 1)) (fun t => readBytes t.spad 8 8 == [0, 0, 1, 0, 0, 0, 0, 0] && (getCluster t 0).cmds.isEmpty) = true ∧
     (enginesSettled { done 1 with writes := [w] } .sys = false) ∧
     (getCluster put 0).cmds.map (fun c => (c.out.length, c.stat, outOffline put c,
       (engCanWrite put c.agent [((true, 0x100), 7), ((false, 0x90000000), 9)] matches .ok ()))) = [(2, 0x1FFF, false, true)] ∧
     State.wf put = true ∧ (engCanWrite held 5 [((false, 0x90000000), 9)] matches .error [.bisnp 0x2400000]) = true ∧
     nextIs (exec (.commandComplete 0 9) put) (fun t => readByte t.spad 0x100 == 7 && readByte t.mem 0x90000000 == 9) = true ∧
     nextIs (exec (.commandComplete 0 9) held) (fun t => t.mem == held.mem && t.bisnp == [0x2400000]) = true ∧
     ((getCluster fill 0).cmds.map fun c => match fillResult fill c with | .ok r => r.2.1.length | .error _ => 0) = [128] ∧
     ((getCluster copy 0).cmds.map fun c => match copyResult copy c with | .ok r => r.2.1.length | .error _ => 0) = [128] ∧
     ((getCluster conv 0).cmds.map fun c => match convResult conv c with | .ok r => r.2.1.length | .error _ => 0) = [128]) := by
  decide +kernel

/-- A sum with C that saturates; metadata in and out of order. -/
theorem meets_KilnArithmetic :
    (let w : Member := { fa := 6, fb := 6, fc := 9, rows := [], acc := true, mode := .rne, sat := false }
     let p : Panel := { m := 1, k := 32, a := #[some 0x81, none, some 2], b := #[some 0x80], sa := #[], sb := #[], c := #[0x7FFFFFFF] }
     w.fc = 0x09 ∧ p.k = 32 ∧ kilnElem w p 0 0 1 = (0x7FFFFFFF, fOF, 1) ∧ kilnElem { w with acc := false } p 0 0 1 = (16256, 0, 1) ∧
     (4 : Nat) % 4 < 4 / 4 % 4 ∧ expandGroup 4 7 9 = some [some 7, some 9, none, none] ∧ 1 / 4 % 4 ≤ 1 % 4 ∧ expandGroup 1 7 9 = none) := by
  decide +kernel

/-! Launch -/

/-- Context 5 with a launch record at 0x80002000 for the own cluster, 0x80002040 for cluster 1, and 0x80002080 that is malformed. -/
def poster (l : List (Nat × Word)) : State :=
  let s := mem5 l
  { s with mem := writeCells s.mem (cellsAt 0x80002000 (leBytes 8 0x80001000) ++ cellsAt 0x80002060 (leBytes 8 (2 ^ 33 + 2 ^ 38)) ++
                                    cellsAt 0x80002098 (leBytes 8 1) ++ cellsAt 0x800020A0 (leBytes 8 0x300)) }

/-- The reply, no stage, a stage instance with and without room for a replica, a cluster of another partition; a snapshot to the scratchpad, one
that is misaligned. -/
theorem meets_ReplicasAndSnapshots :
    (let x : StageInst := { record := { rec1 with w4 := 0x80000 }, part := 0, inq := none, hwm := 0, dwell := 0, started := 0, live := 0, since := none }
     let c := { ctxWith [(6, 0x100), (7, 0x20), (8, 0x101), (9, 0x21), (10, 0x3F)] with stage := some (0, 7) }
     let s := { only 5 c with
       parts := [(0, { spwin := 0 })], cores := [(0, { owner := [(0, 0)] })]
       clusters := [(0, { stages := [(7, x)], route := [(16, 3), (17, 5), (32, 9)] })] }
     let f := { s with clusters := [(0, { stages := [(7, { x with live := 1 })] })] }
     let m (spad : Bool) (key : Nat) : State :=
       { s with ctxs := [(5, { c with sent := some 3 })], coneMsgs := [{ id := 3, agent := 5, cone := 0, op := .snap 1 spad key [] }] }
     let far := { m false (2 ^ 52 + 0x90000000) with
       parts := [(0, { placePart {} with windows := [⟨0x90000000, 0x100000, 2, 2⟩], hdmBase := 0x100000000000 })] }
     let n := { s with clusters := [] }
     let r := { s with ctxs := [(5, { c with reply := some (.value 1), sent := some 4 })] }
     let d := { s with ptcfg := 0xF, dies := [(1, { off := true })] }
     steady s ∧ ordinary s 5 ∧ isHub s.cur = false ∧ answers (operands [7] (some 5) s) (fun l s1 => l == [0x20] && s1 == s) = true ∧
     answers (operands [6, 7] none s) (fun l s1 => l.length == 2 && answers (orderGate .ar .clus s1) fun _ s2 =>
       answers (resolve .write 0x100 64 false s2) fun p s3 => (p.1.map fun q => (q.1.cls, q.2)) == [(.spad, 64)] && State.wf s3) = true ∧
     (here s).reply = none ∧ (here r).reply = some (.value 1) ∧ (here s).stage = some (0, 7) ∧ (here (user [])).stage = none ∧ findStage s (0, 7) = some x ∧
     findStage n (0, 7) = none ∧ liveReplicas s (0, 7) x < x.record.repmax ∧ x.record.repmax ≤ 1 ∧ partOfCluster d 31 ≠ partOf d d.cur ∧
     clusterOnline { s with dies := [(0, { off := true })] } 0 = false ∧
     nextIs (exec (.lnRep 5 7) s) (fun t => readX (here t) 5 == 0 && ((getCluster t 0).launch.map fun y => (y.record.kind, y.poster == .agent 5, y.stage)) ==
       [(2, true, some (0, 7))]) = true ∧
     nextIs (exec (.lnRep 5 7) f) (fun t => readX (here t) 5 == 1) = true ∧ nextIs (exec (.lnRep 5 7) n) (fun t => readX (here t) 5 == 2) = true ∧
     nextIs (exec (.lnRep 5 10) d) (fun t => readX (here t) 5 == 3) = true ∧
     nextIs (exec (.lnRep 5 7) r) (fun t => readX (here t) 5 == 1 && (here t).reply.isNone) = true ∧
     nextIs (exec (.lnSnap 6 7) s) (fun t => (here t).status == .parked (.balReply 1) && t.coneMsgs.map (·.op) == [.snap 1 true 0x100 []]) = true ∧
     nextIs (exec (.lnSnap 6 7) r) (fun t => (here t).reply.isNone && (here t).pc == 0x80000004) = true ∧
     State.wf (m true 0x100) = true ∧ unreachable (m false 0x80000000) 5 0x80000000 = false ∧ canWrite (m false 0x80000000) (lineOf 0x80000000) [0x2000000] = true ∧
     unreachable { m false 0x80000000 with dies := [(0, { off := true })] } 5 0x80000000 = true ∧ (locOfKey far (2 ^ 52 + 0x90000000)).cls = .peer ∧
     nextIs (exec (.balancerRequest 3) (m true 0x100)) (fun t => readBytes t.spad 0x100 8 == [3, 0, 0, 0, 5, 0, 0, 0] &&
       ((getCluster t 0).route.all fun e => e.1 == 32 || e.2 == 0) && (here t).reply == some (.value 0)) = true ∧
     nextIs (exec (.balancerRequest 3) (m false 0x80000000)) (fun t => readBytes t.mem 0x80000000 8 == [3, 0, 0, 0, 5, 0, 0, 0]) = true ∧
     nextIs (exec (.balancerRequest 3) far) (fun t => t.writes.map (·.bytes.length) == [64] && t.mem.isEmpty) = true ∧
     nextIs (exec (.lnSnap 8 7) s) (fun t => (here t).trapRec.any fun r => fieldOf r.w0 0 6 == 6) = true ∧
     nextIs (exec (.lnSnap 6 10) d) (fun t => (here t).trapRec.any fun r => fieldOf r.w0 0 6 == 2) = true) :=
  ⟨⟨rfl, rfl⟩, ordinary_low _ (by decide), by decide +kernel⟩

/-- Posts to the own cluster, another, and malformed; hash, replay and quiet; acceptance, dispatch, balancer. -/
theorem meets_LaunchRecords :
    (let s := poster [(6, 0x80002000), (7, 0x80002040), (8, 0x80002080), (9, 0x80002020), (10, 1), (11, 257), (12, 63)]
     let r := { s with ctxs := [(5, { ctxWith [(6, 0x80002000), (12, 63)] with reply := some (.value 0), sent := some 4 })] }
     let o := { s with ctxs := [(5, { ctxWith [(6, 0x80002000)] with reply := some .offline, sent := some 4 })] }
     let full := { s with clusters := [(0, { replay := List.replicate 256 ⟨rec1, 0⟩ })] }
     let p : Post := { id := 4, record := rec1, poster := .agent 5, target := 0, part := 0, stage := none, rep := false }
     let m := { s with ctxs := [(5, { ctxWith [] with sent := some 4, status := .parked (.launch 4) })], posts := [p] }
     let off := { m with dies := [(0, { off := true })] }
     let x : LSlot := { slot := 1, gen := 1, record := rec1, poster := .agent 5, seq := 0, core := none, stage := none }
     let l := { s with clusters := [(0, { launch := [x] })] }
     let b := { s with clusters := [(0, { replay := [⟨rec1, 0⟩] })] }
     let st : StageInst := { record := { rec1 with w4 := 0x80000 }, part := 0, inq := some 0, hwm := 1, dwell := 0, started := 0, live := 0, since := some 0 }
     let q := { m with posts := [{ p with stage := some (0, 7), rep := true }], clusters := [(0, { stages := [(7, st)] })] }
     let z := { s with
       ctxs := [(5, { ctxWith [] with sent := some 4, status := .parked (.draw 63 0) })]
       clock := 5000
       parts := [(0, { placePart {} with watches := [{ group := 63, idle := some 1 }] })] }
     steady s ∧ isHub s.cur = false ∧ answers (operands [6] none s) (fun l s1 => l == [0x80002000] && answers (memRead 0x80002000 64 false .rlx .sys s1) fun b s2 =>
       b.length == 64 && !(recordAt b).bad && settled s2 s2.cur .clus) = true ∧
     answers (memRead 0x80002080 64 false .rlx .sys s) (fun b _ => (recordAt b).bad) = true ∧
     answers (memRead 0x80002040 64 false .rlx .sys s) (fun b s2 => bitOf (recordAt b).w4 38 && partOfCluster s2 1 == partOf s2 s2.cur) = true ∧
     answers (readPa 0x80002000 s) (fun pa _ => pa == 0x80002000) = true ∧ answers (readRecords 0x80002000 1 s) (fun l _ => l.length == 1) = true ∧
     (here r).reply = some (.value 0) ∧ (here o).reply = some .offline ∧ acqClear (replyTaken r) 5 = true ∧
     (m.posts.find? fun p => p.id == 4 && !p.rep) = some p ∧ launchRoom m 0 = true ∧ acceptsPosts m 0 = true ∧ firstPost m p = true ∧
     acceptsPosts off 0 = false ∧ (nextDispatch l 0).map (·.1) = some x ∧ heldInst b 0 0 0 = false ∧
     (match judgeReplica q (0, 7) 0 true 0 with | .ok _ => true | _ => false) = true ∧ drawnSince (getPart z 0) 63 0 5000 = true ∧
     nextIs (exec (.lnPost 6) s) (fun t => ((getCluster t 0).launch.map fun y => (y.record.w0, y.slot, y.gen)) == [(0x80001000, 0, 1)]) = true ∧
     nextIs (exec (.lnPost 7) s) (fun t => (t.posts.map fun p => p.target) == [1] && (here t).status == .parked (.launch 1)) = true ∧
     nextIs (exec (.lnPost 8) s) (fun t => (here t).trapRec.any fun r => fieldOf r.w0 0 6 == 2) = true ∧
     nextIs (exec (.lnPost 9) s) (fun t => (here t).trapRec.any fun r => fieldOf r.w0 0 6 == 4) = true ∧
     nextIs (exec (.lnPost 6) r) (fun t => (here t).pc == 0x80000004) = true ∧
     nextIs (exec (.lnPost 6) o) (fun t => (here t).trapRec.any fun r => fieldOf r.w0 0 6 == 30) = true ∧
     nextIs (exec (.lnHash 6 6) s) (fun t => (t.posts.map fun p => fieldOf p.record.w4 33 6) == [32 + Nat.xor 0 (0x8000 % 32) ^^^ (0x80002000 / 2 ^ 31)]) = true ∧
     nextIs (exec (.lnReplay 6 10) s) (fun t => (getCluster t 0).replay.length == 1) = true ∧
     goesTo (exec (.lnReplay 6 10) full) (parkCtx full (.replay 1)) = true ∧
     nextIs (exec (.lnReplay 6 11) s) (fun t => (here t).trapRec.any fun r => fieldOf r.w0 0 6 == 2) = true ∧
     nextIs (exec (.lnQuiet 12) s) (fun t => (here t).status == .parked (.draw 63 0) && ((getPart t 0).watches.map (·.group)) == [63]) = true ∧
     nextIs (exec (.launchRecordAccept 4) m) (fun t => (getCtx t 5).reply == some (.value 0) && (getCluster t 0).launch.length == 1) = true ∧
     goesTo (exec (.launchRecordAccept 4) off) off = true ∧
     nextIs (exec (.launchDispatch 0) l) (fun t => (getCore t 1).handles == [dataEntry 513]) = true ∧
     nextIs (exec (.replayBufferPost 0) b) (fun t => (getCluster t 0).launch.length == 1 && (getCluster t 0).replay.isEmpty) = true ∧
     nextIs (exec (.balancerRequest 4) q) (fun t => t.posts.map (·.rep) == [false]) = true ∧
     nextIs (exec (.draw 0 63) z) (fun t => (getCtx t 5).reply == some (.value 0)) = true) :=
  ⟨⟨rfl, rfl⟩, by decide +kernel⟩

/-! Parking, tensor records, patches, pugs -/

/-- A queue with these entries; q1 of context 5 writes to it, or q0 reads it. -/
def queueOf (id : Nat) (coil : Bool) (core : Nat) (items : List Item) : Queue :=
  { id, part := 0, space := 0, pdesc := 0x1000, inst := 0, index := id, coil, depth := 8, bag := false, ord := true, scope := if coil then .pkg else .core,
    place := 0, core, holder := none, ring := 0x100, ringCluster := 0, tail := items.length, items, append := none, openBag := none, claims := [], copies := [] }
/-- Context 5 with q0 reading queue 1 and q1 writing queue 2. -/
def twoEnds (c : Ctx) (q1 q2 : Queue) : State :=
  { mapped (only 5 { c with ends := (c.ends.set 0 { queue := some 1 }).set 1 { queue := some 2, write := true } }) with queues := [q1, q2] }

/-- Reasons that hold and do not; a coil whose owner is another core, a push that is on its way, and a copy of a token. -/
theorem meets_ParkedContextsRejoin :
    (let p (why : Park) (c : Ctx) : State := only 5 { c with status := .parked why }
     let full := List.replicate 32 (⟨0, 0, 0, 0, 0, none⟩ : WinEntry)
     let z := only 0 { ctxWith [] with status := .parked .self }
     let zt := { z with cores := [(0, { handles := [dataEntry 5] })] }
     let d : Item := { pos := 0, entry := dataEntry 9, owner := none }
     let q1 := queueOf 1 true 7 [d]
     let s0 := twoEnds (ctxWith []) q1 (queueOf 2 true 7 [])
     let s := { s0 with ctxs := [(5, { getCtx s0 5 with ends := (getCtx s0 5).ends.set 0 { queue := some 1, asked := true } })] }
     let m : CoilMsg := { id := 3, queue := 2, producer := 5, src := 0, entry := dataEntry 4, group := none }
     let f := { s0 with coilMsgs := [m] }
     let g := { s0 with coilMsgs := [{ m with id := 2 }, m] }
     let k := { s0 with queues := [{ q1 with items := [], copies := [(tokenEntry 1, 3, [5], false)] }] }
     mayGo (p .window (ctxWith [])) 5 (getCtx (p .window (ctxWith [])) 5) = true ∧
     conditionHolds (p .window (ctxWith [])) 5 (ctxWith []) .window = true ∧
     (getCtx s 5).ends[0].asked = true ∧ isRemote q1 5 = true ∧ (takeItem q1 5).isSome = true ∧ firstOfFlow f m = true ∧ firstOfFlow g m = false ∧
     slotNeeds s q1 0 .read = none ∧ (f.queues.all fun q => q.id == 1 || slotNeeds f q q.tail .write == none) = true ∧
     bagsClaimed { q1 with items := [] } 3 = true ∧ (endOf k 5 0).queue = some 1 ∧
     nextIs (exec (.contextRejoin 5) (p .window (ctxWith []))) (fun t => (getCtx t 5).status == .ready) = true ∧
     goesTo (exec (.contextRejoin 5) (p .window { ctxWith [] with win := full })) (p .window { ctxWith [] with win := full }) = true ∧
     nextIs (exec (.contextRejoin 5) (p (.event (1 <<< 255)) { ctxWith [] with ev := 1 <<< 255 })) (fun t => (getCtx t 5).status == .ready) = true ∧
     goesTo (exec (.contextRejoin 0) z) z = true ∧ nextIs (exec (.contextRejoin 0) zt) (fun t => (getCtx t 0).status == .ready) = true ∧
     nextIs (exec (.coilPopRequest 5 0) s) (fun t => (endOf t 5 0).got.map (·.entry.tag) == [0] && !(endOf t 5 0).asked) = true ∧
     nextIs (exec (.coilPushArrival 3) f) (fun t => t.coilMsgs.isEmpty && (findQueue t 2).any fun q => q.items.length == 1) = true ∧
     goesTo (exec (.coilPushArrival 3) g) g = true ∧
     nextIs (exec (.tokenCopyDelivery 1) k) (fun t => (endOf t 5 0).got.map (·.entry) == [tokenEntry 1]) = true) := by
  decide +kernel

/-- Sixteen cells that add the operands in the first and hand the sum on. -/
def adder : List Word := word (1 + 2 * 16 + 3 * 128) :: List.replicate 3 (word 16) ++ List.replicate 12 0

/-- An own and a foreign identifier; a slot of the own instance and of none; an image that is whole, and one with a reserved operation. -/
theorem meets_TensorRecordsAndPatches :
    (let t0 : Vector Word 8 := trec 7 0 0 0 0 0
     let s0 := mem5 [(6, 1), (7, 0x80003000), (8, 2), (9, 5), (10, 0x80003008), (11, 0x80003080)]
     let s := { s0 with
       clusters := [(0, { tensors := [(1, ⟨0, t0⟩), (2, ⟨9, t0⟩)] })]
       cores := [(0, { slots := (Vector.replicate 4 none).set 1 (some { space := 0, inst := 0, cells := adder }) })]
       mem := writeCells s0.mem ((adder.zip (List.range 16)).flatMap fun p => cellsAt (0x80003080 + 8 * p.2) (leBytes 8 p.1.toNat)) }
     let b := { s with mem := writeCells s.mem (cellsAt 0x80003080 (leBytes 8 13)) }
     steady s ∧ isHub s.cur = false ∧ answers (operands [6, 7] none s) (fun l s1 => l.length == 2 && s1 == s && answers (memRead 0x80003000 64 false .rlx .sys s1)
       (fun b _ => b.length == 64) && answers (memWrite 0x80003000 (t0.toList.flatMap fun w => leBytes 8 w.toNat) false .rlx .sys s1) fun _ _ => true) = true ∧
     answers (operands [9, 8, 6] (some 5) s) (fun l s1 => l == [5, 2, 1] && answers (writeRd 5 (runSlot adder 5 2 1) s1) fun _ _ => true) = true ∧
     adder.length = 16 ∧ adder.all cellOk = true ∧ cellOk 13 = false ∧
     answers (memRead 0x80003080 128 false .rlx .sys s) (fun b _ => b.length == 128 && ((List.range 16).map (dword b)) == adder) = true ∧
     nextIs (exec (.tidSet 6 7) s) (fun t => (getCluster t 0).tensors.map (fun e => (e.1, e.2.w[0])) == [(1, 0), (2, 7)]) = true ∧
     nextIs (exec (.tidSet 8 7) s) (fun t => (here t).trapRec.any fun r => fieldOf r.w0 0 6 == 7) = true ∧
     nextIs (exec (.tidSet 9 7) s) (fun t => (getCluster t 0).tensors.map (·.1) == [1, 2, 5]) = true ∧
     nextIs (exec (.tidSet 6 10) s) (fun t => (here t).trapRec.any fun r => fieldOf r.w0 0 6 == 4) = true ∧
     nextIs (exec (.tidGet 6 10) s) (fun t => (here t).trapRec.any fun r => fieldOf r.w0 0 6 == 6) = true ∧
     nextIs (exec (.tidGet 6 7) s) (fun t => (here t).sb.map (fun e => e.bytes.head?.map (·.2)) == [some 7]) = true ∧
     nextIs (exec (.tidGet 8 7) s) (fun t => (here t).sb.map (fun e => e.bytes.head?.map (·.2)) == [some 0]) = true ∧
     nextIs (exec (.tidDrop 6) s) (fun t => (getCluster t 0).tensors.map (·.1) == [2]) = true ∧
     nextIs (exec (.tidDrop 8) s) (fun t => (getCluster t 0).tensors.map (·.1) == [1, 2]) = true ∧
     nextIs (exec (.pxRun 5 9 8 6 1) s) (fun t => readX (here t) 5 == 7) = true ∧
     nextIs (exec (.pxRun 5 9 8 6 0) s) (fun t => (here t).trapRec.any fun r => fieldOf r.w0 0 6 == 2) = true ∧
     nextIs (exec (.pxLoad 3 11) s) (fun t => (getCore t 0).slots[3].map (·.cells) == some adder) = true ∧
     nextIs (exec (.pxLoad 3 11) b) (fun t => (here t).trapRec.any fun r => fieldOf r.w0 0 6 == 2) = true ∧
     nextIs (exec (.pxLoad 3 7) s) (fun t => (getCore t 0).slots[3].isSome) = true ∧
     nextIs (exec (.pxLoad 3 10) s) (fun t => (here t).trapRec.any fun r => fieldOf r.w0 0 6 == 4) = true) :=
  ⟨⟨rfl, rfl⟩, by decide +kernel⟩

/-- A table of four rows of one fp32 element at 0x80004000, in mode `m`; its descriptor is at byte 0x400 of the scratchpads, and in memory at
0x80005000. -/
def tableDesc (m : Nat) : Vector Word 8 := #v[0x80004000, word (4 + 2 ^ 32), word (4 + m * 2 ^ 35), 0, 0, 0x8000, 2, 0]
/-- Context 5 with an index queue, a value queue, and the table. -/
def pugged (m : Nat) (ix vals : List Item) (pug : Option Pug) : State :=
  let s := twoEnds (ctxWith [(6, 0x400), (7, 8), (8, 0x404), (9, 0x80005000)]) (queueOf 1 false 0 ix) (queueOf 2 false 0 vals)
  let c := getCtx s 5
  { s with
    ctxs := [(5, { c with ends := c.ends.map fun e => { e with lent := pug.map fun _ => 0 } })]
    cores := [(0, { owner := [(0, 0)] })]
    parts := [(0, { placePart {} with spwin := 0 })]
    spad := writeCells [] (cellsAt 0x400 ((tableDesc m).toList.flatMap fun w => leBytes 8 w.toNat))
    clusters := [(0, { pugs := match pug with | some p => [(0, p)] | none => [] })]
    mem := writeCells s.mem (cellsAt 0x80005000 ((tableDesc m).toList.flatMap fun w => leBytes 8 w.toNat) ++ cellsAt 0x80004004 (leBytes 4 0x3F800000)) }
/-- The stream that an open makes. -/
def stream (m : Nat) (out : List Entry) (hot : List (Nat × List Byte)) : Pug :=
  { agent := 5, space := 0, inst := 0, group := none, k := 0, j := 1, desc := 0x400, d := tableDesc m, bag := 0, n := 0, acc := [], out, flags := 0,
    code := 0, errs := 0, hot, unused := [], page := none, badRow := none, held := false, closing := 0 }

/-- An open with each status, of ends of the wrong kind, of a misaligned descriptor; a close that waits and one that is answered; lookups of a row in
the cache, a row to fetch, and a row out of range; a bag that closes. -/
theorem meets_Pugs :
    (let i (n : Word) : Item := { pos := 0, entry := dataEntry n, owner := none }
     let o := pugged 0 [] [] none
     let bad := { o with spad := writeCells o.spad (cellsAt 0x420 (leBytes 8 (2 ^ 40))) }
     let held := { pugged 0 [] [] (some { stream 0 [] [] with held := true }) with
       ctxs := [(5, { getCtx o 5 with reply := some (.value 0), sent := some 1 })] }
     let busy := { o with clusters := [(0, { pugs := (List.range 16).map fun p => (p, { stream 0 [] [] with agent := 6 }) })] }
     let v := pugged 1 [] [] (some (stream 1 [dataEntry 7] []))
     let hit := pugged 1 [i 1] [] (some (stream 1 [] [(1, [0, 0, 0x80, 0x3F])]))
     let miss := pugged 1 [i 1] [] (some (stream 1 [] []))
     let out := pugged 1 [i 4] [] (some (stream 1 [] []))
     let tok := pugged 1 [{ i 0 with entry := tokenEntry 2 }] [] (some (stream 1 [] []))
     let bag := pugged 2 [{ i 0 with entry := tokenEntry 1 }] [] (some (stream 2 [] []))
     let done := { v with ctxs := [(5, { getCtx v 5 with reply := some (.value 1), sent := some 2 })] }
     let g : PageReq := { id := 3, part := 0, pasid := 0, who := .pug 0 0, pages := [(0x80004000, false)], sent := true }
     let pg := { pugged 1 [] [] (some { stream 1 [] [] with page := some (3, 1) }) with pages := [g] }
     steady o ∧ isHub o.cur = false ∧ (here o).reply = none ∧ (here o).sent = none ∧
     answers (operands [6, 7] (some 5) o) (fun l s1 => l == [0x400, 8] && isReadEnd s1 5 0 && !isLent s1 5 0 && isWriteEnd s1 5 1 && !isLent s1 5 1 &&
       answers (countedDesc 0x400 s1) fun x s2 => (x.any fun p => descOk p.2.1 && ringOk s2 5 (0, 0) p.2.1) && choosePug s2 0 false 0 == some 0 &&
         answers (beginAtomic .add false 0x420 4 1 0 false .ar .pkg s2) fun b s3 => (b.1 matches .done _) && s3.cur == s2.cur) = true ∧
     answers (countedDesc 0x400 bad) (fun x _ => x.any fun p => !descOk p.2.1) = true ∧ choosePug busy 0 false 0 = none ∧
     answers (countedDesc 0x400 (pugged 2 [] [] none)) (fun x s2 => x.any fun p => descOk p.2.1 && !ringOk s2 5 (0, 0) p.2.1) = true ∧
     getPug v 0 0 = some (stream 1 [dataEntry 7] []) ∧ pugDrained v 0 0 = false ∧ (pugPop v (stream 1 [] [])).isNone = true ∧
     (v.queues.any fun q => q.id == 2 && canPush v q 5 (dataEntry 7)) = true ∧ (pugPop hit (stream 1 [] [])).map (·.1) = some (dataEntry 1) ∧
     (match rowFor hit (stream 1 [] [(1, [0, 0, 0x80, 0x3F])]) 1 with | .hit _ => true | _ => false) = true ∧ lookupOf (tableDesc 1) 4 = (none, [0]) ∧
     (match engFetch miss (pugActor (stream 1 [] []) miss) 0x80004004 4 with | .ok (b, _, _) => b == [0, 0, 0x80, 0x3F] | _ => false) = true ∧
     pugStopped hit (stream 1 [] []) = false ∧ pugNeedsSlot hit (stream 1 [] []) = none ∧ pugNeedsSlot bag (stream 2 [] []) = none ∧
     (v.queues.all fun q => enginesSettled v (queueScope q) && !q.coil) = true ∧
     slotFree bag (stream 2 [] []) = true ∧ 1 ∈ namedRows miss (stream 1 [] []) ∧ 3 ∉ namedRows miss (stream 1 [] []) ∧
     goesTo (exec (.pugRowFetch 0 0 3) miss) miss = true ∧ modeOf (tableDesc 2) = 2 ∧ modeOf (tableDesc 0) = 0 ∧
     nextIs (exec (.pgOpen 5 6 7) o) (fun t => readX (here t) 5 == 0 && (endOf t 5 0).lent == some 0 && readByte t.spad 0x420 == 1) = true ∧
     (heldPug held 5).map (·.1) = some 0 ∧ (here held).reply = some (.value 0) ∧
     nextIs (exec (.pgOpen 5 9 7) o) (fun t => t.atomics.length == 1 && (getPug t 0 0).any fun x => x.held) = true ∧
     nextIs (exec (.pgOpen 5 6 7) held) (fun t => readX (here t) 5 == 0 && (endOf t 5 0).lent == some 0 && (here t).pc == 0x80000004) = true ∧
     nextIs (exec (.pgOpen 5 6 7) bad) (fun t => readX (here t) 5 == 0x11) = true ∧ nextIs (exec (.pgOpen 5 6 7) busy) (fun t => readX (here t) 5 == 0x10) = true ∧
     nextIs (exec (.pgOpen 5 6 7) (pugged 2 [] [] none)) (fun t => readX (here t) 5 == 0x12) = true ∧
     nextIs (exec (.pgOpen 5 6 6) o) (fun t => (here t).trapRec.any fun r => fieldOf r.w0 0 6 == 24) = true ∧
     nextIs (exec (.pgOpen 5 8 7) o) (fun t => (here t).trapRec.any fun r => fieldOf r.w0 0 6 == 4) = true ∧
     nextIs (exec (.pgStat 5 0) v) (fun t => readX (here t) 5 == 0x10000) = true ∧ nextIs (exec (.pgStat 5 0) o) (fun t => readX (here t) 5 == 0) = true ∧
     goesTo (exec (.pgClose 5 0) v) (parkCtx v (.pugClose 0)) = true ∧
     nextIs (exec (.pgClose 5 0) done) (fun t => (getPug t 0 0).isNone && (endOf t 5 1).lent.isNone) = true ∧
     nextIs (exec (.pugLookup 0 0) v) (fun t => (findQueue t 2).any fun q => q.items.map (·.entry) == [dataEntry 7]) = true ∧
     nextIs (exec (.pugLookup 0 0) hit) (fun t => (getPug t 0 0).any fun x => x.out == [dataEntry 0x3F800000]) = true ∧
     nextIs (exec (.pugLookup 0 0) out) (fun t => (getPug t 0 0).any fun x => x.out == [dataEntry 0x7FC00000] && x.code == 5 && x.errs == 1) = true ∧
     nextIs (exec (.pugLookup 0 0) tok) (fun t => (getPug t 0 0).any fun x => x.out == [tokenEntry 2]) = true ∧
     nextIs (exec (.pugRowFetch 0 0 1) miss) (fun t => (getPug t 0 0).any fun x => x.hot == [(1, [0, 0, 0x80, 0x3F])]) = true ∧
     nextIs (exec (.pugBagClose 0 0) bag) (fun t => (getPug t 0 0).any fun x => x.out == [dataEntry 0x8000, tokenEntry 1] && x.bag == 1) = true ∧
     nextIs (exec (.pugPageResponse 3 1) pg) (fun t => (getPug t 0 0).any fun x => x.page.isNone && x.badRow == some 1) = true) :=
  ⟨⟨rfl, rfl⟩, by decide +kernel⟩

/-! The supervisor, pages, copies, the host -/

/-- A selector: context, kind, index; from a hub core also the core. -/
def sel (ctx kind idx : Nat) : Word := word (ctx + kind * 16 + idx * 32)

/-- Context 0 and a hub core; targets that may be written and that may not; another context's bound register. -/
theorem meets_SupervisorReachesContexts :
    (let five := { ctxWith [(6, 42)] with status := .trapped }
     let z := { zero [(6, sel 5 0 6), (7, sel 5 0 32), (8, 0x123), (9, sel 0 0 6), (10, 3), (11, 0x00070009)] with
       ctxs := [(0, { ctxWith [(6, sel 5 0 6), (7, sel 5 0 32), (8, 0x123), (9, sel 0 0 6), (10, 3), (11, 0x00070009)] with sup := true }), (5, five)] }
     let r := { z with ctxs := z.ctxs.map fun e => (e.1, { e.2 with status := .ready }) }
     let h0 := hub [(6, word (5 + 6 * 32 + 2 ^ 30)), (7, word (5 + 6 * 32)), (8, 0x123), (9, 0)]
     let h := { h0 with ctxs := [(0, { ctxWith [] with status := .trapped, pc := 0x90000000 }), (5, five)] ++ h0.ctxs, hubs := [(0, { taken := [0], esc := [3] })] }
     let qd := { queued false [] 0 with cur := 0 }
     steady z ∧ steady h ∧ (here z).sup = true ∧ (here h).sup = true ∧ isHub z.cur = false ∧ isHub h.cur = true ∧
     selReaches z (sel 5 0 6) ∧ ¬ selReaches z (sel 0 0 6) ∧ selReaches h (word (5 + 6 * 32 + 2 ^ 30)) ∧ ¬ selReaches h (word (5 + 6 * 32)) ∧
     answers (operands [6] (some 5) z) (fun l s1 => l == [sel 5 0 6] && s1 == z) = true ∧ answers (operands [7, 8] none z) (fun l s1 => l.length == 2 && s1 == z) = true ∧
     (getCtx z 5).status = .trapped ∧ (getCtx z 4).status = .free ∧ xBound qd 5 24 = true ∧ xBound z 5 6 = false ∧
     (getCtx h 0).status = .trapped ∧ partOf h 0 = partOf h h.cur ∧
     nextIs (exec (.cxRd 5 6) z) (fun t => readX (here t) 5 == 42) = true ∧ nextIs (exec (.cxRd 5 7) z) (fun t => readX (here t) 5 == 0x80000000) = true ∧
     nextIs (exec (.cxRd 5 9) z) (fun t => (here t).scsr.scause == 26) = true ∧ nextIs (exec (.cxRd 5 6) h) (fun t => readX (here t) 5 == 42) = true ∧
     nextIs (exec (.cxRd 5 7) h) (fun t => readX (here t) 5 == 0) = true ∧
     nextIs (exec (.cxWr 7 8) z) (fun t => (getCtx t 5).pc == 0x120) = true ∧ nextIs (exec (.cxWr 7 8) r) (fun t => (getCtx t 5).pc == 0x80000000) = true ∧
     (match operands [10, 8] none { z with ctxs := (0, { ctxWith [(10, sel 5 1 2), (8, 3)] with sup := true }) :: z.ctxs } with
       | .ok (l, s1) => l == [sel 5 1 2, 3] && (userCsrAfter 2 (readItem s1 5 1 2) 3).isSome && (userCsrAfter 0xC00 0 3).isNone
       | _ => false) = true ∧
     nextIs (exec (.cxWr 10 10) { z with ctxs := (0, { ctxWith [(10, sel 5 1 2 + 0x4000000000000000)] with sup := true }) :: z.ctxs })
       (fun t => readItem t 5 1 2 == word ((sel 5 1 2).toNat % 8)) = true ∧
     nextIs (exec (.cxWr 6 8) { h with ctxs := (h.cur, { ctxWith [(6, word (16 + 0x142 * 32 + 2 ^ 30)), (8, 0x123)] with sup := true }) :: h.ctxs })
       (fun t => readItem t 0 1 0x142 == 0x123) = true ∧
     nextIs (exec (.ownSet 10 11) z) (fun t => (getCore t 0).owner == [(3, 0x00070009)]) = true ∧
     nextIs (exec (.ownGet 5 10) z) (fun t => readX (here t) 5 == 0x100000000) = true ∧
     nextIs (exec (.escRes 9) h) (fun t => (getCtx t 0).status == .ready && (getCtx t 0).pc == 0x90000000 && (getHub t 0).esc == [3] && (getHub t 0).taken == []) = true ∧
     nextIs (exec (.escRes 9) z) (fun t => (here t).scsr.scause == 2) = true) := by
  refine ⟨⟨rfl, rfl⟩, ⟨rfl, rfl⟩, by decide +kernel, by decide +kernel, by decide +kernel, by decide +kernel, ?_, ?_, ?_, ?_, by decide +kernel⟩
  · show if _ then _ else _; decide +kernel
  · show ¬ (if _ then _ else _); decide +kernel
  · show if _ then _ else _; decide +kernel
  · show ¬ (if _ then _ else _); decide +kernel

/-- Every operation of `pm.req`; a section without contexts that fits, that does not, and that belongs to an unfinished save; a save of one core. -/
theorem meets_InstancesAreMoved :
    (let ops (op : Nat) : Word := word (7 * 2 ^ 16 + op * 2 ^ 32)
     let l := [(6, ops 0), (7, ops 1), (8, ops 2), (9, ops 3), (10, 0x80006000), (11, 0x80006004), (12, 0x80006080), (13, 0x80006240)]
     let p : Preempt := { id := 1, part := 0, space := 0, inst := 7, area := 0x80006000, pdesc := 0x1000, cores := [0], saved := [], nextOff := 128,
                          state := 0, code := 0, groups := [], flush := false }
     let s0 := mapped (zero l)
     let m := { s0 with mem := writeCells s0.mem (cellsAt 0x80006080 (leBytes 8 (128 * 2 ^ 32)) ++ cellsAt 0x80006100 (leBytes 8 (128 * 2 ^ 32 + 1)) ++ cellsAt 0x80006240 (leBytes 8 (128 * 2 ^ 32))) }
     let w (n : Nat) := { m with preempts := [{ p with state := n, cores := if n = 0 then [0] else [] }] }
     let f := { m with preempts := [{ p with saved := [(0, 128)] }] }
     let d := { m with preempts := [{ p with cores := [] }] }
     let x := loadSection (sectionBytes { m with ctxs := m.ctxs ++ [(5, { ctxWith [] with record := some { rec1 with w5 := 7 * 2 ^ 48 } })] } p 0)
     steady m ∧ (here m).sup = true ∧ isHub m.cur = false ∧ (here m).sb = [] ∧
     answers (operands [6, 10] (some 5) m) (fun l s1 => l.length == 2 && s1 == m) = true ∧ findPreempt m 0 0 7 = none ∧ (findPreempt (w 1) 0 0 7).isSome = true ∧
     (0x80006004 : Word).toNat % 128 ≠ 0 ∧ unfinished f 0 x = true ∧ unfinished m 0 x = false ∧ (0x80006240 : Word).toNat % 128 ≠ 0 ∧
     (match saveWrite { w 2 with preempts := [{ p with state := 2, cores := [], flush := true }] } p 0 0x80006000 (headerBytes p 2 0) with | .ok _ => true | _ => false) = true ∧
     (match sectionAt m (actorOf m 0) 0x80006080 with
       | .ok (b, s2) => (loadSection b).ctxs.isEmpty && sectionCheck s2 0 (loadSection b) == 0 && loadCheck s2 0 0x80006080 (loadSection b) [] == 0
       | _ => false) = true ∧
     (match sectionAt m (actorOf m 0) 0x80006100 with | .ok (b, s2) => sectionCheck s2 0 (loadSection b) == 1 | _ => false) = true ∧
     (match sectionAt m (actorOf m 0) 0x80006080 with
       | .ok (b, s2) => (match restoreAll 0 (loadSection b).ctxs s2 with
         | .ok rs s3 => loadCheck s3 0 0x80006080 (loadSection b) rs == 0 &&
           (match ringsOf 0 rs (loadSection b).coils s3 with | .ok _ _ => true | _ => false)
         | _ => false)
       | _ => false) = true ∧
     instQuiet (w 0) p = true ∧ farWaits d p = false ∧ (d.preempts.map (·.flush)) = [false] ∧
     (match saveWrite (w 0) p 0 0x80006000 (headerBytes p 0 0) with
       | .ok s1 => (match saveWrite s1 p 0 0x80006080 (sectionBytes (w 0) p 0) with | .ok _ => true | _ => false)
       | _ => false) = true ∧
     nextIs (exec (.pmReq 5 9 10) m) (fun t => readX (here t) 5 == 4) = true ∧ nextIs (exec (.pmReq 5 8 10) m) (fun t => readX (here t) 5 == 1) = true ∧
     nextIs (exec (.pmReq 5 6 11) m) (fun t => readX (here t) 5 == 3) = true ∧
     nextIs (exec (.pmReq 5 6 10) m) (fun t => readX (here t) 5 == 0 && heldInst t 0 0 7) = true ∧
     nextIs (exec (.pmReq 5 8 10) (w 1)) (fun t => readX (here t) 5 == 5) = true ∧ nextIs (exec (.pmReq 5 6 10) (w 0)) (fun t => readX (here t) 5 == 2) = true ∧
     nextIs (exec (.pmReq 5 7 10) (w 1)) (fun t => readX (here t) 5 == 0 && t.preempts.isEmpty) = true ∧
     nextIs (exec (.pmLoad 5 12) m) (fun t => readX (here t) 5 == 0) = true ∧ nextIs (exec (.pmLoad 5 13) m) (fun t => readX (here t) 5 == 8) = true ∧
     nextIs (exec (.preemptSave 1 0) (w 0)) (fun t => t.preempts.map (fun x => (x.cores, x.saved, x.nextOff)) == [([], [(0, 128)], 256)]) = true ∧
     nextIs (exec (.preemptComplete 1) d) (fun t => t.preempts.map (·.state) == [1]) = true) :=
  ⟨⟨rfl, rfl⟩, by decide +kernel⟩

/-- A scout of 256 instructions; a group to send with the link up and down; an answer of each kind. -/
theorem meets_PagesAreRequested :
    (let sc : Scout := { pages := [(0x5000, false)], unknown := 0, count := 256, pc := 0x80000010, x := Vector.replicate 32 3, vec := {}, ucsr := {} }
     let s := only 5 { ctxWith [] with scout := some sc }
     let g : PageReq := { id := 3, part := 0, pasid := 0, who := .agent 5, pages := [(0x5000, false)], sent := false }
     let c := { ctxWith [] with status := .parked (.page 3), pageFault := some (.read, 0x5008, 0x13) }
     let q := { only 5 c with pages := [g], parts := [(0, { pageAlloc := 1 })] }
     let w := { only 5 c with pages := [{ g with sent := true }] }
     let d := { q with parts := [(0, { linkDown := true })] }
     (getCtx s 5).scout = some sc ∧ (q.pages.find? fun p => p.id == 3 && !p.sent) = some g ∧ pagesFit q g = true ∧ pagesFit { q with parts := [] } g = false ∧ (w.pages.find? fun p => p.id == 3 && p.sent) = some { g with sent := true } ∧
     (getCtx w 5).halted = none ∧ (getCtx w 5).stopping = none ∧ partition w 0 ∧
     nextIs (exec (.scoutStop 5) s) (fun t => (getCtx t 5).pc == 0x80000010 && t.pages.map (·.pages) == [[(0x5000, false)]]) = true ∧
     nextIs (exec (.pageRequestGroup 3) q) (fun t => t.pages.map (·.sent) == [true]) = true ∧
     nextIs (exec (.pageRequestGroup 3) d) (fun t => t.pages.isEmpty && (getPart t 0).prFailed) = true ∧
     nextIs (exec (.pageResponse 3 0) w) (fun t => (getCtx t 5).status == .parked (.page 3) && t.pages.isEmpty) = true ∧
     nextIs (exec (.pageResponse 3 1) w) (fun t => (getCtx t 5).trapRec.any fun r => fieldOf r.w0 0 6 == 13 && r.w2 == 0x5008) = true ∧
     nextIs (exec (.pageRequestReenable 0) { w with parts := [(0, { prFailed := true })] }) (fun t => !(getPart t 0).prFailed) = true) := by
  refine ⟨rfl, rfl, by decide +kernel, by decide +kernel, rfl, rfl, rfl, ⟨by decide, by decide +kernel⟩, by decide +kernel⟩

/-- A fill; a copy under a live lease and past it; the last acknowledgment and one before it; a sweep with and without an access under way. -/
theorem meets_CopiesAndSweeps :
    (let s := mem5 []
     let h : Nat := 2 ^ 46 + 2 ^ 34
     let w : Write := { id := 1, agent := 5, kind := .store, addr := 0x80000000, bytes := [(0x80000000, 1)], order := .rlx, scope := .sys, tags := [],
                        ea := 0, atHome := true, home := true, inv := [1], acks := [1] }
     let c (l : Nat) := { s with writes := [w], dies := [(1, { copies := [(0x1000000, 7)], leases := [(0x1000000, l)] })] }
     let k (a : List Nat) := { s with writes := [{ w with inv := [], acks := a }] }
     let x : Sweep := { id := 4, line := 9, pending := [0, 1] }
     let v := { s with sweeps := [x] }
     let f := { v with uio := [], ctxs := [(5, { ctxWith [] with sb := [{ bytes := [((false, 0x80000000), 1)], tags := [9] }] })] }
     unreachable s 5 (0x1000000 * 128) = false ∧ homeDie 0x1000000 = some (dieOf 5) ∧ tfind (getDie s 0).copies 0x1000000 = none ∧ s.writes = [] ∧ s.atomics = [] ∧
     readNeeds s 0x1000000 (halvesOf 0x1000000) = [] ∧ (c 9).clock < tget 0 (getDie (c 9) 1).leases 0x1000000 ∧ tget 0 (getDie (c 0) 1).leases 0x1000000 ≤ 0 ∧
     (∃ h ∈ halvesOf 0x1000000, tget 0 (getCore s 0).l1 h ≤ s.clock) ∧ inFlight f 0 9 = true ∧ inFlight v 0 9 = false ∧
     nextIs (exec (.readFill 5 0x1000000) s) (fun t => (getCore t 0).l1 == [(0x2000000, 256), (0x2000001, 256)]) = true ∧
     goesTo (exec (.remoteInvalidation 1 1) (c 9)) (c 9) = true ∧
     nextIs (exec (.remoteInvalidation 1 1) (c 0)) (fun t => (getDie t 1).copies.isEmpty && t.writes.map (·.inv) == [[]]) = true ∧
     nextIs (exec (.invalidationAck 1 1) (k [1])) (fun t => t.writes.isEmpty) = true ∧ nextIs (exec (.invalidationAck 1 1) (k [1, 2])) (fun t => t.writes.map (·.acks) == [[2]]) = true ∧
     nextIs (exec (.sweepAck 4 0) f) (fun t => t.sweeps == [x]) = true ∧ nextIs (exec (.sweepAck 4 0) v) (fun t => t.sweeps.map (·.pending) == [[1]]) = true ∧
     nextIs (exec (.sweepComplete 4) { v with sweeps := [{ x with pending := [] }] }) (fun t => t.sweeps.isEmpty) = true ∧
     nextIs (exec (.sweepComplete 4) { v with sweeps := [{ x with line := h / 2, pending := [] }], held := [(h, true)], snoops := [(h, .inv)] })
       (fun t => t.sweeps.isEmpty && t.snoops.isEmpty && t.held.isEmpty) = true) := by
  decide +kernel

/-! The host, interrupts, registers, resets, the debugger, the step -/

/-- A half of host memory: free, a source line, being swept; a grant that was asked for; a half given back; a request for device memory; the
link going down with a page request of a context under way. -/
theorem meets_HostHoldsHalves :
    (let h : Nat := 2 ^ 46 + 2 ^ 34
     let s := { mem5 [] with held := [(h, true)] }
     let i (kind : CxlReq) := { s with cxl := [(h, kind)], held := if kind = CxlReq.rdOwn then [] else [(h, true)] }
     let d := { mem5 [] with bisnp := [64], filter := [(64, true)] }
     let src := { s with dies := [(0, { walk := [h / 2] })] }
     let pk : List Byte := leBytes 8 0x2000 ++ leBytes 8 5 ++ leBytes 8 0 ++ [0, 1, 1] ++ List.replicate 5 0
     let y : Write := { id := 1, agent := 5, kind := .store, addr := 0x1000, bytes := [(0x1000, 1)], order := .rlx, scope := .sys, tags := [], ea := 0x1000,
                        atHome := true, home := false, inv := [], acks := [] }
     let g : PageReq := { id := 3, part := 0, pasid := 0, who := .agent 5, pages := [(0x5000, false)], sent := true }
     let w := { only 5 { ctxWith [] with status := .parked (.page 3), pageFault := some (.read, 0x5008, 0x13) } with pages := [g], cxl := [(h, .rdOwn)] }
     partition w 0 ∧ isHostHalf s h = true ∧ snooped s h = false ∧ (s.sweeps.any fun x => x.line == h / 2) = false ∧ isSource s (h / 2) = false ∧
     isSource src (h / 2) = true ∧ tfind (i .rdOwn).cxl h = some .rdOwn ∧ (tfind (i .dirtyEvict).held h).isSome = true ∧ d.bisnp.contains 64 = true ∧
     State.wf d = true ∧ hostNeeds { d with resets := [] } 64 = ([], false) ∧ homeDie 32 = some 0 ∧ partOfDie d 0 = 0 ∧ (getDie d 0).off = false ∧ quiet d 0 = [] ∧
     (getPart d (partOfDie d 0)).linkDown = false ∧ leaseOver d 32 = true ∧ sharers d 32 = [] ∧ hostNeeds d 64 = ([], false) ∧
     (∀ p ∈ w.pages, p.part = 0 → p.sent = true → p.who = .agent 5) ∧ s.hostReqs = [] ∧ peerPlace d 0 0x2000 8 = some 0x2000 ∧
     peerPlace d 0 (2 ^ 50) 8 = none ∧ readNeeds d (lineOf 0x2000) [128] = [] ∧ writeWaits d (lineOf 0x2000) = false ∧
     canWrite d (lineOf 0x2000) (halvesTouched (cellsAt 0x2000 [1, 2])) = true ∧ packetTaken pk = true ∧ packetTaken (pk.take 4) = false ∧
     (siteNeeds d engineAgent (packetOp pk) (locOfKey d 0x2000) 8 5 0).isNone = true ∧
     nextIs (exec (.hostCxlMemRequest 0 0x2000 (.uioRead 2)) d) (fun t => t.peerReplies == [(true, [0, 0])]) = true ∧
     nextIs (exec (.hostCxlMemRequest 0 0x2000 (.uioWrite [1, 2])) d) (fun t => t.peerReplies == [(true, [])] && readByte t.mem 0x2001 == 2) = true ∧
     nextIs (exec (.hostCxlMemRequest 0 0x2000 (.packet (pk.drop 8))) d) (fun t => t.peerReplies == [(true, leBytes 8 0)] && readByte t.mem 0x2000 == 5) = true ∧
     nextIs (exec (.hostSnoop h .inv) s) (fun t => t.held == []) = true ∧ nextIs (exec (.hostSnoop h .data) s) (fun t => t.held == [(h, false)]) = true ∧
     goesTo (exec (.hostSnoop h .cur) s) s = true ∧
     nextIs (exec (.hostSnoop h .inv) src) (fun t => t.held == [(h, true)] && t.snoops == [(h, .inv)] && t.sweeps.map (·.line) == [h / 2]) = true ∧
     nextIs (exec (.cxlCacheResponse h 0x1234) (i .rdOwn)) (fun t => t.cxl == [] && t.held == [(h, true)] && readByte t.mem (h * 64 + 1) == 0x12) = true ∧
     nextIs (exec (.cxlCacheResponse h 0x1234) (i .dirtyEvict)) (fun t => t.cxl == [] && t.held == [(h, false)] && t.mem == s.mem) = true ∧
     nextIs (exec (.bisnpResponse 64 none) d) (fun t => t.filter == []) = true ∧
     nextIs (exec (.bisnpResponse 64 (some 0x1234)) d) (fun t => t.filter == [] && readByte t.mem 0x1001 == 0x12) = true ∧
     nextIs (exec (.hostCxlMemRequest 0 64 (.cxl (some false) none)) { d with filter := [] }) (fun t => t.filter == [(64, false)]) = true ∧
     nextIs (exec (.hostCxlMemRequest 0 64 (.cxl none (some 7))) d) (fun t => t.filter == [] && readByte t.mem 0x1000 == 7) = true ∧
     goesTo (exec (.hostCxlMemRequest 0 64 (.cxl none (some 7))) { d with writes := [y] }) { d with writes := [y], hostReqs := [.mem (.cxl 64 none (some 7))] } = true ∧
     nextIs (exec (.hostLinkDown 0) w) (fun t => (getPart t 0).linkDown && t.cxl == [] && t.pages.isEmpty && (getCtx t 5).trapRec.isSome) = true) :=
  ⟨⟨by decide, by decide +kernel⟩, by decide +kernel⟩

/-- A trap record that fits and one that does not; an interrupt of context 0; one of a hub core, and an escalation; a timer that matches. -/
theorem meets_InterruptsAreDelivered :
    (let r : TrapRec := { ctx := 5, w0 := 1, w1 := 2, w2 := 3, w3 := 4 }
     let s := { user [] with cores := [(0, { waiting := [r] })] }
     let f := { user [] with cores := [(0, { waiting := [r], trapQ := List.replicate 61 (dataEntry 0) })] }
     let z := only 0 { ctxWith [] with sup := true, scsr := { sip := 0x20, sie := 0x22, stimecmp := 0, armed := true } }
     let h0 := only Config.contexts { ctxWith [] with sup := true, scsr := { sip := 0x40200, sie := 0x40000, sstatus := 2, stvec := 0x100 } }
     let h := { h0 with hubs := [(0, { esc := [7, 8] })] }
     let b := Config.contexts
     (getCore s 0).waiting = [r] ∧ (getCore s 0).trapQ.length ≤ 60 ∧ settled s (agentOf 0 r.ctx) .core = true ∧ 60 < (getCore f 0).trapQ.length ∧
     highestPending z 0 [1, 5, 9, 16, 17] 5 ∧ (getCore z 0).waiting = [] ∧ (getCore z 0).intr = 0 ∧ (getCore z 0).trapQ.length ≤ 60 ∧
     highestPending h b [1, 5, 9, 16, 17, 18] 18 ∧ (getCtx h b).sup = true ∧ bitOf (getCtx h b).scsr.sstatus 1 = true ∧ interruptible h b (getCtx h b) = true ∧
     hasSup 0 = true ∧ (getCtx z 0).scsr.armed = true ∧ (getCtx z 0).scsr.stimecmp.toNat ≤ timeOf z 0 ∧ 0 < Config.agents ∧
     nextIs (exec (.trapRecordPush 0) s) (fun t => (getCore t 0).trapQ == [dataEntry 1, dataEntry 2, dataEntry 3, dataEntry 4]) = true ∧
     goesTo (exec (.trapRecordPush 0) f) f = true ∧
     nextIs (exec (.interruptRecordPush 0) z) (fun t => (getCore t 0).trapQ == [dataEntry 69, dataEntry 0, dataEntry 0, dataEntry 0] && (getCore t 0).intr == 4) = true ∧
     nextIs (exec (.hubInterruptTaken 0) h) (fun t => (getCtx t b).pc == 0x100 && (getHub t 0).taken == [7] && bitOf (getCtx t b).scsr.sip 18) = true ∧
     nextIs (exec (.stimecmpMatch 0) z) (fun t => !(getCtx t 0).scsr.armed) = true ∧
     nextIs (exec (.doorbell 0 12) z) (fun t => (getCtx t 0).scsr.door == 12) = true ∧ nextIs (exec (.ssipWrite 0 2) z) (fun t => bitOf (getCtx t 0).scsr.sip 1) = true) := by
  refine ⟨rfl, by decide, by decide +kernel, by decide, ⟨by decide, rfl, by decide⟩, rfl, rfl, by decide, ⟨by decide, rfl, by decide⟩, rfl, rfl,
    by decide +kernel, rfl, rfl, by decide, by decide, by decide +kernel⟩

/-- A hub core with nothing under way writes `rqjob` and `rqen`; a job whose indices are handed out; one that is handing them out. -/
theorem meets_ReduceJobs :
    (let s0 := hub []
     let s := { s0 with hubs := [(0, { rqen := true })] }
     let b := { s with parts := [(0, { nblk := 3, nextBlk := 3, busy := true, tokens := [0] })] }
     let m := { s with parts := [(0, { nblk := 3, nextBlk := 1, busy := true, tokens := [0] })] }
     settled s Config.contexts .pkg = true ∧ (getPart s (partOf s Config.contexts)).busy = false ∧ (getPart b 0).busy = true ∧ partOf b Config.contexts = 0 ∧
     (getPart b 0).nextBlk = (getPart b 0).nblk ∧ (0 : Nat) ∈ (getPart b 0).tokens ∧ (getHub b 0).got = [] ∧ (getHub m 0).rqen = true ∧
     (getPart m 0).nextBlk < (getPart m 0).nblk ∧
     nextIs (exec (.rqjobWrite 0 3) s) (fun t => (getPart t 0).busy && (getPart t 0).tokens == [0]) = true ∧
     nextIs (exec (.rqenWrite 0 0) s) (fun t => !(getHub t 0).rqen) = true ∧ goesTo (exec (.rqenWrite 0 0) b) b = true ∧
     nextIs (exec (.reduceTokenDelivery 0) b) (fun t => (getHub t 0).got == [tokenEntry 7]) = true ∧ goesTo (exec (.reduceTokenDelivery 0) m) m = true ∧
     (match popEnd m Config.contexts 0 with | some (e, t) => e == dataEntry 1 && (getPart t 0).nextBlk == 2 | none => false) = true) := by
  decide +kernel

/-- Context 0 of core 0 before GO; values at the ends of their ranges; management registers. -/
theorem meets_RegisterWrites :
    (let s := zero []
     let u := { s with ctxs := s.ctxs ++ [(5, ctxWith [])] }
     let g := { s with parts := [(0, { go := true, port := { status := 1 } })], ptcfgReg := 0x10 }
     ctxNo 0 = 0 ∧ hasSup 0 = true ∧ usersFree s (partOf s 0) = true ∧ usersFree u (partOf u 0) = false ∧ (getCtx u 5).status ≠ .free ∧ (getCtx u 6).status = .free ∧
     bitOf s.ptcfgReg 4 = false ∧ bitOf g.ptcfgReg 4 = true ∧ (readUCsr u 5 0x801).isSome = true ∧ (readUCsr s 0 0x14D).isSome = false ∧ hasSCsr 0 0x14D = true ∧
     partition s 0 ∧ partition g 0 ∧ (getPart s 0).go = false ∧ (getPart g 0).go = true ∧ (0 : Nat) ∈ diesOf s 0 ∧ (getPart s 0).port.status ≠ 1 ∧
     (getPart g 0).port.status = 1 ∧
     nextIs (exec (.sspwinWrite 0 0x5000001) s) (fun t => (getPart t 0).spwin == 0x5000000) = true ∧ goesTo (exec (.sspwinWrite 0 0x5000001) u) u = true ∧
     nextIs (exec (.slscfgWrite 0 32) s) (fun t => (getDie t 0).lease == 32) = true ∧ goesTo (exec (.slscfgWrite 0 31) s) s = true ∧
     nextIs (exec (.slscfgWrite 0 4096) s) (fun t => (getDie t 0).lease == 4096) = true ∧ goesTo (exec (.slscfgWrite 0 4097) s) s = true ∧
     nextIs (exec (.drawdlyWrite 0 256) s) (fun t => (getPart t 0).drawdly == 256) = true ∧
     nextIs (exec (.scctlWrite 0 0x3FFF) s) (fun t => (getCore t 0).scctl == 0x3F01) = true ∧
     nextIs (exec (.holdWrite 0 2 0x10007) s) (fun t => holdOf t 0 2 == 7) = true ∧
     nextIs (exec (.walkFormatWrite 0 0 0x1E04) s) (fun t => (getPart t 0).wfmt == 0x1F04) = true ∧
     nextIs (exec (.stimecmpWrite 0 9) s) (fun t => (getCtx t 0).scsr.stimecmp == 9 && (getCtx t 0).scsr.armed) = true ∧
     nextIs (exec (.vseedWrite 5 0) u) (fun t => (getCtx t 5).ucsr.vseed == 1) = true ∧
     nextIs (exec (.ptcfgWrite 0x21) s) (fun t => t.ptcfg == 1 && t.ptcfgReg == 1) = true ∧
     nextIs (exec (.ptcfgWrite 0x21) { g with ptcfgReg := 0 }) (fun t => t.ptcfg == 0 && t.ptcfgReg == 1) = true ∧
     nextIs (exec (.registerWrite (.pageAlloc 0) 9) g) (fun t => (getPart t 0).pageAlloc == 9) = true ∧ goesTo (exec (.ptcfgWrite 0x21) g) g = true ∧
     nextIs (exec (.registerWrite (.csr 5 0x801) 6) u) (fun t => (getCtx t 5).ucsr.vseed == 6) = true ∧
     nextIs (exec (.registerWrite (.csr 0 0x14D) 6) s) (fun t => (getCtx t 0).scsr.stimecmp == 6) = true ∧
     goesTo (exec (.registerWrite (.csr 5 0x14D) 6) u) u = true ∧
     nextIs (exec (.registerWrite (.hdmBase 0) 0x10000001) s) (fun t => (getPart t 0).hdmBase == 0x10000000) = true ∧
     nextIs (exec (.registerWrite (.hdmBase 0) 0x10000001) g) (fun t => (getPart t 0).hdmBase == 0x10000000) = true ∧
     nextIs (exec (.registerWrite (.window 0 0x4000 64 1 3) 1) s) (fun t => (getPart t 0).windows == [⟨0x4000, 64, 1, 3⟩]) = true ∧
     nextIs (exec (.registerWrite (.window 0 0x4000 64 1 3) 1) g) (fun t => (getPart t 0).windows == [⟨0x4000, 64, 1, 3⟩]) = true ∧
     nextIs (exec (.registerWrite (.hubSpace 0) 3) s) (fun t => (getCtx t Config.contexts).space == 3) = true ∧
     nextIs (exec (.registerWrite (.remoteRegion 1) 8) s) (fun t => (getDie t 1).region == 8) = true ∧
     nextIs (exec (.registerWrite (.mgmt 0 0x200) 0x300020001) s) (fun t => (getDie t 0).corr == 1 && (getDie t 0).uncorr == 2 && (getDie t 0).lost == 3) = true ∧
     nextIs (exec (.registerWrite (.mgmt 0 0x100) 0x70000) s) (fun t => (getDie t 0).offdrop == 7) = true ∧
     nextIs (exec (.registerWrite (.mgmt 0 0x1008) 5) s) (fun t => (getPart t 0).port.staged.toList.getD 1 0 == 5) = true ∧
     nextIs (exec (.registerWrite (.mgmt 0 0x1008) 5) g) (fun t => getPart t 0 == getPart g 0) = true) := by
  refine ⟨rfl, rfl, by decide +kernel, by decide +kernel, by decide, rfl, rfl, rfl, rfl, rfl, rfl, ⟨by decide, by decide +kernel⟩,
    ⟨by decide, by decide +kernel⟩, by decide +kernel⟩

/-- A partition before and after GO; cores with no context, with one that can end, and with one that cannot. -/
theorem meets_CoresStart :
    (let s := { State.reset with parts := [(0, { rtentry := 0x4000 })], mem := [(5, 9), (4 * Config.dieBytes, 9)] }
     let g := { s with parts := [(0, { go := true })] }
     let u := user []
     let q := { u with ctxs := [(5, { ctxWith [] with sb := [{ bytes := [((false, 0x80000000), 1)], tags := [] }] })] }
     partition s 0 ∧ partition g 0 ∧ (getPart s 0).go = false ∧ (getPart g 0).go = true ∧ tfind s.ctxs 0 = none ∧ (getCore s 0).resetting = false ∧
     liveCtxs s 0 = [] ∧ endable s (agentOf 0 0) = true ∧ liveCtxs u 0 = [(5, ctxWith [])] ∧ endable u 5 = true ∧ pugNeeds u 5 = [] ∧
     (liveCtxs q 0).map (·.1) = [5] ∧ endable q 5 = false ∧
     nextIs (exec .coldReset s) (fun t => readByte t.mem 5 == 0 && readByte t.mem (4 * Config.dieBytes) == 9) = true ∧
     nextIs (exec (.runtimeGo 0) s) (fun t => (getPart t 0).go && (getCtx t 0).pc == 0x4000) = true ∧ goesTo (exec (.runtimeGo 0) g) g = true ∧
     nextIs (exec (.coreReset 0) s) (fun t => (getCtx t 0).status == .ready && (getCtx t 0).pc == 0x4000) = true ∧
     nextIs (exec (.coreReset 0) u) (fun t => (getCtx t 5).status == .free) = true ∧
     nextIs (exec (.coreReset 0) q) (fun t => (getCtx t 5).stopping == some 6 && (getCore t 0).resetting) = true) := by
  refine ⟨⟨by decide, by decide +kernel⟩, ⟨by decide, by decide +kernel⟩, by decide +kernel⟩

/-- A die that is ready, and one at every step of its warm reset. -/
theorem meets_DiesRestart :
    (let s := State.reset
     let r (n : Nat) : WarmReset := { die := 0, stepDone := n, mark := 1 }
     let w (n : Nat) := { s with resets := [r n] }
     let f := { w 2 with filter := [(64, false)] }
     let p := { w 1 with atomics := [{ id := 0, agent := 5, op := .add, pa := 0x80000000, size := 8, opnd := 1, expv := 0, order := .rlx, scope := .sys, packet := false }] }
     let z := { w 5 with sweeps := [{ id := 1, line := 9, pending := [0] }] }
     (getDie s 0).state = .ready ∧ warmOf s 0 = none ∧ (getDie { s with dies := [(0, { state := .offline })] } 0).state ≠ .ready ∧
     warmOf (w 0) 0 = some (r 0) ∧ step1Done (w 0) 0 = true ∧ step2Done (w 1) 0 1 = true ∧ step2Done p 0 1 = false ∧ homedOn 0 32 = true ∧
     (∃ x ∈ z.sweeps, homedOn 0 x.line = true) ∧
     nextIs (exec (.dieWarmReset 0) s) (fun t => (getDie t 0).state == .quiescing && (t.resets.map (·.stepDone)) == [0]) = true ∧
     nextIs (exec (.dieOffline 0) (w 0)) (fun t => (t.resets.map (·.stepDone)) == [1]) = true ∧ goesTo (exec (.dieOffline 0) p) p = true ∧
     nextIs (exec (.dieOffline 0) (w 1)) (fun t => (t.resets.map (·.stepDone)) == [2]) = true ∧
     nextIs (exec (.dieOffline 0) f) (fun t => (t.resets.map (·.stepDone)) == [2] && t.bisnp == [64]) = true ∧
     nextIs (exec (.dieOffline 0) (w 2)) (fun t => (t.resets.map (·.stepDone)) == [3]) = true ∧
     nextIs (exec (.dieOffline 0) (w 3)) (fun t => (t.resets.map (·.stepDone)) == [4]) = true ∧
     nextIs (exec (.dieOffline 0) (w 4)) (fun t => (getDie t 0).off) = true ∧ goesTo (exec (.dieRetrained 0) z) z = true ∧
     nextIs (exec (.dieRetrained 0) (w 5)) (fun t => (getDie t 0).state == .admitting) = true ∧
     nextIs (exec (.dieReady 0) (w 6)) (fun t => (getDie t 0).state == .ready && t.resets == []) = true) := by
  decide +kernel

/-- At the fourth step nothing waits for an access. -/
theorem meets_DiesRestart_quiet : nothingHeld { State.reset with resets := [{ die := 0, stepDone := 4, mark := 1 }] } :=
  ⟨fun _ => ⟨rfl, rfl, rfl⟩, by decide⟩

/-- Errors in a clean line, a modified line, memory, a scratchpad, a queue entry, contexts, a kiln and a pug. -/
theorem meets_PowerAndErrors :
    (let s := user []
     let z := zero []
     let m := { s with stale := [(9, 0x77)] }
     let b := { m with dies := [(0, { leases := [(9, 5)] })] }
     let q := queued false [{ pos := 0, owner := none, entry := dataEntry 7 }] 0
     let e := { user [] with ctxs := [(5, { ctxWith [] with sb := [{ bytes := [((false, 0x80000000), 1)], tags := [] }] })] }
     let k : Setting := { slot := 0, key := [], table := none, pins := [], stream := [], dom := 0, share := false, m := 0, members := [], deadline := 0, cls := 0, opened := 3, at_ := .staging 2 }
     let c := { s with clusters := [(0, { settings := [k] })] }
     let y := { s with cores := [(0, { handles := [dataEntry 7], trapQ := [dataEntry 8, dataEntry 9] })] }
     State.wf m = true ∧ homeDie 9 = some 0 ∧ lossDie m 9 = 0 ∧ tfind m.stale 9 = some 0x77 ∧ canWrite m 9 (halvesOf 9) = true ∧ canWrite b 9 (halvesOf 9) = false ∧
     tfind s.stale 9 = none ∧ canWrite s 9 (halvesOf 9) = true ∧ (findQueue q 1).isSome = true ∧ ctxNo 0 = 0 ∧ ctxNo 5 ≠ 0 ∧ endable s 5 = true ∧ pugNeeds s 5 = [] ∧
     (getCtx e 5).status ≠ .free ∧ endable e 5 = false ∧ m.lostLines = [] ∧ (getCore y 0).handles[0]? = some (dataEntry 7) ∧
     (getCore y 0).trapQ[1]? = some (dataEntry 9) ∧
     nextIs (exec (.eccUncorrectable (.handle 0 0)) y) (fun t => (getCore t 0).handles == [dataEntry 0]) = true ∧
     nextIs (exec (.eccUncorrectable (.trapEntry 0 1)) y) (fun t => (getCore t 0).trapQ == [dataEntry 8, dataEntry 0]) = true ∧
     nextIs (exec (.eccUncorrectable (.modifiedLine 9)) b) (fun t => t.lostLines == [(9, 0x77)] && (getDie t 0).uncorr == 1 && t.mem == b.mem) = true ∧
     (getCluster c 0).settings.find? (fun x => match x.at_ with | .staging i | .firing i _ => i == 2 | _ => false) = some k ∧
     nextIs (exec (.heatFluxLimit 0) s) (fun t => (getDie t 0).throttle == 1024) = true ∧ goesTo (exec (.powerEstimate 0 false) s) s = true ∧
     nextIs (exec (.eccCorrected 0) s) (fun t => (getDie t 0).corr == 1) = true ∧
     nextIs (exec (.eccUncorrectable (.modifiedLine 9)) m) (fun t => t.lossgen == 1 && readByte t.mem 1152 == 0x77) = true ∧
     nextIs (exec (.eccUncorrectable (.modifiedLine 9)) b) (fun t => t.lossgen == 0) = true ∧
     nextIs (exec (.eccUncorrectable (.hbmLine 9)) s) (fun t => t.lossgen == 1) = true ∧
     nextIs (exec (.eccUncorrectable (.scratchpad 9)) { s with spad := [(8, 1), (16, 1)] }) (fun t => t.spad == [(16, 1)]) = true ∧
     nextIs (exec (.eccUncorrectable (.queueEntry 1 0)) q) (fun t => t.queues.map (fun x => x.items.map (·.entry.payload)) == [[0]]) = true ∧
     nextIs (exec (.eccUncorrectable (.context 0)) z) (fun t => t.ctxs == z.ctxs && (getDie t 0).uncorr == 1) = true ∧
     nextIs (exec (.eccUncorrectable (.context 5)) s) (fun t => (getCtx t 5).status == .free) = true ∧
     nextIs (exec (.eccUncorrectable (.context 5)) e) (fun t => (getCtx t 5).stopping == some 6) = true ∧
     nextIs (exec (.eccUncorrectable (.kiln 0 2)) c) (fun t => (getCluster t 0).settings.isEmpty) = true) := by
  decide +kernel

/-- The launch port with a posted record of each kind; a context that the debugger halts, resumes, steps and writes. -/
theorem meets_HostPortAndDebugger :
    (let p (w : Word) (st : Nat) : Port := { status := st, staged := (Vector.replicate 8 0).set 4 w }
     let s (w : Word) (st : Nat) := { State.reset with parts := [(0, { port := p w st })] }
     let e := { State.reset with parts := [(0, { port := { p 0 1 with post := some 3 } })] }
     let d := { user [] with parts := [(0, { dbgsel := 5, dbgitem := 0x60 })] }
     let h := { d with ctxs := [(5, { ctxWith [] with halted := some .ready })] }
     let a := { d with ctxs := [(5, { ctxWith [] with reply := some (.value 1) })] }
     partition (s 0 0) 0 ∧ partition d 0 ∧ (recordOf (p 0 0).staged.toList).bad = false ∧ (0 : Nat) ∈ clustersOf (s 0 0) 0 ∧ clusterOnline (s 0 0) 0 = true ∧
     (getCtx d 5).status ≠ .free ∧ (getCtx d 5).halted = none ∧ awaitsReply d (getCtx d 5) = false ∧ awaitsReply a (getCtx a 5) = true ∧
     (getCtx h 5).halted.isSome = true ∧ xBound h 5 3 = false ∧ xBound (queued false [] 0) 5 24 = true ∧ ctxNo 5 ≠ 0 ∧ (readUCsr d 5 0x801).isSome = true ∧
     readUCsr d 5 0x7FF = none ∧
     nextIs (exec (.hlpost 0 1) (s 0 0)) (fun t => (getPart t 0).port.status == 1 && t.posts.length == 1) = true ∧
     nextIs (exec (.hlpost 0 1) (s 0 1)) (fun t => (getPart t 0).port.post.isSome && t.posts.length == 1) = true ∧
     goesTo (exec (.hlpost 0 1) e) e = true ∧ hasCredit (s 0 0) 0 = true ∧
     nextIs (exec (.halt 0) d) (fun t => (getCtx t 5).halted == some .ready) = true ∧ nextIs (exec (.halt 0) a) (fun t => (getCtx t 5).stepping) = true ∧
     nextIs (exec (.resume 0) h) (fun t => (getCtx t 5).halted.isNone) = true ∧ nextIs (exec (.step 0) h) (fun t => (getCtx t 5).stepping) = true ∧
     nextIs (exec (.dbgdataWrite 0 77) h) (fun t => (getCtx t 5).x == regs [(3, 77)]) = true) := by
  refine ⟨⟨by decide, by decide +kernel⟩, ⟨by decide, by decide +kernel⟩, by decide +kernel⟩

/-- The list of the one partition of four dies, and of a partition of one die. -/
theorem meets_CapabilityList :
    partition State.reset 0 ∧ 0x100 + 96 < 2 ^ 16 ∧ (capList State.reset 0 0x100).length = 18 ∧
    partition { State.reset with ptcfg := 0xF } 3 ∧ (capList { State.reset with ptcfg := 0xF } 3 0x100).getD 6 0 = word (3 + 2 ^ 8 + 2 ^ 17 + 8 * 2 ^ 24) := by
  refine ⟨⟨by decide, by decide +kernel⟩, by decide, by decide +kernel, ⟨by decide, by decide +kernel⟩, by decide +kernel⟩

/-- R135, R141: a word with an encoding. -/
theorem meets_EncodeThenDecode : wellFormed (.slli 7 24 6) = true ∧ encode (.slli 7 24 6) = some 0x006C1393 := by decide +kernel

/-- The next turn is an issue of context 0, whose pc holds `addi` or a word that decodes to nothing. -/
theorem meets_StepRunsDecoded :
    (let s (w : Nat) := State.reset.withFetchWord 32 w
     let t (w : Nat) := tick { s w with turns := [] } 4
     let c (w : Nat) := { t w with cur := 0 }
     (s 0x00128293).turns = [⟨4, .issue 0⟩] ∧ slotOpen (t 0x00128293) 0 = true ∧
     slotOpen { t 0x00128293 with cores := [(0, { slotAt := 9 })] } 0 = false ∧ laneHeld (c 0) 0 0x1000000 = false ∧ mayIssue (t 0x00128293) 0 = true ∧
     answers (fetchWord (c 0x00128293)) (fun w _ => w == 0x00128293) = true ∧ answers (fetchWord (c 0)) (fun w _ => w == 0) = true ∧
     (here (c 0)).pc.toNat % 4 = 0 ∧ canonical (here (c 0)).pc = true ∧ inWindow (c 0) 0 (here (c 0)).pc.toNat = false ∧
     answers (xlateA .fetch (here (c 0)).pc (here (c 0)).pc (c 0)) (fun p s3 => let l := (locate s3 0 p.1, p.2); l.1.cls == .hbm 0 && l.1.key % 4 == 0 && (readNeeds s3 (lineOf l.1.key) [l.1.key / 64]).isEmpty && !(getDie s3 0).off && !laneHeld s3 s3.cur (lineOf l.1.key) && (tfind (getCore s3 (coreOf s3.cur)).icache (l.1.key / 64)).isNone) = true ∧
     nextIs (step (s 0x00128293)) (fun u => (getCtx u 0).x == regs [(5, 1)] && (getCtx u 0).pc == 0x80000004 && u.clock == 4) = true ∧
     nextIs (step (s 0)) (fun u => (getCtx u 0).scsr.scause == 2) = true) := by
  decide +kernel

/-- The state after reset has the form, and a step answers. -/
theorem meets_StepKeepsMemoryForm :
    State.wf State.reset = true ∧ nextIs (step State.reset) (fun _ => true) = true ∧
    State.wf (State.reset.withFetchWord 32 0x00128293) = true ∧ nextIs (step (State.reset.withFetchWord 32 0x00128293)) (fun _ => true) = true := by
  decide +kernel

end Sys2Proof.Tests
end

section
/-! Integer instructions: what a context holds when an instruction has completed (R20, R183, R457), operands and results in ordinary registers
(R34, R37), and division (R168). -/

namespace Sys2Proof.Machine

open Sys2Proof.Claims

/-! The context after an instruction -/

@[simp] theorem countIssue_ctxs (s : State) (core src n : Nat) : (countIssue s core src n).ctxs = s.ctxs := by simp [countIssue]

/-- A context that the table lists is what is read. -/
theorem getCtx_of_tfind {s : State} {a : Nat} {c : Ctx} (h : tfind s.ctxs a = some c) : getCtx s a = c := by
  simp [getCtx, tget_eq_tfind, h]

/-- R20: setting when a context may issue again, where it has not become FREE. -/
theorem tfind_setReadyAt {s : State} {a : Nat} {c : Ctx} (h : tfind s.ctxs a = some c) (n : Nat) :
    tfind (if (getCtx s a).status = .free then s else modCtx s a fun c => { c with readyAt := n }).ctxs a =
      some { c with readyAt := if c.status = .free then c.readyAt else n } := by
  rw [getCtx_of_tfind h]
  split
  · exact h
  · rw [modCtx_ctxs, tfind_tset_self, getCtx_of_tfind h]

/-- R20, R21: taking an issue slot changes nothing of the issuing context `c` but the cycle at which it may issue again. -/
theorem getCtx_takeSlot {β : Type} (f : Ctx → β) (hf : ∀ c n, f { c with readyAt := n } = f c) (s : State) (c : Ctx) (rows cost : Nat) :
    f (getCtx (takeSlot (setCtx s s.cur c) rows cost) s.cur) = f c := by
  have hc : tfind (setCtx s s.cur c).ctxs s.cur = some c := tfind_tset_self _ _ _
  suffices ∃ n, tfind (takeSlot (setCtx s s.cur c) rows cost).ctxs s.cur = some { c with readyAt := n } by
    obtain ⟨n, hn⟩ := this
    rw [getCtx_of_tfind hn, hf]
  unfold takeSlot
  dsimp only
  split
  · exact ⟨c.readyAt, hc⟩
  · simp only [countIssue_ctxs, countDie_ctxs]
    exact ⟨_, tfind_setReadyAt (by exact hc) _⟩

/-- R183, R457: an instruction that context `c`, which is not FREE, retires is counted there, and may end a single step. -/
theorem getCtx_retire {β : Type} (f : Ctx → β) (hf : ∀ c n, f { c with readyAt := n } = f c) (s : State) {c : Ctx} (hc : c.status ≠ .free)
    (rows cost : Nat) :
    f (getCtx (retire (setCtx s s.cur c) rows cost) s.cur) = f (stepEnds { c with ucsr := { c.ucsr with instret := c.ucsr.instret + 1 } }) := by
  simp only [retire, setCtx_cur, getCtx_setCtx_self, beq_eq_false_iff_ne.mpr hc, Bool.false_eq_true, if_false]
  exact getCtx_takeSlot f hf (setCtx s s.cur c) _ rows cost

/-- R457: whether a stepped context halts again concerns none of the registers that a program reads. -/
@[simp] theorem stepEnds_x (c : Ctx) : (stepEnds c).x = c.x := apply_ite_same Ctx.x rfl rfl
@[simp] theorem stepEnds_pc (c : Ctx) : (stepEnds c).pc = c.pc := apply_ite_same Ctx.pc rfl rfl
@[simp] theorem stepEnds_ucsr (c : Ctx) : (stepEnds c).ucsr = c.ucsr := apply_ite_same Ctx.ucsr rfl rfl

/-- R9, R265: an instruction whose effect is `t` retires in a context that has given up its entries and has aged the producers of its pace. -/
theorem doneIn_eq_retire (i : Instr) (s : State) {t : State} (ht : (getCtx t t.cur).status ≠ .free) :
    ∃ c : Ctx, doneIn i s t = retire (setCtx t t.cur c) (issueRows (getCtx s s.cur) (footOf i)) (issueCost (getCtx s s.cur) (footOf i)) ∧
      c.status ≠ .free ∧ c.x = (getCtx t t.cur).x ∧ c.pc = (getCtx t t.cur).pc ∧ c.ucsr = (getCtx t t.cur).ucsr := by
  simp only [doneIn, completed, modCtx, if_neg ht]
  exact ⟨_, rfl, ht, rfl, rfl, rfl⟩

/-- R20, R183: what a program sees of its context after a completed instruction: the registers and the pc that its effect `t` left, and one
instruction more in the count. -/
theorem getCtx_doneIn (i : Instr) (s : State) {t : State} (ht : (getCtx t t.cur).status ≠ .free) :
    let c := getCtx t t.cur
    let c' := getCtx (doneIn i s t) t.cur
    c'.x = c.x ∧ c'.pc = c.pc ∧ c'.ucsr = { c.ucsr with instret := c.ucsr.instret + 1 } := by
  obtain ⟨c, hdone, hc, hx, hpc, hucsr⟩ := doneIn_eq_retire i s ht
  simp only [hdone, ← hx, ← hpc, ← hucsr]
  refine ⟨?_, ?_, ?_⟩
  · rw [getCtx_retire Ctx.x (fun _ _ => rfl) t hc, stepEnds_x]
  · rw [getCtx_retire Ctx.pc (fun _ _ => rfl) t hc, stepEnds_pc]
  · rw [getCtx_retire Ctx.ucsr (fun _ _ => rfl) t hc, stepEnds_ucsr]

/-- Contexts with the same x registers read alike. -/
theorem readX_congr {c c' : Ctx} (h : c'.x = c.x) (r : Reg) : readX c' r = readX c r := by simp only [readX, h]

/-- R34: a register other than x0 holds what was written to it. -/
theorem readX_writeX_self (c : Ctx) {rd : Reg} (v : Word) (h : rd ≠ 0) : readX (writeX c rd v) rd = v := by
  rw [readX, writeX, if_neg h, if_neg h]
  exact Vector.getElem_set_self _

@[simp] theorem writeX_pc (c : Ctx) (rd : Reg) (v : Word) : (writeX c rd v).pc = c.pc := apply_ite_same Ctx.pc rfl rfl
@[simp] theorem writeX_ucsr (c : Ctx) (rd : Reg) (v : Word) : (writeX c rd v).ucsr = c.ucsr := apply_ite_same Ctx.ucsr rfl rfl
@[simp] theorem writeX_status (c : Ctx) (rd : Reg) (v : Word) : (writeX c rd v).status = c.status := apply_ite_same Ctx.status rfl rfl

/-! Operands and results in ordinary registers -/

/-- R34: what is asked of the end that an ordinary register names has no answer, when an unbound end gives none. -/
theorem endNo_bind_ordinary {β : Type} {s : State} {r : Reg} {g : Nat → Option β} (h : ordinary s r)
    (hg : ∀ k, isBound s s.cur k = false → g k = none) : (endNo r).bind g = none := by
  cases he : endNo r with
  | none => rfl
  | some k => exact hg k (h k he)

/-- A fold that reads one value for each element, and leaves the state, collects the values in order. -/
theorem foldl_collect {α β σ : Type} {step : List β × σ → α → List β × σ} {f : α → β} {s : σ} (l : List α)
    (h : ∀ a ∈ l, ∀ acc, step (acc, s) a = (acc ++ [f a], s)) (acc : List β) : l.foldl step (acc, s) = (acc ++ l.map f, s) := by
  induction l generalizing acc with
  | nil => simp
  | cons a l ih =>
    rw [List.foldl_cons, h a List.mem_cons_self, ih fun b hb => h b (List.mem_cons_of_mem a hb)]
    simp

/-- R34, R37: operands in ordinary registers are at hand, and having them changes nothing. -/
theorem operands_ordinary {s : State} {srcs : List Reg} {rd : Option Reg} (hc : (here s).claim = none) (hs : ∀ r ∈ srcs, ordinary s r)
    (hd : ∀ r, rd = some r → ordinary s r) : operands srcs rd s = .ok (srcs.map (readX (here s)), s) := by
  have hbad : srcs.filterMap (badSource s s.cur) = [] := List.filterMap_eq_nil_iff.mpr fun r hr => badSource_ordinary (hs r hr)
  have hdest : rd.bind (badDest s s.cur) = none := Option.bind_eq_none_iff.mpr fun r hr => badDest_ordinary (hd r hr)
  unfold operands
  rw [here] at hc
  simp only [hc, hbad, hdest, endUses_ordinary hs, Option.toList_none, List.append_nil, List.head?_nil, List.find?_nil, List.any_nil,
    Bool.false_and, Bool.false_eq_true, if_false, List.findSome?_nil]
  rw [Option.bind_eq_none_iff.mpr fun r hr => endNo_bind_ordinary (hd r hr) fun k hk => by simp [isWriteEnd_unbound hk]]
  dsimp only
  rw [foldl_collect srcs (f := readX (here s)) fun r hr acc => by
    dsimp only; rw [endNo_bind_ordinary (hs r hr) fun k hk => by simp [isReadEnd_unbound hk]]; rfl]
  rfl

/-- R34: a result for an ordinary register is written to it. -/
theorem writeRd_ordinary {s : State} {rd : Reg} (v : Word) (h : ordinary s rd) :
    writeRd rd v s = .ok ((), withHere s fun c => writeX c rd v) := by
  rw [writeRd, endNo_bind_ordinary h fun k hk => by simp [isWriteEnd_unbound hk]]
  rfl

/-- R9, R167: an instruction of two register operands whose result can be written completes. -/
theorem perform_aluR {i : Instr} {rd rs1 rs2 : Reg} {f : Word → Word → Word} {s s1 s2 : State} {a b : Word} (hi : unheld i s)
    (ho : operands [rs1, rs2] (some rd) s = .ok ([a, b], s1)) (hw : writeRd rd (f a b) s1 = .ok ((), s2)) :
    perform i (aluR rd rs1 rs2 f) s = .next (doneIn i s (nextPc s2)) := by
  obtain ⟨hscout, hblocked⟩ := hi
  exact perform_ok hscout hblocked ((act_bind_ok (act_operand2 ho)).trans (act_finishRd hw))

/-- R34, R183: what a program sees of its context after an instruction whose effect is a value in rd. -/
theorem getCtx_doneIn_writeX (i : Instr) (rd : Reg) (v : Word) {s : State} (hs : (here s).status ≠ .free) :
    let c' := getCtx (doneIn i s (nextPc (withHere s fun c => writeX c rd v))) s.cur
    c'.x = (writeX (here s) rd v).x ∧ c'.pc = (here s).pc + 4 ∧ c'.ucsr = { (here s).ucsr with instret := (here s).ucsr.instret + 1 } := by
  have h := getCtx_doneIn i s (t := nextPc (withHere s fun c => writeX c rd v)) (by simpa [nextPc, withHere, here] using hs)
  simpa [nextPc, withHere, here] using h

/-! Division: the quotients and remainders of the model are those of R168's table -/

/-- `lo`, the most negative integer of `n` bits, stands for the same word as its opposite: the quotient of the overflow row. -/
theorem divS_eq_quotRem {n : Nat} {lo : Int} (hlo : BitVec.ofInt n (-lo) = BitVec.ofInt n lo) (a b : BitVec n) :
    divS a b = BitVec.ofInt n (quotRem a.toInt b.toInt lo).1 := by
  unfold divS quotRem
  by_cases hb : b = 0
  · simpa [hb] using BitVec.neg_one_eq_allOnes.symm.trans (BitVec.ofInt_neg (n := 1)).symm
  · have hb' : b.toInt ≠ 0 := by simpa using BitVec.toInt_ne.mpr hb
    have hq : a.sdiv b = BitVec.ofInt n (a.toInt.tdiv b.toInt) := BitVec.eq_of_toInt_eq (by rw [BitVec.toInt_sdiv, BitVec.toInt_ofInt])
    rw [if_neg hb, if_neg hb', hq]
    split
    · next h => rw [h.1, h.2, ← hlo]; simp
    · rfl

/-- In the overflow row the remainder is that of the exact quotient too, 0: no hypothesis on `lo` is needed. -/
theorem remS_eq_quotRem {n : Nat} (lo : Int) (a b : BitVec n) : remS a b = BitVec.ofInt n (quotRem a.toInt b.toInt lo).2 := by
  unfold remS quotRem
  by_cases hb : b = 0
  · simp [hb]
  · have hb' : b.toInt ≠ 0 := by simpa using BitVec.toInt_ne.mpr hb
    have hr : a.srem b = BitVec.ofInt n (a.toInt.tmod b.toInt) := by rw [← BitVec.toInt_srem, BitVec.ofInt_toInt]
    rw [if_neg hb, if_neg hb', hr, Int.tmod_def, Int.mul_comm]
    split
    · next h => rw [h.1, h.2]; simp
    · rfl

theorem divU_eq_quotRemU {n : Nat} (a b : BitVec n) : divU a b = BitVec.ofNat n (quotRemU a.toNat b.toNat (2 ^ n - 1)).1 := by
  unfold divU quotRemU
  by_cases hb : b = 0
  · exact BitVec.eq_of_toNat_eq (by simp [hb])
  · have hb' : b.toNat ≠ 0 := by simpa using BitVec.toNat_ne_iff_ne.mpr hb
    rw [if_neg hb, if_neg hb', ← BitVec.toNat_udiv, BitVec.ofNat_toNat, BitVec.setWidth_eq]

theorem remU_eq_quotRemU {n : Nat} (top : Nat) (a b : BitVec n) : remU a b = BitVec.ofNat n (quotRemU a.toNat b.toNat top).2 := by
  unfold remU quotRemU
  by_cases hb : b = 0
  · simp [hb]
  · have hb' : b.toNat ≠ 0 := by simpa using BitVec.toNat_ne_iff_ne.mpr hb
    have hr : a.toNat - a.toNat / b.toNat * b.toNat = (a % b).toNat := by rw [BitVec.toNat_umod, Nat.mod_eq_sub_div_mul]
    rw [if_neg hb, if_neg hb', hr, BitVec.ofNat_toNat, BitVec.setWidth_eq]

/-- The low 32 bits of an operand, as an unsigned number. -/
theorem toNat_low32 (v : Word) : (low32 v).toNat = lowNat v := BitVec.toNat_setWidth 32 v

theorem signExtend_ofNat_eq_sext32 (n : Nat) : (BitVec.ofNat 32 n).signExtend 64 = sext32 n := by rw [sext32, BitVec.ofInt_natCast]

/-- The meaning of an instruction depends on its result as a function only. -/
theorem perform_aluR_congr {f g : Word → Word → Word} (h : ∀ x y, f x y = g x y) (i : Instr) (rd rs1 rs2 : Reg) (s : State) :
    perform i (aluR rd rs1 rs2 f) s = perform i (aluR rd rs1 rs2 g) s := by rw [funext₂ h]

/-- R168: the eight division instructions are instructions of two register operands, with the results of the table. The divisor and the dividend
of a W form are the low 32 bits of the operands. -/
theorem exec_divisionOf {i : Instr} {rd rs1 rs2 : Reg} {f : Word → Word → Word} (h : divisionOf i = some (rd, rs1, rs2, f)) (s : State) :
    exec i s = perform i (aluR rd rs1 rs2 f) s := by
  unfold divisionOf at h
  split at h
  case h_9 => exact nomatch h
  all_goals
    obtain ⟨rfl, rfl, rfl, rfl⟩ : _ ∧ _ ∧ _ ∧ _ := by simpa only [Option.some.injEq, Prod.mk.injEq] using h
  case h_1 => exact perform_aluR_congr (fun x y => divS_eq_quotRem (by decide) x y) ..
  case h_2 => exact perform_aluR_congr (fun x y => remS_eq_quotRem _ x y) ..
  case h_3 => exact perform_aluR_congr (fun x y => divU_eq_quotRemU x y) ..
  case h_4 => exact perform_aluR_congr (fun x y => remU_eq_quotRemU _ x y) ..
  case h_5 => exact perform_aluR_congr (fun x y => congrArg (BitVec.signExtend 64) (divS_eq_quotRem (by decide) (low32 x) (low32 y))) ..
  case h_6 => exact perform_aluR_congr (fun x y => congrArg (BitVec.signExtend 64) (remS_eq_quotRem _ (low32 x) (low32 y))) ..
  case h_7 =>
    exact perform_aluR_congr (fun x y => by rw [divU_eq_quotRemU, toNat_low32, toNat_low32, signExtend_ofNat_eq_sext32]) ..
  case h_8 =>
    exact perform_aluR_congr (fun x y => by rw [remU_eq_quotRemU (2 ^ 32 - 1), toNat_low32, toNat_low32, signExtend_ofNat_eq_sext32]) ..

/-- Settles O6: each of the eight instructions is one of two register operands, with the result of R168's table for all values of them. -/
theorem divisionResults : Obligations.DivisionResults := by
  intro i rd rs1 rs2 f hdiv
  have completes (s s1 s2 : State) (a b : Word) (hi : unheld i s) (ho : operands [rs1, rs2] (some rd) s = .ok ([a, b], s1))
      (hw : writeRd rd (f a b) s1 = .ok ((), s2)) : exec i s = .next (doneIn i s (nextPc s2)) :=
    (exec_divisionOf hdiv s).trans (perform_aluR hi ho hw)
  refine ⟨completes, fun s t hi hclaim hready h1 h2 hd ht => ?_⟩
  have ho : operands [rs1, rs2] (some rd) s = .ok ([readX (here s) rs1, readX (here s) rs2], s) :=
    operands_ordinary hclaim (by simp [h1, h2]) (by simpa using hd)
  obtain rfl : doneIn i s _ = t := Host.Outcome.next.inj ((completes _ _ _ _ _ hi ho (writeRd_ordinary _ hd)).symm.trans ht)
  obtain ⟨hx, hpc, hucsr⟩ := getCtx_doneIn_writeX i rd (f (readX (here s) rs1) (readX (here s) rs2)) (s := s) (by simp [hready])
  exact ⟨fun h0 => (readX_congr hx rd).trans (readX_writeX_self _ _ h0), by rw [hucsr], hpc⟩

end Sys2Proof.Machine
end

section
/-! Instructions of the stage group: queue operations that leave what they read as it was (R34, R198), `q.tag` (R196), and the identity word of
`ctx.self` (R209). -/

namespace Sys2Proof.Machine

open Sys2Proof.Claims

/-! Live queues -/

/-- A live queue that is found has the number that was asked for. -/
theorem findQueue_id {s : State} {n : Nat} {q : Queue} (h : findQueue s n = some q) : q.id = n :=
  beq_iff_eq.mp (List.find?_some h :)

theorem findQueue_mem {s : State} {n : Nat} {q : Queue} (h : findQueue s n = some q) : q ∈ s.queues := List.mem_of_find?_eq_some h

/-- What is found after a live queue has been replaced: its replacement at its number, and elsewhere what was there. -/
theorem findQueue_setQueue (s : State) (q : Queue) (n : Nat) :
    findQueue (setQueue s q) n = (findQueue s n).map fun e => if e.id == q.id then q else e := by
  have hid (e : Queue) : (if e.id == q.id then q else e).id = e.id := by
    split
    · next h => exact (beq_iff_eq.mp h).symm
    · rfl
  simp only [findQueue, setQueue_queues, List.find?_map, Function.comp_def, hid]

/-- Replacing a live queue by itself changes no queue. -/
theorem findQueue_setQueue_found {s : State} {m : Nat} {q : Queue} (h : findQueue s m = some q) (n : Nat) :
    findQueue (setQueue s q) n = findQueue s n := by
  rw [findQueue_setQueue]
  cases hn : findQueue s n with
  | none => rfl
  | some e =>
    refine congrArg some (ite_eq_right_iff.mpr fun he => ?_)
    have hmn : m = n := (findQueue_id h).symm.trans ((beq_iff_eq.mp he).symm.trans (findQueue_id hn))
    exact Option.some.inj (h.symm.trans ((congrArg (findQueue s) hmn).trans hn))

/-- R47: a queue without bags has none to claim. -/
theorem claimBag_no_bag {q : Queue} (a : Nat) (h : q.bag = false) : claimBag q a = q := by simp [claimBag, h]

theorem endOf_setQueue (s : State) (q : Queue) (a k : Nat) : endOf (setQueue s q) a k = endOf s a k := by simp only [endOf, getCtx_setQueue]

theorem hwRead_setQueue (s : State) (q : Queue) (a k : Nat) : hwRead (setQueue s q) a k = hwRead s a k := by
  simp only [hwRead, getHub_setQueue]

/-- R34: an ordinary register stays one when a live queue changes. -/
theorem ordinary_setQueue {s : State} {r : Reg} (q : Queue) (h : ordinary s r) : ordinary (setQueue s q) r := by
  intro k hk
  simpa only [isBound, hwRead_setQueue, endOf_setQueue, setQueue_cur] using h k hk

/-! The head of a read end -/

/-- R429: the instruction is one of barrel cores, and a context executes it. -/
theorem act_barrelOnly (i : Instr) {s : State} (h : isHub s.cur = false) : barrelOnly i s = .ok ((), s) := by
  simp [barrelOnly, act_bind_ok (act_get s), h]

/-- R196, R322: a read end that is not lent may be inspected. -/
theorem act_needRead {k : BitVec 3} {s : State} (hr : isReadEnd s s.cur k.toNat = true) (hl : isLent s s.cur k.toNat = false) :
    needRead k s = .ok ((), s) := by
  simp [needRead, act_bind_ok (act_get s), hr, hl]

/-- R8, R34: an instruction without register sources whose destination is ordinary can be had, whether or not it holds operands already. -/
theorem operands_nil_ordinary {s : State} {rd : Reg} (h : ordinary s rd) : ∃ l, operands [] (some rd) s = .ok (l, s) := by
  cases hc : (here s).claim with
  | none => exact ⟨_, operands_ordinary hc (by simp) (by simpa using h)⟩
  | some t => exact ⟨t.vals, by rw [here] at hc; simp only [operands, hc]⟩

/-- R40, R196: the head of a read end, where its slot can be read now. -/
theorem act_headAt {k : BitVec 3} {s : State} (h : headAtHand s k.toNat) : headAt k s = .ok (headEntry s k.toNat, s) := by
  obtain ⟨hpop, hslot⟩ := h
  have hhead : headOf k s = .ok ((offered s s.cur k.toNat).head?, s) := by simp [headOf, act_bind_ok (act_get s), hpop]
  rw [headAt, act_bind_ok (act_get s), act_bind_ok hhead, headEntry]
  cases hoff : offered s s.cur k.toNat with
  | cons e l => rfl
  | nil =>
    cases hq : (endOf s s.cur k.toNat).queue.bind (findQueue s) with
    | none => simp [atOwner, hq]
    | some q =>
      cases hl : localItems q s.cur with
      | nil => simp [atOwner, hq, hl]
      | cons it l =>
        have hown : atOwner s k.toNat = some (q, it) := by simp [atOwner, hq, hl]
        simp [hown, hl, hslot hoff q it hown]

/-- R198: an inspection of the head changes nothing but the claims of the queue that it reads, which only a queue with bags has. -/
theorem act_inspect (k : BitVec 3) (s : State) : ∃ s1, inspect k s = .ok ((), s1) ∧
    (s1 = s ∨ ∃ n q, findQueue s n = some q ∧ s1 = setQueue s (claimBag q s.cur)) := by
  refine ⟨_, act_modify _ s, ?_⟩
  split
  · next q hq =>
    obtain ⟨n, -, hn⟩ := Option.bind_eq_some_iff.mp hq
    split
    · exact .inr ⟨n, q, hn, rfl⟩
    · exact .inl rfl
  · exact .inl rfl

/-- R34, R196: what a look at the head may leave: an ordinary register is one still, and memory, the context and every queue without bags are
as they were. -/
structure Looked (s s1 : State) : Prop where
  cur : s1.cur = s.cur
  mem : s1.mem = s.mem
  spad : s1.spad = s.spad
  ctx : getCtx s1 s.cur = here s
  ordinary : ∀ r, ordinary s r → ordinary s1 r
  queues : (∀ q ∈ s.queues, q.bag = false) → ∀ n, findQueue s1 n = findQueue s n

theorem Looked.refl (s : State) : Looked s s := ⟨rfl, rfl, rfl, rfl, fun _ h => h, fun _ _ => rfl⟩

theorem looked_claimBag {s : State} {n : Nat} {q : Queue} (h : findQueue s n = some q) : Looked s (setQueue s (claimBag q s.cur)) where
  cur := rfl
  mem := rfl
  spad := rfl
  ctx := getCtx_setQueue ..
  ordinary _ := ordinary_setQueue _
  queues hbag m := by rw [claimBag_no_bag _ (hbag q (findQueue_mem h)), findQueue_setQueue_found h]

theorem looked_inspect (k : BitVec 3) (s : State) : ∃ s1, inspect k s = .ok ((), s1) ∧ Looked s s1 := by
  obtain ⟨s1, hrun, rfl | ⟨n, q, hq, rfl⟩⟩ := act_inspect k s
  · exact ⟨_, hrun, .refl _⟩
  · exact ⟨_, hrun, looked_claimBag hq⟩

/-- R34: a result for an ordinary register ends an instruction. -/
theorem finishRd_ordinary {s : State} {rd : Reg} (v : Word) (h : ordinary s rd) :
    finishRd rd v s = .ok ((), nextPc (withHere s fun c => writeX c rd v)) := act_finishRd (writeRd_ordinary v h)

/-- R35: a tag as a register holds it. -/
theorem setWidth_tag (t : BitVec 4) : t.setWidth 64 = word t.toNat := (BitVec.ofNat_toNat 64 t).symm

/-- R196: what `q.tag` writes of a head or of none; only a head that is there is inspected. -/
def writeTag (rd : Reg) (k : BitVec 3) : Option Entry → Act Unit
  | none => finishRd rd 16
  | some e => do inspect k; finishRd rd (e.tag.setWidth 64)

/-- R196: the state of the head is written to an ordinary register. -/
theorem act_writeTag {rd : Reg} {s : State} (k : BitVec 3) (h : ordinary s rd) : ∃ s1, Looked s s1 ∧
    writeTag rd k (headEntry s k.toNat) s = .ok ((), nextPc (withHere s1 fun c => writeX c rd (headState s k.toNat))) := by
  rw [headState]
  cases headEntry s k.toNat with
  | none => exact ⟨s, .refl s, finishRd_ordinary 16 h⟩
  | some e =>
    obtain ⟨s1, hinspect, hlook⟩ := looked_inspect k s
    refine ⟨s1, hlook, (act_bind_ok hinspect).trans ?_⟩
    rw [setWidth_tag]
    exact finishRd_ordinary _ (hlook.ordinary rd h)

/-- R196: `q.tag` whose end may be inspected, and whose head can be read now, makes of the head what `writeTag` does. -/
theorem exec_qTag {rd : Reg} {k : BitVec 3} {s t : State} (hi : unheld (.qTag rd k) s) (hhub : isHub s.cur = false) (hrd : ordinary s rd)
    (hread : isReadEnd s s.cur k.toNat = true) (hlent : isLent s s.cur k.toNat = false) (hhead : headAtHand s k.toNat)
    (ht : writeTag rd k (headEntry s k.toNat) s = .ok ((), t)) : exec (.qTag rd k) s = .next (doneIn (.qTag rd k) s t) := by
  obtain ⟨hscout, hblocked⟩ := hi
  obtain ⟨vals, hops⟩ := operands_nil_ordinary hrd
  refine perform_ok hscout hblocked ?_
  rw [act_bind_ok (act_barrelOnly _ hhub), act_bind_ok (act_needRead hread hlent), act_bind_ok hops, act_bind_ok (act_headAt hhead), ← ht]
  cases headEntry s k.toNat <;> rfl

/-- Settles O21: nothing that `q.tag` asks for parks or waits, and an inspection of the head leaves memory, the context and queues without bags
as they were. -/
theorem qTagReturnsHeadState : Obligations.QTagReturnsHeadState := by
  intro rd k s hi hhub hrd hread hlent hhead
  obtain ⟨s1, hlook, hrun⟩ := act_writeTag k hrd
  exact ⟨s1, exec_qTag hi hhub hrd hread hlent hhead hrun, hlook.mem, hlook.spad, hlook.ctx, hlook.queues⟩

/-! The identity word -/

/-- A field of a word that holds a number of 64 bits. -/
theorem fieldOf_word {n : Nat} (h : n < 2 ^ 64) (lo w : Nat) : fieldOf (word n) lo w = n / 2 ^ lo % 2 ^ w := by
  rw [fieldOf, nbits, word, BitVec.toNat_ofNat, Nat.mod_eq_of_lt h]

/-- A bit of a word that holds a number of 64 bits. -/
theorem bitOf_word {n i : Nat} {b : Bool} (h : n < 2 ^ 64) (hb : n / 2 ^ i % 2 = b.toNat) : bitOf (word n) i = b := by
  rw [bitOf, word, ← BitVec.testBit_toNat, BitVec.toNat_ofNat, Nat.mod_eq_of_lt h, Nat.testBit_eq_decide_div_mod_eq, hb]
  cases b <;> rfl

theorem fieldOf_lt (w : Word) (lo n : Nat) : fieldOf w lo n < 2 ^ n := Nat.mod_lt _ (Nat.two_pow_pos n)

/-- R209: the bits that a record adds to the identity of the context started from it: 35 bits, none without a record. -/
def recordBits : Option LRec → Nat
  | some r => r.prio + r.draw * 2 ^ 3 + r.stageNo * 2 ^ 9 + r.kind * 2 ^ 17 + r.inst * 2 ^ 19
  | none => 0

/-- R50, R209: the fields of a record lie side by side in its 35 bits. -/
theorem recordBits_fields (r : LRec) : recordBits (some r) < 2 ^ 35 ∧ recordBits (some r) % 2 ^ 3 = r.prio ∧
    recordBits (some r) / 2 ^ 3 % 2 ^ 6 = r.draw ∧ recordBits (some r) / 2 ^ 9 % 2 ^ 8 = r.stageNo ∧
    recordBits (some r) / 2 ^ 17 % 2 ^ 2 = r.kind ∧ recordBits (some r) / 2 ^ 19 % 2 ^ 16 = r.inst := by
  have hprio : r.prio < 2 ^ 3 := fieldOf_lt ..
  have hdraw : r.draw < 2 ^ 6 := fieldOf_lt ..
  have hstage : r.stageNo < 2 ^ 8 := fieldOf_lt ..
  have hkind : r.kind < 2 ^ 2 := fieldOf_lt ..
  have hinst : r.inst < 2 ^ 16 := fieldOf_lt ..
  simp only [recordBits]
  omega

theorem recordBits_lt (o : Option LRec) : recordBits o < 2 ^ 35 := by
  cases o with
  | none => exact Nat.two_pow_pos 35
  | some r => exact (recordBits_fields r).1

/-- The mode bit of an identity word. -/
theorem sup_bit (b : Bool) : (if b = true then 2 ^ 17 else 0) = b.toNat * 2 ^ 17 := by cases b <;> rfl

/-- R209: the identity of a context: its index, its mode, and the bits of its record. -/
theorem identity_context {s : State} {a : Nat} (h : isHub a = false) :
    identity s a = word (a + (getCtx s a).sup.toNat * 2 ^ 17 + recordBits (getCtx s a).record * 2 ^ 18) := by
  simp only [identity, h, Bool.false_eq_true, if_false, sup_bit]
  cases (getCtx s a).record with
  | none => exact congrArg word (by rw [recordBits]; omega)
  | some r => exact congrArg word (by rw [recordBits]; omega)

/-- R209: the identity of a hub core: its number, its mode, and HUB. -/
theorem identity_hub {s : State} {a : Nat} (h : isHub a = true) :
    identity s a = word (a - Config.contexts + (getCtx s a).sup.toNat * 2 ^ 17 + 2 ^ 63) := by
  simp only [identity, h, if_true, sup_bit]

/-- R209: `ctx.self` completes with the identity of its agent, on a hub core too. -/
theorem exec_ctxSelf {rd : Reg} {s s1 : State} {l : List Word} (hs : steady s) (ho : operands [] (some rd) s = .ok (l, s))
    (hw : writeRd rd (identity s s.cur) s = .ok ((), s1)) : exec (.ctxSelf rd) s = .next (doneIn (.ctxSelf rd) s (nextPc s1)) := by
  obtain ⟨hscout, hout⟩ := hs
  refine perform_ok hscout (by simp [blocked, hout]) ?_
  rw [act_bind_ok ho, act_bind_ok (act_get s)]
  exact act_finishRd hw

/-- Settles O27: the word is `identity`, whose parts lie side by side. -/
theorem contextIdentity : Obligations.ContextIdentity := by
  intro rd s hs hcur ho
  refine ⟨identity s s.cur, fun s1 => exec_ctxSelf hs ho, fun hctx => ?_, fun hhub => ?_⟩
  · have ha : s.cur < 2 ^ 17 := Nat.not_le.mp (of_decide_eq_false hctx)
    have hsup := Bool.toNat_le (here s).sup
    have hrec := recordBits_lt (here s).record
    rw [identity_context hctx, ← here]
    generalize hn : s.cur + (here s).sup.toNat * 2 ^ 17 + recordBits (here s).record * 2 ^ 18 = n
    have hlt : n < 2 ^ 64 := by omega
    simp only [fieldOf_word hlt, ctxNo, coreOf, clusterOf, dieOf, hctx, Bool.false_eq_true, if_false]
    refine ⟨by omega, by omega, by omega, by omega, by omega, bitOf_word hlt (by omega), by omega,
      bitOf_word hlt (by simp only [Bool.toNat_false]; omega), fun r hr => ?_, fun hr => ?_⟩
    · obtain ⟨-, hprio, hdraw, hstage, hkind, hinst⟩ := recordBits_fields r
      rw [hr] at hn
      omega
    · rw [hr, recordBits] at hn
      omega
  · have ha : s.cur - Config.contexts < 2 ^ 6 := by simp only [Config.agents, Config.contexts] at hcur ⊢; omega
    have hsup := Bool.toNat_le (here s).sup
    rw [identity_hub hhub, ← here]
    generalize hn : s.cur - Config.contexts + (here s).sup.toNat * 2 ^ 17 + 2 ^ 63 = n
    have hlt : n < 2 ^ 64 := by omega
    simp only [fieldOf_word hlt]
    exact ⟨by omega, by omega, bitOf_word hlt (by omega), by omega, bitOf_word hlt (by simp only [Bool.toNat_true]; omega)⟩

end Sys2Proof.Machine
end
